-- ==== Sys2Proof/Word.lean ====
section
/-! DEFINITION. The plainest words of the model: copy characters, texts, and the numbers of lines and circuits. -/

namespace Sys2Proof

/-- A copy character, held as its code, 1 to 49 (R1).  Code 0 belongs to no copy character: a circuit sender
uses it for the rule mark, which is never stored (R4). -/
abbrev Chr := Nat

/-- A run of copy characters. -/
abbrev Text := List Chr

/-- Lines are numbered 0 to 7. -/
abbrev LineNo := Fin 8

/-- Circuits are numbered 0 to 7. -/
abbrev CircNo := Fin 8

/-- Code of the space (R1). -/
abbrev spaceChr : Chr := 1

/-- Code of the line end (R1). -/
abbrev lineEndChr : Chr := 48

/-- Code of SUB, the substitute character (R1, R3). -/
abbrev subChr : Chr := 49

/-- The rule mark "=" of trailers, break lines and kill lines, which has no copy code (R4). -/
abbrev ruleMark : Chr := 0

end Sys2Proof
end

