-- ==== Sys2Proof/Syntax.lean ====
section
/-! DEFINITION. The commands of the part: one constructor for each row of spec/opcode_table.json.

Events name the line or the circuit on which they fall.  Orders carry their values as they are typed: a number that a
desk may type out of range is a `Nat`, because the part answers such an order with a reason word (R175). -/

namespace Sys2Proof

/-- The two levels of a signal (R6). -/
inductive Level where
  | mark
  | space
  deriving DecidableEq, Repr

/-- The two line codes (R6). -/
inductive LineCode where
  | five
  | seven
  deriving DecidableEq, Repr

/-- The modes of a dispatch queue (R95). -/
inductive QueueMode where
  | priority
  | rotation
  deriving DecidableEq, Repr

/-- How an entry treats a NEAR_REPEAT verdict (R79). -/
inductive RepeatMode where
  | send
  | mark
  | suppress
  deriving DecidableEq, Repr

/-- The eleven alarm flags, in the order of Table 11 (R188). -/
inductive Flag where
  | lineOpen
  | headingFault
  | runOn
  | storeFull
  | tableFull
  | queueFull
  | displaced
  | congested
  | lapsed
  | stall
  | orderFault
  deriving DecidableEq, Repr

/-- The flags that an ALARM order names: ALL, or a list of names as typed (R192). -/
inductive FlagPick where
  | all
  | names (fs : List Flag)
  deriving DecidableEq, Repr

/-- The commands of the part. -/
inductive Instr where
  /-- POWER_UP: power is applied, or RESETn released, with the straps UA0–UA3 reading `ua` and DR0–DR1 reading `dr`. -/
  | powerUp (ua : Fin 16) (dr : Fin 4)
  /-- RESETN_LOW -/
  | resetnLow
  /-- FRAME_RECEIVED: the frame on line `l` whose data units sampled to `data` (least significant first; five of
  them on a FIVE line), whose parity unit sampled to `parity` (SEVEN only) and whose stop sample is `stop`. -/
  | frameReceived (l : LineNo) (data : BitVec 7) (parity stop : Level)
  /-- SPACE_TIMER_EXPIRY -/
  | spaceTimerExpiry (l : LineNo)
  /-- RETURN_TO_MARK -/
  | returnToMark (l : LineNo)
  /-- FRAME_SENT -/
  | frameSent (c : CircNo)
  /-- STALL_TIMER_EXPIRY -/
  | stallTimerExpiry (c : CircNo)
  /-- LAPSE: the first entry in the queue order of `c` that is past its age limit. -/
  | lapse (c : CircNo)
  /-- LINE n RATE=baud -/
  | lineRate (n baud : Nat)
  /-- LINE n CODE=code -/
  | lineCode (n : Nat) (code : LineCode)
  /-- LINE n OPEN=seconds -/
  | lineOpenTime (n seconds : Nat)
  /-- LINE n SHIFT=ON/OFF -/
  | lineShift (n : Nat) (on : Bool)
  /-- LINE n DESK=ON/OFF -/
  | lineDesk (n : Nat) (on : Bool)
  /-- LINE n BEGIN=letters -/
  | lineBegin (n : Nat) (letters : Text)
  /-- LINE n END=letters -/
  | lineEnd (n : Nat) (letters : Text)
  /-- LINE n RELEASE=length -/
  | lineRelease (n length : Nat)
  /-- LINE n PARK=ON/OFF -/
  | linePark (n : Nat) (on : Bool)
  /-- CIRC n RATE=baud -/
  | circRate (n baud : Nat)
  /-- CIRC n CODE=code -/
  | circCode (n : Nat) (code : LineCode)
  /-- CIRC n WIDTH=columns -/
  | circWidth (n columns : Nat)
  /-- CIRC n MARGIN=columns -/
  | circMargin (n columns : Nat)
  /-- CIRC n FILL=fills -/
  | circFill (n fills : Nat)
  /-- CIRC n UNSHIFT=ON/OFF -/
  | circUnshift (n : Nat) (on : Bool)
  /-- CIRC n MODE=mode -/
  | circMode (n : Nat) (mode : QueueMode)
  /-- CIRC n PREEMPT=threshold -/
  | circPreempt (n threshold : Nat)
  /-- CIRC n QUANTUM=lines -/
  | circQuantum (n lines : Nat)
  /-- CIRC n STALL=seconds -/
  | circStall (n seconds : Nat)
  /-- CIRC n AGEk=minutes, where `k` is 0 for AGE1 to 4 for AGE5. -/
  | circAge (n : Nat) (k : Fin 5) (minutes : Nat)
  /-- CIRC n LOADON=characters -/
  | circLoadon (n characters : Nat)
  /-- CIRC n CONGON=characters -/
  | circCongon (n characters : Nat)
  /-- CIRC n HYST=characters -/
  | circHyst (n characters : Nat)
  /-- ROUTE line category set with options; `none` for the line or the category is ANY, the empty set is NONE. -/
  | route (line : Option Nat) (category : Option Text) (set : List Nat) (cls alt : Option Nat)
      (mode : Option RepeatMode)
  /-- UNROUTE line category -/
  | unroute (line : Option Nat) (category : Option Text)
  /-- COPYBANK -/
  | copybank
  /-- ENACT -/
  | enact
  /-- HOLD n -/
  | hold (n : Nat)
  /-- FREE n -/
  | free (n : Nat)
  /-- PURGE n or PURGE ALL (`none`), with an optional slug. -/
  | purge (n : Option Nat) (slug : Option Text)
  /-- SHOW n -/
  | showCirc (n : Nat)
  /-- SHOW LINE n -/
  | showLine (n : Nat)
  /-- TALLY -/
  | tally
  /-- TALLY ZERO -/
  | tallyZero
  /-- ALARM alone -/
  | alarm
  /-- ALARM CLEAR flags -/
  | alarmClear (flags : FlagPick)
  /-- ALARM MASK flags ON/OFF -/
  | alarmMask (flags : FlagPick) (on : Bool)
  /-- ALARM NOTICE flags ON/OFF -/
  | alarmNotice (flags : FlagPick) (on : Bool)
  /-- REPEAT alone -/
  | repeatShow
  /-- REPEAT t -/
  | repeatSet (t : Nat)
  /-- DESK n -/
  | desk (n : Nat)
  /-- UNIT xx -/
  | unit (letters : Text)
  /-- An order line, given as its characters, whose verb is not known. -/
  | unknownVerb (line : Text)
  /-- RESTART WARM -/
  | restartWarm
  /-- RESTART COLD -/
  | restartCold
  /-- LEADING_EDGE -/
  | leadingEdge (l : LineNo)
  /-- NOISE_CHECK -/
  | noiseCheck (l : LineNo)
  /-- CHANGE_BACK_TO_MARK -/
  | changeBackToMark (l : LineNo)
  /-- PART_CLOCK_TICK -/
  | partClockTick
  deriving DecidableEq, Repr

end Sys2Proof
end

