-- ==== Sys2Proof/Decode.lean ====
section
/-! DEFINITION. Command words.  The part has no command words: no row of spec/opcode_table.json gives bits, because orders
are typed as text and every other command is an event on a pin, a circuit or a timer. -/

namespace Sys2Proof

/-- The command that a word spells by the table's bits: none, as the table gives none. -/
def decodeTableWord (_nbits _w : Nat) : Option Instr := none

end Sys2Proof
end

