-- ==== Sys2Proof/Config.lean ====
section
/-! DEFINITION. The sizes and limits that the manual fixes for the part.  The manual leaves no value of the part
undefined, so there is no free value here. -/

namespace Sys2Proof.Config

/-- Blocks of the copy store (R58). -/
abbrev storeBlocks : Nat := 2048
/-- Copy characters in one block (R58). -/
abbrev blockSize : Nat := 32
/-- The most blocks that agency items may hold (R59). -/
abbrev agencyBlockLimit : Nat := 2000
/-- Descriptors of the item table (R61). -/
abbrev tableSize : Nat := 256
/-- The most descriptors that agency items may hold (R62). -/
abbrev agencyItemLimit : Nat := 248
/-- The value at which the part clock stays (R63). -/
abbrev clockMax : Nat := 4294967295
/-- The value at which every tally stays (R31, R82, R118, R143, R155, R170, R194). -/
abbrev tallyMax : Nat := 9999999
/-- Characters of a heading buffer (R38). -/
abbrev headingSize : Nat := 80
/-- Lines of the order buffer and characters of one order line (R54). -/
abbrev orderLines : Nat := 24
abbrev orderWidth : Nat := 80
/-- Signatures of one item (R49). -/
abbrev signedLines : Nat := 48
/-- Length to which a slug is cut (R41). -/
abbrev slugSize : Nat := 12
/-- Entries of one bank (R78). -/
abbrev bankSize : Nat := 64
/-- Entries of one dispatch queue (R96). -/
abbrev queueSize : Nat := 32
/-- The cap on an estimate (R144). -/
abbrev estimateMax : Nat := 65535
/-- Entries of the slug history (R164). -/
abbrev historySize : Nat := 64
/-- The cap on an answer body, and on the lines kept before TRUNCATED (R71). -/
abbrev answerMax : Nat := 1536
abbrev answerKept : Nat := 1526

end Sys2Proof.Config
end

