-- ==== Sys2Proof/Machine/Part.lean ====
section
/-! DEFINITION. What the part holds, block by block, as plain data (the eleven blocks of 00_scope.md, Table 1). -/

namespace Sys2Proof.Machine

/-! ### Line receivers (chapter 2) -/

/-- The six rates of R14. -/
inductive Rate where
  | b50
  | b75
  | b100
  | b150
  | b200
  | b300
  deriving DecidableEq, Repr

/-- The shift of a five-unit line or printer, and equally the case class that needs it (R2, R19, R124). -/
inductive Shift where
  | letters
  | figures
  deriving DecidableEq, Repr

/-- Line conditions (Table 2-3); `opened` is OPEN. -/
inductive LineCond where
  | ready
  | opened
  | parked
  deriving DecidableEq, Repr

/-- Where a receiver stands in the reading of a frame (R16). -/
inductive RxPhase where
  /-- hunting: the next change from mark to space is a leading edge -/
  | hunting
  /-- half a unit after a leading edge has yet to pass -/
  | noiseCheck
  /-- a frame is in progress -/
  | frame
  /-- the line must return to mark before the receiver hunts -/
  | waitMark
  deriving DecidableEq, Repr

/-- One line receiver, with its RX pin (R15, R16, R19, R21, R22).  The parked parameter is the condition PARKED. -/
structure Receiver where
  rate : Rate
  code : LineCode
  openTime : Nat
  unshift : Bool
  desk : Bool
  cond : LineCond
  phase : RxPhase
  pin : Level
  shift : Shift
  pendingCR : Bool
  /-- whole seconds counted by the space timer; `none` while it is stopped (R22) -/
  spaceTimer : Option Nat
  deriving DecidableEq, Repr

/-! ### Item framers (chapter 3) -/

/-- Framer states (Table 3-2). -/
inductive FramerState where
  | hunt
  | heading
  | body
  | order
  | discard
  deriving DecidableEq, Repr

/-- One item framer (R32, R33, R34, R38, R48, R49). -/
structure Framer where
  opening : Text
  closing : Text
  release : Nat
  state : FramerState
  held : Text
  heading : Text
  /-- the heading start flag (R38) -/
  headStart : Bool
  /-- the descriptor of the item being received, in BODY -/
  item : Option Nat
  /-- the sum of the line being signed and the position reached in it (R49) -/
  sum : Nat
  pos : Nat
  /-- the reference class of the case-change count (R48) -/
  ref : Shift
  deriving DecidableEq, Repr

/-- The six tallies of a line (R29, R30). -/
structure LineTally where
  received : Nat
  substitutions : Nat
  opens : Nat
  between : Nat
  accepted : Nat
  refused : Nat
  deriving DecidableEq, Repr

/-- One inbound channel. -/
structure Line where
  rx : Receiver
  fr : Framer
  tally : LineTally
  deriving DecidableEq, Repr

/-! ### Copy store and item table (chapter 4) -/

inductive ItemState where
  | filling
  | closed
  | broken
  deriving DecidableEq, Repr

inductive Kind where
  | new
  | add
  | rewrite
  | correction
  | kill
  deriving DecidableEq, Repr

inductive Verdict where
  | fresh
  | nearRepeat
  deriving DecidableEq, Repr

/-- The statistics L, N, S and line count of a body (R48). -/
structure Stats where
  printable : Nat
  lineEnds : Nat
  caseChanges : Nat
  lines : Nat
  deriving DecidableEq, Repr

/-- A descriptor that is not FREE, with the body that its chain of blocks holds (R58, R61, Table 4-1).  Body character
`k` is at place `k` mod 32 of block `k` div 32 of the chain; `blocks` is the length of the chain.  `source` is `none`
for UNIT. -/
structure Item where
  num : Nat
  state : ItemState
  source : Option LineNo
  serial : Nat
  cls : Nat
  category : Text
  slug : Text
  take : Nat
  kind : Kind
  body : Text
  blocks : Nat
  committed : Nat
  stats : Stats
  signatures : List Nat
  verdict : Option Verdict
  killed : Bool
  holders : Nat
  received : Nat
  deriving DecidableEq, Repr

/-- The counts that the copy store and the item table keep: blocks in the free pool, blocks held by agency items, and
descriptors used by agency items (R58, R59, R62). -/
structure Store where
  freeBlocks : Nat
  agencyBlocks : Nat
  agencyItems : Nat
  deriving DecidableEq, Repr

/-! ### Distribution table (chapter 5) -/

/-- The key of a route entry; `none` is ANY (R79). -/
structure RouteKey where
  line : Option LineNo
  category : Option Text
  deriving DecidableEq, Repr

/-- A route entry (Table 5-1).  The circuit set is kept in ascending order without repeats. -/
structure Route where
  key : RouteKey
  circuits : List CircNo
  cls : Option Nat
  alt : Option CircNo
  mode : RepeatMode
  deriving DecidableEq, Repr

structure Banks where
  active : List Route
  pending : List Route
  deriving DecidableEq, Repr

/-! ### Dispatch queues (chapter 6) -/

/-- Where a broken-off entry resumes (R107). -/
structure Resume where
  offset : Nat
  line : Nat
  deriving DecidableEq, Repr

/-- A dispatch entry (Table 6-1).  `item` is the number of the descriptor it refers to. -/
structure Entry where
  item : Nat
  cls : Nat
  source : Option LineNo
  admitted : Nat
  mode : RepeatMode
  resume : Option Resume
  cseq : Option Nat
  estimate : Nat
  spent : Nat
  diverted : Bool
  deriving DecidableEq, Repr

/-- The parameters of a queue that are held in two copies (R95). -/
structure Sched where
  mode : QueueMode
  preempt : Nat
  quantum : Nat
  deriving DecidableEq, Repr

/-- One dispatch queue with its current slot (R95, R96, R102, R105, R109). -/
structure Queue where
  entries : List Entry
  current : Option Entry
  /-- the current entry was taken by step 2 of R102 -/
  byTurn : Bool
  /-- the turn line, 0 to 7 for lines and 8 for unit items -/
  turn : Nat
  turnLines : Nat
  breakClass : Bool
  breakQuantum : Bool
  /-- the length with which the stall timer runs; `none` while it is stopped -/
  stall : Option Nat
  ordered : Sched
  force : Sched
  stallTime : Nat
  /-- the age limits AGE1 to AGE5, in minutes -/
  ages : Vector Nat 5
  deriving DecidableEq, Repr

/-! ### Circuit senders (chapter 7) -/

/-- The six parameters of a circuit sender (Table 7-1). -/
structure TxParams where
  rate : Rate
  code : LineCode
  width : Nat
  margin : Nat
  fills : Nat
  unshift : Bool
  deriving DecidableEq, Repr

/-- What a frame on a circuit is for (R13). -/
inductive FrameSort where
  | printing
  | cr
  | lf
  | figs
  | ltrs
  | fill
  deriving DecidableEq, Repr

/-- One frame on a TX pin: its code, the number its data units carry, and on SEVEN its parity unit (R7, R10). -/
structure Frame where
  code : LineCode
  value : Nat
  parity : Option Level
  sort : FrameSort
  deriving DecidableEq, Repr

/-- The output lines that a start line end can precede (R142). -/
inductive LineKind where
  | heading
  | body
  | trailer
  | breakLine
  | killLine
  | owed
  deriving DecidableEq, Repr

/-- What the frames being sent make up, and so what their end brings. -/
inductive Job where
  | none
  /-- the start line end before an output line (R142) -/
  | startEnd (next : LineKind)
  | heading
  /-- a body output line; the next line starts at `next`; `last` marks the unterminated line of R130 step 2 -/
  | body (next : Nat) (last : Bool)
  /-- the line end of an unterminated last line, before the trailer or the kill line (R133, R136) -/
  | lastEnd (next : Nat) (kill : Bool)
  | trailer
  | breakLine
  | killLine
  /-- an owed kill notice (R137) -/
  | owed
  /-- the frame that a RESTART WARM lets finish (R141) -/
  | warmFrame
  deriving DecidableEq, Repr

/-- Sender states (Table 7-2). -/
inductive SenderState where
  | idle
  | notice
  | heading
  | copy
  | waiting
  | trailer
  | held
  deriving DecidableEq, Repr

/-- The held position (R138); `lineEnd` says whether the line that ended was a body output line. -/
inductive HeldPos where
  | nothingDue
  | selectionDue
  | lineEnd (afterBody : Bool)
  | waiting
  deriving DecidableEq, Repr

/-- One circuit sender (R119, R122).  `out` is the rest of the frames of the output line being sent: its head is the
frame in progress on the TX pin, whose levels are `Sender.txLevel`; the pin rests at mark while `out` is empty. -/
structure Sender where
  ordered : TxParams
  force : TxParams
  state : SenderState
  column : Nat
  shift : Shift
  nextCseq : Nat
  offset : Nat
  lineNo : Nat
  /-- the cseqs of the owed kill notices, first owed first -/
  owed : List Nat
  holdPending : Bool
  heldPos : HeldPos
  startMark : Bool
  job : Job
  out : List Frame
  deriving DecidableEq, Repr

/-! ### Load monitor (chapter 8) -/

inductive Overload where
  | normal
  | loaded
  | congested
  deriving DecidableEq, Repr

/-- What the load monitor holds for one circuit (R149–R151). -/
structure Load where
  backlog : Nat
  state : Overload
  loadOn : Nat
  congOn : Nat
  hyst : Nat
  deriving DecidableEq, Repr

/-- The nine tallies of a circuit (R118, R143, R155, R170). -/
structure CircTally where
  sent : Nat
  done : Nat
  breaks : Nat
  lapsed : Nat
  displaced : Nat
  shed : Nat
  diverted : Nat
  suppressed : Nat
  marked : Nat
  deriving DecidableEq, Repr

/-- One outbound channel with the load monitor's figures for it. -/
structure Circ where
  q : Queue
  tx : Sender
  load : Load
  tally : CircTally
  deriving DecidableEq, Repr

/-! ### Slug history (chapter 9) -/

/-- A history entry (R164). -/
structure HistEntry where
  line : LineNo
  category : Text
  slug : Text
  take : Nat
  signatures : List Nat
  lastUse : Nat
  deriving DecidableEq, Repr

/-- The slug history, least recently used first, and the threshold T (R164, R165). -/
structure History where
  entries : List HistEntry
  threshold : Nat
  deriving DecidableEq, Repr

/-! ### Order unit (chapter 10) -/

/-- The order buffer (R174). -/
inductive OrderBuffer where
  | free
  /-- claimed by the framer of `line`: the complete order lines and the one being collected (R54) -/
  | collecting (line : LineNo) (serial : Nat) (lines : List Text) (cur : Text)
  /-- an item whose check was right: the order lines still to execute, how many are done, and the answer lines -/
  | executing (line : LineNo) (serial : Nat) (rest : List Text) (done : Nat) (answers : List Text)
  deriving DecidableEq, Repr

/-- The order unit.  `reply` is the model's own: what the order unit last answered to an order given apart from an
order item (notes/assumptions/3.md). -/
structure OrderUnit where
  buffer : OrderBuffer
  address : Text
  desk : CircNo
  reply : List Text
  deriving DecidableEq, Repr

/-! ### Alarm unit (chapter 11) -/

/-- One alarm flag with its masks (R188, R190, R191).  The members are kept in ascending order without repeats. -/
structure FlagState where
  raised : Bool
  members : List (Fin 8)
  enabled : Bool
  notice : Bool
  deriving DecidableEq, Repr

/-- The alarm unit.  `owing` is the model's own: the bodies of the notices whose edges have fallen inside the step
being taken, in the order of the edges; it is empty between steps (notes/assumptions/4.md). -/
structure Alarm where
  flags : Vector FlagState 11
  serial : Nat
  lost : Nat
  owing : List Text
  deriving DecidableEq, Repr

/-! ### The part -/

/-- The straps UA0–UA3 and DR0–DR1 as they read: UA0 and DR0 are the least significant (R184, R185). -/
structure Straps where
  ua : Fin 16
  dr : Fin 4
  deriving DecidableEq, Repr

/-- Everything the part holds. -/
structure Part where
  /-- RESETn is low -/
  inReset : Bool
  straps : Straps
  clock : Nat
  lines : Vector Line 8
  /-- the descriptors not FREE, in the grant order, oldest first (R63) -/
  items : List Item
  store : Store
  banks : Banks
  circs : Vector Circ 8
  history : History
  orders : OrderUnit
  alarm : Alarm
  unrouted : Nat
  deriving DecidableEq, Repr

end Sys2Proof.Machine
end

