-- ==== Sys2Proof/Machine/Codes.lean ====
section
/-! DEFINITION. The copy alphabet's classes, the two line codes, rates and character periods (chapter 1). -/

namespace Sys2Proof.Machine

/-- The letters A–Z (R1). -/
def isLetter (c : Chr) : Bool := 2 ≤ c && c ≤ 27

/-- The digits 0–9 (R1). -/
def isDigit (c : Chr) : Bool := 28 ≤ c && c ≤ 37

/-- The case class of a character: `none` is the class both.  The rule mark is of figures case (R2, R4). -/
def caseOf (c : Chr) : Option Shift :=
  if isLetter c then some .letters
  else if c = spaceChr || c = lineEndChr then none
  else some .figures

/-- What a line receiver makes of a frame without error (R8, R11): a copy character, with whether it counts as a
substitution; a line function; a shift function; or nothing. -/
inductive RxResult where
  | chr (c : Chr) (substitution : Bool)
  | cr
  | lf
  | figs
  | ltrs
  | nothing
  deriving DecidableEq, Repr

/-- Decoding a FIVE code point against the shift state (R8, Table 1-3). -/
def decodeFive (point : Nat) (shift : Shift) : RxResult :=
  if point = 0 then .nothing
  else if point ≤ 26 then
    match shift with
    | .letters => .chr (point + 1) false
    | .figures =>
      if point ≤ 9 then .chr (point + 28) false
      else if point = 10 then .chr 28 false
      else if point ≤ 20 then .chr (point + 27) false
      else .chr subChr true
  else if point = 27 then .chr spaceChr false
  else if point = 28 then .cr
  else if point = 29 then .lf
  else if point = 30 then .figs
  else .ltrs

/-- The copy code of the ten marks by their SEVEN value (Table 1-5). -/
def markOfSeven (value : Nat) : Option Chr :=
  match value with
  | 45 => some 38
  | 63 => some 39
  | 58 => some 40
  | 40 => some 41
  | 41 => some 42
  | 46 => some 43
  | 44 => some 44
  | 39 => some 45
  | 47 => some 46
  | 43 => some 47
  | _ => none

/-- Decoding a SEVEN value (R11). -/
def decodeSeven (value : Nat) : RxResult :=
  if 65 ≤ value && value ≤ 90 then .chr (value - 63) false
  else if 97 ≤ value && value ≤ 122 then .chr (value - 95) false
  else if 48 ≤ value && value ≤ 57 then .chr (value - 20) false
  else match markOfSeven value with
    | some c => .chr c false
    | none =>
      if value = 32 then .chr spaceChr false
      else if value = 13 then .cr
      else if value = 10 then .lf
      else if value < 32 || value = 127 then .nothing
      else .chr subChr true

/-- The FIVE code point of a printing character (R9, Table 1-4). -/
def fivePoint (c : Chr) : Nat :=
  if isLetter c then c - 1
  else if c = 28 then 10
  else if isDigit c then c - 28
  else if 38 ≤ c && c ≤ 47 then c - 27
  else if c = subChr then 12
  else if c = ruleMark then 11
  else 27

/-- The SEVEN value of a printing character (R12). -/
def sevenValue (c : Chr) : Nat :=
  if isLetter c then c + 63
  else if isDigit c then c + 20
  else match c with
    | 38 => 45
    | 39 => 63
    | 40 => 58
    | 41 => 40
    | 42 => 41
    | 43 => 46
    | 44 => 44
    | 45 => 39
    | 46 => 47
    | 47 => 43
    | 49 => 63
    | 0 => 61
    | _ => 32

/-- How many of the seven data units are at mark. -/
def marksOf (value : Nat) : Nat :=
  ((List.range 7).filter fun k => value.testBit k).length

/-- The even parity unit of a SEVEN frame (R10). -/
def evenParity (value : Nat) : Level := if marksOf value % 2 = 1 then .mark else .space

/-- A frame of either code, with its parity unit on SEVEN (R6, R7, R10). -/
def frameOf (code : LineCode) (five seven : Nat) (sort : FrameSort) : Frame :=
  match code with
  | .five => { code := .five, value := five, parity := none, sort := sort }
  | .seven => { code := .seven, value := seven, parity := some (evenParity seven), sort := sort }

/-- The frame of one printing character (R9, R12). -/
def printFrame (code : LineCode) (c : Chr) : Frame := frameOf code (fivePoint c) (sevenValue c) .printing

/-- The shift character that brings a FIVE printer to a shift (R124). -/
def shiftFrame : Shift → Frame
  | .figures => { code := .five, value := 30, parity := none, sort := .figs }
  | .letters => { code := .five, value := 31, parity := none, sort := .ltrs }

/-- The frames of a run of printing characters from a shift state: on FIVE a shift character goes before a character
whose case class differs from it (R124). -/
def textFrames (code : LineCode) : Shift → Text → List Frame
  | _, [] => []
  | shift, c :: cs =>
    match code, caseOf c with
    | .five, some need =>
      if need = shift then printFrame code c :: textFrames code shift cs
      else shiftFrame need :: printFrame code c :: textFrames code need cs
    | _, _ => printFrame code c :: textFrames code shift cs

/-- A line end: CR, LF and fills, LTRS on FIVE and DEL on SEVEN (R125). -/
def lineEndFrames (code : LineCode) (fills : Nat) : List Frame :=
  frameOf code 28 13 .cr :: frameOf code 29 10 .lf :: List.replicate fills (frameOf code 31 127 .fill)

/-! ### Levels on the wire (R6) -/

/-- The units of one frame, in tenths: 75 for FIVE and 100 for SEVEN (R14). -/
def unitsOf : LineCode → Nat
  | .five => 75
  | .seven => 100

/-- How many data units a frame has (R6). -/
def dataUnits : LineCode → Nat
  | .five => 5
  | .seven => 7

/-- The level of a data unit: mark for 1, space for 0 (R6). -/
def levelOf (bit : Bool) : Level := if bit then .mark else .space

/-- The stop element in tenths of a unit: 1.5 units on FIVE and 1 on SEVEN (R6). -/
def stopLength : LineCode → Nat
  | .five => 15
  | .seven => 10

/-- The levels of a frame in the order sent, each with its length in tenths of a unit: one start unit at space, the data
units with the least significant first, on SEVEN the parity unit, and the stop element at mark (R6, R7, R10). -/
def Frame.levels (f : Frame) : List (Level × Nat) :=
  (.space, 10) :: (List.range (dataUnits f.code)).map (fun k => (levelOf (f.value.testBit k), 10))
    ++ f.parity.toList.map (fun l => (l, 10)) ++ [(.mark, stopLength f.code)]

/-- The level that stands `t` tenths of a unit into a run of levels; the signal rests at mark after it (R6). -/
def levelAt : List (Level × Nat) → Nat → Level
  | [], _ => .mark
  | (l, n) :: rest, t => if t < n then l else levelAt rest (t - n)

/-- The level on a TX pin `t` tenths of a unit after the start of the frame in progress: that of the frame, and mark while
no frame is sent (R6, R123). -/
def Sender.txLevel (tx : Sender) (t : Nat) : Level :=
  match tx.out with
  | [] => .mark
  | f :: _ => levelAt f.levels t

/-! ### Rates (R14) -/

def Rate.baud : Rate → Nat
  | .b50 => 50
  | .b75 => 75
  | .b100 => 100
  | .b150 => 150
  | .b200 => 200
  | .b300 => 300

def Rate.ofBaud (n : Nat) : Option Rate :=
  match n with
  | 50 => some .b50
  | 75 => some .b75
  | 100 => some .b100
  | 150 => some .b150
  | 200 => some .b200
  | 300 => some .b300
  | _ => none

/-- The time of `n` characters in milliseconds, rounded up: n × u × 100 / baud (R14, R156). -/
def timeOf (code : LineCode) (rate : Rate) (n : Nat) : Nat :=
  (n * unitsOf code * 100 + (rate.baud - 1)) / rate.baud

/-- The rate of line 7 and circuit 7 by the DR straps (R185). -/
def rateOfStraps (dr : Fin 4) : Rate :=
  match dr with
  | 3 => .b50
  | 2 => .b75
  | 1 => .b100
  | 0 => .b300

/-- The unit address by the UA straps: P and the letter at index v (R184). -/
def addressOfStraps (ua : Fin 16) : Text := [17, 2 + ua.val]

end Sys2Proof.Machine
end

