-- ==== Sys2Proof/Machine/Operands.lean ====
section
/-! DEFINITION. The forms in which texts are read and printed: words, numbers, tokens and keyed arguments (R5, R41, R172). -/

namespace Sys2Proof.Machine

/-- A copy text from its printed form. -/
def txt (s : String) : Text :=
  s.toList.map fun ch => match decodeSeven ch.toNat with
    | .chr c _ => c
    | _ => subChr

/-! ### Printing numbers -/

/-- The decimal digits of `n` before `acc`; `fuel` bounds the digits. -/
def decAux : Nat → Nat → Text → Text
  | 0, _, acc => acc
  | fuel + 1, n, acc => if n < 10 then (28 + n) :: acc else decAux fuel (n / 10) ((28 + n % 10) :: acc)

/-- `n` in decimal digits, without leading zeros. -/
def dec (n : Nat) : Text := decAux (n + 1) n []

/-- `n` in two digits with leading zeros. -/
def dec2 (n : Nat) : Text := [28 + n / 10 % 10, 28 + n % 10]

/-- `n` in four digits with leading zeros (R127). -/
def dec4 (n : Nat) : Text := [28 + n / 1000 % 10, 28 + n / 100 % 10, 28 + n / 10 % 10, 28 + n % 10]

/-- Words separated by single spaces. -/
def sentence : List Text → Text
  | [] => []
  | [w] => w
  | w :: ws => w ++ spaceChr :: sentence ws

def onOff (b : Bool) : Text := if b then txt "ON" else txt "OFF"

/-! ### Reading tokens -/

/-- The tokens of a text, divided at runs of one or more spaces; `cur` is the token being read, reversed. -/
def tokensAux : Text → Text → List Text
  | [], cur => if cur = [] then [] else [cur.reverse]
  | c :: cs, cur =>
    if c = spaceChr then
      if cur = [] then tokensAux cs [] else cur.reverse :: tokensAux cs []
    else tokensAux cs (c :: cur)

/-- The tokens of a text (R41, R172). -/
def tokens (t : Text) : List Text := tokensAux t []

/-- The number that a token of digits spells, or `none` for any other token. -/
def numeral (t : Text) : Option Nat :=
  if t ≠ [] && t.all isDigit then some (t.foldl (fun n c => n * 10 + (c - 28)) 0) else none

/-- Exactly two letters. -/
def isTwoLetters (t : Text) : Bool := t.length = 2 && t.all isLetter

/-- A letter, then letters, digits or hyphens (R41, R179). -/
def isSlug (t : Text) : Bool :=
  match t with
  | [] => false
  | c :: cs => isLetter c && cs.all fun d => isLetter d || isDigit d || d = 38

def cutSlug (t : Text) : Text := t.take Config.slugSize

/-- The characters that join a key and its value in an order: the colon and SUB (R172). -/
def isJoiner (c : Chr) : Bool := c = 40 || c = subChr

/-- A keyed argument: one joining character with at least one character on each side of it (R172). -/
def keyed (t : Text) : Option (Text × Text) :=
  let key := t.takeWhile fun c => !isJoiner c
  let value := t.drop (key.length + 1)
  if key ≠ [] && value ≠ [] && value.all (fun c => !isJoiner c) then some (key, value) else none

end Sys2Proof.Machine
end

