-- ==== Sys2Proof/Machine/Starts.lean ====
section
/-! DEFINITION. The values that a power-up start gives to every block (R15, R28, R32, R33, R76, R80, R95, R117, R119,
R140, R157, R164, R165, R184, R185, R193).  RESTART WARM is in Machine/Restarts.lean. -/

namespace Sys2Proof.Machine

/-- A line receiver at power-up (R15, R28): READY, and waiting for mark with its space timer started if the pin is at
space (R16, R22). -/
def coldReceiver (rate : Rate) (desk : Bool) (pin : Level) : Receiver :=
  { rate := rate, code := .five, openTime := 3, unshift := false, desk := desk, cond := .ready
    phase := if pin = .space then .waitMark else .hunting
    pin := pin, shift := .letters, pendingCR := false
    spaceTimer := if pin = .space then some 0 else none }

/-- An item framer at power-up (R32, R33).  DESIGN CHOICE: the heading start flag is clear (notes/assumptions/30.md). -/
def coldFramer : Framer :=
  { opening := txt "QXQX", closing := txt "QJQJ", release := 256, state := .hunt, held := [], heading := []
    headStart := false, item := none, sum := 0, pos := 0, ref := .letters }

def coldLineTally : LineTally :=
  { received := 0, substitutions := 0, opens := 0, between := 0, accepted := 0, refused := 0 }

/-- Line `l` at power-up: line 7 takes its rate from the straps and is desk-capable (R15, R185). -/
def coldLine (straps : Straps) (l : LineNo) (pin : Level) : Line :=
  { rx := coldReceiver (if l = 7 then rateOfStraps straps.dr else .b50) (l = 7) pin
    fr := coldFramer, tally := coldLineTally }

def coldSched : Sched := { mode := .priority, preempt := 2, quantum := 20 }

/-- A dispatch queue at power-up (R95, R117). -/
def coldQueue : Queue :=
  { entries := [], current := none, byTurn := false, turn := 0, turnLines := 0, breakClass := false
    breakQuantum := false, stall := none, ordered := coldSched, force := coldSched, stallTime := 30
    ages := #v[0, 0, 0, 0, 60] }

def coldTxParams (rate : Rate) : TxParams :=
  { rate := rate, code := .five, width := 69, margin := 8, fills := 2, unshift := false }

/-- A circuit sender at power-up (R140). -/
def coldSender (rate : Rate) : Sender :=
  { ordered := coldTxParams rate, force := coldTxParams rate, state := .idle, column := 0, shift := .letters
    nextCseq := 1, offset := 0, lineNo := 1, owed := [], holdPending := false, heldPos := .nothingDue
    startMark := true, job := .none, out := [] }

/-- The load monitor's figures for a circuit at power-up (R150, R157). -/
def coldLoad : Load := { backlog := 0, state := .normal, loadOn := 6000, congOn := 12000, hyst := 1000 }

def coldCircTally : CircTally :=
  { sent := 0, done := 0, breaks := 0, lapsed := 0, displaced := 0, shed := 0, diverted := 0, suppressed := 0
    marked := 0 }

/-- Circuit `c` at power-up: circuit 7 takes its rate from the straps (R185). -/
def coldCirc (straps : Straps) (c : CircNo) : Circ :=
  { q := coldQueue, tx := coldSender (if c = 7 then rateOfStraps straps.dr else .b50), load := coldLoad
    tally := coldCircTally }

/-- The copy store and the counts of the item table at a start (R76). -/
def coldStore : Store := { freeBlocks := Config.storeBlocks, agencyBlocks := 0, agencyItems := 0 }

/-- The power-up route of line `n`: key (line n, ANY), circuit set {n} (R80). -/
def coldRoute (n : Fin 8) : Route :=
  { key := { line := some n, category := none }, circuits := [n], cls := none, alt := none, mode := .send }

def coldBanks : Banks :=
  { active := [0, 1, 2, 3, 4, 5, 6, 7].map coldRoute, pending := [] }

/-- The notice masks at power-up, in the order of Table 11 (R193). -/
def coldFlag (notice : Bool) : FlagState := { raised := false, members := [], enabled := true, notice := notice }

def coldAlarm : Alarm :=
  { flags := #v[coldFlag true, coldFlag false, coldFlag false, coldFlag true, coldFlag true, coldFlag false,
      coldFlag false, coldFlag true, coldFlag false, coldFlag true, coldFlag false]
    serial := 1, lost := 0, owing := [] }

/-- The part after a power-up start with these straps and these levels on its RX pins. -/
def coldPart (straps : Straps) (pins : Vector Level 8) : Part :=
  { inReset := false, straps := straps, clock := 0
    lines := #v[coldLine straps 0 pins[0], coldLine straps 1 pins[1], coldLine straps 2 pins[2],
      coldLine straps 3 pins[3], coldLine straps 4 pins[4], coldLine straps 5 pins[5], coldLine straps 6 pins[6],
      coldLine straps 7 pins[7]]
    items := [], store := coldStore, banks := coldBanks
    circs := #v[coldCirc straps 0, coldCirc straps 1, coldCirc straps 2, coldCirc straps 3, coldCirc straps 4,
      coldCirc straps 5, coldCirc straps 6, coldCirc straps 7]
    history := { entries := [], threshold := 2 }
    orders := { buffer := .free, address := addressOfStraps straps.ua, desk := 7, reply := [] }
    alarm := coldAlarm, unrouted := 0 }

end Sys2Proof.Machine
end

