-- ==== Sys2Proof/Machine/State.lean ====
section
/-! DEFINITION. The state of the machine: the part, and the queue of the commands that wait for it. -/

namespace Sys2Proof.Machine

/-- The reasons for which a step stops the machine.  There is none: the manual gives every command of the table an
effect in every state of the part, and calls no outcome undefined. -/
inductive Fault where
  deriving DecidableEq, Repr

/-- The reasons for which a command has no meaning. -/
inductive Refusal where
  /-- Raised by an arm of `exec` for a command that has no meaning yet (safe: nothing is claimed of it).  No arm
  raises it now. -/
  | notModelled (mnemonic : String)
  deriving DecidableEq, Repr

/-- The machine: the commands that wait, first in first out, and the part. -/
structure State where
  pending : List Instr
  part : Part
  deriving DecidableEq, Repr

/-- Right after a power-up start with every strap open, so that UA reads 15 and DR reads 3 (R184, R185), and every RX
pin at mark (notes/assumptions/1.md). -/
def State.reset : State :=
  { pending := [], part := coldPart { ua := 15, dr := 3 } (Vector.replicate 8 .mark) }

/-- The state with its part replaced by `f` of it: the queue of commands is left as it is. -/
def State.onPart (s : State) (f : Part → Part) : State := { s with part := f s.part }

/-- The outcome of a command whose effect on the part is `f`. -/
def State.after (s : State) (f : Part → Part) : Host.Outcome State Fault Refusal := .next (s.onPart f)

end Sys2Proof.Machine
end

