-- ==== Sys2Proof/Machine/Ops.lean ====
section
/-! DEFINITION. The named reads and writes of the part: its lines and circuits, the parts of each, descriptors and
tallies.  Every later file goes through these. -/

namespace Sys2Proof.Machine

/-- The lines and circuits in ascending order. -/
def allEight : List (Fin 8) := [0, 1, 2, 3, 4, 5, 6, 7]

/-- One more in a tally, which stays at its limit (R31, R194). -/
def bump (n : Nat) : Nat := if n < Config.tallyMax then n + 1 else n

/-- Every place of a vector changed by `f`. -/
def mapAll {α β : Type} {n : Nat} (f : α → β) (v : Vector α n) : Vector β n := ⟨⟨v.toArray.toList.map f⟩, by simp⟩

/-! ### Lines -/

def Part.line (p : Part) (l : LineNo) : Line := p.lines.get l

def Part.setLine (p : Part) (l : LineNo) (x : Line) : Part := { p with lines := p.lines.set l.val x l.isLt }

def Part.modRx (p : Part) (l : LineNo) (f : Receiver → Receiver) : Part :=
  p.setLine l { p.line l with rx := f (p.line l).rx }

def Part.modFr (p : Part) (l : LineNo) (f : Framer → Framer) : Part :=
  p.setLine l { p.line l with fr := f (p.line l).fr }

def Part.modLineTally (p : Part) (l : LineNo) (f : LineTally → LineTally) : Part :=
  p.setLine l { p.line l with tally := f (p.line l).tally }

/-- The receiver and the framer of a line. -/
def Part.rx (p : Part) (l : LineNo) : Receiver := (p.line l).rx
def Part.fr (p : Part) (l : LineNo) : Framer := (p.line l).fr

/-! ### Circuits -/

def Part.circ (p : Part) (c : CircNo) : Circ := p.circs.get c

def Part.setCirc (p : Part) (c : CircNo) (x : Circ) : Part := { p with circs := p.circs.set c.val x c.isLt }

def Part.modQ (p : Part) (c : CircNo) (f : Queue → Queue) : Part :=
  p.setCirc c { p.circ c with q := f (p.circ c).q }

def Part.modTx (p : Part) (c : CircNo) (f : Sender → Sender) : Part :=
  p.setCirc c { p.circ c with tx := f (p.circ c).tx }

def Part.modLoad (p : Part) (c : CircNo) (f : Load → Load) : Part :=
  p.setCirc c { p.circ c with load := f (p.circ c).load }

def Part.modTally (p : Part) (c : CircNo) (f : CircTally → CircTally) : Part :=
  p.setCirc c { p.circ c with tally := f (p.circ c).tally }

/-- The dispatch queue, the sender and the load figures of a circuit. -/
def Part.q (p : Part) (c : CircNo) : Queue := (p.circ c).q
def Part.tx (p : Part) (c : CircNo) : Sender := (p.circ c).tx
def Part.load (p : Part) (c : CircNo) : Load := (p.circ c).load

/-- The level on the TX pin of circuit `c`, `t` tenths of a unit after the start of the frame in progress; the pin is at
mark whenever no frame is sent, and so while RESETn is low (R6, R123, R140). -/
def Part.txLevel (p : Part) (c : CircNo) (t : Nat) : Level := if p.inReset then .mark else (p.tx c).txLevel t

/-- Do `f` for every circuit, in ascending order. -/
def Part.eachCirc (p : Part) (f : CircNo → Part → Part) : Part := allEight.foldl (fun p c => f c p) p

/-- Do `f` for every line, in ascending order. -/
def Part.eachLine (p : Part) (f : LineNo → Part → Part) : Part := allEight.foldl (fun p l => f l p) p

/-! ### Descriptors -/

/-- What a reference to no descriptor reads as; no entry of a reachable part makes such a reference. -/
def Item.absent : Item :=
  { num := 0, state := .closed, source := none, serial := 0, cls := 1, category := [], slug := [], take := 1
    kind := .new, body := [], blocks := 0, committed := 0
    stats := { printable := 0, lineEnds := 0, caseChanges := 0, lines := 0 }
    signatures := [], verdict := none, killed := false, holders := 0, received := 0 }

/-- The descriptor of number `n`, if it is not FREE. -/
def Part.item? (p : Part) (n : Nat) : Option Item := p.items.find? fun it => it.num == n

def Part.item (p : Part) (n : Nat) : Item := (p.item? n).getD Item.absent

/-- Change the fields of descriptor `n`. -/
def Part.modItem (p : Part) (n : Nat) (f : Item → Item) : Part :=
  { p with items := p.items.map fun it => if it.num == n then f it else it }

/-- The item has ended: CLOSED or BROKEN. -/
def Item.ended (it : Item) : Bool := it.state != .filling

/-! ### The slug history, the order buffer and the alarm unit -/

def Part.setHistory (p : Part) (h : History) : Part := { p with history := h }

def Part.setBuffer (p : Part) (b : OrderBuffer) : Part := { p with orders := { p.orders with buffer := b } }

def Part.setAlarm (p : Part) (a : Alarm) : Part := { p with alarm := a }

/-! ### Dispatch entries -/

/-- Change every entry of circuit `c`, queued and current. -/
def Part.modEntries (p : Part) (c : CircNo) (f : Entry → Entry) : Part :=
  p.modQ c fun q => { q with entries := q.entries.map f, current := q.current.map f }

/-- The entries of a circuit, the current one first. -/
def Queue.held (q : Queue) : List Entry := q.current.toList ++ q.entries

end Sys2Proof.Machine
end

