-- ==== Sys2Proof/Machine/Flags.lean ====
section
/-! DEFINITION. The alarm unit: raising and clearing a flag, the ALARMn pin, and the text of a notice (chapter 11). -/

namespace Sys2Proof.Machine

/-- The eleven flags in the order of Table 11. -/
def allFlags : List Flag :=
  [.lineOpen, .headingFault, .runOn, .storeFull, .tableFull, .queueFull, .displaced, .congested, .lapsed, .stall,
    .orderFault]

def flagIdx : Flag → Fin 11
  | .lineOpen => 0
  | .headingFault => 1
  | .runOn => 2
  | .storeFull => 3
  | .tableFull => 4
  | .queueFull => 5
  | .displaced => 6
  | .congested => 7
  | .lapsed => 8
  | .stall => 9
  | .orderFault => 10

/-- The name of a flag as it is typed and printed (Table 11, R5). -/
def flagName : Flag → Text
  | .lineOpen => txt "LINE-OPEN"
  | .headingFault => txt "HEADING-FAULT"
  | .runOn => txt "RUN-ON"
  | .storeFull => txt "STORE-FULL"
  | .tableFull => txt "TABLE-FULL"
  | .queueFull => txt "QUEUE-FULL"
  | .displaced => txt "DISPLACED"
  | .congested => txt "CONGESTED"
  | .lapsed => txt "LAPSED"
  | .stall => txt "STALL"
  | .orderFault => txt "ORDER-FAULT"

/-- What a flag's members are: LINE, CIRC, or nothing for a flag without a member set (Table 11). -/
def memberWord : Flag → Option Text
  | .lineOpen | .headingFault | .runOn | .orderFault => some (txt "LINE")
  | .queueFull | .displaced | .congested | .lapsed | .stall => some (txt "CIRC")
  | .storeFull | .tableFull => none

def Alarm.flag (a : Alarm) (f : Flag) : FlagState := a.flags.get (flagIdx f)

def Alarm.modFlag (a : Alarm) (f : Flag) (g : FlagState → FlagState) : Alarm :=
  { a with flags := a.flags.set (flagIdx f).val (g (a.flag f)) (flagIdx f).isLt }

def Part.flag (p : Part) (f : Flag) : FlagState := p.alarm.flag f

def Part.modFlag (p : Part) (f : Flag) (g : FlagState → FlagState) : Part := p.setAlarm (p.alarm.modFlag f g)

/-- Add a member to a set kept in ascending order without repeats. -/
def addMember (m : Fin 8) : List (Fin 8) → List (Fin 8)
  | [] => [m]
  | x :: xs => if m = x then x :: xs else if m < x then m :: x :: xs else x :: addMember m xs

/-- The member token: digits in ascending order (R191). -/
def memberToken (ms : List (Fin 8)) : Text := ms.map fun m => 28 + m.val

/-- The words LINE or CIRC and the member token, for a flag with members (R191, R192). -/
def memberWords (f : Flag) (ms : List (Fin 8)) : List Text :=
  match memberWord f with
  | some w => [w, memberToken ms]
  | none => []

/-- The line of a notice, at an edge with these members (R191). -/
def noticeText (f : Flag) (ms : List (Fin 8)) : Text :=
  sentence ([txt "ALARM", flagName f] ++ memberWords f ms)

/-- The members of flag `f` when member `m` is handed to it: a clear flag takes it alone, a raised one adds it, and a flag
without a member set has none (R188). -/
def membersAfter (f : Flag) (m : Fin 8) (x : FlagState) : List (Fin 8) :=
  match (memberWord f).isSome, x.raised with
  | true, true => addMember m x.members
  | true, false => [m]
  | false, true => x.members
  | false, false => []

/-- The alarm unit takes a raise of flag `f` for member `m`.  The notice of a clear-to-raised edge is composed at once, and
made when the act of the raising block is done (R188, R191). -/
def Alarm.raise (f : Flag) (m : Fin 8) (a : Alarm) : Alarm :=
  let x := a.flag f
  let members := membersAfter f m x
  let b := a.modFlag f fun x => { x with raised := true, members := members }
  if !x.raised && x.notice then { b with owing := b.owing ++ [noticeText f members] } else b

/-- A block raises flag `f` for member `m`, which a flag without a member set does not read (R188). -/
def raise (f : Flag) (m : Fin 8) (p : Part) : Part := p.setAlarm (p.alarm.raise f m)

/-- Clear a flag (R189). -/
def clearFlag (f : Flag) (p : Part) : Part := p.modFlag f fun x => { x with raised := false, members := [] }

/-- ALARMn is driven low: some flag is raised and enabled, and RESETn is not low (R190, R193). -/
def Part.alarmLow (p : Part) : Bool :=
  !p.inReset && allFlags.any fun f => (p.flag f).raised && (p.flag f).enabled

/-- The flags that an order names; `none` for a repeated name or no name at all (R192). -/
def pickFlags : FlagPick → Option (List Flag)
  | .all => some allFlags
  | .names fs => if fs ≠ [] && fs.Nodup then some fs else none

end Sys2Proof.Machine
end

