-- ==== Sys2Proof/Machine/CircuitText.lean ====
section
/-! DEFINITION. The texts that a circuit sender forms as it prints: the circuit heading, the trailers, the break line and
the kill line (R127, R133, R134, R136). -/

namespace Sys2Proof.Machine

/-- A–H for lines 0–7, U for the part itself. -/
def sourceLetter : Option LineNo → Chr
  | some l => 2 + l.val
  | none => 22

/-- The source letter followed at once by the serial in four digits (R127). -/
def sourceSerial (it : Item) : Text := sourceLetter it.source :: dec4 it.serial

def kindMark : Kind → List Text
  | .rewrite => [txt "RW"]
  | .correction => [txt "CO"]
  | .kill => [txt "KL"]
  | .new | .add => []

/-- RPT, for a MARK entry of an item found NEAR_REPEAT (R127). -/
def repeatMark (e : Entry) (it : Item) : List Text :=
  if e.mode = .mark && it.verdict = some .nearRepeat then [txt "RPT"] else []

/-- RESUMED L and the resume line number, for an interrupted entry (R127). -/
def resumedMark (e : Entry) : List Text :=
  match e.resume with
  | some r => [txt "RESUMED", txt "L" ++ dec r.line]
  | none => []

/-- The circuit heading of an entry (R127, Table 7-3). -/
def headingText (e : Entry) (it : Item) : Text :=
  sentence ([dec4 (e.cseq.getD 0), dec e.cls, sourceSerial it, it.category, it.slug, txt "T" ++ dec it.take]
    ++ kindMark it.kind ++ repeatMark e it ++ resumedMark e)

/-- The rule mark, a word, a space and a cseq (R4). -/
def ruleText (word : Text) (cseq : Nat) : Text := ruleMark :: word ++ spaceChr :: dec4 cseq

def trailerText (it : Item) (cseq : Nat) : Text :=
  if it.state = .broken then ruleText (txt "INCOMPLETE") cseq else ruleText (txt "END") cseq

def breakText (cseq : Nat) : Text := ruleText (txt "BROKEN") cseq

def killText (cseq : Nat) : Text := ruleText (txt "KILLED") cseq

end Sys2Proof.Machine
end

