-- ==== Sys2Proof/Machine/Load.lean ====
section
/-! DEFINITION. The load monitor: estimates, backlog, overload state, the gate, and backlog as time (chapter 8). -/

namespace Sys2Proof.Machine

/-- HL, the length of the circuit heading that the entry would print now, cut at the width (R145). -/
def headingLength (e : Entry) (it : Item) (width : Nat) : Nat := min width (headingText e it).length

/-- Lf, the number of folds expected: `l` divided by W − M and rounded up (R144). -/
def foldsExpected (l width margin : Nat) : Nat := (l + (width - margin - 1)) / (width - margin)

/-- The estimate E of an entry of item `it` on a circuit with the ordered parameters `tx` (R144). -/
def estimateOf (e : Entry) (it : Item) (tx : TxParams) : Nat :=
  let st := it.stats
  let shifts := match tx.code with
    | .five => st.caseChanges
    | .seven => 0
  min Config.estimateMax (headingLength e it tx.width + 9 + st.printable + shifts
    + (st.lineEnds + foldsExpected st.printable tx.width tx.margin + 3) * (2 + tx.fills))

/-- The contribution of an entry to its circuit's backlog (R148); natural subtraction stops at 0. -/
def contribution (e : Entry) : Nat := e.estimate - e.spent

/-- The sum of the contributions of a circuit's entries, queued and current (R149). -/
def backlogOf (q : Queue) : Nat := (q.held.map contribution).sum

/-- The overload state after an evaluation, by the first condition of R151 that holds. -/
def evaluated (ld : Load) : Overload :=
  if ld.congOn ≤ ld.backlog then .congested
  else if ld.state = .congested ∧ ld.congOn - ld.hyst ≤ ld.backlog then .congested
  else if ld.loadOn ≤ ld.backlog then .loaded
  else if ld.state ≠ .normal ∧ ld.loadOn - ld.hyst ≤ ld.backlog then .loaded
  else .normal

/-- Evaluate the overload state of a circuit, raising CONGESTED at an entry into it (R151). -/
def evaluate (c : CircNo) (p : Part) : Part :=
  let old := (p.load c).state
  let new := evaluated (p.load c)
  let p := p.modLoad c fun ld => { ld with state := new }
  if new = .congested ∧ old ≠ .congested then raise .congested c p else p

/-- Recompute the backlog of a circuit from its entries; a change of B evaluates the overload state (R149, R151). -/
def recompute (c : CircNo) (p : Part) : Part :=
  let b := backlogOf (p.q c)
  if b = (p.load c).backlog then p
  else evaluate c (p.modLoad c fun ld => { ld with backlog := b })

/-- Re-estimate an entry of circuit `c` from the item and the ordered parameters as they stand (R144, R147). -/
def reestimated (p : Part) (c : CircNo) (e : Entry) : Entry :=
  { e with estimate := estimateOf e (p.item e.item) (p.tx c).ordered }

/-- Re-estimate every entry of a circuit, at a WIDTH, MARGIN or FILL order (R147). -/
def reestimateCirc (c : CircNo) (p : Part) : Part := recompute c (p.modEntries c (reestimated p c))

/-- Re-estimate the entry of item `n` on circuit `c`, if it has one there (R147). -/
def reestimateOn (n : Nat) (c : CircNo) (p : Part) : Part :=
  recompute c (p.modEntries c fun e => if e.item = n then reestimated p c e else e)

/-- Re-estimate every entry of item `n`, on every circuit, at a commit event (R147). -/
def reestimateItem (n : Nat) (p : Part) : Part := p.eachCirc (reestimateOn n)

/-- A frame that belongs to the current entry has been sent (R123, R148, R149). -/
def spendOne (c : CircNo) (p : Part) : Part :=
  recompute c (p.modQ c fun q => { q with current := q.current.map fun e => { e with spent := e.spent + 1 } })

/-- The classes that a gate admits in each overload state (R152). -/
def gateAdmits (state : Overload) (cls : Nat) : Bool :=
  match state with
  | .normal => true
  | .loaded => cls ≤ 4
  | .congested => cls ≤ 3

/-- A backlog as time, in minutes and seconds (R156). -/
def timeText (b : Nat) (tx : TxParams) : Text :=
  let seconds := (timeOf tx.code tx.rate b + 999) / 1000
  dec (seconds / 60) ++ txt "M" ++ dec2 (seconds % 60) ++ txt "S"

end Sys2Proof.Machine
end

