-- ==== Sys2Proof/Machine/Table.lean ====
section
/-! DEFINITION. The copy store and the item table: blocks, descriptors, freeing, statistics and signatures (chapter 4,
and R47–R49). -/

namespace Sys2Proof.Machine

/-! ### Blocks and descriptors -/

/-- The blocks that a body of `n` characters takes (R58, R69). -/
def blocksFor (n : Nat) : Nat := (n + (Config.blockSize - 1)) / Config.blockSize

/-- The lowest number from `n` on, of the `fuel` next ones, that no descriptor in use has. -/
def lowestFrom (used : List Nat) : Nat → Nat → Option Nat
  | 0, _ => none
  | fuel + 1, n => if used.contains n then lowestFrom used fuel (n + 1) else some n

/-- The lowest-numbered FREE descriptor (R62, R69). -/
def Part.lowestFree (p : Part) : Option Nat := lowestFrom (p.items.map (·.num)) Config.tableSize 0

/-- Append a descriptor to the table, and so to the grant order (R63). -/
def Part.addItem (p : Part) (it : Item) : Part := { p with items := p.items ++ [it] }

/-- The item table frees the descriptor of an ended item that has no holders, with its blocks (R66). -/
def examineFree (n : Nat) (p : Part) : Part :=
  match p.item? n with
  | none => p
  | some it =>
    if it.ended && it.holders == 0 then
      let agency := it.source.isSome
      { p with
        items := p.items.filter fun x => x.num != n
        store :=
          { freeBlocks := p.store.freeBlocks + it.blocks
            agencyBlocks := if agency then p.store.agencyBlocks - it.blocks else p.store.agencyBlocks
            agencyItems := if agency then p.store.agencyItems - 1 else p.store.agencyItems } }
    else p

/-- Whether the copy store grants a block to an agency item (R59). -/
def Part.blockGranted (p : Part) : Bool :=
  0 < p.store.freeBlocks && p.store.agencyBlocks < Config.agencyBlockLimit

/-- The chain of an item is empty or its last block is full (R59). -/
def Item.chainFull (it : Item) : Bool := it.body.length == Config.blockSize * it.blocks

/-- One block leaves the pool for the chain of agency item `n` (R59). -/
def takeBlock (n : Nat) (p : Part) : Part :=
  let p := { p with store := { p.store with
    freeBlocks := p.store.freeBlocks - 1, agencyBlocks := p.store.agencyBlocks + 1 } }
  p.modItem n fun it => { it with blocks := it.blocks + 1 }

/-! ### Statistics and signatures -/

/-- The statistics after one more character, from the reference class and from whether it begins a line (R48). -/
def countChr (ref : Shift) (begins : Bool) (c : Chr) (st : Stats) : Stats :=
  { printable := if c = lineEndChr then st.printable else st.printable + 1
    lineEnds := if c = lineEndChr then st.lineEnds + 1 else st.lineEnds
    caseChanges := match caseOf c with
      | some cls => if cls = ref then st.caseChanges else st.caseChanges + 1
      | none => st.caseChanges
    lines := if begins then st.lines + 1 else st.lines }

/-- The reference class after a character (R48). -/
def refAfter (ref : Shift) (c : Chr) : Shift :=
  if c = lineEndChr then .letters
  else match caseOf c with
    | some cls => cls
    | none => ref

/-- The next character of this body begins a line (R48). -/
def beginsLine (body : Text) : Bool :=
  match body.getLast? with
  | none => true
  | some c => c = lineEndChr

/-- The statistics of a whole text (R70). -/
def statsAux : Shift → Bool → Text → Stats → Stats
  | _, _, [], st => st
  | ref, begins, c :: cs, st => statsAux (refAfter ref c) (c = lineEndChr) cs (countChr ref begins c st)

def statsOf (t : Text) : Stats :=
  statsAux .letters true t { printable := 0, lineEnds := 0, caseChanges := 0, lines := 0 }

/-- Append the signature of a line, if the list has room (R49). -/
def addSignature (sum : Nat) (sigs : List Nat) : List Nat :=
  if sigs.length < Config.signedLines then sigs ++ [sum] else sigs

/-- Store one character in the body of item `n` of line `l`: body, statistics, sum and signatures (R47–R49). -/
def storeChr (l : LineNo) (n : Nat) (c : Chr) (p : Part) : Part :=
  let fr := p.fr l
  let p := p.modItem n fun it => { it with
    body := it.body ++ [c]
    stats := countChr fr.ref (beginsLine it.body) c it.stats
    signatures := if c = lineEndChr then addSignature fr.sum it.signatures else it.signatures }
  p.modFr l fun fr => { fr with
    ref := refAfter fr.ref c
    sum := if c = lineEndChr then 0 else if c = spaceChr then fr.sum else (fr.sum + c * (fr.pos + 1)) % 65536
    pos := if c = lineEndChr then 0 else if c = spaceChr then fr.pos else fr.pos + 1 }

/-- Append one character to the body of item `n`, in a new block where the chain is full (R47, R59). -/
def appendChr (l : LineNo) (n : Nat) (c : Chr) (p : Part) : Part :=
  storeChr l n c (if (p.item n).chainFull then takeBlock n p else p)

/-- Sign the final unterminated line of an item that ends (R49). -/
def signLast (sum : Nat) (it : Item) : Item :=
  if it.stats.lineEnds < it.stats.lines then { it with signatures := addSignature sum it.signatures } else it

end Sys2Proof.Machine
end

