-- ==== Sys2Proof/Machine/Queues.lean ====
section
/-! DEFINITION. Dispatch queues: order, eligibility, the choice of the next entry, pending breaks, ages and removal
(chapter 6).  What a sender does at a selection or a break is in Machine/Senders.lean. -/

namespace Sys2Proof.Machine

/-! ### Queue order (R96) -/

/-- Place an entry at the tail of its class group (R97). -/
def placeLast (e : Entry) : List Entry → List Entry
  | [] => [e]
  | x :: xs => if x.cls ≤ e.cls then x :: placeLast e xs else e :: x :: xs

/-- Place an entry at the head of its class group (R107, R108). -/
def placeFirst (e : Entry) : List Entry → List Entry
  | [] => [e]
  | x :: xs => if x.cls < e.cls then x :: placeFirst e xs else e :: x :: xs

/-- The queue without its entry for item `n`. -/
def without (n : Nat) (es : List Entry) : List Entry := es.filter fun e => e.item != n

/-- The entry that an arrival of class `cls` displaces: of the entries without a resume offset and of a larger class,
the last of the largest class (R98). -/
def displaceable (cls : Nat) (es : List Entry) : Option Entry :=
  es.foldl (fun best e =>
    if e.resume.isNone && cls < e.cls then
      match best with
      | none => some e
      | some b => if b.cls ≤ e.cls then some e else some b
    else best) none

/-! ### Eligibility (R99) -/

/-- The body offset from which an entry has to print. -/
def startPoint (e : Entry) : Nat :=
  match e.resume with
  | some r => r.offset
  | none => 0

/-- A queued entry of item `it` is eligible (R99). -/
def readyFor (it : Item) (e : Entry) : Bool :=
  (startPoint e < it.committed || it.ended) && (e.mode == .send || it.ended)

def Part.eligible (p : Part) (e : Entry) : Bool := readyFor (p.item e.item) e

/-! ### Selection (R101, R102) -/

/-- The turn line of an entry's source: 0–7 for lines, 8 for unit items. -/
def turnOf (source : Option LineNo) : Nat :=
  match source with
  | some l => l.val
  | none => 8

/-- The next turn line in the cyclic order 0, 1, …, 7, 8, 0. -/
def nextTurn (t : Nat) : Nat := if t < 8 then t + 1 else 0

/-- The first line from `t` on, of the `fuel` next ones in the cyclic order, that has one of these entries, with its
first entry. -/
def findTurn (es : List Entry) : Nat → Nat → Option (Nat × Entry)
  | 0, _ => none
  | fuel + 1, t =>
    match es.find? fun e => turnOf e.source == t with
    | some e => some (t, e)
    | none => findTurn es fuel (nextTurn t)

/-- What a selection takes: the entry, whether step 2 of R102 took it, and the turn line and count after it. -/
structure Choice where
  entry : Entry
  byTurn : Bool
  turn : Nat
  turnLines : Nat
  deriving DecidableEq, Repr

/-- What is taken of these eligible entries, in queue order, by the mode in force (R101, R102). -/
def chooseFrom (q : Queue) (ready : List Entry) : Option Choice :=
  match q.force.mode with
  | .priority =>
    ready.head?.map fun e => { entry := e, byTurn := false, turn := q.turn, turnLines := q.turnLines }
  | .rotation =>
    match ready.find? fun e => e.cls ≤ q.force.preempt with
    | some e => some { entry := e, byTurn := false, turn := q.turn, turnLines := q.turnLines }
    | none =>
      (findTurn ready 9 q.turn).map fun (t, e) =>
        { entry := e, byTurn := true, turn := t, turnLines := if t = q.turn then q.turnLines else 0 }

/-- The selection against the queue as it stands; it is made when the current slot is empty (R100). -/
def Part.choose (p : Part) (c : CircNo) : Option Choice :=
  if (p.q c).current.isSome then none else chooseFrom (p.q c) ((p.q c).entries.filter p.eligible)

/-- An entry leaves the queue and enters the current slot in one act (R104). -/
def takeEntry (c : CircNo) (ch : Choice) (cseq : Nat) (p : Part) : Part :=
  p.modQ c fun q => { q with
    entries := without ch.entry.item q.entries, current := some { ch.entry with cseq := some cseq }
    byTurn := ch.byTurn, turn := ch.turn, turnLines := ch.turnLines }

/-- The resume point of the current entry is set at a break (R107). -/
def interruptAt (c : CircNo) (r : Resume) (p : Part) : Part :=
  p.modQ c fun q => { q with current := q.current.map fun e => { e with resume := some r } }

/-- A broken-off entry returns to the head of its class group (R107, R108). -/
def giveBack (c : CircNo) (e : Entry) (p : Part) : Part :=
  p.modQ c fun q => { q with entries := placeFirst e q.entries, current := none }

/-- The turn ends: one step of the turn line (R103). -/
def endTurn (q : Queue) : Queue := { q with turn := nextTurn q.turn, turnLines := 0 }

/-! ### Pending breaks (R105, R106) -/

/-- The CLASS reason still holds for a current entry of class `cls` (R106). -/
def Part.classHolds (p : Part) (c : CircNo) (cls : Nat) : Bool :=
  (p.q c).entries.any fun e => p.eligible e && e.cls ≤ (p.q c).force.preempt && e.cls < cls

/-- The QUANTUM reason still holds (R106). -/
def Part.quantumHolds (p : Part) (c : CircNo) : Bool :=
  (p.q c).entries.any fun e =>
    p.eligible e && (p.q c).force.preempt < e.cls && turnOf e.source != (p.q c).turn

/-- The class of the current entry. -/
def Queue.currentClass (q : Queue) : Nat :=
  match q.current with
  | some e => e.cls
  | none => 0

/-- A pending QUANTUM break is due at a check. -/
def Part.quantumDue (p : Part) (c : CircNo) : Bool := (p.q c).breakQuantum && p.quantumHolds c

/-- Some reason of the pending break holds at a check (R106). -/
def Part.breakDue (p : Part) (c : CircNo) : Bool :=
  ((p.q c).breakClass && p.classHolds c (p.q c).currentClass) || p.quantumDue c

def clearBreak (c : CircNo) (p : Part) : Part :=
  p.modQ c fun q => { q with breakClass := false, breakQuantum := false }

/-- Entry `e` calls for a break of class (R105). -/
def callsClass (q : Queue) (e : Entry) : Bool :=
  q.current.isSome && 1 ≤ q.force.preempt && e.cls ≤ q.force.preempt && e.cls < q.currentClass

/-- The quantum of the current entry's turn is used up (R105). -/
def quantumUsed (q : Queue) : Bool :=
  q.current.isSome && q.force.mode == .rotation && q.byTurn && 1 ≤ q.force.quantum && q.force.quantum ≤ q.turnLines

/-- Entry `e` waits for a turn other than the one being served (R105). -/
def Part.callsQuantum (p : Part) (c : CircNo) (e : Entry) : Bool :=
  quantumUsed (p.q c) && p.eligible e && (p.q c).force.preempt < e.cls && turnOf e.source != (p.q c).turn

/-- Add the reasons that an entry inserted, or become eligible, gives for a break (R105). -/
def addReasons (c : CircNo) (e : Entry) (p : Part) : Part :=
  let quantum := p.callsQuantum c e
  p.modQ c fun q => { q with
    breakClass := q.breakClass || callsClass q e
    breakQuantum := q.breakQuantum || quantum }

/-- The end of a body output line is counted in the turn, and the quantum tested at the line end at which the count
reaches it (R103, R105). -/
def countTurnLine (c : CircNo) (p : Part) : Part :=
  let q := p.q c
  if q.byTurn then
    let n := if q.turnLines < 255 then q.turnLines + 1 else q.turnLines
    let reached := q.current.isSome && q.force.mode == .rotation && 1 ≤ q.force.quantum && n == q.force.quantum
      && q.turnLines < n && p.quantumHolds c
    p.modQ c fun q => { q with turnLines := n, breakQuantum := q.breakQuantum || reached }
  else p

/-- The turn at the removal of a current entry at the end of its trailer or kill line (R103). -/
def turnAtItemEnd (q : Queue) : Queue :=
  if q.byTurn && (q.force.quantum == 0 || q.force.quantum ≤ q.turnLines) then endTurn q else q

/-! ### Ages (R110, R111) -/

/-- The age limit of a class in minutes; 0 is no limit. -/
def Queue.ageLimit (q : Queue) (cls : Nat) : Nat :=
  match cls with
  | 1 => q.ages[0]
  | 2 => q.ages[1]
  | 3 => q.ages[2]
  | 4 => q.ages[3]
  | _ => q.ages[4]

/-- A queued entry is at or past the age limit for its class, and has never been broken off (R110). -/
def overdue (clock : Nat) (q : Queue) (e : Entry) : Bool :=
  e.resume.isNone && q.ageLimit e.cls != 0 && q.ageLimit e.cls * 60 ≤ clock - e.admitted

/-! ### Removal (R112) -/

/-- What every removal does once the entry has left its place: holders, backlog, and the examination for freeing. -/
def released (c : CircNo) (n : Nat) (p : Part) : Part :=
  examineFree n (recompute c (p.modItem n fun it => { it with holders := it.holders - 1 }))

/-- Remove the queued entry for item `n`, if the queue holds one. -/
def removeQueued (c : CircNo) (n : Nat) (p : Part) : Part :=
  if (p.q c).entries.any fun e => e.item == n then
    released c n (p.modQ c fun q => { q with entries := without n q.entries })
  else p

/-- Remove the current entry. -/
def removeCurrent (c : CircNo) (p : Part) : Part :=
  match (p.q c).current with
  | some e => released c e.item (p.modQ c fun q => { q with current := none })
  | none => p

/-- Owe a kill notice with this cseq (R113, R137). -/
def owe (c : CircNo) (cseq : Nat) (p : Part) : Part := p.modTx c fun tx => { tx with owed := tx.owed ++ [cseq] }

/-- Remove a queued entry by a lapse (R110). -/
def lapseEntry (c : CircNo) (e : Entry) (p : Part) : Part :=
  let p := removeQueued c e.item p
  raise .lapsed c (p.modTally c fun t => { t with lapsed := bump t.lapsed })

/-- The queued entries of a circuit that are past their age limit, in queue order. -/
def Part.overdueEntries (p : Part) (c : CircNo) : List Entry := (p.q c).entries.filter (overdue p.clock (p.q c))

end Sys2Proof.Machine
end

