-- ==== Sys2Proof/Machine/Senders.lean ====
section
/-! DEFINITION. Circuit senders: the output lines, selection points, breaks, kill lines, waits, trailers and holds
(chapter 7, with the queue's side of a selection and a break from chapter 6). -/

namespace Sys2Proof.Machine

/-! ### Parameters in force (R120, R121) -/

/-- Width, margin, fills and unshift-on-line-end come into force at the start of an output line (R121). -/
def bringLine (tx : Sender) : Sender :=
  { tx with force := { tx.ordered with rate := tx.force.rate, code := tx.force.code } }

/-- Rate and code come into force in IDLE or HELD; a change of code puts the shift state in letters (R120). -/
def bringCode (tx : Sender) : Sender :=
  { tx with
    force := { tx.force with rate := tx.ordered.rate, code := tx.ordered.code }
    shift := if tx.force.code = tx.ordered.code then tx.shift else .letters }

/-- The sender becomes IDLE, with nothing left to send (R100). -/
def enterIdle (c : CircNo) (p : Part) : Part :=
  p.modTx c fun tx => bringCode { tx with state := .idle, job := .none, out := [] }

/-- The sender becomes HELD (R138). -/
def enterHeld (c : CircNo) (pos : HeldPos) (p : Part) : Part :=
  let p := p.modQ c fun q => { q with stall := none }
  p.modTx c fun tx =>
    bringCode { tx with state := .held, heldPos := pos, holdPending := false, job := .none, out := [] }

/-! ### Beginning an output line -/

def lineJob : LineKind → Job
  | .heading => .heading
  | .body => .none
  | .trailer => .trailer
  | .breakLine => .breakLine
  | .killLine => .killLine
  | .owed => .owed

/-- The text of an output line other than a body line, as formed when the line starts (R127, R133, R134, R136, R137);
the heading is cut at the width (R128). -/
def Part.lineText (p : Part) (c : CircNo) (kind : LineKind) : Text :=
  match kind, (p.q c).current with
  | .heading, some e => (headingText e (p.item e.item)).take (p.tx c).force.width
  | .trailer, some e => trailerText (p.item e.item) (e.cseq.getD 0)
  | .breakLine, some e => breakText (e.cseq.getD 0)
  | .killLine, some e => killText (e.cseq.getD 0)
  | .owed, _ => killText ((p.tx c).owed.headD 0)
  | _, _ => []

/-- The frames of a whole output line: its characters with their shifts, and its line end (R124, R125). -/
def lineFrames (tx : Sender) (t : Text) : List Frame :=
  textFrames tx.force.code tx.shift t ++ lineEndFrames tx.force.code tx.force.fills

/-- Begin the start line end: CR, LF and at least one fill, with the values in force as it begins (R142). -/
def sendStartEnd (c : CircNo) (kind : LineKind) (p : Part) : Part :=
  p.modTx c fun tx => { tx with
    job := .startEnd kind, out := lineEndFrames tx.force.code (max 1 tx.force.fills) }

/-- Begin an output line other than a body line, after the start line end if its mark is set (R142).  The values ordered
come into force as the line itself begins (R121). -/
def beginLine (c : CircNo) (kind : LineKind) (p : Part) : Part :=
  if (p.tx c).startMark then sendStartEnd c kind p
  else
    let p := p.modTx c bringLine
    let text := p.lineText c kind
    p.modTx c fun tx => { tx with job := lineJob kind, out := lineFrames tx text }

/-- Stop the stall timer (R109). -/
def stopStall (c : CircNo) (p : Part) : Part := p.modQ c fun q => { q with stall := none }

/-- Begin a line in NOTICE (Table 7-2). -/
def beginNotice (c : CircNo) (kind : LineKind) (p : Part) : Part :=
  beginLine c kind (stopStall c (p.modTx c fun tx => { tx with state := .notice }))

/-! ### Breaks (R107, R134) -/

/-- Take a break: the resume point, the tally, and the break line; a break for the quantum ends the turn (R103). -/
def takeBreak (c : CircNo) (quantum : Bool) (p : Part) : Part :=
  let tx := p.tx c
  let p := interruptAt c { offset := tx.offset, line := tx.lineNo } p
  let p := p.modTally c fun t => { t with breaks := bump t.breaks }
  let p := clearBreak c p
  let p := if quantum then p.modQ c endTurn else p
  beginNotice c .breakLine p

/-- Check the pending break: take it, or clear it and go on with `cont` (R106). -/
def checkBreak (c : CircNo) (cont : Part → Part) (p : Part) : Part :=
  if p.breakDue c then takeBreak c (p.quantumDue c) p else cont (clearBreak c p)

/-! ### Selection points (R100, R104) -/

/-- The entry chosen becomes current, takes a cseq if it has none, and its heading line begins (R104, R126, R128). -/
def becomeCurrent (c : CircNo) (ch : Choice) (p : Part) : Part :=
  let seq := (p.tx c).nextCseq
  let next := if ch.entry.cseq.isSome then seq else if seq < 9999 then seq + 1 else 1
  let p := p.modTx c fun tx => { tx with state := .heading, job := .none, nextCseq := next }
  beginLine c .heading (takeEntry c ch (ch.entry.cseq.getD seq) p)

/-- Make the selection; with nothing eligible the sender is IDLE (R100). -/
def select (c : CircNo) (p : Part) : Part :=
  match p.choose c with
  | some ch => becomeCurrent c ch p
  | none => enterIdle c p

/-- A selection point: the ordered mode, P and Q come into force, the pending break is cleared, owed kill notices go
first, and then the selection is made (R100, R137). -/
def selectionPoint (c : CircNo) (p : Part) : Part :=
  let p := clearBreak c (p.modQ c fun q => { q with force := q.ordered })
  if (p.tx c).owed = [] then select c p else beginNotice c .owed p

/-! ### The trailer and the kill line (R133, R136) -/

/-- The current entry's item has its killed mark set. -/
def Part.currentKilled (p : Part) (c : CircNo) : Bool :=
  match (p.q c).current with
  | some e => (p.item e.item).killed
  | none => false

/-- Enter TRAILER, reading the killed mark: the trailer, or the kill line in its place, after a line end if the column
is not 0.  `next` is where a line after the unterminated one would start. -/
def enterTrailer (c : CircNo) (next : Nat) (p : Part) : Part :=
  let killed := p.currentKilled c
  let p := stopStall c (p.modTx c fun tx => { tx with state := if killed then .notice else .trailer })
  if (p.tx c).column = 0 then beginLine c (if killed then .killLine else .trailer) p
  else p.modTx c fun tx => { tx with
    job := .lastEnd next killed, out := lineEndFrames tx.force.code tx.force.fills }

/-! ### Body output lines (R129–R132) -/

/-- The last offset at or after `lo` at which a space stands, counting from `i`. -/
def lastSpaceAux (lo : Nat) : Text → Nat → Option Nat → Option Nat
  | [], _, best => best
  | c :: cs, i, best => lastSpaceAux lo cs (i + 1) (if c = spaceChr && lo ≤ i then some i else best)

/-- A body output line: its characters, where the next line starts, and whether it is the unterminated last line. -/
structure BodyLine where
  text : Text
  next : Nat
  last : Bool
  deriving DecidableEq, Repr

/-- The formation of the body output line that starts at offset `k` of the committed characters `body` (R130). -/
def formLine (body : Text) (ended : Bool) (width margin k : Nat) : BodyLine :=
  let rest := body.drop k
  let head := rest.take width
  match head.findIdx? (· == lineEndChr) with
  | some j => { text := rest.take j, next := k + j + 1, last := false }
  | none =>
    if ended && rest.length ≤ width then { text := rest, next := k + rest.length, last := true }
    else if rest[width]? = some spaceChr || rest[width]? = some lineEndChr then
      { text := head, next := k + width + 1, last := false }
    else match lastSpaceAux (width - margin) head 0 none with
      | some j => { text := rest.take j, next := k + j + 1, last := false }
      | none => { text := head, next := k + width, last := false }

/-- What the examination of R129 finds. -/
inductive BodyStep where
  | done
  | line (ln : BodyLine)
  | wait
  deriving DecidableEq, Repr

/-- The examination of an item at send offset `k` (R129). -/
def bodyStep (it : Item) (width margin k : Nat) : BodyStep :=
  let copy := it.body.take it.committed
  if it.ended then
    if it.body.length ≤ k then .done else .line (formLine copy true width margin k)
  else if width + 1 ≤ it.committed - k || ((copy.drop k).take (width + 1)).contains lineEndChr then
    .line (formLine copy false width margin k)
  else .wait

/-- Send a formed body line in COPY (R131). -/
def sendBody (c : CircNo) (ln : BodyLine) (p : Part) : Part :=
  stopStall c (p.modTx c fun tx => { tx with
    state := .copy, job := .body ln.next ln.last
    out := if ln.last then textFrames tx.force.code tx.shift ln.text else lineFrames tx ln.text })

/-- Enter WAITING: the stall timer starts, and a pending break is checked at once (R106, R109, R132). -/
def enterWaiting (c : CircNo) (p : Part) : Part :=
  let p := p.modTx c fun tx => { tx with state := .waiting, job := .none, out := [] }
  checkBreak c (fun p => p) (p.modQ c fun q => { q with stall := some q.stallTime })

/-- What the sender of circuit `c` finds at its send offset, with the parameters in force. -/
def Part.examined (p : Part) (c : CircNo) : BodyStep :=
  match (p.q c).current with
  | some e => bodyStep (p.item e.item) (p.tx c).force.width (p.tx c).force.margin (p.tx c).offset
  | none => .wait

/-- Start the next body output line, after the start line end if its mark is set (R121, R129, R142). -/
def startBody (c : CircNo) (p : Part) : Part :=
  if (p.tx c).startMark then sendStartEnd c .body p
  else
    let p := p.modTx c bringLine
    match p.examined c with
    | .done => enterTrailer c (p.tx c).offset p
    | .line ln => sendBody c ln p
    | .wait => enterWaiting c p

/-- A WAITING sender examines its item again, at a commit event of it (R121, R132). -/
def examineWaiting (c : CircNo) (p : Part) : Part :=
  let p := p.modTx c bringLine
  match p.examined c with
  | .done => enterTrailer c (p.tx c).offset p
  | .line ln => sendBody c ln p
  | .wait => p

/-- The first two steps of R131 at the end of a body output line. -/
def endBodyLine (c : CircNo) (next : Nat) (p : Part) : Part :=
  countTurnLine c (p.modTx c fun tx => { tx with offset := next, lineNo := tx.lineNo + 1 })

/-- The item of the current entry has ended and its body has all been sent. -/
def Part.bodySent (p : Part) (c : CircNo) : Bool :=
  match (p.q c).current with
  | some e => (p.item e.item).ended && (p.item e.item).body.length ≤ (p.tx c).offset
  | none => false

/-! ### The end of an output line -/

/-- The current entry is removed at the end of its trailer or kill line (R103, R114, R133, R136). -/
def completeEntry (c : CircNo) (p : Part) : Part :=
  let p := removeCurrent c p
  let p := p.modTally c fun t => { t with done := bump t.done }
  p.modQ c turnAtItemEnd

/-- A hold takes effect with a selection point due, or the selection point falls (R133, R134, R136, R137). -/
def holdOrSelect (c : CircNo) (p : Part) : Part :=
  if (p.tx c).holdPending then enterHeld c .selectionDue p else selectionPoint c p

/-- The send offset and the line number of the current entry take its start point (R128, R134). -/
def setStart (c : CircNo) (p : Part) : Part :=
  let resume := (p.q c).current.bind (·.resume)
  p.modTx c fun tx => match resume with
    | some r => { tx with offset := r.offset, lineNo := r.line }
    | none => { tx with offset := 0, lineNo := 1 }

/-- The end of a heading line (R128).  A hold keeps the start point for the line that FREE begins (R139). -/
def headingDone (c : CircNo) (p : Part) : Part :=
  if p.currentKilled c then beginNotice c .killLine p
  else if (p.tx c).holdPending then enterHeld c (.lineEnd false) (setStart c p)
  else startBody c (setStart c p)

/-- The end of a body output line (R131). -/
def bodyDone (c : CircNo) (next : Nat) (p : Part) : Part :=
  let p := endBodyLine c next p
  if p.currentKilled c then beginNotice c .killLine p
  else if (p.tx c).holdPending then enterHeld c (.lineEnd true) p
  else if p.bodySent c then startBody c p
  else checkBreak c (startBody c) p

/-- The end of a break line: an entry killed during it is removed with a notice owed; any other stands at the head of
its class group as its most recently interrupted entry, and the selection is made against the queue with it
(R107, R113, R134). -/
def breakDone (c : CircNo) (p : Part) : Part :=
  match (p.q c).current with
  | some e =>
    if (p.item e.item).killed then holdOrSelect c (owe c (e.cseq.getD 0) (removeCurrent c p))
    else holdOrSelect c (giveBack c e p)
  | none => holdOrSelect c p

/-- The end of an owed kill notice (R137). -/
def owedDone (c : CircNo) (p : Part) : Part :=
  let p := p.modTx c fun tx => { tx with owed := tx.owed.tail }
  if (p.tx c).holdPending then enterHeld c .selectionDue p
  else if (p.tx c).owed = [] then select c p
  else beginLine c .owed p

/-- What a RESTART WARM makes of a sender that has no frame in progress, or has completed the one it had: IDLE at column 0
in letters, nothing owed, no hold pending, the start line end due, and the rate and code ordered in force (R120, R141). -/
def warmIdle (tx : Sender) : Sender :=
  bringCode { tx with
    state := .idle, column := 0, shift := .letters, owed := [], holdPending := false, heldPos := .nothingDue
    startMark := true, job := .none, out := [] }

/-- The frame that a RESTART WARM let finish has ended: the sender becomes IDLE, with a hold that is pending cleared
whenever it was given, and the first moment at which the queue holds an eligible entry is a selection point (R100, R141;
notes/assumptions/20.md). -/
def warmDone (c : CircNo) (p : Part) : Part :=
  let p := p.modTx c warmIdle
  if (p.q c).entries.any p.eligible then selectionPoint c p else p

/-- What follows when the last frame of a job has been sent. -/
def jobDone (c : CircNo) (job : Job) (p : Part) : Part :=
  match job with
  | .none => p
  | .startEnd kind =>
    let p := p.modTx c fun tx => { tx with startMark := false }
    match kind with
    | .body => startBody c p
    | _ => beginLine c kind p
  | .heading => headingDone c p
  | .body next last => if last then enterTrailer c next p else bodyDone c next p
  | .lastEnd next kill => beginLine c (if kill then .killLine else .trailer) (endBodyLine c next p)
  | .trailer => holdOrSelect c (completeEntry c p)
  | .breakLine => breakDone c p
  | .killLine => holdOrSelect c (completeEntry c p)
  | .owed => owedDone c p
  | .warmFrame => warmDone c p

/-! ### One frame (R123, R124, R125) -/

/-- The frames of a job belong to the current entry (R123). -/
def Job.ofEntry : Job → Bool
  | .heading | .body _ _ | .lastEnd _ _ | .trailer | .breakLine | .killLine => true
  | .none | .startEnd _ | .owed | .warmFrame => false

/-- The column and the shift state after a frame; `last` says that it ends its output line (R13, R124, R125). -/
def frameEnded (f : Frame) (last : Bool) (tx : Sender) : Sender :=
  let shift := match f.code, f.sort with
    | .five, .figs => Shift.figures
    | .five, .ltrs => .letters
    | .five, .fill => .letters
    | _, _ => tx.shift
  let ends := last && (f.sort = .lf || f.sort = .fill)
  { tx with
    column := match f.sort with
      | .printing => tx.column + 1
      | .cr => 0
      | _ => tx.column
    shift := if ends && (1 ≤ tx.force.fills || tx.force.unshift) then .letters else shift }

/-- The frame in progress on a circuit ends: tally, spent, backlog, column and shift, and what its output line's end
brings (R123).  A circuit that sends no frame has none to end. -/
def frameSent (c : CircNo) (p : Part) : Part :=
  match (p.tx c).out with
  | [] => p
  | f :: rest =>
    let job := (p.tx c).job
    let p := p.modTx c fun tx => { frameEnded f (rest = []) tx with out := rest }
    let p := p.modTally c fun t => { t with sent := bump t.sent }
    let p := if job.ofEntry then spendOne c p else p
    if rest = [] then jobDone c job p else p

end Sys2Proof.Machine
end

