-- ==== Sys2Proof/Machine/Admission.lean ====
section
/-! DEFINITION. Insertion and displacement (R97, R98), unit items and notices (R69–R75, R191), commit events (R50), the gate
and diversion (R152–R154), and routing (R81–R84). -/

namespace Sys2Proof.Machine

/-! ### Insertion (R97, R98) -/

/-- An entry that has been inserted, or has become eligible, is reviewed: a selection point at an IDLE sender, and
otherwise the reasons that it gives for a break, checked at once while the sender is WAITING (R97, R99, R105, R106). -/
def review (c : CircNo) (e : Entry) (p : Part) : Part :=
  if (p.tx c).state = .idle then selectionPoint c p
  else
    let p := addReasons c e p
    if (p.tx c).state = .waiting ∧ ((p.q c).breakClass ∨ (p.q c).breakQuantum) then checkBreak c (fun p => p) p
    else p

/-- The circuit is sending the break line of its current entry. -/
def Part.inBreakLine (p : Part) (c : CircNo) : Bool :=
  (p.q c).current.isSome && ((p.tx c).job == .breakLine || (p.tx c).job == .startEnd .breakLine)

/-- The entries that count against the queue's 32 (R97). -/
def Part.queueCount (p : Part) (c : CircNo) : Nat :=
  (p.q c).entries.length + if p.inBreakLine c then 1 else 0

/-- An insertion request (R97). -/
structure Request where
  item : Nat
  cls : Nat
  mode : RepeatMode
  diverted : Bool
  deriving DecidableEq, Repr

/-- What becomes of an insertion request. -/
inductive Inserted where
  | done
  | duplicate
  | full
  deriving DecidableEq, Repr

/-- The entry that a request creates on circuit `c`, with its first estimate (R93, R146). -/
def Part.newEntry (p : Part) (c : CircNo) (r : Request) : Entry :=
  reestimated p c
    { item := r.item, cls := r.cls, source := (p.item r.item).source, admitted := p.clock, mode := r.mode
      resume := none, cseq := none, estimate := 0, spent := 0, diverted := r.diverted }

/-- Create and place the entry of a request (R97 step 2). -/
def putEntry (c : CircNo) (r : Request) (p : Part) : Part :=
  let e := p.newEntry c r
  let p := p.modQ c fun q => { q with entries := placeLast e q.entries }
  recompute c (p.modItem r.item fun it => { it with holders := it.holders + 1 })

/-- Insert the entry of a request, and review it (R97). -/
def placeEntry (c : CircNo) (r : Request) (p : Part) : Part := review c (p.newEntry c r) (putEntry c r p)

/-- Remove an entry by a displacement (R98). -/
def displaceEntry (c : CircNo) (e : Entry) (p : Part) : Part :=
  let p := removeQueued c e.item p
  raise .displaced c (p.modTally c fun t => { t with displaced := bump t.displaced })

/-- A dispatch queue takes an insertion request (R97, R98). -/
def insert (c : CircNo) (r : Request) (p : Part) : Inserted × Part :=
  if (p.q c).held.any fun e => e.item == r.item then (.duplicate, p)
  else if p.queueCount c < Config.queueSize then (.done, placeEntry c r p)
  else match displaceable r.cls (p.q c).entries with
    | some e => (.done, placeEntry c r (displaceEntry c e p))
    | none => (.full, raise .queueFull c p)

/-! ### Unit items (R69–R73) -/

/-- The descriptor of a unit item (R70). -/
def unitItem (n serial : Nat) (slug body : Text) (clock : Nat) : Item :=
  { num := n, state := .closed, source := none, serial := serial, cls := 2, category := txt "QD", slug := slug
    take := 1, kind := .new, body := body, blocks := blocksFor body.length, committed := body.length
    stats := statsOf body, signatures := [], verdict := none, killed := false, holders := 0, received := clock }

/-- Create a unit item in descriptor `n`, with its blocks from the pool (R69). -/
def addUnit (n serial : Nat) (slug body : Text) (p : Part) : Part :=
  { p.addItem (unitItem n serial slug body p.clock) with
    store := { p.store with freeBlocks := p.store.freeBlocks - blocksFor body.length } }

/-- Make a unit item and hand it to the desk circuit's queue, or answer `none` where a descriptor or blocks are lacking
(R69, R73). -/
def makeUnit (serial : Nat) (slug body : Text) (p : Part) : Option Part :=
  match p.lowestFree with
  | none => none
  | some n =>
    if blocksFor body.length ≤ p.store.freeBlocks then
      match insert p.orders.desk { item := n, cls := 2, mode := .send, diverted := false } (addUnit n serial slug body p) with
      | (.done, p) => some p
      | (_, p) => some (examineFree n p)
    else none

/-- A unit item that cannot be made is lost (R69, R194). -/
def loseUnit (p : Part) : Part :=
  raise .storeFull 0 (p.setAlarm { p.alarm with lost := bump p.alarm.lost })

/-- Make the notice of an edge (R72, R191). -/
def makeNotice (line : Text) (p : Part) : Part :=
  match makeUnit p.alarm.serial (txt "ALARM") (line ++ [lineEndChr]) p with
  | some p => p.setAlarm { p.alarm with serial := if p.alarm.serial < 9999 then p.alarm.serial + 1 else 1 }
  | none => loseUnit p

/-- Make the notices whose edges have fallen, and those that making them calls for (R75, R191). -/
def settleAux : Nat → Part → Part
  | 0, p => p
  | fuel + 1, p =>
    match p.alarm.owing with
    | [] => p
    | line :: rest => settleAux fuel (makeNotice line (p.setAlarm { p.alarm with owing := rest }))

/-- Every flag has at most one edge in a step, so eleven more notices than stand owing are enough. -/
def settle (p : Part) : Part := settleAux (p.alarm.owing.length + 11) p

/-- A raise that is an act of its own: its notice is made at once (R188). -/
def raiseNow (f : Flag) (m : Fin 8) (p : Part) : Part := settle (raise f m p)

/-! ### Answers (R71, R176) -/

/-- The leading lines whose total length, line ends included, is at most `room` (R71). -/
def linesWithin : Nat → List Text → List Text
  | _, [] => []
  | room, t :: ts => if t.length + 1 ≤ room then t :: linesWithin (room - (t.length + 1)) ts else []

/-- The body of a list of lines: each line with its line end (R69). -/
def bodyOfLines (lines : List Text) : Text := lines.flatMap fun t => t ++ [lineEndChr]

/-- The answer body, capped at 1,536 characters (R71). -/
def answerBody (lines : List Text) : Text :=
  if (bodyOfLines lines).length ≤ Config.answerMax then bodyOfLines lines
  else bodyOfLines (linesWithin Config.answerKept lines ++ [txt "TRUNCATED"])

/-- Create an answer item under the unit address in force (R70, R176). -/
def makeAnswer (serial : Nat) (lines : List Text) (p : Part) : Part :=
  let p := settle p
  settle (match makeUnit serial p.orders.address (answerBody lines) p with
    | some p => p
    | none => loseUnit p)

/-! ### Commit events (R50) -/

/-- Circuit `c` takes a commit event of item `n`, which stood as `old` before it: a WAITING sender examines the item
again, and a queued entry that becomes eligible is reviewed (R99, R132). -/
def commitOn (n : Nat) (old : Item) (c : CircNo) (p : Part) : Part :=
  match (p.q c).held.find? fun e => e.item == n with
  | none => p
  | some e =>
    if ((p.q c).current.map (·.item)) = some n then
      if (p.tx c).state = .waiting then examineWaiting c p else p
    else if !readyFor old e && p.eligible e then review c e p
    else p

/-- Advance the committed length of item `n` to its body length and hand the commit event on (R50); `old` is the item
before the event that the commit belongs to. -/
def commit (n : Nat) (old : Item) (p : Part) : Part :=
  let p := p.modItem n fun it => { it with committed := it.body.length }
  (reestimateItem n p).eachCirc (commitOn n old)

/-! ### The gate and diversion (R152–R154) -/

/-- The alternate that a request refused by circuit `c` is tried on (R153). -/
def alternateFor (rt : Route) (c : CircNo) : Option CircNo :=
  match rt.alt with
  | some a => if a = c ∨ a ∈ rt.circuits then none else some a
  | none => none

def countShed (c : CircNo) (p : Part) : Part := p.modTally c fun t => { t with shed := bump t.shed }

def countDiverted (c : CircNo) (p : Part) : Part := p.modTally c fun t => { t with diverted := bump t.diverted }

/-- A request that the gate of circuit `c` refuses (R153). -/
def divert (rt : Route) (n cls : Nat) (c : CircNo) (p : Part) : Part :=
  match alternateFor rt c with
  | none => countShed c p
  | some a =>
    if gateAdmits (p.load a).state cls then
      match insert a { item := n, cls := cls, mode := rt.mode, diverted := true } p with
      | (.done, p) => countDiverted c p
      | (_, p) => countShed c p
    else countShed c p

/-- One admission request, decided whole (R152–R154). -/
def offer (rt : Route) (n cls : Nat) (c : CircNo) (p : Part) : Part :=
  settle (if gateAdmits (p.load c).state cls then
    match insert c { item := n, cls := cls, mode := rt.mode, diverted := false } p with
    | (.duplicate, p) => countShed c p
    | (_, p) => p
  else divert rt n cls c p)

/-! ### Routing (R81–R84) -/

/-- The keys that a lookup seeks, level by level (Table 5-2). -/
def lookupKeys (l : LineNo) (category : Text) : List RouteKey :=
  [{ line := some l, category := some category }, { line := none, category := some category },
    { line := some l, category := none }, { line := none, category := none }]

/-- The route of an item of category `category` on line `l` in a bank (R81). -/
def lookup (bank : List Route) (l : LineNo) (category : Text) : Option Route :=
  (lookupKeys l category).findSome? fun k => bank.find? fun rt => rt.key == k

/-- Route item `n` of line `l` through the active bank (R81–R84). -/
def routeItem (l : LineNo) (n : Nat) (p : Part) : Part :=
  match lookup p.banks.active l (p.item n).category with
  | none => { p with unrouted := bump p.unrouted }
  | some rt =>
    let cls := rt.cls.getD (p.item n).cls
    rt.circuits.foldl (fun p c => offer rt n cls c p) p

end Sys2Proof.Machine
end

