-- ==== Sys2Proof/Machine/Repeats.lean ====
section
/-! DEFINITION. Kills, rewrites, the slug history and the verdict (chapter 9). -/

namespace Sys2Proof.Machine

/-! ### Purges (R158–R163) -/

/-- `it` matches the key of a kill by `k` (R158). -/
def killMatches (k it : Item) : Bool :=
  it.source == k.source && it.category == k.category && it.slug == k.slug && it.kind != .kill

/-- `it` matches the key of a rewrite by `r`, its place in the grant order apart (R158). -/
def rewriteMatches (r it : Item) : Bool := killMatches r it && it.take == r.take

/-- The descriptors that stand earlier in the grant order than descriptor `n` (R63). -/
def Part.olderThan (p : Part) (n : Nat) : List Item := p.items.takeWhile fun it => it.num != n

/-- The kill purge removes a queued entry; an interrupted one owes a kill notice (R113, R160). -/
def killQueued (c : CircNo) (e : Entry) (p : Part) : Part :=
  let p := removeQueued c e.item p
  if e.resume.isSome then owe c (e.cseq.getD 0) p else p

/-- The kill purge reaches the current entry of a circuit, according to the sender's state (R135, R160). -/
def killCurrent (c : CircNo) (e : Entry) (p : Part) : Part :=
  match (p.tx c).state with
  | .waiting => beginNotice c .killLine p
  | .held =>
    let p := owe c (e.cseq.getD 0) (removeCurrent c p)
    p.modTx c fun tx => { tx with heldPos := .selectionDue }
  | .idle | .notice | .heading | .copy | .trailer => p

/-- The kill purge reaches the current entry of a circuit if it is of one of these items. -/
def killCurrentOf (ns : List Nat) (c : CircNo) (p : Part) : Part :=
  match (p.q c).current with
  | some e => if ns.contains e.item then killCurrent c e p else p
  | none => p

/-- The kill purge on one circuit, for the items of these numbers; a notice owed at an IDLE sender brings a selection
point (R137, R160). -/
def killOn (ns : List Nat) (c : CircNo) (p : Part) : Part :=
  let p := ((p.q c).entries.filter fun e => ns.contains e.item).foldl (fun p e => killQueued c e p) p
  let p := killCurrentOf ns c p
  if (p.tx c).state == .idle && (p.tx c).owed != [] then selectionPoint c p else p

/-- Set the killed mark of the items that `f` holds of (R159). -/
def markKilled (f : Item → Bool) (p : Part) : Part :=
  { p with items := p.items.map fun it => if f it then { it with killed := true } else it }

/-- The kill purge by item `n` (R159). -/
def killPurge (n : Nat) (p : Part) : Part :=
  let k := p.item n
  let ns := (p.items.filter (killMatches k)).map (·.num)
  let p := (markKilled (killMatches k) p).eachCirc (killOn ns)
  p.setHistory { p.history with
    entries := p.history.entries.filter fun h =>
      !(some h.line == k.source && h.category == k.category && h.slug == k.slug) }

/-- The rewrite purge by item `n`: queued entries without a resume offset, of older items of the same take (R163). -/
def rewritePurge (n : Nat) (p : Part) : Part :=
  let r := p.item n
  let ns := ((p.olderThan n).filter (rewriteMatches r)).map (·.num)
  p.eachCirc fun c p =>
    ((p.q c).entries.filter fun e => e.resume.isNone && ns.contains e.item).foldl
      (fun p e => removeQueued c e.item p) p

/-! ### The verdict (R164–R169) -/

/-- The changed lines D of two signature lists (R167). -/
def changedLines : List Nat → List Nat → Nat
  | [], new => new.length
  | old, [] => old.length
  | a :: old, b :: new => (if a = b then 0 else 1) + changedLines old new

/-- The history entry has the key of item `it`, of line `l` (R167). -/
def keyOf (l : LineNo) (it : Item) (h : HistEntry) : Bool :=
  h.line == l && h.category == it.category && h.slug == it.slug && h.take == it.take

/-- The history entry that a verdict on item `it` leaves at the tail (R167, R168). -/
def historyEntry (l : LineNo) (it : Item) : HistEntry :=
  { line := l, category := it.category, slug := it.slug, take := it.take, signatures := it.signatures
    lastUse := it.received }

/-- The comparison of an item with the history: the verdict and the history after it (R167, R168). -/
def compareWith (l : LineNo) (it : Item) (h : History) : Verdict × History :=
  match h.entries.find? (keyOf l it) with
  | some old =>
    (if changedLines old.signatures it.signatures ≤ h.threshold then .nearRepeat else .fresh,
      { h with entries := h.entries.filter (fun x => !keyOf l it x) ++ [historyEntry l it] })
  | none =>
    (.fresh, { h with entries :=
      (if Config.historySize ≤ h.entries.length then h.entries.tail else h.entries) ++ [historyEntry l it] })

/-- The effect of NEAR_REPEAT on the queued entry of item `n` on one circuit, if it has one there (R169). -/
def repeatOn (n : Nat) (c : CircNo) (p : Part) : Part :=
  match (p.q c).entries.find? fun e => e.item == n with
  | none => p
  | some e =>
    match e.mode with
    | .suppress => removeQueued c n (p.modTally c fun t => { t with suppressed := bump t.suppressed })
    | .mark => p.modTally c fun t => { t with marked := bump t.marked }
    | .send => p

/-- The verdict on item `n` at its close (R166). -/
def verdict (n : Nat) (p : Part) : Part :=
  let it := p.item n
  match it.source with
  | none => p
  | some l =>
    if it.kind = .kill then p
    else if it.killed then p.modItem n fun it => { it with verdict := some .fresh }
    else
      let r := compareWith l it p.history
      let p := (p.setHistory r.2).modItem n fun it => { it with verdict := some r.1 }
      match r.1 with
      | .nearRepeat => p.eachCirc (repeatOn n)
      | .fresh => p

end Sys2Proof.Machine
end

