-- ==== Sys2Proof/Machine/Framers.lean ====
section
/-! DEFINITION. Item framers: sequences, headings, bodies, the ways an item ends, order items and line interruptions
(chapter 3, with the order buffer of R173 and R174). -/

namespace Sys2Proof.Machine

def countBetween (l : LineNo) (p : Part) : Part :=
  p.modLineTally l fun t => { t with between := bump t.between }

def countAccepted (l : LineNo) (p : Part) : Part :=
  p.modLineTally l fun t => { t with accepted := bump t.accepted }

def countRefused (l : LineNo) (p : Part) : Part :=
  p.modLineTally l fun t => { t with refused := bump t.refused }

/-- Put a framer in a state; the heading buffer is emptied whenever HEADING is left or entered, and the heading start flag
is set at every entry into it (R38).  DESIGN CHOICE: the flag is clear in every other state (notes/assumptions/30.md). -/
def toState (l : LineNo) (st : FramerState) (p : Part) : Part :=
  p.modFr l fun fr => { fr with state := st, heading := [], headStart := st == .heading }

/-! ### The heading (R38–R42) -/

/-- What a heading gives (R41, R42). -/
structure Heading where
  serial : Nat
  cls : Nat
  category : Text
  slug : Text
  take : Nat
  kind : Kind
  deriving DecidableEq, Repr

/-- The class of a heading: 0 is taken as 1, and 6 to 9 as 5 (R41). -/
def clampClass (n : Nat) : Nat := if n = 0 then 1 else if 5 < n then 5 else n

/-- A take token, T and one to three digits: 0 is taken as 1, more than 99 as 99 (R42). -/
def takeToken (t : Text) : Option Nat :=
  match t with
  | 21 :: ds => if ds.length ≤ 3 then (numeral ds).map fun n => if n = 0 then 1 else min n 99 else none
  | _ => none

/-- A kind mark (R42). -/
def kindToken (t : Text) : Option Kind :=
  if t = txt "RW" then some .rewrite
  else if t = txt "CO" then some .correction
  else if t = txt "KL" then some .kill
  else none

/-- The kind of an item by its last kind mark and its take (R42). -/
def kindOf (mark : Option Kind) (take : Nat) : Kind :=
  match mark with
  | some k => k
  | none => if take = 1 then .new else .add

/-- The heading of a buffer, or `none` for a heading fault (R41, R42). -/
def parseHeading (buffer : Text) : Option Heading :=
  match tokens buffer with
  | serial :: cls :: category :: slug :: marks =>
    match numeral serial, numeral cls with
    | some s, some k =>
      if serial.length ≤ 4 && cls.length = 1 && isTwoLetters category && isSlug slug then
        let take := ((marks.filterMap takeToken).getLast?).getD 1
        some { serial := s, cls := clampClass k, category := category, slug := cutSlug slug, take := take
               kind := kindOf (marks.filterMap kindToken).getLast? take }
      else none
    | _, _ => none
  | _ => none

/-- A heading fault that leads to DISCARD (R41). -/
def headingFault (l : LineNo) (p : Part) : Part :=
  raiseNow .headingFault l (countRefused l (toState l .discard p))

/-! ### The end of the heading (R43–R45) -/

def noWord (word : String) : List Text := [txt "NO " ++ txt word]

/-- An order heading (R43, R174). -/
def orderHeading (l : LineNo) (h : Heading) (p : Part) : Part :=
  if !(p.rx l).desk then raiseNow .orderFault l (countRefused l (toState l .discard p))
  else match p.orders.buffer with
    | .free =>
      countAccepted l (toState l .order (p.setBuffer (.collecting l h.serial [] [])))
    | _ => makeAnswer h.serial (noWord "BUSY") (countRefused l (toState l .discard p))

/-- The descriptor that an item of line `l` is granted (R45). -/
def agencyItem (n : Nat) (l : LineNo) (h : Heading) (clock : Nat) : Item :=
  { num := n, state := .filling, source := some l, serial := h.serial, cls := h.cls, category := h.category
    slug := h.slug, take := h.take, kind := h.kind, body := [], blocks := 0, committed := 0
    stats := { printable := 0, lineEnds := 0, caseChanges := 0, lines := 0 }
    signatures := [], verdict := none, killed := false, holders := 0, received := clock }

/-- Descriptor `n` is granted to an item of line `l`, whose framer is to receive it (R45, R49, R62). -/
def grantItem (l : LineNo) (n : Nat) (h : Heading) (p : Part) : Part :=
  let p := { p.addItem (agencyItem n l h p.clock) with
    store := { p.store with agencyItems := p.store.agencyItems + 1 } }
  p.modFr l fun fr => { fr with item := some n, sum := 0, pos := 0, ref := .letters }

/-- The purge that the kind of item `n` calls for (R158). -/
def purgeFor (kind : Kind) (n : Nat) (p : Part) : Part :=
  match kind with
  | .kill => settle (killPurge n p)
  | .rewrite => settle (rewritePurge n p)
  | .new | .add | .correction => p

/-- A heading of ordinary copy (R44, R45, R62). -/
def copyHeading (l : LineNo) (h : Heading) (p : Part) : Part :=
  match (if p.store.agencyItems < Config.agencyItemLimit then p.lowestFree else none) with
  | none => raiseNow .tableFull l (countRefused l (toState l .discard p))
  | some n =>
    countAccepted l (toState l .body (routeItem l n (purgeFor h.kind n (grantItem l n h p))))

/-- A line end has ended the heading (R39, R41, R43). -/
def endHeading (l : LineNo) (p : Part) : Part :=
  match parseHeading (p.fr l).heading with
  | none => headingFault l p
  | some h =>
    if h.category = txt "QD" ∧ h.slug = p.orders.address then orderHeading l h p else copyHeading l h p

/-- A character released to the heading sink (R39). -/
def headingChr (l : LineNo) (c : Chr) (p : Part) : Part :=
  let fr := p.fr l
  if fr.headStart && (c = spaceChr || c = lineEndChr) then p
  else if c = lineEndChr then endHeading l p
  else if fr.heading.length < Config.headingSize then
    p.modFr l fun fr => { fr with heading := fr.heading ++ [c], headStart := false }
  else countBetween l (headingFault l p)

/-! ### The body and the ends of an item (R46–R53) -/

/-- Item `n` of line `l` ends: its final unterminated line is signed, and it is no longer the framer's (R51, R53). -/
def endItem (l : LineNo) (n : Nat) (state : ItemState) (verdict : Option Verdict) (p : Part) : Part :=
  let sum := (p.fr l).sum
  (p.modFr l fun fr => { fr with item := none }).modItem n fun it =>
    { signLast sum it with state := state, verdict := verdict }

/-- An item in BODY ends as BROKEN (R53); the framer's next state is the caller's. -/
def breakItem (l : LineNo) (p : Part) : Part :=
  match (p.fr l).item with
  | none => p
  | some n =>
    settle (examineFree n (commit n (p.item n) (endItem l n .broken (some .fresh) p)))

/-- The closing sequence closes an item in BODY (R51). -/
def closeItem (l : LineNo) (p : Part) : Part :=
  match (p.fr l).item with
  | none => p
  | some n =>
    settle (examineFree n (commit n (p.item n) (verdict n (endItem l n .closed none p))))

/-- A character released to the body sink (R47, R50, R59). -/
def bodyChr (l : LineNo) (c : Chr) (p : Part) : Part :=
  match (p.fr l).item with
  | none => p
  | some n =>
    if (p.item n).chainFull && !p.blockGranted then
      countBetween l (raiseNow .storeFull l (toState l .discard (breakItem l p)))
    else
      let p := appendChr l n c p
      let it := p.item n
      let r := (p.fr l).release
      if 0 < r && r ≤ it.body.length - it.committed then settle (commit n it p) else p

/-! ### Order items (R54, R55, R173) -/

/-- The order of line `l` is abandoned: the buffer is released and the item answered (R54, R55, R174). -/
def abandonOrder (l : LineNo) (word : String) (p : Part) : Part :=
  match p.orders.buffer with
  | .collecting owner serial _ _ =>
    if owner = l then
      makeAnswer serial (noWord word) (p.setBuffer .free)
    else p
  | _ => p

/-- A character released to the order sink (R54). -/
def orderChr (l : LineNo) (c : Chr) (p : Part) : Part :=
  match p.orders.buffer with
  | .collecting owner serial lines cur =>
    if c = lineEndChr then
      if cur = [] then p
      else p.setBuffer (.collecting owner serial (lines ++ [cur]) [])
    else if cur.length = Config.orderWidth || (cur = [] && lines.length = Config.orderLines) then
      countBetween l (toState l .discard (abandonOrder l "LONG" p))
    else p.setBuffer (.collecting owner serial lines (cur ++ [c]))
  | _ => p

/-- The check letters of a list of order lines (R173). -/
def checkLetters (orders : List Text) : Text :=
  let q := (orders.map List.sum).sum % 676
  [2 + q / 26, 2 + q % 26]

/-- The last line is CK and the check letters of the lines before it (R173). -/
def checkRight (lines : List Text) : Bool :=
  match lines.getLast? with
  | none => false
  | some ck => tokens ck == [txt "CK", checkLetters lines.dropLast]

/-- The order lines with the one being collected, if it has a character (R54). -/
def withLast (lines : List Text) (cur : Text) : List Text := if cur = [] then lines else lines ++ [cur]

/-- An order item is complete (R55, R173, R175): it fails as a whole, or has no orders and is answered OK, or begins
to execute. -/
def closeOrder (l : LineNo) (p : Part) : Part :=
  match p.orders.buffer with
  | .collecting _ serial lines cur =>
    let lines := withLast lines cur
    if checkRight lines then
      if lines.dropLast = [] then (makeAnswer serial [txt "OK"] p).setBuffer .free
      else p.setBuffer (.executing l serial lines.dropLast 0 [])
    else (makeAnswer serial (noWord "CHECK") (raiseNow .orderFault l p)).setBuffer .free
  | _ => p

/-! ### Sequences (R34–R36, R40, R51, R52, R55, R56) -/

/-- One character is released to the current sink (R35). -/
def releaseChr (l : LineNo) (c : Chr) (p : Part) : Part :=
  match (p.fr l).state with
  | .hunt | .discard => countBetween l p
  | .heading => headingChr l c p
  | .body => bodyChr l c p
  | .order => orderChr l c p

/-- A match of the opening sequence. -/
def matchOpening (l : LineNo) (p : Part) : Part :=
  match (p.fr l).state with
  | .hunt | .discard => toState l .heading p
  | .heading => raiseNow .headingFault l (countRefused l (toState l .heading p))
  | .body => toState l .heading (raiseNow .runOn l (breakItem l p))
  | .order => toState l .heading (abandonOrder l "INCOMPLETE" p)

/-- A match of the closing sequence, which HUNT does not watch. -/
def matchClosing (l : LineNo) (p : Part) : Part :=
  match (p.fr l).state with
  | .hunt => p
  | .heading => raiseNow .headingFault l (countRefused l (toState l .hunt p))
  | .body => toState l .hunt (closeItem l p)
  | .order => closeOrder l (toState l .hunt p)
  | .discard => toState l .hunt p

/-- A proper prefix of a sequence. -/
def properPrefix (t sequence : Text) : Bool := t.isPrefixOf sequence && t.length < sequence.length

/-- The examination of a candidate string (R34). -/
def examine (l : LineNo) : Text → Part → Part
  | [], p => p
  | c :: cs, p =>
    let fr := p.fr l
    let closes := fr.state != .hunt
    if c :: cs = fr.opening then matchOpening l p
    else if closes && c :: cs = fr.closing then matchClosing l p
    else if properPrefix (c :: cs) fr.opening || (closes && properPrefix (c :: cs) fr.closing) then
      p.modFr l fun fr => { fr with held := c :: cs }
    else examine l cs (releaseChr l c p)

/-- The framer takes one delivery of its receiver (R34). -/
def deliver (l : LineNo) (c : Chr) (p : Part) : Part :=
  examine l ((p.fr l).held ++ [c]) (p.modFr l fun fr => { fr with held := [] })

/-- The held string is released, oldest first, without examination (R36, R37). -/
def releaseHeld (l : LineNo) (p : Part) : Part :=
  (p.fr l).held.foldl (fun p c => releaseChr l c p) (p.modFr l fun fr => { fr with held := [] })

/-- A line interruption (R36). -/
def interrupt (l : LineNo) (p : Part) : Part :=
  let p := releaseHeld l p
  match (p.fr l).state with
  | .hunt => p
  | .heading | .discard => toState l .hunt p
  | .body => toState l .hunt (breakItem l p)
  | .order => toState l .hunt (abandonOrder l "INCOMPLETE" p)

end Sys2Proof.Machine
end

