-- ==== Sys2Proof/Machine/Receivers.lean ====
section
/-! DEFINITION. Line receivers: level changes, the noise check, frames, the line-end stage, OPEN, PARKED and line restarts
(chapter 2); and the meanings of the commands that fall on a line from outside. -/

namespace Sys2Proof.Machine

/-- The phase of a receiver that begins to hunt: a space already in place is waited out (R16). -/
def huntPhase (pin : Level) : RxPhase := if pin = .space then .waitMark else .hunting

/-- What entry into OPEN, entry into PARKED and a line restart do to the reading of frames (R19, R21): a frame in
progress is dropped, the shift state is letters and no carriage return is pending. -/
def dropFrame (rx : Receiver) : Receiver :=
  { rx with phase := huntPhase rx.pin, shift := .letters, pendingCR := false }

/-- A line enters OPEN (R22).  The wait for mark ends; OPEN takes no frames. -/
def enterOpen (l : LineNo) (p : Part) : Part :=
  let p := p.modRx l fun rx => { dropFrame rx with cond := .opened, phase := .hunting, spaceTimer := none }
  let p := p.modLineTally l fun t => { t with opens := bump t.opens }
  interrupt l (raiseNow .lineOpen l p)

/-- PARK ON (R24). -/
def parkLine (l : LineNo) (p : Part) : Part :=
  if (p.rx l).cond = .parked then p
  else interrupt l (p.modRx l fun rx => { dropFrame rx with cond := .parked, phase := .hunting, spaceTimer := none })

/-- PARK OFF (R24). -/
def unparkLine (l : LineNo) (p : Part) : Part :=
  if (p.rx l).cond = .parked then
    p.modRx l fun rx => { rx with
      cond := .ready, phase := huntPhase rx.pin, spaceTimer := if rx.pin = .space then some 0 else none }
  else p

/-- A line restart, with the rate and code now in force (R26). -/
def restartLine (l : LineNo) (p : Part) : Part :=
  interrupt l (p.modRx l fun rx => { dropFrame rx with
    phase := if rx.cond = .ready then huntPhase rx.pin else .hunting })

/-- A new open time, compared with the space timer at once (R27). -/
def setOpenTime (l : LineNo) (seconds : Nat) (p : Part) : Part :=
  let p := p.modRx l fun rx => { rx with openTime := seconds }
  match (p.rx l).cond, (p.rx l).spaceTimer with
  | .ready, some t => if seconds ≤ t then enterOpen l p else p
  | _, _ => p

/-! ### Level changes (R16, R22, R23) -/

/-- The RX pin changes from mark to space.  In READY the space timer starts, and a hunting receiver takes the change as
a possible leading edge; otherwise only the pin has changed (R16, R22, R24).  A pin already at space has no change. -/
def pinToSpace (l : LineNo) (p : Part) : Part :=
  if (p.rx l).pin = .space then p
  else if !p.inReset && (p.rx l).cond = .ready then
    p.modRx l fun rx => { rx with
      pin := .space, spaceTimer := some 0, phase := if rx.phase = .hunting then .noiseCheck else rx.phase }
  else p.modRx l fun rx => { rx with pin := .space }

/-- The RX pin changes from space to mark.  In READY the space timer stops and a wait for mark ends; in OPEN the line
enters READY and hunts; in PARKED only the pin has changed (R17, R22, R23, R24). -/
def pinToMark (l : LineNo) (p : Part) : Part :=
  if (p.rx l).pin = .mark then p
  else if p.inReset then p.modRx l fun rx => { rx with pin := .mark }
  else match (p.rx l).cond with
    | .ready => p.modRx l fun rx => { rx with
        pin := .mark, spaceTimer := none, phase := if rx.phase = .waitMark then .hunting else rx.phase }
    | .opened => p.modRx l fun rx => { rx with pin := .mark, cond := .ready, phase := .hunting, spaceTimer := none }
    | .parked => p.modRx l fun rx => { rx with pin := .mark }

/-- Half a unit after a leading edge the level of the pin decides between a frame and noise (R16).  DESIGN CHOICE for a
space that returned to mark and went back to space before this point: it is accepted, by the level alone, as the levels
between two sample points are not seen (notes/assumptions/29.md). -/
def checkNoise (l : LineNo) (p : Part) : Part :=
  if !p.inReset && (p.rx l).cond = .ready && (p.rx l).phase = .noiseCheck then
    p.modRx l fun rx => { rx with phase := if rx.pin = .mark then .hunting else .frame }
  else p

/-! ### Frames (R17–R21) -/

/-- The line-end stage, for a character (R21). -/
def receiveChr (l : LineNo) (c : Chr) (p : Part) : Part :=
  if (p.rx l).pendingCR then
    deliver l c (deliver l lineEndChr (p.modRx l fun rx => { rx with pendingCR := false }))
  else deliver l c p

/-- The line-end stage, for each result of a frame; a shift function sets the shift state (R18, R19, R21). -/
def receiveResult (l : LineNo) (r : RxResult) (p : Part) : Part :=
  match r with
  | .cr => p.modRx l fun rx => { rx with pendingCR := true }
  | .lf => deliver l lineEndChr (p.modRx l fun rx => { rx with pendingCR := false })
  | .figs => p.modRx l fun rx => { rx with shift := .figures }
  | .ltrs => p.modRx l fun rx => { rx with shift := .letters }
  | .nothing => p
  | .chr c substitution =>
    receiveChr l c (if substitution then
      p.modLineTally l fun t => { t with substitutions := bump t.substitutions } else p)

/-- The parity and data units of a SEVEN frame together hold an odd number of marks (R10, R17). -/
def parityOdd (data : Nat) (parity : Level) : Bool := parity != evenParity data

/-- What a frame without error decodes to on this receiver (R8, R11); a FIVE frame has five data units. -/
def decoded (rx : Receiver) (data : Nat) : RxResult :=
  match rx.code with
  | .five => decodeFive (data % 32) rx.shift
  | .seven => decodeSeven data

/-- A received space on a FIVE line with unshift-on-space ON sets the shift state (R20). -/
def unshifted (rx : Receiver) (data : Nat) : Receiver :=
  if rx.code = .five ∧ rx.unshift ∧ data % 32 = 27 then { rx with shift := .letters } else rx

/-- A frame with a framing error or, on SEVEN, a parity error (R17). -/
def frameFaulty (rx : Receiver) (data : Nat) (parity stop : Level) : Bool :=
  stop == .space || (rx.code == .seven && parityOdd data parity)

/-- A frame in progress completes at its stop sample on a READY line (R17, R18).  The stop sample is the level of the pin:
a space there leaves the receiver waiting for mark, and a mark leaves it hunting with its space timer stopped
(notes/assumptions/6.md).  Where no frame is in progress, and so where an order or a start has ended the frame first, none
completes: nothing is delivered or counted (R18). -/
def frameReceived (l : LineNo) (data : Nat) (parity stop : Level) (p : Part) : Part :=
  if p.inReset || (p.rx l).cond != .ready || (p.rx l).phase != .frame then p
  else
    let rx := p.rx l
    let p := p.modRx l fun rx => { rx with
      pin := stop, phase := huntPhase stop
      spaceTimer := if stop = .mark then none else some (rx.spaceTimer.getD 0) }
    let p := p.modLineTally l fun t => { t with received := bump t.received }
    if frameFaulty rx data parity stop then receiveResult l (.chr subChr true) p
    else receiveResult l (decoded rx data) (p.modRx l fun rx => unshifted rx data)

/-- The space timer of a READY line reaches the open time (R22).  A timer that is not running reaches nothing
(notes/assumptions/8.md).  DESIGN CHOICE for a running timer whose count of seconds is below the open time in force, just
started or after the open time was raised: the command itself says that the open time is reached, and the line opens
(notes/assumptions/5.md). -/
def spaceTimerExpiry (l : LineNo) (p : Part) : Part :=
  if !p.inReset && (p.rx l).cond = .ready && (p.rx l).spaceTimer.isSome then enterOpen l p else p

/-- A second of the part clock (R63), by which the space timers count too (R22; notes/assumptions/5.md). -/
def clockTick (p : Part) : Part :=
  if p.inReset then p
  else
    { p with clock := if p.clock < Config.clockMax then p.clock + 1 else p.clock }.eachLine fun l p =>
      p.modRx l fun rx => { rx with spaceTimer := rx.spaceTimer.map (· + 1) }

/-! ### Meanings -/

/-- FRAME_RECEIVED (R18). -/
def execFrameReceived (l : LineNo) (data : BitVec 7) (parity stop : Level) (s : State) :
    Host.Outcome State Fault Refusal := s.after (frameReceived l data.toNat parity stop)

/-- SPACE_TIMER_EXPIRY (R22). -/
def execSpaceTimerExpiry (l : LineNo) (s : State) : Host.Outcome State Fault Refusal := s.after (spaceTimerExpiry l)

/-- RETURN_TO_MARK (R23). -/
def execReturnToMark (l : LineNo) (s : State) : Host.Outcome State Fault Refusal := s.after (pinToMark l)

/-- LEADING_EDGE (R16, R22). -/
def execLeadingEdge (l : LineNo) (s : State) : Host.Outcome State Fault Refusal := s.after (pinToSpace l)

/-- NOISE_CHECK (R16). -/
def execNoiseCheck (l : LineNo) (s : State) : Host.Outcome State Fault Refusal := s.after (checkNoise l)

/-- CHANGE_BACK_TO_MARK (R17, R22). -/
def execChangeBackToMark (l : LineNo) (s : State) : Host.Outcome State Fault Refusal := s.after (pinToMark l)

/-- PART_CLOCK_TICK (R63). -/
def execPartClockTick (s : State) : Host.Outcome State Fault Refusal := s.after clockTick

end Sys2Proof.Machine
end

