-- ==== Sys2Proof/Machine/OrderForms.lean ====
section
/-! DEFINITION. The forms of orders: reason words, the checks of each value, the orders that pass them, and the reading of an
order line (R87, R88, R172, R175–R185, R192). -/

namespace Sys2Proof.Machine

/-- The reason words that refuse a single order (Table 10-2). -/
inductive Reason where
  | unknown
  | argument
  | range
  | full
  | absent
  deriving DecidableEq, Repr

def reasonWord : Reason → Text
  | .unknown => txt "UNKNOWN"
  | .argument => txt "ARGUMENT"
  | .range => txt "RANGE"
  | .full => txt "FULL"
  | .absent => txt "ABSENT"

/-- The keys of one LINE order (Table 10-3). -/
structure LineKeys where
  rate : Option Rate := none
  code : Option LineCode := none
  openTime : Option Nat := none
  shift : Option Bool := none
  desk : Option Bool := none
  opening : Option Text := none
  closing : Option Text := none
  release : Option Nat := none
  park : Option Bool := none
  deriving DecidableEq, Repr

/-- The keys of one CIRC order (R178). -/
structure CircKeys where
  rate : Option Rate := none
  code : Option LineCode := none
  width : Option Nat := none
  margin : Option Nat := none
  fills : Option Nat := none
  unshift : Option Bool := none
  mode : Option QueueMode := none
  preempt : Option Nat := none
  quantum : Option Nat := none
  stall : Option Nat := none
  age1 : Option Nat := none
  age2 : Option Nat := none
  age3 : Option Nat := none
  age4 : Option Nat := none
  age5 : Option Nat := none
  loadOn : Option Nat := none
  congOn : Option Nat := none
  hyst : Option Nat := none
  deriving DecidableEq, Repr

/-- An order whose form and values have passed their checks (Table 10-1). -/
inductive Order where
  | line (l : LineNo) (keys : LineKeys)
  | circ (c : CircNo) (keys : CircKeys)
  | route (rt : Route)
  | unroute (key : RouteKey)
  | copybank
  | enact
  | hold (c : CircNo)
  | free (c : CircNo)
  | purge (c : Option CircNo) (slug : Option Text)
  | showCirc (c : CircNo)
  | showLine (l : LineNo)
  | tally
  | tallyZero
  | alarm
  | alarmClear (fs : List Flag)
  | alarmMask (fs : List Flag) (on : Bool)
  | alarmNotice (fs : List Flag) (on : Bool)
  | repeatShow
  | repeatSet (t : Nat)
  | desk (c : CircNo)
  | unit (address : Text)
  | restartWarm
  | restartCold
  deriving DecidableEq, Repr

/-- The outcome of the checks of an order. -/
inductive Checked (α : Type) where
  | ok (x : α)
  | no (r : Reason)
  deriving DecidableEq, Repr

def Checked.bind {α β : Type} (x : Checked α) (f : α → Checked β) : Checked β :=
  match x with
  | .ok a => f a
  | .no r => .no r

def Checked.map {α β : Type} (f : α → β) (x : Checked α) : Checked β := x.bind fun a => .ok (f a)

/-! ### Checks of values -/

/-- A line or circuit number is a single digit: 8 and 9 are out of range, a longer number is malformed (R172, R175). -/
def checkEight (n : Nat) : Checked (Fin 8) :=
  if h : n < 8 then .ok ⟨n, h⟩ else if n ≤ 9 then .no .range else .no .argument

/-- A number of at most seven digits, within a range (R172, R175). -/
def checkRange (lo hi n : Nat) : Checked Nat := if lo ≤ n ∧ n ≤ hi then .ok n else .no .range

def checkRate (n : Nat) : Checked Rate :=
  match Rate.ofBaud n with
  | some r => .ok r
  | none => .no .range

/-- A release length: 0, or 32–4096 (R32). -/
def checkRelease (n : Nat) : Checked Nat := if n = 0 ∨ (32 ≤ n ∧ n ≤ 4096) then .ok n else .no .range

/-- A sequence: 2 to 6 letters, differing from the other one as it will stand (R32). -/
def checkSequence (other t : Text) : Checked Text :=
  if 2 ≤ t.length ∧ t.length ≤ 6 ∧ t.all isLetter ∧ t ≠ other then .ok t else .no .range

/-- A category: ANY (`none`) or two letters (R87). -/
def checkCategory (t : Option Text) : Checked (Option Text) :=
  match t with
  | none => .ok none
  | some t => if isTwoLetters t then .ok (some t) else .no .argument

/-- The line of a route key: ANY (`none`) or a single digit (R87). -/
def checkRouteLine (n : Option Nat) : Checked (Option LineNo) :=
  match n with
  | none => .ok none
  | some n => (checkEight n).map some

/-- A set of circuits from its digits, in ascending order. -/
def circuitsOf (ds : List Nat) : List CircNo := allEight.filter fun c => ds.contains c.val

/-- A circuit set by its digits; no digits is NONE.  Its form is checked before its range (R87). -/
def checkSet (ds : List Nat) : Checked (List CircNo) :=
  if 8 < ds.length ∨ ¬ ds.Nodup ∨ ds.any (9 < ·) then .no .argument
  else if ds.any (7 < ·) then .no .range
  else .ok (circuitsOf ds)

/-- A class in an order: a single digit, 1–5 (R87). -/
def checkClass (k : Option Nat) : Checked (Option Nat) :=
  match k with
  | none => .ok none
  | some k => if 9 < k then .no .argument else if 1 ≤ k ∧ k ≤ 5 then .ok (some k) else .no .range

/-- The optional slug of a PURGE, cut to 12 characters (R179). -/
def checkSlug (t : Option Text) : Checked (Option Text) :=
  match t with
  | none => .ok none
  | some t => if isSlug t then .ok (some (cutSlug t)) else .no .argument

def checkFlags (p : FlagPick) : Checked (List Flag) :=
  match pickFlags p with
  | some fs => .ok fs
  | none => .no .argument

def checkAddress (t : Text) : Checked Text := if isTwoLetters t then .ok t else .no .argument

/-- The thresholds of a circuit as they would stand after an order with these keys (R150). -/
def thresholdsAfter (k : CircKeys) (ld : Load) : Load :=
  { ld with
    loadOn := k.loadOn.getD ld.loadOn, congOn := k.congOn.getD ld.congOn, hyst := k.hyst.getD ld.hyst }

/-- The relation HYST < LOAD_ON ≤ CONG_ON, tested when the order carries a threshold key (R150, R178). -/
def checkThresholds (p : Part) (c : CircNo) (k : CircKeys) : Checked Order :=
  let ld := thresholdsAfter k (p.load c)
  if (k.loadOn.isSome || k.congOn.isSome || k.hyst.isSome) && !(ld.hyst < ld.loadOn && ld.loadOn ≤ ld.congOn) then
    .no .range
  else .ok (.circ c k)

/-! ### Reading tokens of an order line (R172) -/

/-- A token that should be a number (R172). -/
def readNumber (t : Text) : Checked Nat :=
  match numeral t with
  | none => .no .argument
  | some n => if 7 < t.length then .no .range else .ok n

/-- A token that should be a single digit (R172). -/
def readDigit (t : Text) : Checked Nat :=
  match t with
  | [c] => if isDigit c then .ok (c - 28) else .no .argument
  | _ => .no .argument

def readEight (t : Text) : Checked (Fin 8) := (readDigit t).bind checkEight

def readOnOff (t : Text) : Checked Bool :=
  if t = txt "ON" then .ok true else if t = txt "OFF" then .ok false else .no .argument

def readCode (t : Text) : Checked LineCode :=
  if t = txt "FIVE" then .ok .five else if t = txt "SEVEN" then .ok .seven else .no .argument

def readMode (t : Text) : Checked QueueMode :=
  if t = txt "PRIORITY" then .ok .priority else if t = txt "ROTATION" then .ok .rotation else .no .argument

def readRepeat (t : Text) : Checked RepeatMode :=
  if t = txt "SEND" then .ok .send
  else if t = txt "MARK" then .ok .mark
  else if t = txt "SUPPRESS" then .ok .suppress
  else .no .argument

/-- A number within a range. -/
def readIn (lo hi : Nat) (t : Text) : Checked Nat := (readNumber t).bind (checkRange lo hi)

/-- A key that the order has not given yet takes its value; a repeated key is refused (R87, R175).  DESIGN CHOICE for a
token that repeats a key and holds a value out of its range besides: the repeated key is the fault that is answered, so
ARGUMENT and not RANGE (notes/assumptions/32.md). -/
def once {α K : Type} (given : Option α) (value : Checked α) (put : α → K) : Checked K :=
  if given.isSome then .no .argument else value.map put

/-- The sequence as it will stand after a LINE order with these tokens: the one that a token sets under this key, if it is
2–6 letters, and otherwise the one in force (R32).  DESIGN CHOICE for an order that repeats the key, and so is refused
whatever stands: the first value of 2–6 letters is what the other sequence is compared with, and a value of another form
is passed over (notes/assumptions/34.md). -/
def sequenceIn (key : String) (ts : List Text) (current : Text) : Text :=
  match ts.findSome? fun t => match keyed t with
      | some (k, v) => if k = txt key ∧ 2 ≤ v.length ∧ v.length ≤ 6 ∧ v.all isLetter then some v else none
      | none => none with
  | some v => v
  | none => current

/-- One keyed argument of a LINE order (R177); `opening` and `closing` are the sequences as they will stand. -/
def readLineKey (opening closing : Text) (k : LineKeys) (t : Text) : Checked LineKeys :=
  match keyed t with
  | none => .no .argument
  | some (key, v) =>
    if key = txt "RATE" then once k.rate ((readNumber v).bind checkRate) fun x => { k with rate := some x }
    else if key = txt "CODE" then once k.code (readCode v) fun x => { k with code := some x }
    else if key = txt "OPEN" then once k.openTime (readIn 1 15 v) fun x => { k with openTime := some x }
    else if key = txt "SHIFT" then once k.shift (readOnOff v) fun x => { k with shift := some x }
    else if key = txt "DESK" then once k.desk (readOnOff v) fun x => { k with desk := some x }
    else if key = txt "BEGIN" then once k.opening (checkSequence closing v) fun x => { k with opening := some x }
    else if key = txt "END" then once k.closing (checkSequence opening v) fun x => { k with closing := some x }
    else if key = txt "RELEASE" then
      once k.release ((readNumber v).bind checkRelease) fun x => { k with release := some x }
    else if key = txt "PARK" then once k.park (readOnOff v) fun x => { k with park := some x }
    else .no .argument

/-- One keyed argument of a CIRC order (R178, Tables 6-2, 7-1 and 8-2). -/
def readCircKey (k : CircKeys) (t : Text) : Checked CircKeys :=
  match keyed t with
  | none => .no .argument
  | some (key, v) =>
    if key = txt "RATE" then once k.rate ((readNumber v).bind checkRate) fun x => { k with rate := some x }
    else if key = txt "CODE" then once k.code (readCode v) fun x => { k with code := some x }
    else if key = txt "WIDTH" then once k.width (readIn 32 80 v) fun x => { k with width := some x }
    else if key = txt "MARGIN" then once k.margin (readIn 0 16 v) fun x => { k with margin := some x }
    else if key = txt "FILL" then once k.fills (readIn 0 7 v) fun x => { k with fills := some x }
    else if key = txt "UNSHIFT" then once k.unshift (readOnOff v) fun x => { k with unshift := some x }
    else if key = txt "MODE" then once k.mode (readMode v) fun x => { k with mode := some x }
    else if key = txt "PREEMPT" then once k.preempt (readIn 0 4 v) fun x => { k with preempt := some x }
    else if key = txt "QUANTUM" then once k.quantum (readIn 0 255 v) fun x => { k with quantum := some x }
    else if key = txt "STALL" then once k.stall (readIn 5 255 v) fun x => { k with stall := some x }
    else if key = txt "AGE1" then once k.age1 (readIn 0 255 v) fun x => { k with age1 := some x }
    else if key = txt "AGE2" then once k.age2 (readIn 0 255 v) fun x => { k with age2 := some x }
    else if key = txt "AGE3" then once k.age3 (readIn 0 255 v) fun x => { k with age3 := some x }
    else if key = txt "AGE4" then once k.age4 (readIn 0 255 v) fun x => { k with age4 := some x }
    else if key = txt "AGE5" then once k.age5 (readIn 0 255 v) fun x => { k with age5 := some x }
    else if key = txt "LOADON" then once k.loadOn (readIn 0 999999 v) fun x => { k with loadOn := some x }
    else if key = txt "CONGON" then once k.congOn (readIn 0 999999 v) fun x => { k with congOn := some x }
    else if key = txt "HYST" then once k.hyst (readIn 0 999999 v) fun x => { k with hyst := some x }
    else .no .argument

/-- Read tokens from left to right; the first faulty one decides the reason (R175). -/
def readAll {K : Type} (f : K → Text → Checked K) : K → List Text → Checked K
  | k, [] => .ok k
  | k, t :: ts => (f k t).bind fun k => readAll f k ts

/-- The options of a ROUTE order (R87). -/
structure RouteOptions where
  cls : Option Nat := none
  alt : Option CircNo := none
  mode : Option RepeatMode := none
  deriving DecidableEq, Repr

def readRouteOption (o : RouteOptions) (t : Text) : Checked RouteOptions :=
  match keyed t with
  | none => .no .argument
  | some (key, v) =>
    if key = txt "CLASS" then
      once o.cls ((readDigit v).bind fun k => (checkClass (some k)).map fun _ => k) fun x => { o with cls := some x }
    else if key = txt "ALT" then once o.alt (readEight v) fun x => { o with alt := some x }
    else if key = txt "REPEAT" then once o.mode (readRepeat v) fun x => { o with mode := some x }
    else .no .argument

def readRouteLine (t : Text) : Checked (Option LineNo) :=
  if t = txt "ANY" then .ok none else (readEight t).map some

def readCategory (t : Text) : Checked (Option Text) :=
  if t = txt "ANY" then .ok none else checkCategory (some t)

def readSet (t : Text) : Checked (List CircNo) :=
  if t = txt "NONE" then .ok []
  else if t.all isDigit then checkSet (t.map fun c => c - 28)
  else .no .argument

def routeOf (line : Option LineNo) (category : Option Text) (set : List CircNo) (o : RouteOptions) : Route :=
  { key := { line := line, category := category }, circuits := set, cls := o.cls, alt := o.alt
    mode := o.mode.getD .send }

def readRoute (ts : List Text) : Checked Order :=
  match ts with
  | l :: ts => (readRouteLine l).bind fun l => match ts with
    | c :: ts => (readCategory c).bind fun c => match ts with
      | s :: ts => (readSet s).bind fun s => (readAll readRouteOption {} ts).map fun o => .route (routeOf l c s o)
      | [] => .no .argument
    | [] => .no .argument
  | [] => .no .argument

/-- The order has no token left over (R175). -/
def noMore (ts : List Text) (o : Order) : Checked Order := if ts = [] then .ok o else .no .argument

def readUnroute (ts : List Text) : Checked Order :=
  match ts with
  | l :: ts => (readRouteLine l).bind fun l => match ts with
    | c :: ts => (readCategory c).bind fun c => noMore ts (.unroute { line := l, category := c })
    | [] => .no .argument
  | [] => .no .argument

def readLine (p : Part) (ts : List Text) : Checked Order :=
  match ts with
  | n :: ts => (readEight n).bind fun l =>
    if ts = [] then .no .argument
    else
      let opening := sequenceIn "BEGIN" ts (p.fr l).opening
      let closing := sequenceIn "END" ts (p.fr l).closing
      (readAll (readLineKey opening closing) {} ts).map fun k => .line l k
  | [] => .no .argument

def readCirc (p : Part) (ts : List Text) : Checked Order :=
  match ts with
  | n :: ts => (readEight n).bind fun c =>
    if ts = [] then .no .argument else (readAll readCircKey {} ts).bind fun k => checkThresholds p c k
  | [] => .no .argument

/-- A single circuit argument (R179, R185). -/
def readOne (ts : List Text) (o : CircNo → Order) : Checked Order :=
  match ts with
  | n :: ts => (readEight n).bind fun c => noMore ts (o c)
  | [] => .no .argument

def readPurge (ts : List Text) : Checked Order :=
  match ts with
  | n :: ts =>
    (if n = txt "ALL" then .ok none else (readEight n).map some).bind fun c => match ts with
      | [] => .ok (.purge c none)
      | t :: ts => (checkSlug (some t)).bind fun slug => noMore ts (.purge c slug)
  | [] => .no .argument

def readShow (ts : List Text) : Checked Order :=
  match ts with
  | t :: ts => if t = txt "LINE" then readOne ts .showLine else readOne (t :: ts) .showCirc
  | [] => .no .argument

def readTally (ts : List Text) : Checked Order :=
  match ts with
  | [] => .ok .tally
  | t :: ts => if t = txt "ZERO" then noMore ts .tallyZero else .no .argument

/-- The flags of an ALARM order (R192). -/
def readFlags (ts : List Text) : Checked (List Flag) :=
  if ts = [txt "ALL"] then .ok allFlags
  else
    let fs := ts.filterMap fun t => allFlags.find? fun f => flagName f = t
    if fs.length = ts.length then checkFlags (.names fs) else .no .argument

def readAlarm (ts : List Text) : Checked Order :=
  match ts with
  | [] => .ok .alarm
  | t :: ts =>
    if t = txt "CLEAR" then (readFlags ts).map .alarmClear
    else if t = txt "MASK" then
      (readFlags ts.dropLast).bind fun fs => (readOnOff (ts.getLast?.getD [])).map fun on => .alarmMask fs on
    else if t = txt "NOTICE" then
      (readFlags ts.dropLast).bind fun fs => (readOnOff (ts.getLast?.getD [])).map fun on => .alarmNotice fs on
    else .no .argument

def readRepeatOrder (ts : List Text) : Checked Order :=
  match ts with
  | [] => .ok .repeatShow
  | t :: ts => (readIn 0 48 t).bind fun n => noMore ts (.repeatSet n)

def readUnit (ts : List Text) : Checked Order :=
  match ts with
  | t :: ts => (checkAddress t).bind fun a => noMore ts (.unit a)
  | [] => .no .argument

def readRestart (ts : List Text) : Checked Order :=
  match ts with
  | t :: ts =>
    if t = txt "WARM" then noMore ts .restartWarm
    else if t = txt "COLD" then noMore ts .restartCold
    else .no .argument
  | [] => .no .argument

/-- The check of a whole order line, verb and every argument (R172, R175).  DESIGN CHOICE: a first token with a malformed
joining character, such as one that begins or ends with a colon, is a verb that is not known and is answered UNKNOWN
(notes/assumptions/33.md). -/
def readOrder (line : Text) (p : Part) : Checked Order :=
  match tokens line with
  | [] => .no .unknown
  | verb :: ts =>
    if verb = txt "LINE" then readLine p ts
    else if verb = txt "CIRC" then readCirc p ts
    else if verb = txt "ROUTE" then readRoute ts
    else if verb = txt "UNROUTE" then readUnroute ts
    else if verb = txt "COPYBANK" then noMore ts .copybank
    else if verb = txt "ENACT" then noMore ts .enact
    else if verb = txt "HOLD" then readOne ts .hold
    else if verb = txt "FREE" then readOne ts .free
    else if verb = txt "PURGE" then readPurge ts
    else if verb = txt "SHOW" then readShow ts
    else if verb = txt "TALLY" then readTally ts
    else if verb = txt "ALARM" then readAlarm ts
    else if verb = txt "REPEAT" then readRepeatOrder ts
    else if verb = txt "DESK" then readOne ts .desk
    else if verb = txt "UNIT" then readUnit ts
    else if verb = txt "RESTART" then readRestart ts
    else .no .unknown

end Sys2Proof.Machine
end

