-- ==== Sys2Proof/Machine/Restarts.lean ====
section
/-! DEFINITION. The starts of the part: power-up, RESETn, RESTART WARM and RESTART COLD (R28, R57, R76, R77, R117, R140, R141,
R157, R164, R186, R187, R193), and the meanings of the commands on power and RESETn. -/

namespace Sys2Proof.Machine

/-- The levels on the RX pins. -/
def Part.pins (p : Part) : Vector Level 8 := mapAll (fun x : Line => x.rx.pin) p.lines

/-- A power-up start with these straps, from the part as it stands (R187); only the levels on the pins stay. -/
def powerUp (straps : Straps) (p : Part) : Part := coldPart straps p.pins

/-- RESETn goes low: frames in progress end at once, no space timer runs, and the part is held in reset (R6, R28, R140).
The levels on the pins are those of the lines. -/
def resetLow (p : Part) : Part :=
  { p with
    inReset := true
    lines := mapAll (fun x : Line => { x with rx := { x.rx with phase := huntPhase x.rx.pin, spaceTimer := none } }) p.lines
    circs := mapAll (fun x : Circ => { x with tx := { x.tx with out := [], job := .none } }) p.circs }

/-- A line at RESTART WARM (R28, R57): settings, condition and tallies are kept.  DESIGN CHOICE: the heading start flag is
clear (notes/assumptions/30.md). -/
def warmLine (x : Line) : Line :=
  { x with
    rx := { x.rx with
      phase := if x.rx.cond = .ready then huntPhase x.rx.pin else .hunting
      shift := .letters, pendingCR := false }
    fr := { x.fr with
      state := .hunt, held := [], heading := [], headStart := false, item := none, sum := 0, pos := 0
      ref := .letters } }

/-- A dispatch queue at RESTART WARM (R95, R117). -/
def warmQueue (q : Queue) : Queue :=
  { q with
    entries := [], current := none, byTurn := false, turn := 0, turnLines := 0, breakClass := false
    breakQuantum := false, stall := none }

/-- A circuit sender at RESTART WARM (R117, R141).  A frame in progress is completed first: until its end the sender stands
as it stood, and `warmDone` makes the changes then (notes/assumptions/20.md). -/
def warmSender (tx : Sender) : Sender :=
  match tx.out with
  | [] => warmIdle tx
  | f :: _ => { tx with job := .warmFrame, out := [f] }

/-- A circuit at RESTART WARM: backlog 0 and NORMAL, without an evaluation (R157). -/
def warmCirc (x : Circ) : Circ :=
  { x with q := warmQueue x.q, tx := warmSender x.tx, load := { x.load with backlog := 0, state := .normal } }

/-- A flag at RESTART WARM: cleared, with its masks kept (R193). -/
def warmFlag (f : FlagState) : FlagState := { f with raised := false, members := [] }

/-- RESTART WARM (R186). -/
def warmPart (p : Part) : Part :=
  { p with
    lines := mapAll warmLine p.lines
    items := [], store := coldStore
    circs := mapAll warmCirc p.circs
    history := { p.history with entries := [] }
    orders := { p.orders with buffer := .free }
    alarm := { p.alarm with flags := mapAll warmFlag p.alarm.flags, owing := [] } }

/-- POWER_UP (R187). -/
def execPowerUp (ua : Fin 16) (dr : Fin 4) (s : State) : Host.Outcome State Fault Refusal :=
  s.after (powerUp { ua := ua, dr := dr })

/-- RESETN_LOW (R140). -/
def execResetnLow (s : State) : Host.Outcome State Fault Refusal := s.after resetLow

end Sys2Proof.Machine
end

