-- ==== Sys2Proof/Machine/Reports.lean ====
section
/-! DEFINITION. The report lines of SHOW, SHOW LINE, TALLY, ALARM and REPEAT (R180–R183, R192). -/

namespace Sys2Proof.Machine

def codeWord : LineCode → Text
  | .five => txt "FIVE"
  | .seven => txt "SEVEN"

def senderWord : SenderState → Text
  | .idle => txt "IDLE"
  | .notice => txt "NOTICE"
  | .heading => txt "HEADING"
  | .copy => txt "COPY"
  | .waiting => txt "WAITING"
  | .trailer => txt "TRAILER"
  | .held => txt "HELD"

def overloadWord : Overload → Text
  | .normal => txt "NORMAL"
  | .loaded => txt "LOADED"
  | .congested => txt "CONGESTED"

def condWord : LineCond → Text
  | .ready => txt "READY"
  | .opened => txt "OPEN"
  | .parked => txt "PARKED"

def framerWord : FramerState → Text
  | .hunt => txt "HUNT"
  | .heading => txt "HEADING"
  | .body => txt "BODY"
  | .order => txt "ORDER"
  | .discard => txt "DISCARD"

def modeWord : QueueMode → Text
  | .priority => txt "PRIORITY"
  | .rotation => txt "ROTATION"

/-- A letter followed at once by a number, as in W69. -/
def tagged (letter : String) (n : Nat) : Text := txt letter ++ dec n

/-- The line of a queued entry in a SHOW answer (R180). -/
def entryLine (p : Part) (e : Entry) : Text :=
  let it := p.item e.item
  sentence ([dec e.cls, sourceSerial it, it.slug, tagged "T" it.take, txt "E", dec e.estimate]
    ++ (match e.resume with
      | some r => [txt "INT", tagged "L" r.line]
      | none => [])
    ++ if e.diverted then [txt "DIV"] else [])

/-- The report of SHOW n (R180). -/
def showReport (c : CircNo) (p : Part) : List Text :=
  let q := p.q c
  let tx := p.tx c
  let ld := p.load c
  let o := tx.ordered
  let s := q.ordered
  [sentence ([txt "CIRC", dec c.val, senderWord tx.state] ++ (if tx.holdPending then [txt "HOLDING"] else [])
      ++ [overloadWord ld.state, txt "B", dec ld.backlog, timeText ld.backlog o]),
    sentence (txt "CURRENT" :: match q.current with
      | some e => [sourceSerial (p.item e.item), dec4 (e.cseq.getD 0)]
      | none => [txt "NONE"]),
    sentence [codeWord o.code, dec o.rate.baud, tagged "W" o.width, tagged "M" o.margin, tagged "F" o.fills,
      txt "UNSHIFT", onOff o.unshift],
    sentence [modeWord s.mode, tagged "P" s.preempt, tagged "Q" s.quantum, txt "STALL", dec q.stallTime, txt "AGE",
      dec q.ages[0], dec q.ages[1], dec q.ages[2], dec q.ages[3], dec q.ages[4]],
    sentence [txt "LOADON", dec ld.loadOn, txt "CONGON", dec ld.congOn, txt "HYST", dec ld.hyst],
    sentence [txt "QUEUE", dec q.entries.length]] ++ q.entries.map (entryLine p)

/-- The report of SHOW LINE n (R181). -/
def showLineReport (l : LineNo) (p : Part) : List Text :=
  let rx := p.rx l
  let fr := p.fr l
  [sentence [txt "LINE", dec l.val, condWord rx.cond, framerWord fr.state],
    sentence [codeWord rx.code, dec rx.rate.baud, txt "OPEN", dec rx.openTime, txt "SHIFT", onOff rx.unshift,
      txt "DESK", onOff rx.desk, txt "PARK", onOff (rx.cond == .parked)],
    sentence [txt "BEGIN", fr.opening, txt "END", fr.closing, txt "RELEASE", dec fr.release]]

/-- A line of counts: a heading and then each name with its count. -/
def countsLine (heading : List Text) (counts : List (String × Nat)) : Text :=
  sentence (heading ++ counts.flatMap fun x => [txt x.1, dec x.2])

def lineTallyLine (p : Part) (l : LineNo) : Text :=
  let t := (p.line l).tally
  countsLine [txt "LINE", dec l.val] [("RX", t.received), ("SUB", t.substitutions), ("OPENS", t.opens),
    ("BETWEEN", t.between), ("ACCEPTED", t.accepted), ("REFUSED", t.refused)]

def circTallyLine (p : Part) (c : CircNo) : Text :=
  let t := (p.circ c).tally
  countsLine [txt "CIRC", dec c.val] [("SENT", t.sent), ("DONE", t.done), ("BREAKS", t.breaks), ("LAPSED", t.lapsed),
    ("DISPLACED", t.displaced), ("SHED", t.shed), ("DIVERTED", t.diverted), ("SUPPRESSED", t.suppressed),
    ("MARKED", t.marked)]

/-- The 17 lines of TALLY (R182). -/
def tallyReport (p : Part) : List Text :=
  allEight.map (lineTallyLine p) ++ allEight.map (circTallyLine p)
    ++ [countsLine [] [("UNROUTED", p.unrouted), ("LOST", p.alarm.lost)]]

/-- Every tally of the part set to zero (R194). -/
def zeroTallies (p : Part) : Part :=
  { p with
    lines := mapAll (fun x : Line => { x with tally := coldLineTally }) p.lines
    circs := mapAll (fun x : Circ => { x with tally := coldCircTally }) p.circs
    unrouted := 0
    alarm := { p.alarm with lost := 0 } }

/-- The line of one flag in the report of ALARM alone (R192). -/
def flagLine (p : Part) (f : Flag) : Text :=
  let fs := p.flag f
  sentence ([flagName f, if fs.raised then txt "RAISED" else txt "CLEAR"]
    ++ (if fs.raised then memberWords f fs.members else [])
    ++ [txt "MASK", onOff fs.enabled, txt "NOTICE", onOff fs.notice])

def alarmReport (p : Part) : List Text := allFlags.map (flagLine p)

/-- The words of REPEAT after OK: T, HELD and, for a history that is not empty, AGE (R183). -/
def repeatWords (p : Part) : Text :=
  sentence ([txt "T", dec p.history.threshold, txt "HELD", dec p.history.entries.length]
    ++ match p.history.entries.head? with
      | some h => [txt "AGE", dec ((p.clock - h.lastUse) / 60) ++ txt "M"]
      | none => [])

end Sys2Proof.Machine
end

