-- ==== Sys2Proof/Machine/OrderActs.lean ====
section
/-! DEFINITION. What each accepted order does to the blocks it names (R26, R27, R32, R37, R87–R90, R111, R115, R119, R120, R138,
R139, R147, R150, R165, R177–R192). -/

namespace Sys2Proof.Machine

/-- What the execution of an order gives: the part after it, the words after OK or the reason word, and the report
lines.  `ends` says that the order ends the execution of its item (R175). -/
structure Done where
  part : Part
  words : Checked Text
  report : List Text
  ends : Bool
  deriving DecidableEq, Repr

/-- An order accepted with the plain answer OK. -/
def Done.plain (p : Part) : Done := { part := p, words := .ok [], report := [], ends := false }

/-- An order accepted with words after OK. -/
def Done.with (p : Part) (words : Text) : Done := { part := p, words := .ok words, report := [], ends := false }

/-- An order accepted with report lines. -/
def Done.reporting (p : Part) (report : List Text) : Done :=
  { part := p, words := .ok [], report := report, ends := false }

/-- An order refused as it acts. -/
def Done.refused (p : Part) (r : Reason) : Done := { part := p, words := .no r, report := [], ends := false }

/-! ### LINE (R177) -/

/-- RATE and CODE: the new values, and one restart for both (R26). -/
def setLineCode (l : LineNo) (rate : Option Rate) (code : Option LineCode) (p : Part) : Part :=
  if rate.isSome || code.isSome then
    restartLine l (p.modRx l fun rx => { rx with rate := rate.getD rx.rate, code := code.getD rx.code })
  else p

/-- BEGIN and END: the held string is released and the new sequences are watched (R37). -/
def setSequences (l : LineNo) (opening closing : Option Text) (p : Part) : Part :=
  if opening.isSome || closing.isSome then
    (releaseHeld l p).modFr l fun fr =>
      { fr with opening := opening.getD fr.opening, closing := closing.getD fr.closing }
  else p

/-- PARK (R24). -/
def setPark (l : LineNo) (park : Option Bool) (p : Part) : Part :=
  match park with
  | some true => parkLine l p
  | some false => unparkLine l p
  | none => p

/-- OPEN (R27). -/
def setOpen (l : LineNo) (openTime : Option Nat) (p : Part) : Part :=
  match openTime with
  | some t => setOpenTime l t p
  | none => p

/-- SHIFT and DESK (R27). -/
def setShiftDesk (l : LineNo) (shift desk : Option Bool) (p : Part) : Part :=
  p.modRx l fun rx => { rx with unshift := shift.getD rx.unshift, desk := desk.getD rx.desk }

/-- RELEASE (R50). -/
def setRelease (l : LineNo) (release : Option Nat) (p : Part) : Part :=
  p.modFr l fun fr => { fr with release := release.getD fr.release }

/-- The keys of a LINE order act in the order of Table 10-3 (R177). -/
def actLine (l : LineNo) (k : LineKeys) (p : Part) : Part :=
  let p := setLineCode l k.rate k.code p
  let p := setOpen l k.openTime p
  let p := setShiftDesk l k.shift k.desk p
  let p := setSequences l k.opening k.closing p
  let p := setRelease l k.release p
  setPark l k.park p

/-! ### CIRC (R178) -/

/-- The sender's ordered values; a rate or code comes into force at once in IDLE or HELD (R119, R120). -/
def setSender (c : CircNo) (k : CircKeys) (p : Part) : Part :=
  p.modTx c fun tx =>
    let tx := { tx with ordered :=
      { rate := k.rate.getD tx.ordered.rate, code := k.code.getD tx.ordered.code
        width := k.width.getD tx.ordered.width, margin := k.margin.getD tx.ordered.margin
        fills := k.fills.getD tx.ordered.fills, unshift := k.unshift.getD tx.ordered.unshift } }
    if (k.rate.isSome || k.code.isSome) && (tx.state == .idle || tx.state == .held) then bringCode tx else tx

/-- A WIDTH, MARGIN or FILL order brings one re-estimate of the circuit's entries (R147). -/
def reestimateFor (c : CircNo) (k : CircKeys) (p : Part) : Part :=
  if k.width.isSome || k.margin.isSome || k.fills.isSome then reestimateCirc c p else p

/-- The queue's ordered values, stall time and age limits (R95, R109, R111). -/
def setQueue (c : CircNo) (k : CircKeys) (p : Part) : Part :=
  p.modQ c fun q => { q with
    ordered :=
      { mode := k.mode.getD q.ordered.mode, preempt := k.preempt.getD q.ordered.preempt
        quantum := k.quantum.getD q.ordered.quantum }
    stallTime := k.stall.getD q.stallTime
    ages := #v[k.age1.getD q.ages[0], k.age2.getD q.ages[1], k.age3.getD q.ages[2], k.age4.getD q.ages[3],
      k.age5.getD q.ages[4]] }

/-- The classes whose age limits an order changes. -/
def agedClasses (k : CircKeys) : List Nat :=
  [(1, k.age1), (2, k.age2), (3, k.age3), (4, k.age4), (5, k.age5)].filterMap fun x =>
    if x.2.isSome then some x.1 else none

/-- Every queued entry of a class that is at or past its new limit lapses at once (R111). -/
def lapseClass (c : CircNo) (p : Part) (cls : Nat) : Part :=
  ((p.overdueEntries c).filter fun e => e.cls == cls).foldl (fun p e => lapseEntry c e p) p

/-- New thresholds, and one evaluation (R150, R151, R178). -/
def setThresholds (c : CircNo) (k : CircKeys) (p : Part) : Part :=
  if k.loadOn.isSome || k.congOn.isSome || k.hyst.isSome then evaluate c (p.modLoad c (thresholdsAfter k)) else p

/-- The keys of a CIRC order: the sender's with one re-estimate, the queue's, and the load monitor's (R178). -/
def actCirc (c : CircNo) (k : CircKeys) (p : Part) : Part :=
  let p := setSender c k p
  let p := reestimateFor c k p
  let p := setQueue c k p
  let p := (agedClasses k).foldl (lapseClass c) p
  setThresholds c k p

/-! ### The banks (R87–R90) -/

def setPending (bank : List Route) (p : Part) : Part := { p with banks := { p.banks with pending := bank } }

/-- ROUTE (R87). -/
def actRoute (rt : Route) (p : Part) : Done :=
  let bank := p.banks.pending
  if bank.any fun x => x.key == rt.key then
    let bank := bank.map fun x => if x.key == rt.key then rt else x
    .with (setPending bank p) (txt "REPLACED " ++ dec bank.length)
  else if bank.length < Config.bankSize then
    let bank := bank ++ [rt]
    .with (setPending bank p) (txt "ADDED " ++ dec bank.length)
  else .refused p .full

/-- UNROUTE (R88). -/
def actUnroute (key : RouteKey) (p : Part) : Done :=
  let bank := p.banks.pending
  if bank.any fun x => x.key == key then
    let bank := bank.filter fun x => x.key != key
    .with (setPending bank p) (dec bank.length)
  else .refused p .absent

/-- COPYBANK (R89). -/
def actCopybank (p : Part) : Done := .with (setPending p.banks.active p) (dec p.banks.active.length)

/-- ENACT (R90). -/
def actEnact (p : Part) : Done :=
  .with { p with banks := { active := p.banks.pending, pending := p.banks.active } }
    (txt "ACTIVE " ++ dec p.banks.pending.length)

/-! ### HOLD, FREE and PURGE (R115, R138, R139, R179) -/

/-- HOLD (R138). -/
def holdCirc (c : CircNo) (p : Part) : Part :=
  match (p.tx c).state with
  | .held => p
  | .waiting => enterHeld c .waiting p
  | .idle => enterHeld c .nothingDue p
  | .notice | .heading | .copy | .trailer => p.modTx c fun tx => { tx with holdPending := true }

/-- A held sender goes on from its held position (R139). -/
def resumeHeld (c : CircNo) (p : Part) : Part :=
  match (p.tx c).heldPos with
  | .nothingDue => selectionPoint c (p.modTx c fun tx => { tx with state := .idle })
  | .selectionDue => selectionPoint c p
  | .lineEnd afterBody => if afterBody && p.bodySent c then startBody c p else checkBreak c (startBody c) p
  | .waiting =>
    let p := p.modTx c fun tx => { tx with state := .waiting }
    checkBreak c (examineWaiting c) (p.modQ c fun q => { q with stall := some q.stallTime })

/-- FREE (R139). -/
def freeCirc (c : CircNo) (p : Part) : Part :=
  if (p.tx c).state = .held then resumeHeld c p else p.modTx c fun tx => { tx with holdPending := false }

/-- The queued entries of a circuit that a PURGE removes (R115). -/
def Part.purgeable (p : Part) (c : CircNo) (slug : Option Text) : List Entry :=
  (p.q c).entries.filter fun e => e.resume.isNone && match slug with
    | some t => (p.item e.item).slug == t
    | none => true

/-- PURGE on some circuits: how many entries are removed, and the part after it (R115). -/
def purgeCircs (cs : List CircNo) (slug : Option Text) (p : Part) : Nat × Part :=
  cs.foldl (fun (n, p) c =>
    let es := p.purgeable c slug
    (n + es.length, es.foldl (fun p e => removeQueued c e.item p) p)) (0, p)

def actPurge (c : Option CircNo) (slug : Option Text) (p : Part) : Done :=
  let r := purgeCircs (match c with
    | some c => [c]
    | none => allEight) slug p
  .with r.2 (dec r.1)

/-! ### The rest -/

def modFlags (fs : List Flag) (g : FlagState → FlagState) (p : Part) : Part := fs.foldl (fun p f => p.modFlag f g) p

/-- Execute an accepted order (R175). -/
def act (o : Order) (p : Part) : Done :=
  match o with
  | .line l k => .plain (actLine l k p)
  | .circ c k => .plain (actCirc c k p)
  | .route rt => actRoute rt p
  | .unroute key => actUnroute key p
  | .copybank => actCopybank p
  | .enact => actEnact p
  | .hold c => .plain (holdCirc c p)
  | .free c => .plain (freeCirc c p)
  | .purge c slug => actPurge c slug p
  | .showCirc c => .reporting p (showReport c p)
  | .showLine l => .reporting p (showLineReport l p)
  | .tally => .reporting p (tallyReport p)
  | .tallyZero => .reporting (zeroTallies p) (tallyReport p)
  | .alarm => .reporting p (alarmReport p)
  | .alarmClear fs => .plain (fs.foldl (fun p f => clearFlag f p) p)
  | .alarmMask fs on => .plain (modFlags fs (fun x => { x with enabled := on }) p)
  | .alarmNotice fs on => .plain (modFlags fs (fun x => { x with notice := on }) p)
  | .repeatShow => .with p (repeatWords p)
  | .repeatSet t =>
    let p := p.setHistory { p.history with threshold := t }
    .with p (repeatWords p)
  | .desk c => .plain { p with orders := { p.orders with desk := c } }
  | .unit address => .plain { p with orders := { p.orders with address := address } }
  | .restartWarm => { part := warmPart p, words := .ok (txt "RESTARTED WARM"), report := [], ends := true }
  | .restartCold =>
    { part := powerUp p.straps p, words := .ok (txt "RESTARTED COLD"), report := [], ends := true }

end Sys2Proof.Machine
end

