-- ==== Sys2Proof/Machine/Orders.lean ====
section
/-! DEFINITION. The execution of orders: one order line of an executing item, an order given apart from an item, and the
meanings of the order commands (R173–R176, R186, R187; notes/assumptions/2.md and 3.md). -/

namespace Sys2Proof.Machine

/-- The answer line of an order, after its number if it has one: OK and its words, or NO and the reason word (R176). -/
def answerLine (number : List Text) (words : Checked Text) : Text :=
  sentence (number ++ match words with
    | .ok [] => [txt "OK"]
    | .ok ws => [txt "OK", ws]
    | .no r => [txt "NO", reasonWord r])

/-- What the order unit does with an order line once checked (R175). -/
def execute (checked : Checked Order) (p : Part) : Done :=
  match checked with
  | .ok o =>
    let d := act o p
    { d with part := settle d.part }
  | .no r => .refused p r

/-- The answer lines that an order adds, under its number. -/
def answerLines (number : List Text) (d : Done) : List Text := answerLine number d.words :: d.report

/-- Execution goes on with the rest of an item's order lines, or ends with its answer and the release of the buffer
(R174, R175, R186, R187). -/
def afterOrder (line : LineNo) (serial : Nat) (rest : List Text) (done : Nat) (answers : List Text) (ends : Bool)
    (p : Part) : Part :=
  if ends then makeAnswer serial answers p
  else if rest = [] then (makeAnswer serial answers p).setBuffer .free
  else p.setBuffer (.executing line serial rest done answers)

/-- The order unit takes the next order line of the item that it executes (R175). -/
def nextOrder (p : Part) : Part :=
  match p.orders.buffer with
  | .executing line serial (t :: rest) done answers =>
    let d := execute (readOrder t p) p
    afterOrder line serial rest (done + 1) (answers ++ answerLines [dec (done + 1)] d) d.ends d.part
  | _ => p

/-- An order given apart from an item: its effect, and the order unit's reply. -/
def orderApart (checked : Checked Order) (p : Part) : Part :=
  let d := execute checked p
  { d.part with orders := { d.part.orders with reply := answerLines [] d } }

/-- An order command, by the outcome of its checks.  While an item is executing and its next order line is checked to
the same outcome, the command is the execution of that line; otherwise the order is executed apart from any item.  The
part takes no order while RESETn is low (R187). -/
def orderCommand (check : Part → Checked Order) (p : Part) : Part :=
  if p.inReset then p
  else match p.orders.buffer with
    | .executing _ _ (t :: _) _ _ => if readOrder t p = check p then nextOrder p else orderApart (check p) p
    | _ => orderApart (check p) p

/-- What the part does while no command waits: it takes the next order line of an executing item; otherwise it idles. -/
def idle (p : Part) : Part := if p.inReset then p else nextOrder p

/-! ### LINE orders with one key (R177) -/

/-- The check of a LINE order on line `n`, with its key once the line is known. -/
def checkLine (n : Nat) (key : LineNo → Checked LineKeys) : Checked Order :=
  (checkEight n).bind fun l => (key l).map fun k => .line l k

/-- LINE_RATE (R26). -/
def execLineRate (n baud : Nat) (s : State) : Host.Outcome State Fault Refusal :=
  s.after (orderCommand fun _ => checkLine n fun _ => (checkRate baud).map fun x => { rate := some x })

/-- LINE_CODE (R26). -/
def execLineCode (n : Nat) (code : LineCode) (s : State) : Host.Outcome State Fault Refusal :=
  s.after (orderCommand fun _ => checkLine n fun _ => .ok { code := some code })

/-- LINE_OPEN_TIME (R27). -/
def execLineOpenTime (n seconds : Nat) (s : State) : Host.Outcome State Fault Refusal :=
  s.after (orderCommand fun _ => checkLine n fun _ => (checkRange 1 15 seconds).map fun x => { openTime := some x })

/-- LINE_SHIFT (R27). -/
def execLineShift (n : Nat) (on : Bool) (s : State) : Host.Outcome State Fault Refusal :=
  s.after (orderCommand fun _ => checkLine n fun _ => .ok { shift := some on })

/-- LINE_DESK (R27). -/
def execLineDesk (n : Nat) (on : Bool) (s : State) : Host.Outcome State Fault Refusal :=
  s.after (orderCommand fun _ => checkLine n fun _ => .ok { desk := some on })

/-- LINE_BEGIN (R32, R37). -/
def execLineBegin (n : Nat) (letters : Text) (s : State) : Host.Outcome State Fault Refusal :=
  s.after (orderCommand fun p => checkLine n fun l =>
    (checkSequence (p.fr l).closing letters).map fun x => { opening := some x })

/-- LINE_END (R32, R37). -/
def execLineEnd (n : Nat) (letters : Text) (s : State) : Host.Outcome State Fault Refusal :=
  s.after (orderCommand fun p => checkLine n fun l =>
    (checkSequence (p.fr l).opening letters).map fun x => { closing := some x })

/-- LINE_RELEASE (R50). -/
def execLineRelease (n length : Nat) (s : State) : Host.Outcome State Fault Refusal :=
  s.after (orderCommand fun _ => checkLine n fun _ => (checkRelease length).map fun x => { release := some x })

/-- LINE_PARK (R24). -/
def execLinePark (n : Nat) (on : Bool) (s : State) : Host.Outcome State Fault Refusal :=
  s.after (orderCommand fun _ => checkLine n fun _ => .ok { park := some on })

/-! ### CIRC orders with one key (R178) -/

/-- The check of a CIRC order on circuit `n`, with the relation of the thresholds (R178). -/
def checkCirc (p : Part) (n : Nat) (keys : Checked CircKeys) : Checked Order :=
  (checkEight n).bind fun c => keys.bind fun k => checkThresholds p c k

/-- CIRC_RATE (R120). -/
def execCircRate (n baud : Nat) (s : State) : Host.Outcome State Fault Refusal :=
  s.after (orderCommand fun p => checkCirc p n ((checkRate baud).map fun x => { rate := some x }))

/-- CIRC_CODE (R120). -/
def execCircCode (n : Nat) (code : LineCode) (s : State) : Host.Outcome State Fault Refusal :=
  s.after (orderCommand fun p => checkCirc p n (.ok { code := some code }))

/-- CIRC_WIDTH (R121, R147). -/
def execCircWidth (n columns : Nat) (s : State) : Host.Outcome State Fault Refusal :=
  s.after (orderCommand fun p => checkCirc p n ((checkRange 32 80 columns).map fun x => { width := some x }))

/-- CIRC_MARGIN (R121, R147). -/
def execCircMargin (n columns : Nat) (s : State) : Host.Outcome State Fault Refusal :=
  s.after (orderCommand fun p => checkCirc p n ((checkRange 0 16 columns).map fun x => { margin := some x }))

/-- CIRC_FILL (R121, R147). -/
def execCircFill (n fills : Nat) (s : State) : Host.Outcome State Fault Refusal :=
  s.after (orderCommand fun p => checkCirc p n ((checkRange 0 7 fills).map fun x => { fills := some x }))

/-- CIRC_UNSHIFT (R121). -/
def execCircUnshift (n : Nat) (on : Bool) (s : State) : Host.Outcome State Fault Refusal :=
  s.after (orderCommand fun p => checkCirc p n (.ok { unshift := some on }))

/-- CIRC_MODE (R95). -/
def execCircMode (n : Nat) (mode : QueueMode) (s : State) : Host.Outcome State Fault Refusal :=
  s.after (orderCommand fun p => checkCirc p n (.ok { mode := some mode }))

/-- CIRC_PREEMPT (R95). -/
def execCircPreempt (n threshold : Nat) (s : State) : Host.Outcome State Fault Refusal :=
  s.after (orderCommand fun p => checkCirc p n ((checkRange 0 4 threshold).map fun x => { preempt := some x }))

/-- CIRC_QUANTUM (R95). -/
def execCircQuantum (n lines : Nat) (s : State) : Host.Outcome State Fault Refusal :=
  s.after (orderCommand fun p => checkCirc p n ((checkRange 0 255 lines).map fun x => { quantum := some x }))

/-- CIRC_STALL (R109). -/
def execCircStall (n seconds : Nat) (s : State) : Host.Outcome State Fault Refusal :=
  s.after (orderCommand fun p => checkCirc p n ((checkRange 5 255 seconds).map fun x => { stall := some x }))

/-- The key AGE1 to AGE5 for `k` from 0 to 4. -/
def ageKey (k : Fin 5) (x : Nat) : CircKeys :=
  match k with
  | 0 => { age1 := some x }
  | 1 => { age2 := some x }
  | 2 => { age3 := some x }
  | 3 => { age4 := some x }
  | 4 => { age5 := some x }

/-- CIRC_AGE (R111). -/
def execCircAge (n : Nat) (k : Fin 5) (minutes : Nat) (s : State) : Host.Outcome State Fault Refusal :=
  s.after (orderCommand fun p => checkCirc p n ((checkRange 0 255 minutes).map (ageKey k)))

/-- CIRC_LOADON (R150). -/
def execCircLoadon (n characters : Nat) (s : State) : Host.Outcome State Fault Refusal :=
  s.after (orderCommand fun p => checkCirc p n ((checkRange 0 999999 characters).map fun x => { loadOn := some x }))

/-- CIRC_CONGON (R150). -/
def execCircCongon (n characters : Nat) (s : State) : Host.Outcome State Fault Refusal :=
  s.after (orderCommand fun p => checkCirc p n ((checkRange 0 999999 characters).map fun x => { congOn := some x }))

/-- CIRC_HYST (R150). -/
def execCircHyst (n characters : Nat) (s : State) : Host.Outcome State Fault Refusal :=
  s.after (orderCommand fun p => checkCirc p n ((checkRange 0 999999 characters).map fun x => { hyst := some x }))

/-! ### The banks (R87–R90) -/

/-- The check of a ROUTE order (R87).  DESIGN CHOICE: a command that carries two faulty options gives them no order, and its
class is checked before its alternate (notes/assumptions/31.md). -/
def checkRoute (line : Option Nat) (category : Option Text) (set : List Nat) (cls alt : Option Nat)
    (mode : Option RepeatMode) : Checked Order :=
  (checkRouteLine line).bind fun l => (checkCategory category).bind fun c => (checkSet set).bind fun s =>
    (checkClass cls).bind fun k => (checkRouteLine alt).map fun a =>
      .route (routeOf l c s { cls := k, alt := a, mode := mode })

/-- ROUTE (R87). -/
def execRoute (line : Option Nat) (category : Option Text) (set : List Nat) (cls alt : Option Nat)
    (mode : Option RepeatMode) (s : State) : Host.Outcome State Fault Refusal :=
  s.after (orderCommand fun _ => checkRoute line category set cls alt mode)

/-- UNROUTE (R88). -/
def execUnroute (line : Option Nat) (category : Option Text) (s : State) : Host.Outcome State Fault Refusal :=
  s.after (orderCommand fun _ => (checkRouteLine line).bind fun l =>
    (checkCategory category).map fun c => .unroute { line := l, category := c })

/-- COPYBANK (R89). -/
def execCopybank (s : State) : Host.Outcome State Fault Refusal := s.after (orderCommand fun _ => .ok .copybank)

/-- ENACT (R90). -/
def execEnact (s : State) : Host.Outcome State Fault Refusal := s.after (orderCommand fun _ => .ok .enact)

/-! ### Circuits (R115, R138, R139) -/

/-- HOLD (R138). -/
def execHold (n : Nat) (s : State) : Host.Outcome State Fault Refusal :=
  s.after (orderCommand fun _ => (checkEight n).map .hold)

/-- FREE (R139). -/
def execFree (n : Nat) (s : State) : Host.Outcome State Fault Refusal :=
  s.after (orderCommand fun _ => (checkEight n).map .free)

/-- PURGE (R115). -/
def execPurge (n : Option Nat) (slug : Option Text) (s : State) : Host.Outcome State Fault Refusal :=
  s.after (orderCommand fun _ => (checkRouteLine n).bind fun c => (checkSlug slug).map fun t => .purge c t)

/-! ### Reports (R180–R183, R192) -/

/-- SHOW (R180). -/
def execShowCirc (n : Nat) (s : State) : Host.Outcome State Fault Refusal :=
  s.after (orderCommand fun _ => (checkEight n).map .showCirc)

/-- SHOW_LINE (R181). -/
def execShowLine (n : Nat) (s : State) : Host.Outcome State Fault Refusal :=
  s.after (orderCommand fun _ => (checkEight n).map .showLine)

/-- TALLY (R182). -/
def execTally (s : State) : Host.Outcome State Fault Refusal := s.after (orderCommand fun _ => .ok .tally)

/-- TALLY_ZERO (R194). -/
def execTallyZero (s : State) : Host.Outcome State Fault Refusal := s.after (orderCommand fun _ => .ok .tallyZero)

/-- ALARM (R192). -/
def execAlarm (s : State) : Host.Outcome State Fault Refusal := s.after (orderCommand fun _ => .ok .alarm)

/-- ALARM_CLEAR (R189). -/
def execAlarmClear (flags : FlagPick) (s : State) : Host.Outcome State Fault Refusal :=
  s.after (orderCommand fun _ => (checkFlags flags).map .alarmClear)

/-- ALARM_MASK (R190). -/
def execAlarmMask (flags : FlagPick) (on : Bool) (s : State) : Host.Outcome State Fault Refusal :=
  s.after (orderCommand fun _ => (checkFlags flags).map fun fs => .alarmMask fs on)

/-- ALARM_NOTICE (R191). -/
def execAlarmNotice (flags : FlagPick) (on : Bool) (s : State) : Host.Outcome State Fault Refusal :=
  s.after (orderCommand fun _ => (checkFlags flags).map fun fs => .alarmNotice fs on)

/-- REPEAT (R183). -/
def execRepeatShow (s : State) : Host.Outcome State Fault Refusal := s.after (orderCommand fun _ => .ok .repeatShow)

/-- REPEAT_SET (R165). -/
def execRepeatSet (t : Nat) (s : State) : Host.Outcome State Fault Refusal :=
  s.after (orderCommand fun _ => (checkRange 0 48 t).map .repeatSet)

/-! ### The order unit (R175, R184–R187) -/

/-- DESK (R185). -/
def execDesk (n : Nat) (s : State) : Host.Outcome State Fault Refusal :=
  s.after (orderCommand fun _ => (checkEight n).map .desk)

/-- UNIT (R184). -/
def execUnit (letters : Text) (s : State) : Host.Outcome State Fault Refusal :=
  s.after (orderCommand fun _ => (checkAddress letters).map .unit)

/-- UNKNOWN_VERB (R175): the order line is checked as any other. -/
def execUnknownVerb (line : Text) (s : State) : Host.Outcome State Fault Refusal :=
  s.after (orderCommand (readOrder line))

/-- RESTART_WARM (R186). -/
def execRestartWarm (s : State) : Host.Outcome State Fault Refusal :=
  s.after (orderCommand fun _ => .ok .restartWarm)

/-- RESTART_COLD (R187). -/
def execRestartCold (s : State) : Host.Outcome State Fault Refusal :=
  s.after (orderCommand fun _ => .ok .restartCold)

end Sys2Proof.Machine
end

