-- ==== Sys2Proof/Machine/Circuits.lean ====
section
/-! DEFINITION. The meanings of the commands that fall on a circuit: the end of a frame, the stall timer, and a lapse
(R109, R110, R123).  While RESETn is low no circuit sends, waits or holds entries that age (R76, R140). -/

namespace Sys2Proof.Machine

/-- The stall timer of a circuit expires: a break if an entry of the queue is eligible, and otherwise STALL and a fresh
start of the timer (R109).  A timer that is not running does not expire. -/
def stallTimerExpiry (c : CircNo) (p : Part) : Part :=
  if (p.q c).stall.isNone then p
  else if (p.q c).entries.any p.eligible then takeBreak c false p
  else raiseNow .stall c (p.modQ c fun q => { q with stall := some q.stallTime })

/-- The first entry in the queue order of a circuit that is past its age limit lapses (R110). -/
def lapseFirst (c : CircNo) (p : Part) : Part :=
  match p.overdueEntries c with
  | e :: _ => settle (lapseEntry c e p)
  | [] => p

/-- FRAME_SENT (R123). -/
def execFrameSent (c : CircNo) (s : State) : Host.Outcome State Fault Refusal :=
  s.after fun p => if p.inReset then p else settle (frameSent c p)

/-- STALL_TIMER_EXPIRY (R109). -/
def execStallTimerExpiry (c : CircNo) (s : State) : Host.Outcome State Fault Refusal :=
  s.after fun p => if p.inReset then p else stallTimerExpiry c p

/-- LAPSE (R110). -/
def execLapse (c : CircNo) (s : State) : Host.Outcome State Fault Refusal :=
  s.after fun p => if p.inReset then p else lapseFirst c p

end Sys2Proof.Machine
end

