-- ==== Sys2Proof/Machine/Dispatch.lean ====
section
/-! DEFINITION. The dispatch of every command to its meaning. -/

namespace Sys2Proof.Machine

def exec (i : Instr) (s : State) : Host.Outcome State Fault Refusal :=
  match i with
  | .powerUp ua dr => Sys2Proof.Machine.execPowerUp ua dr s
  | .resetnLow => Sys2Proof.Machine.execResetnLow s
  | .frameReceived l data parity stop => Sys2Proof.Machine.execFrameReceived l data parity stop s
  | .spaceTimerExpiry l => Sys2Proof.Machine.execSpaceTimerExpiry l s
  | .returnToMark l => Sys2Proof.Machine.execReturnToMark l s
  | .frameSent c => Sys2Proof.Machine.execFrameSent c s
  | .stallTimerExpiry c => Sys2Proof.Machine.execStallTimerExpiry c s
  | .lapse c => Sys2Proof.Machine.execLapse c s
  | .lineRate n baud => Sys2Proof.Machine.execLineRate n baud s
  | .lineCode n code => Sys2Proof.Machine.execLineCode n code s
  | .lineOpenTime n seconds => Sys2Proof.Machine.execLineOpenTime n seconds s
  | .lineShift n on => Sys2Proof.Machine.execLineShift n on s
  | .lineDesk n on => Sys2Proof.Machine.execLineDesk n on s
  | .lineBegin n letters => Sys2Proof.Machine.execLineBegin n letters s
  | .lineEnd n letters => Sys2Proof.Machine.execLineEnd n letters s
  | .lineRelease n length => Sys2Proof.Machine.execLineRelease n length s
  | .linePark n on => Sys2Proof.Machine.execLinePark n on s
  | .circRate n baud => Sys2Proof.Machine.execCircRate n baud s
  | .circCode n code => Sys2Proof.Machine.execCircCode n code s
  | .circWidth n columns => Sys2Proof.Machine.execCircWidth n columns s
  | .circMargin n columns => Sys2Proof.Machine.execCircMargin n columns s
  | .circFill n fills => Sys2Proof.Machine.execCircFill n fills s
  | .circUnshift n on => Sys2Proof.Machine.execCircUnshift n on s
  | .circMode n mode => Sys2Proof.Machine.execCircMode n mode s
  | .circPreempt n threshold => Sys2Proof.Machine.execCircPreempt n threshold s
  | .circQuantum n lines => Sys2Proof.Machine.execCircQuantum n lines s
  | .circStall n seconds => Sys2Proof.Machine.execCircStall n seconds s
  | .circAge n k minutes => Sys2Proof.Machine.execCircAge n k minutes s
  | .circLoadon n characters => Sys2Proof.Machine.execCircLoadon n characters s
  | .circCongon n characters => Sys2Proof.Machine.execCircCongon n characters s
  | .circHyst n characters => Sys2Proof.Machine.execCircHyst n characters s
  | .route line category set cls alt mode => Sys2Proof.Machine.execRoute line category set cls alt mode s
  | .unroute line category => Sys2Proof.Machine.execUnroute line category s
  | .copybank => Sys2Proof.Machine.execCopybank s
  | .enact => Sys2Proof.Machine.execEnact s
  | .hold n => Sys2Proof.Machine.execHold n s
  | .free n => Sys2Proof.Machine.execFree n s
  | .purge n slug => Sys2Proof.Machine.execPurge n slug s
  | .showCirc n => Sys2Proof.Machine.execShowCirc n s
  | .showLine n => Sys2Proof.Machine.execShowLine n s
  | .tally => Sys2Proof.Machine.execTally s
  | .tallyZero => Sys2Proof.Machine.execTallyZero s
  | .alarm => Sys2Proof.Machine.execAlarm s
  | .alarmClear flags => Sys2Proof.Machine.execAlarmClear flags s
  | .alarmMask flags on => Sys2Proof.Machine.execAlarmMask flags on s
  | .alarmNotice flags on => Sys2Proof.Machine.execAlarmNotice flags on s
  | .repeatShow => Sys2Proof.Machine.execRepeatShow s
  | .repeatSet t => Sys2Proof.Machine.execRepeatSet t s
  | .desk n => Sys2Proof.Machine.execDesk n s
  | .unit letters => Sys2Proof.Machine.execUnit letters s
  | .unknownVerb line => Sys2Proof.Machine.execUnknownVerb line s
  | .restartWarm => Sys2Proof.Machine.execRestartWarm s
  | .restartCold => Sys2Proof.Machine.execRestartCold s
  | .leadingEdge l => Sys2Proof.Machine.execLeadingEdge l s
  | .noiseCheck l => Sys2Proof.Machine.execNoiseCheck l s
  | .changeBackToMark l => Sys2Proof.Machine.execChangeBackToMark l s
  | .partClockTick => Sys2Proof.Machine.execPartClockTick s

end Sys2Proof.Machine
end

