-- ==== Sys2Proof/Safety.lean ====
section
/-! DEFINITION. What every state of a run is claimed to keep: the invariants of the part, in the terms that statements use.
None is a premise of the machine: `exec` is total on every state. -/

namespace Sys2Proof.Machine

/-! ### Orders given apart from an order item (notes/assumptions/3.md) -/

/-- An order item is executing. -/
def OrderBuffer.isExecuting : OrderBuffer → Bool
  | .executing _ _ _ _ _ => true
  | .free | .collecting _ _ _ _ => false

/-- The part takes an order given apart from an item: RESETn is high, no order item is executing, and no notice is owed. -/
structure State.TakesOrder (s : State) : Prop where
  running : s.part.inReset = false
  apart : s.part.orders.buffer.isExecuting = false
  settled : s.part.alarm.owing = []

/-- The state with the part `p`, once the order unit has answered `reply`: nothing else differs. -/
def State.answered (s : State) (p : Part) (reply : List Text) : State :=
  { s with part := { p with orders := { p.orders with reply := reply } } }

/-- The plain answer OK, and the answer of a refused order (R176). -/
def okReply : List Text := [txt "OK"]
def noReply (word : String) : List Text := [sentence [txt "NO", txt word]]

/-- The number of digits that a number is printed with. -/
def digitsOf (n : Nat) : Nat := (dec n).length

/-! ### Tallies and the clock (R31, R63, R82, R118, R143, R155, R170, R194) -/

/-- No tally of the line is past its limit. -/
def LineTally.Within (t : LineTally) : Prop :=
  t.received ≤ Config.tallyMax ∧ t.substitutions ≤ Config.tallyMax ∧ t.opens ≤ Config.tallyMax
    ∧ t.between ≤ Config.tallyMax ∧ t.accepted ≤ Config.tallyMax ∧ t.refused ≤ Config.tallyMax

/-- No tally of the circuit is past its limit. -/
def CircTally.Within (t : CircTally) : Prop :=
  t.sent ≤ Config.tallyMax ∧ t.done ≤ Config.tallyMax ∧ t.breaks ≤ Config.tallyMax ∧ t.lapsed ≤ Config.tallyMax
    ∧ t.displaced ≤ Config.tallyMax ∧ t.shed ≤ Config.tallyMax ∧ t.diverted ≤ Config.tallyMax
    ∧ t.suppressed ≤ Config.tallyMax ∧ t.marked ≤ Config.tallyMax

/-- Every tally and the part clock are within their limits. -/
structure Part.CountsWithin (p : Part) : Prop where
  clock : p.clock ≤ Config.clockMax
  lines : ∀ l, (p.line l).tally.Within
  circs : ∀ c, (p.circ c).tally.Within
  unrouted : p.unrouted ≤ Config.tallyMax
  lost : p.alarm.lost ≤ Config.tallyMax

/-! ### Line receivers (R16, R19, R21–R24) -/

/-- What the condition of a line says of its receiver while RESETn is high: in READY the space timer runs exactly while
the pin is at space, and only a pin at space is waited on; in OPEN and PARKED no frame is read, no timer runs, the shift
is letters and no carriage return is pending; and a line is OPEN only while its pin is at space. -/
def Receiver.Sound (rx : Receiver) : Prop :=
  match rx.cond with
  | .ready => (rx.spaceTimer.isSome ↔ rx.pin = .space) ∧ (rx.phase = .waitMark → rx.pin = .space)
  | .opened => rx.pin = .space ∧ rx.phase = .hunting ∧ rx.spaceTimer = none ∧ rx.shift = .letters
      ∧ rx.pendingCR = false
  | .parked => rx.phase = .hunting ∧ rx.spaceTimer = none ∧ rx.shift = .letters ∧ rx.pendingCR = false

/-- Every receiver agrees with its line condition. -/
def Part.LinesSound (p : Part) : Prop := p.inReset = false → ∀ l, (p.rx l).Sound

/-! ### Dispatch queues (R96, R107, R149) -/

/-- `a` may stand ahead of `b`: by class, and in a class the interrupted entries first. -/
def Entry.ahead (a b : Entry) : Prop :=
  a.cls < b.cls ∨ (a.cls = b.cls ∧ (b.resume.isSome → a.resume.isSome))

/-- The job sends a break line. -/
def Job.isBreak : Job → Bool
  | .breakLine => true
  | .startEnd .breakLine => true
  | _ => false

/-- The queue of a circuit stands in the order of R96; no item has two entries on the circuit; queue and current slot
hold at most 33 entries; and an entry whose break line is being sent carries its resume point. -/
structure Circ.Ordered (x : Circ) : Prop where
  order : x.q.entries.Pairwise Entry.ahead
  single : (x.q.held.map (·.item)).Nodup
  count : x.q.held.length ≤ 33
  broken : x.tx.job.isBreak = true → ∀ e, x.q.current = some e → e.resume.isSome

def Part.QueuesOrdered (p : Part) : Prop := ∀ c, (p.circ c).Ordered

/-- The turn line and the turn line count are within their ranges (R102). -/
def Queue.TurnWithin (q : Queue) : Prop := q.turn ≤ 8 ∧ q.turnLines ≤ 255

/-! ### Output lines (R121, R124, R125, R142) -/

/-- Circuit `c` has begun the output line `kind`: while it is due the start line end, with the values `was` that were in
force before it; and otherwise, with the values ordered in force, the characters of the line with their shifts, and its
line end. -/
def Part.LineBegun (p : Part) (c : CircNo) (kind : LineKind) (was : TxParams) : Prop :=
  let tx := p.tx c
  if tx.startMark = true then
    tx.force = was ∧ tx.job = .startEnd kind ∧ tx.out = lineEndFrames was.code (max 1 was.fills)
  else
    tx.force = { tx.ordered with rate := was.rate, code := was.code } ∧ tx.job = lineJob kind ∧
      tx.out = textFrames tx.force.code tx.shift (p.lineText c kind) ++ lineEndFrames tx.force.code tx.force.fills

/-! ### Backlogs (R144, R149–R151) -/

/-- The overload state agrees with the backlog, as it does after every evaluation (R151). -/
def Load.Agrees (ld : Load) : Prop :=
  match ld.state with
  | .normal => ld.backlog < ld.loadOn
  | .loaded => ld.loadOn - ld.hyst ≤ ld.backlog ∧ ld.backlog < ld.congOn
  | .congested => ld.congOn - ld.hyst ≤ ld.backlog

/-- The backlog of a circuit is the sum of what its entries, one for an item, still owe; every estimate is within its
cap, the thresholds keep their relation, and the overload state agrees with the backlog. -/
structure Circ.Counted (x : Circ) : Prop where
  single : (x.q.held.map (·.item)).Nodup
  backlog : x.load.backlog = backlogOf x.q
  estimates : ∀ e ∈ x.q.held, e.estimate ≤ Config.estimateMax
  relation : x.load.hyst < x.load.loadOn ∧ x.load.loadOn ≤ x.load.congOn
  agrees : x.load.Agrees

def Part.BacklogsCounted (p : Part) : Prop := ∀ c, (p.circ c).Counted

/-! ### Copy store and item table (R58, R59, R61, R62) -/

/-- The item was received on a line. -/
def Item.agency (it : Item) : Bool := it.source.isSome

/-- The chain of a descriptor has exactly the blocks that its body takes, and no more is committed than stored. -/
def Item.Chained (it : Item) : Prop := it.blocks = blocksFor it.body.length ∧ it.committed ≤ it.body.length

/-- Every block is in the free pool or in one chain; the counts of the store are those of the chains and descriptors in
use and keep their limits; descriptors in use have numbers of their own; and a framer that is receiving an item refers
to a FILLING descriptor of its own line. -/
structure Part.StoreSound (p : Part) : Prop where
  numbers : (p.items.map (·.num)).Nodup
  range : ∀ it ∈ p.items, it.num < Config.tableSize
  chained : ∀ it ∈ p.items, it.Chained
  blocks : p.store.freeBlocks + (p.items.map (·.blocks)).sum = Config.storeBlocks
  agencyBlocks : p.store.agencyBlocks = ((p.items.filter Item.agency).map (·.blocks)).sum
  agencyItems : p.store.agencyItems = (p.items.filter Item.agency).length
  blockLimit : p.store.agencyBlocks ≤ Config.agencyBlockLimit
  itemLimit : p.store.agencyItems ≤ Config.agencyItemLimit
  receiving : ∀ l n, (p.fr l).item = some n → ∃ it ∈ p.items, it.num = n ∧ it.state = .filling ∧ it.source = some l

/-! ### Line interruptions (R25, R36, R53) -/

/-- What a line interruption, after which the part is `q`, does to the item that line `l` was receiving in BODY: the framer
no longer refers to it, and where entries still hold it, it is BROKEN with verdict FRESH and wholly committed.  Characters
held for a sequence are stored first, all of them where the chain has room; with none held, the last line is signed
and nothing else about the item changes. -/
def Part.BrokenOff (p q : Part) (l : LineNo) : Prop :=
  ∀ (n : Nat) (it : Item), (p.fr l).state = .body → (p.fr l).item = some n → p.item? n = some it →
    (q.fr l).item = none ∧ ∀ after ∈ q.item? n, after.source.isSome = true →
      after.state = .broken ∧ after.verdict = some .fresh ∧ after.committed = after.body.length ∧
      (it.body.length + (p.fr l).held.length ≤ 32 * it.blocks → after.body = it.body ++ (p.fr l).held) ∧
      ((p.fr l).held = [] → after = { it with
        state := .broken, verdict := some .fresh, committed := it.body.length, holders := after.holders
        signatures := if it.stats.lineEnds < it.stats.lines ∧ it.signatures.length < 48 then
          it.signatures ++ [(p.fr l).sum] else it.signatures })

/-! ### Holders (R65, R66, R93) -/

/-- The entries of a circuit, queued and current, that refer to descriptor `n`. -/
def Circ.entriesOf (x : Circ) (n : Nat) : Nat := x.q.held.countP fun e => e.item == n

/-- The holders count of every descriptor in use is the number of entries that refer to it, on all eight circuits, and
every entry refers to a descriptor in use. -/
structure Part.HoldersCounted (p : Part) : Prop where
  numbers : (p.items.map (·.num)).Nodup
  single : ∀ c, ((p.q c).held.map (·.item)).Nodup
  holders : ∀ it ∈ p.items, it.holders = (allEight.map fun c => (p.circ c).entriesOf it.num).sum
  refers : ∀ c, ∀ e ∈ (p.q c).held, ∃ it ∈ p.items, it.num = e.item

/-! ### Alarm flags (R188) -/

/-- A clear flag has no members, a flag without a member set has none, and a member set is ascending without repeats. -/
def FlagState.Sound (f : Flag) (x : FlagState) : Prop :=
  (x.raised = false → x.members = []) ∧ (memberWord f = none → x.members = []) ∧ x.members.Pairwise (· < ·)

/-- The flags are sound, and no notice is owed between steps. -/
structure Part.AlarmSound (p : Part) : Prop where
  flags : ∀ f, (p.flag f).Sound f
  settled : p.alarm.owing = []

end Sys2Proof.Machine
end

