-- ==== Sys2Proof/WellFormed.lean ====
section
/-! DEFINITION. Which terms of `Instr` are commands that can be given: an order whose values can be typed as the tokens they
stand for.  A value out of its range is well-formed: the part answers it with a reason word (R175). -/

namespace Sys2Proof

open Machine

/-- One of the 49 copy characters (R1). -/
def isCopyChr (c : Chr) : Bool := 1 ≤ c && c ≤ 49

/-- A copy character that a plain token can hold: no space, no line end and no joining character (R172). -/
def isTokenChr (c : Chr) : Bool := isCopyChr c && c != spaceChr && c != lineEndChr && !isJoiner c

/-- A text that can be typed as one token or as the value of a keyed argument. -/
def isToken (t : Text) : Bool := t ≠ [] && t.all isTokenChr

/-- A text that can be typed as a category, which ANY is not (R79, R87). -/
def isCategoryToken (t : Option Text) : Bool :=
  match t with
  | none => true
  | some t => isToken t && t != txt "ANY"

/-- The verbs of Table 10-1. -/
def verbs : List Text :=
  [txt "LINE", txt "CIRC", txt "ROUTE", txt "UNROUTE", txt "COPYBANK", txt "ENACT", txt "HOLD", txt "FREE",
    txt "PURGE", txt "SHOW", txt "TALLY", txt "ALARM", txt "REPEAT", txt "DESK", txt "UNIT", txt "RESTART"]

/-- An order line of 1 to 80 characters whose verb is not known (R54, R175). -/
def isUnknownLine (line : Text) : Bool :=
  line ≠ [] && line.length ≤ Config.orderWidth && line.all (fun c => isCopyChr c && c != lineEndChr)
    && match tokens line with
      | [] => true
      | verb :: _ => !verbs.contains verb

/-- The command can be given. -/
def WellFormed (i : Instr) : Bool :=
  match i with
  | .lineBegin _ t | .lineEnd _ t | .unit t => isToken t
  | .route _ category set _ _ _ => isCategoryToken category && set.all (· ≤ 9)
  | .unroute _ category => isCategoryToken category
  | .purge _ slug => slug.all isToken
  | .unknownVerb line => isUnknownLine line
  | .powerUp _ _ | .resetnLow | .frameReceived _ _ _ _ | .spaceTimerExpiry _ | .returnToMark _ | .frameSent _
  | .stallTimerExpiry _ | .lapse _ | .lineRate _ _ | .lineCode _ _ | .lineOpenTime _ _ | .lineShift _ _
  | .lineDesk _ _ | .lineRelease _ _ | .linePark _ _ | .circRate _ _ | .circCode _ _ | .circWidth _ _
  | .circMargin _ _ | .circFill _ _ | .circUnshift _ _ | .circMode _ _ | .circPreempt _ _ | .circQuantum _ _
  | .circStall _ _ | .circAge _ _ _ | .circLoadon _ _ | .circCongon _ _ | .circHyst _ _ | .copybank | .enact
  | .hold _ | .free _ | .showCirc _ | .showLine _ | .tally | .tallyZero | .alarm | .alarmClear _ | .alarmMask _ _
  | .alarmNotice _ _ | .repeatShow | .repeatSet _ | .desk _ | .restartWarm | .restartCold | .leadingEdge _
  | .noiseCheck _ | .changeBackToMark _ | .partClockTick => true

end Sys2Proof
end

