-- ==== Sys2Proof/Certificates/Slice0/Obligations.lean ====
section
/-! DEFINITION. The statements for the provers, family by family of commands.

A statement about a command gives its whole next state wherever the rules fix it, so that it holds the command's frame as
well: what the next state does not name stands as it stood.  An order is stated as given apart from an order item, for a
part that takes it (`State.TakesOrder`); that the order line of an executing item has the same effect is
`IdleStepTakesAnOrderLineOrIdles`. -/

open Sys2Proof Sys2Proof.Machine

/-! ### The machine -/

/-- The command at the front of the queue is run, on the state with the rest of the queue. -/
def Obligations.StepRunsFrontCommand : Prop :=
  ∀ (s : State) (c : Instr) (rest : List Instr), s.pending = c :: rest → step s = exec c { s with pending := rest }

/-- No command stops the machine, and none touches the queue of the commands that wait. -/
def Obligations.EveryCommandAnswersNextState : Prop :=
  ∀ (i : Instr) (s : State), ∃ p : Part, exec i s = .next { s with part := p }

/-! ### Power and RESETn -/

/-- A power-up start gives every block its reset values; of the part before it only the levels on the RX pins remain.
RESTART COLD has the same effect, with the straps read again, and answers OK RESTARTED COLD.  The rules give no value
for the send offset, the line number, the held position, how the current entry was taken, and the reference letters of a
framer: the values here are the model's choice (notes/assumptions/27.md), as is the clear heading start flag
(notes/assumptions/30.md).  That the straps read at RESTART COLD as at the last power-up is the model's
choice (notes/assumptions/11.md), and the order is given apart from an order item by its choice too
(notes/assumptions/3.md). -/
def Obligations.PowerUpGivesResetValues : Prop :=
  (∀ (ua : Fin 16) (dr : Fin 4) (s : State), ∃ p : Part,
    exec (.powerUp ua dr) s = .next { s with part := p } ∧
    p.inReset = false ∧ p.straps = { ua := ua, dr := dr } ∧ p.clock = 0 ∧ p.items = [] ∧ p.unrouted = 0 ∧
    p.store = { freeBlocks := 2048, agencyBlocks := 0, agencyItems := 0 } ∧
    p.history = { entries := [], threshold := 2 } ∧
    p.orders.buffer = .free ∧ p.orders.address = txt "P" ++ [2 + ua.val] ∧ p.orders.desk = 7 ∧
    p.alarm.serial = 1 ∧ p.alarm.lost = 0 ∧ p.alarmLow = false ∧
    (∀ f, p.flag f =
      { raised := false, members := [], enabled := true
        notice := [Flag.lineOpen, .storeFull, .tableFull, .congested, .stall].contains f }) ∧
    p.banks.pending = [] ∧ p.banks.active.length = 8 ∧
    (∀ l category, lookup p.banks.active l category = some
      { key := { line := some l, category := none }, circuits := [l], cls := none, alt := none, mode := .send }) ∧
    (∀ l : LineNo, p.line l =
      { rx := { rate := if l = 7 then (match dr with | 3 => .b50 | 2 => .b75 | 1 => .b100 | 0 => .b300) else .b50
                code := .five, openTime := 3, unshift := false, desk := l = 7, cond := .ready
                phase := if (s.part.rx l).pin = .space then .waitMark else .hunting
                pin := (s.part.rx l).pin, shift := .letters, pendingCR := false
                spaceTimer := if (s.part.rx l).pin = .space then some 0 else none }
        fr := { opening := txt "QXQX", closing := txt "QJQJ", release := 256, state := .hunt, held := [], heading := []
                headStart := false, item := none, sum := 0, pos := 0, ref := .letters }
        tally := { received := 0, substitutions := 0, opens := 0, between := 0, accepted := 0, refused := 0 } }) ∧
    (∀ c : CircNo, ∃ params : TxParams,
      params = { rate := if c = 7 then (match dr with | 3 => .b50 | 2 => .b75 | 1 => .b100 | 0 => .b300) else .b50
                 code := .five, width := 69, margin := 8, fills := 2, unshift := false } ∧
      p.circ c =
      { q := { entries := [], current := none, byTurn := false, turn := 0, turnLines := 0, breakClass := false
               breakQuantum := false, stall := none
               ordered := { mode := .priority, preempt := 2, quantum := 20 }
               force := { mode := .priority, preempt := 2, quantum := 20 }
               stallTime := 30, ages := #v[0, 0, 0, 0, 60] }
        tx := { ordered := params, force := params, state := .idle, column := 0, shift := .letters, nextCseq := 1
                offset := 0, lineNo := 1, owed := [], holdPending := false, heldPos := .nothingDue, startMark := true
                job := .none, out := [] }
        load := { backlog := 0, state := .normal, loadOn := 6000, congOn := 12000, hyst := 1000 }
        tally := { sent := 0, done := 0, breaks := 0, lapsed := 0, displaced := 0, shed := 0, diverted := 0
                   suppressed := 0, marked := 0 } })) ∧
  ∀ s : State, s.TakesOrder → ∃ p : Part,
    exec (.powerUp s.part.straps.ua s.part.straps.dr) s = .next { s with part := p } ∧
    exec .restartCold s = .next (s.answered p [sentence [txt "OK", txt "RESTARTED", txt "COLD"]])

/-- The state after reset is that of a power-up start with every strap open and every RX pin at mark: the model's choice
of straps and pin levels (notes/assumptions/1.md). -/
def Obligations.ResetIsAPowerUpStart : Prop :=
  State.reset.pending = [] ∧ (∀ l, (State.reset.part.rx l).pin = .mark) ∧
    exec (.powerUp 15 3) State.reset = .next State.reset

/-- RESETn going low ends every frame in progress, on lines and on circuits, stops the space timers and releases ALARMn.
While it is low every command but the power-up start, RESETn low itself and the changes of level on the RX pins leaves
everything as it stands.  That all else stands until the power-up start, and that the part takes no request of any kind
before it, a tick of the clock and a setting order included, is the model's inference (notes/assumptions/10.md). -/
def Obligations.ResetnLowHoldsThePart : Prop :=
  (∀ s : State, ∃ p : Part, exec .resetnLow s = .next { s with part := p } ∧
    p.inReset = true ∧ p.alarmLow = false ∧
    (∀ l, p.line l = { s.part.line l with rx := { s.part.rx l with
      phase := if (s.part.rx l).pin = .space then .waitMark else .hunting, spaceTimer := none } }) ∧
    (∀ c, p.circ c = { s.part.circ c with tx := { s.part.tx c with out := [], job := .none } }) ∧
    { p with inReset := s.part.inReset, lines := s.part.lines, circs := s.part.circs } = s.part) ∧
  ∀ (i : Instr) (s : State), s.part.inReset = true → (∀ ua dr, i ≠ .powerUp ua dr) → i ≠ .resetnLow →
    (∀ l, i ≠ .leadingEdge l ∧ i ≠ .returnToMark l ∧ i ≠ .changeBackToMark l) → exec i s = .next s

/-- RESTART WARM empties the store, the queues, the history and the flags, returns framers and senders to their resting
states, and keeps every parameter, both banks, the tallies, the part clock and the serials.  A sender without a frame in
progress is IDLE at once, with the rate and code ordered in force, nothing owed and no hold pending.  One with a frame
stands as it stood while the frame is completed, and is IDLE in the same way when it has been sent, whether or not a hold
is pending then: that a hold given meanwhile goes too is the model's reading (notes/assumptions/20.md).  The reference
letters of a framer and the held position are the model's choice (notes/assumptions/27.md), as is the clear heading start flag
(notes/assumptions/30.md), and the order is given apart from an order item by its choice too
(notes/assumptions/3.md). -/
def Obligations.RestartWarmClearsTheWork : Prop :=
  ∀ s : State, s.TakesOrder → ∃ p : Part,
    exec .restartWarm s = .next (s.answered p [sentence [txt "OK", txt "RESTARTED", txt "WARM"]]) ∧
    p.items = [] ∧ p.store = { freeBlocks := 2048, agencyBlocks := 0, agencyItems := 0 } ∧
    p.history = { entries := [], threshold := s.part.history.threshold } ∧
    p.orders = { s.part.orders with buffer := .free } ∧
    p.inReset = false ∧ p.straps = s.part.straps ∧ p.clock = s.part.clock ∧ p.banks = s.part.banks ∧
    p.unrouted = s.part.unrouted ∧
    p.alarm.serial = s.part.alarm.serial ∧ p.alarm.lost = s.part.alarm.lost ∧ p.alarm.owing = [] ∧
    (∀ f, p.flag f = { s.part.flag f with raised := false, members := [] }) ∧
    (∀ l, p.line l = { s.part.line l with
      rx := { s.part.rx l with
        phase := if (s.part.rx l).cond = .ready ∧ (s.part.rx l).pin = .space then .waitMark else .hunting
        shift := .letters, pendingCR := false }
      fr := { s.part.fr l with
        state := .hunt, held := [], heading := [], headStart := false, item := none, sum := 0, pos := 0
        ref := .letters } }) ∧
    (∀ c, (p.circ c).tally = (s.part.circ c).tally ∧
      p.load c = { s.part.load c with backlog := 0, state := .normal } ∧
      p.q c = { s.part.q c with
        entries := [], current := none, byTurn := false, turn := 0, turnLines := 0, breakClass := false
        breakQuantum := false, stall := none } ∧
      let idled : Sender := { s.part.tx c with
        state := .idle, column := 0, shift := .letters, owed := [], holdPending := false, heldPos := .nothingDue
        startMark := true, job := .none, out := []
        force := { (s.part.tx c).force with rate := (s.part.tx c).ordered.rate, code := (s.part.tx c).ordered.code } }
      ((s.part.tx c).out = [] → p.tx c = idled) ∧
      ∀ (f : Frame) (rest : List Frame), (s.part.tx c).out = f :: rest →
        p.tx c = { s.part.tx c with job := .warmFrame, out := [f] } ∧
        ∀ hold : Bool, ∃ u : State, exec (.frameSent c) { s with part := p.modTx c fun tx => { tx with
          holdPending := hold } } = .next u ∧ u.part.tx c = idled)

/-! ### Line receivers -/

/-- The pin of a READY line goes to space: the space timer starts, and a hunting receiver begins its noise check. It
goes back to mark: the timer stops, and a wait for mark ends. The pin of an OPEN line returns to mark: the line is READY
and hunts. -/
def Obligations.PinChangesMoveTheReceiver : Prop :=
  ∀ (s : State) (l : LineNo), s.part.inReset = false →
    ((s.part.rx l).cond = .ready → (s.part.rx l).pin = .mark →
      exec (.leadingEdge l) s = .next { s with part := s.part.modRx l fun rx => { rx with
        pin := .space, spaceTimer := some 0
        phase := if rx.phase = .hunting then .noiseCheck else rx.phase } }) ∧
    ((s.part.rx l).cond = .ready → (s.part.rx l).pin = .space →
      exec (.changeBackToMark l) s = .next { s with part := s.part.modRx l fun rx => { rx with
        pin := .mark, spaceTimer := none
        phase := if rx.phase = .waitMark then .hunting else rx.phase } }) ∧
    ((s.part.rx l).cond = .opened → (s.part.rx l).pin = .space →
      exec (.returnToMark l) s = .next { s with part := s.part.modRx l fun rx => { rx with
        pin := .mark, cond := .ready, phase := .hunting, spaceTimer := none } })

/-- Half a unit after a leading edge a space begins a frame and a mark is noise; so a space that has ended by then
leaves a resting line as it was.  That the level at that point decides alone, also for a space that went to mark and
back before it, is the model's choice (notes/assumptions/29.md). -/
def Obligations.NoiseCheckDecidesAFrame : Prop :=
  ∀ (s : State) (l : LineNo), s.part.inReset = false → (s.part.rx l).cond = .ready →
    ((s.part.rx l).phase = .noiseCheck →
      exec (.noiseCheck l) s = .next { s with part := s.part.modRx l fun rx => { rx with
        phase := if rx.pin = .mark then .hunting else .frame } }) ∧
    ((s.part.rx l).phase = .hunting → (s.part.rx l).pin = .mark → (s.part.rx l).spaceTimer = none →
      ∃ s₁ s₂, exec (.leadingEdge l) s = .next s₁ ∧ exec (.changeBackToMark l) s₁ = .next s₂ ∧
        exec (.noiseCheck l) s₂ = .next s)

/-- The space timer of a READY line reaches the open time: the line is OPEN with its shift in letters and no carriage
return pending, the opens tally counts, LINE_OPEN is raised with the line as a member, and the framer takes a line
interruption: it is in HUNT with nothing held, no other tally of the line counts where it held nothing, and an item that
it received in BODY is BROKEN.  No other line changes.  That the command opens the line while the seconds counted are
below the open time in force, too, is the model's choice (notes/assumptions/5.md). -/
def Obligations.SpaceTimerExpiryOpensTheLine : Prop :=
  ∀ (s : State) (l : LineNo), s.part.inReset = false → (s.part.rx l).cond = .ready →
    (s.part.rx l).spaceTimer.isSome = true → ∃ p : Part,
      exec (.spaceTimerExpiry l) s = .next { s with part := p } ∧
      p.rx l = { s.part.rx l with
        cond := .opened, phase := .hunting, shift := .letters, pendingCR := false, spaceTimer := none } ∧
      (p.line l).tally.opens = bump (s.part.line l).tally.opens ∧
      ((s.part.fr l).held = [] →
        (p.line l).tally = { (s.part.line l).tally with opens := bump (s.part.line l).tally.opens }) ∧
      (p.flag .lineOpen).raised = true ∧ l ∈ (p.flag .lineOpen).members ∧
      (p.fr l).state = .hunt ∧ (p.fr l).held = [] ∧ (∀ l', l' ≠ l → p.line l' = s.part.line l') ∧
      (s.part.StoreSound → s.part.BrokenOff p l)

/-- A frame in progress is taken whole at its stop sample, and where none is in progress none is taken: nothing is
delivered or counted. A frame without error that gives a copy character, on a READY line whose framer is in HUNT with
nothing held and whose opening sequence the character does not begin: the frame is counted as received, the character as
between items, and the receiver hunts again. A frame whose stop sample is at space, or on SEVEN whose parity is odd,
gives SUB whatever its data units say: the substitution is counted too, and a space at the stop sample leaves the
receiver waiting for mark with its space timer running.

Whatever the framer does: a copy character, SUB included, is delivered to it, after a line end where a carriage return
was pending, which is then clear; CR sets the carriage return pending and delivers nothing; LF clears it and delivers a
line end; FIGS and LTRS set the shift, and they, a blank and an ignored value deliver nothing and leave the carriage
return as it is; a space with unshift-on-space ON sets the shift to letters; a SUB that was decoded counts as a
substitution.  The last clause gives what each code point and each value decodes to.  That the stop sample is the level
of the pin is the model's reading (notes/assumptions/6.md). -/
def Obligations.FrameBetweenItems : Prop :=
  (∀ (s : State) (l : LineNo) (data : BitVec 7) (parity : Level) (c : Chr),
    s.part.inReset = false → (s.part.rx l).cond = .ready → (s.part.rx l).phase = .frame →
    (s.part.rx l).pendingCR = false →
    (s.part.fr l).state = .hunt → (s.part.fr l).held = [] → 2 ≤ (s.part.fr l).opening.length →
    (s.part.fr l).opening.head? ≠ some c →
    ((s.part.rx l).code = .seven → parity = evenParity data.toNat) →
    decoded (s.part.rx l) data.toNat = .chr c false →
      exec (.frameReceived l data parity .mark) s = .next { s with part := s.part.setLine l { s.part.line l with
        rx := { s.part.rx l with
          pin := .mark, phase := .hunting, spaceTimer := none
          shift := if (s.part.rx l).code = .five ∧ (s.part.rx l).unshift = true ∧ data.toNat % 32 = 27 then .letters
            else (s.part.rx l).shift }
        tally := { (s.part.line l).tally with
          received := bump (s.part.line l).tally.received, between := bump (s.part.line l).tally.between } } }) ∧
  (∀ (s : State) (l : LineNo) (data : BitVec 7) (parity stop : Level),
    s.part.inReset = false → (s.part.rx l).cond = .ready → (s.part.rx l).phase = .frame →
    (s.part.rx l).pendingCR = false →
    (s.part.fr l).state = .hunt → (s.part.fr l).held = [] → 2 ≤ (s.part.fr l).opening.length →
    (s.part.fr l).opening.head? ≠ some subChr →
    (stop = .space ∨ ((s.part.rx l).code = .seven ∧ parity ≠ evenParity data.toNat)) →
      exec (.frameReceived l data parity stop) s = .next { s with part := s.part.setLine l { s.part.line l with
        rx := { s.part.rx l with
          pin := stop, phase := if stop = .space then .waitMark else .hunting
          spaceTimer := if stop = .space then some ((s.part.rx l).spaceTimer.getD 0) else none }
        tally := { (s.part.line l).tally with
          received := bump (s.part.line l).tally.received
          substitutions := bump (s.part.line l).tally.substitutions
          between := bump (s.part.line l).tally.between } } }) ∧
  (∀ (s : State) (l : LineNo) (data : BitVec 7) (parity stop : Level), (s.part.rx l).phase ≠ .frame →
    exec (.frameReceived l data parity stop) s = .next s) ∧
  (∀ (s : State) (l : LineNo) (data : BitVec 7) (parity stop : Level),
    s.part.inReset = false → (s.part.rx l).cond = .ready → (s.part.rx l).phase = .frame →
    let n := data.toNat
    let was := s.part.line l
    let rx : Receiver := { was.rx with
      pin := stop, phase := if stop = .space then .waitMark else .hunting
      spaceTimer := if stop = .space then some (was.rx.spaceTimer.getD 0) else none }
    let taken := fun (rx : Receiver) (substitutions : Nat) => s.part.setLine l { was with
      rx := rx
      tally := { was.tally with received := bump was.tally.received, substitutions := substitutions } }
    let handed := fun (c : Chr) (rx : Receiver) (substitutions : Nat) =>
      if rx.pendingCR = true then
        deliver l c (deliver l lineEndChr (taken { rx with pendingCR := false } substitutions))
      else deliver l c (taken rx substitutions)
    let subs := was.tally.substitutions
    let p :=
      if stop = .space ∨ (rx.code = .seven ∧ parity ≠ evenParity n) then handed subChr rx (bump subs)
      else match decoded was.rx n with
        | .chr c substitution =>
          handed c
            { rx with shift := if rx.code = .five ∧ rx.unshift = true ∧ n % 32 = 27 then .letters else rx.shift }
            (if substitution = true then bump subs else subs)
        | .cr => taken { rx with pendingCR := true } subs
        | .lf => deliver l lineEndChr (taken { rx with pendingCR := false } subs)
        | .figs => taken { rx with shift := .figures } subs
        | .ltrs => taken { rx with shift := .letters } subs
        | .nothing => taken rx subs
    exec (.frameReceived l data parity stop) s = .next { s with part := p }) ∧
  ∀ (rx : Receiver) (n : Nat),
    (rx.code = .five → let k := n % 32
      decoded rx n = if k = 0 then .nothing
        else if k = 27 then .chr spaceChr false
        else if k = 28 then .cr
        else if k = 29 then .lf
        else if k = 30 then .figs
        else if k = 31 then .ltrs
        else if rx.shift = .letters then .chr (k + 1) false
        else if k ≤ 9 then .chr (k + 28) false
        else if k = 10 then .chr 28 false
        else if k ≤ 20 then .chr (k + 27) false
        else .chr subChr true) ∧
    (rx.code = .seven → n < 128 →
      decoded rx n = if 65 ≤ n ∧ n ≤ 90 then .chr (n - 63) false
        else if 97 ≤ n ∧ n ≤ 122 then .chr (n - 95) false
        else if 48 ≤ n ∧ n ≤ 57 then .chr (n - 20) false
        else if n = 32 then .chr spaceChr false
        else if n = 13 then .cr
        else if n = 10 then .lf
        else if n < 32 ∨ n = 127 then .nothing
        else match [(45, 38), (63, 39), (58, 40), (40, 41), (41, 42), (46, 43), (44, 44), (39, 45), (47, 46),
            (43, 47)].lookup n with
          | some c => .chr c false
          | none => .chr subChr true)

/-- A second of the part clock: the clock counts up to its limit, and every running space timer counts a second. That
the space timers count at the same tick is the model's choice (notes/assumptions/5.md). -/
def Obligations.ClockTickCountsSeconds : Prop :=
  ∀ s : State, s.part.inReset = false → ∃ p : Part, exec .partClockTick s = .next { s with part := p } ∧
    p.clock = (if s.part.clock < 4294967295 then s.part.clock + 1 else s.part.clock) ∧
    (∀ l, p.line l = { s.part.line l with
      rx := { s.part.rx l with spaceTimer := (s.part.rx l).spaceTimer.map (· + 1) } }) ∧
    { p with clock := s.part.clock, lines := s.part.lines } = s.part

/-- What a circuit prints a receiver of the same code reads back: on FIVE the shift characters that the sender puts in
bring the receiver's shift to each character, and on SEVEN every character has its own value.  SUB is read back as the
question mark, as it is printed (R3).  `text` is a run of copy characters without a line end; with unshift-on-space ON,
where each space puts a FIVE receiver in letters, one without a space.  A line end is read as CR, LF, and on FIVE LTRS
for each fill, on SEVEN nothing.  On the wire each frame is one unit of space, its data units with the least significant
first, on SEVEN even parity, and mark to its end; the pin is at mark while no frame is sent and while RESETn is low.
Times are in tenths of a unit. -/
def Obligations.PrintedCopyReadsBack : Prop :=
  (∀ (text : Text) (shift : Shift) (rx : Receiver),
    (∀ c ∈ text, 1 ≤ c ∧ c ≤ 49 ∧ c ≠ lineEndChr) → (rx.unshift = false ∨ spaceChr ∉ text) →
    (rx.code = .five → rx.shift = shift) →
    ((textFrames rx.code shift text).foldl (fun (rs : Receiver × Text) f =>
        match decoded rs.1 f.value with
        | .chr c _ => (unshifted rs.1 f.value, rs.2 ++ [c])
        | .figs => ({ rs.1 with shift := .figures }, rs.2)
        | .ltrs => ({ rs.1 with shift := .letters }, rs.2)
        | _ => rs) (rx, [])).2 = text.map fun c => if c = subChr then 39 else c) ∧
  (∀ (fills : Nat) (rx : Receiver), (lineEndFrames rx.code fills).map (fun f => decoded rx f.value) =
    .cr :: .lf :: List.replicate fills (match rx.code with | .five => .ltrs | .seven => .nothing)) ∧
  (∀ (code : LineCode) (shift : Shift) (text : Text) (fills : Nat),
    ∀ f ∈ textFrames code shift text ++ lineEndFrames code fills,
      let data := match code with | .five => 5 | .seven => 7
      let ends := match code with | .five => 75 | .seven => 100
      f.value < 2 ^ data ∧ (f.levels.map (·.2)).sum = ends ∧ (∀ t < 10, levelAt f.levels t = .space) ∧
      (∀ k < data, ∀ t < 10, levelAt f.levels (10 + 10 * k + t) = if f.value.testBit k then .mark else .space) ∧
      (code = .seven → ∀ t < 10, levelAt f.levels (80 + t) = evenParity f.value) ∧
      ∀ t, (match code with | .five => 60 | .seven => 90) ≤ t → levelAt f.levels t = .mark) ∧
  ∀ (p : Part) (c : CircNo) (t : Nat), (p.inReset = true ∨ (p.tx c).out = [] → p.txLevel c t = .mark) ∧
    ∀ (f : Frame) (rest : List Frame), p.inReset = false → (p.tx c).out = f :: rest →
      p.txLevel c t = levelAt f.levels t

/-! ### Item framers -/

/-- In HUNT and in DISCARD the character that completes the opening sequence puts the framer in HEADING with an empty
heading buffer and the heading start flag set; nothing else changes. -/
def Obligations.OpeningSequenceEntersHeading : Prop :=
  ∀ (p : Part) (l : LineNo) (c : Chr), (p.fr l).state = .hunt ∨ (p.fr l).state = .discard →
    (p.fr l).held ++ [c] = (p.fr l).opening →
    deliver l c p = p.modFr l fun fr => { fr with held := [], state := .heading, heading := [], headStart := true }

/-- A heading of a serial, a class, a category, a slug and any further words gives back its fields: the class is taken
into 1 to 5 and the slug cut to 12 characters.  Of the words T and one to three digits the last gives the take, taken
into 1 to 99, and without one the take is 1.  Of the words RW, CO and KL the last gives the kind; without one the kind is
NEW where the take is 1 and ADD otherwise.  Every other word is ignored. -/
def Obligations.HeadingGivesItsFields : Prop :=
  ∀ (serial category slug : Text) (cls : Chr) (words : List Text) (take : Nat) (kind : Kind),
    1 ≤ serial.length → serial.length ≤ 4 → (∀ d ∈ serial, isDigit d = true) → isDigit cls = true →
    category.length = 2 → (∀ c ∈ category, isLetter c = true) → isSlug slug = true → (∀ w ∈ words, spaceChr ∉ w) →
    let number := fun digits : Text => digits.foldl (fun n d => n * 10 + (d - 28)) 0
    let isTake := fun (w digits : Text) => w = txt "T" ++ digits ∧ 1 ≤ digits.length ∧ digits.length ≤ 3 ∧
      ∀ d ∈ digits, isDigit d = true
    let marks := fun (w : Text) (k : Kind) =>
      (w = txt "RW" ∧ k = .rewrite) ∨ (w = txt "CO" ∧ k = .correction) ∨ (w = txt "KL" ∧ k = .kill)
    ((∀ w ∈ words, ∀ digits, ¬ isTake w digits) ∧ take = 1) ∨
      (∃ before w digits after, words = before ++ w :: after ∧ isTake w digits ∧
        (∀ x ∈ after, ∀ digits, ¬ isTake x digits) ∧
        take = if number digits = 0 then 1 else min (number digits) 99) →
    ((∀ w ∈ words, ∀ k, ¬ marks w k) ∧ kind = if take = 1 then .new else .add) ∨
      (∃ before w after, words = before ++ w :: after ∧ marks w kind ∧ ∀ x ∈ after, ∀ k, ¬ marks x k) →
    parseHeading (sentence (serial :: [cls] :: category :: slug :: words)) =
      some { serial := number serial, cls := if cls - 28 = 0 then 1 else min (cls - 28) 5, category := category
             slug := slug.take 12, take := take, kind := kind }

/-- The end of a heading of ordinary copy that no purge and no route follows: the lowest-numbered FREE descriptor is
granted with the fields of the heading, at the tail of the grant order, the framer receives the item in BODY, the
heading counts as accepted, and the item as unrouted.  With 248 descriptors in use by agency items, or none FREE, it is
refused: TABLE_FULL is raised, the heading counts as refused, and the framer is in DISCARD.

In HEADING the spaces and line ends before the heading are dropped, a line end after its first character ends it, and
any other character is collected up to the 80th.  A heading that has not the form of its four fields, an 81st character,
which counts as between items, and a sequence are heading faults: HEADING_FAULT is raised with the line as a member and
the heading counts as refused.  The framer is then in DISCARD, after a closing sequence in HUNT, and after an opening
sequence in HEADING afresh.  That the heading start flag is clear outside HEADING is the model's choice
(notes/assumptions/30.md). -/
def Obligations.UnroutedHeadingGetsADescriptor : Prop :=
  (∀ (p : Part) (l : LineNo) (h : Heading) (n : Nat),
    parseHeading (p.fr l).heading = some h → (h.category ≠ txt "QD" ∨ h.slug ≠ p.orders.address) →
    (h.kind ≠ .kill ∧ h.kind ≠ .rewrite) → lookup p.banks.active l h.category = none →
    p.store.agencyItems < 248 → n < 256 → (∀ it ∈ p.items, it.num ≠ n) →
    (∀ k, k < n → ∃ it ∈ p.items, it.num = k) →
    endHeading l p =
      { (p.setLine l { p.line l with
          fr := { p.fr l with
            state := .body, heading := [], headStart := false, item := some n, sum := 0, pos := 0, ref := .letters }
          tally := { (p.line l).tally with accepted := bump (p.line l).tally.accepted } }) with
        items := p.items ++ [{
          num := n, state := .filling, source := some l, serial := h.serial, cls := h.cls, category := h.category
          slug := h.slug, take := h.take, kind := h.kind, body := [], blocks := 0, committed := 0
          stats := { printable := 0, lineEnds := 0, caseChanges := 0, lines := 0 }
          signatures := [], verdict := none, killed := false, holders := 0, received := p.clock }]
        store := { p.store with agencyItems := p.store.agencyItems + 1 }
        unrouted := bump p.unrouted }) ∧
  (∀ buffer : Text, (parseHeading buffer).isSome = true ↔ ∃ (serial cls category slug : Text) (marks : List Text),
    tokens buffer = serial :: cls :: category :: slug :: marks ∧
    serial ≠ [] ∧ serial.length ≤ 4 ∧ (∀ d ∈ serial, isDigit d = true) ∧ (∃ d, cls = [d] ∧ isDigit d = true) ∧
    category.length = 2 ∧ (∀ c ∈ category, isLetter c = true) ∧
    ∃ (first : Chr) (more : Text), slug = first :: more ∧ isLetter first = true ∧
      ∀ d ∈ more, isLetter d = true ∨ isDigit d = true ∨ d = 38) ∧
  ∀ (p : Part) (l : LineNo),
    let refused := fun (state : FramerState) => (p.modFr l fun fr => { fr with
      held := [], state := state, heading := [], headStart := state = .heading }).modLineTally l
        fun t => { t with refused := bump t.refused }
    ((p.fr l).held = [] →
      (parseHeading (p.fr l).heading = none → endHeading l p = raiseNow .headingFault l (refused .discard)) ∧
      ∀ h : Heading, parseHeading (p.fr l).heading = some h → (h.category ≠ txt "QD" ∨ h.slug ≠ p.orders.address) →
        (248 ≤ p.store.agencyItems ∨ ∀ k, k < 256 → ∃ it ∈ p.items, it.num = k) →
        endHeading l p = raiseNow .tableFull l (refused .discard)) ∧
    ((p.fr l).state = .heading → 2 ≤ (p.fr l).opening.length → 2 ≤ (p.fr l).closing.length → ∀ c : Chr,
      ((p.fr l).held = [] → (p.fr l).opening.head? ≠ some c → (p.fr l).closing.head? ≠ some c →
        ((p.fr l).headStart = true → c = spaceChr ∨ c = lineEndChr → deliver l c p = p) ∧
        ((p.fr l).headStart = false → c = lineEndChr → deliver l c p = endHeading l p) ∧
        (c ≠ lineEndChr → (p.fr l).headStart = false ∨ c ≠ spaceChr →
          ((p.fr l).heading.length < 80 → deliver l c p = p.modFr l fun fr => { fr with
            heading := fr.heading ++ [c], headStart := false }) ∧
          (80 ≤ (p.fr l).heading.length → deliver l c p =
            (raiseNow .headingFault l (refused .discard)).modLineTally l fun t => { t with
              between := bump t.between }))) ∧
      ((p.fr l).held ++ [c] = (p.fr l).opening → deliver l c p = raiseNow .headingFault l (refused .heading)) ∧
      ((p.fr l).held ++ [c] = (p.fr l).closing → (p.fr l).closing ≠ (p.fr l).opening →
        deliver l c p = raiseNow .headingFault l (refused .hunt)))

/-- An order heading on a desk-capable line claims a free order buffer, and the framer goes to ORDER; a claim of a buffer
in use answers BUSY, and one on a line that is not desk-capable raises ORDER_FAULT.  In ORDER the lines are collected,
empty ones dropped; an 81st character in a line or a 25th line answers LONG, and an opening sequence or an interruption
INCOMPLETE.  At the closing sequence an item whose last line is CK and the check letters of the lines before it begins to
execute, or is answered OK where it has no other line; any other raises ORDER_FAULT and answers CHECK.  Each of these
answers is one answer item, and frees the buffer where the item held it.  That the lines of an item closed with right
check letters stand as executing, with none of them executed in the command that closes it, is the model's choice
(notes/assumptions/2.md). -/
def Obligations.OrderHeadingClaimsTheBuffer : Prop :=
  (∀ (p : Part) (l : LineNo) (h : Heading), parseHeading (p.fr l).heading = some h →
    h.category = txt "QD" → h.slug = p.orders.address → (p.rx l).desk = true → p.orders.buffer = .free →
    endHeading l p =
      { (p.setLine l { p.line l with
          fr := { p.fr l with state := .order, heading := [], headStart := false }
          tally := { (p.line l).tally with accepted := bump (p.line l).tally.accepted } }) with
        orders := { p.orders with buffer := .collecting l h.serial [] [] } }) ∧
  ∀ (p : Part) (l : LineNo) (serial : Nat) (lines : List Text) (cur : Text) (c : Chr),
    2 ≤ (p.fr l).opening.length → 2 ≤ (p.fr l).closing.length →
    let dropped := fun (state : FramerState) (p : Part) =>
      p.modFr l fun fr => { fr with held := [], state := state, heading := [], headStart := false }
    ((p.fr l).state = .order → p.orders.buffer = .collecting l serial lines cur →
      ((p.fr l).held = [] → (p.fr l).opening.head? ≠ some c → (p.fr l).closing.head? ≠ some c →
        (c = lineEndChr → deliver l c p = if cur = [] then p else p.setBuffer (.collecting l serial (lines ++ [cur]) [])) ∧
        (c ≠ lineEndChr → cur.length < 80 → (cur = [] → lines.length < 24) →
          deliver l c p = p.setBuffer (.collecting l serial lines (cur ++ [c]))) ∧
        (c ≠ lineEndChr → cur.length = 80 ∨ (cur = [] ∧ lines.length = 24) →
          deliver l c p = (dropped .discard (makeAnswer serial [txt "NO LONG"] (p.setBuffer .free))).modLineTally l
            fun t => { t with between := bump t.between })) ∧
      ((p.fr l).held ++ [c] = (p.fr l).opening →
        deliver l c p = (makeAnswer serial [txt "NO INCOMPLETE"]
          ((p.modFr l fun fr => { fr with held := [] }).setBuffer .free)).modFr l
            fun fr => { fr with state := .heading, heading := [], headStart := true }) ∧
      ((p.fr l).held = [] →
        interrupt l p = dropped .hunt (makeAnswer serial [txt "NO INCOMPLETE"] (p.setBuffer .free))) ∧
      ((p.fr l).held ++ [c] = (p.fr l).closing → (p.fr l).closing ≠ (p.fr l).opening →
        let all := if cur = [] then lines else lines ++ [cur]
        let right := fun (orders : List Text) => ∃ ck, all = orders ++ [ck] ∧
          let sum := (orders.map List.sum).sum % 676
          tokens ck = [txt "CK", [2 + sum / 26, 2 + sum % 26]]
        (∀ orders, right orders → orders ≠ [] →
          deliver l c p = (dropped .hunt p).setBuffer (.executing l serial orders 0 [])) ∧
        (right [] → deliver l c p = (makeAnswer serial [txt "OK"] (dropped .hunt p)).setBuffer .free) ∧
        ((∀ orders, ¬ right orders) →
          deliver l c p =
            (makeAnswer serial [txt "NO CHECK"] (raiseNow .orderFault l (dropped .hunt p))).setBuffer .free))) ∧
    ∀ h : Heading, parseHeading (p.fr l).heading = some h → h.category = txt "QD" → h.slug = p.orders.address →
      let refused := (p.modFr l fun fr => { fr with
        state := .discard, heading := [], headStart := false }).modLineTally l
          fun t => { t with refused := bump t.refused }
      ((p.rx l).desk = false → endHeading l p = raiseNow .orderFault l refused) ∧
      ((p.rx l).desk = true → p.orders.buffer ≠ .free →
        endHeading l p = makeAnswer h.serial [txt "NO BUSY"] refused)

/-- A character of a body that begins no sequence is stored, with the statistics it adds and the sum of its line, where
no commit is due.  A line end closes its line: the sum is its signature while there are fewer than 48, and the sum, the
position and the reference class start afresh.  Where the chain is empty or its last block is full a block is taken from
the free pool first, if the pool has one and agency items hold fewer than 2000.  Where it is refused, the character is
not stored: the item, its last line signed, is BROKEN with verdict FRESH and wholly committed where entries still hold
it, STORE_FULL is raised, the framer is in DISCARD without the item, and the character counts as between items. -/
def Obligations.BodyCharacterIsStored : Prop :=
  ∀ (p : Part) (l : LineNo) (n : Nat) (it : Item) (c : Chr),
    (p.fr l).state = .body → (p.fr l).item = some n → (p.fr l).held = [] → p.item? n = some it →
    2 ≤ (p.fr l).opening.length → 2 ≤ (p.fr l).closing.length →
    (p.fr l).opening.head? ≠ some c → (p.fr l).closing.head? ≠ some c →
    let full := it.body.length = 32 * it.blocks
    let granted := 0 < p.store.freeBlocks ∧ p.store.agencyBlocks < 2000
    ((full → granted) → ((p.fr l).release = 0 ∨ it.body.length + 1 - it.committed < (p.fr l).release) →
      deliver l c p =
        (({ p with store := if full then { p.store with
            freeBlocks := p.store.freeBlocks - 1, agencyBlocks := p.store.agencyBlocks + 1 } else p.store } :
          Part).modItem n fun it => { it with
            body := it.body ++ [c]
            blocks := if full then it.blocks + 1 else it.blocks
            stats :=
              { printable := it.stats.printable + if c = lineEndChr then 0 else 1
                lineEnds := it.stats.lineEnds + if c = lineEndChr then 1 else 0
                caseChanges := it.stats.caseChanges + if (caseOf c).any (· ≠ (p.fr l).ref) then 1 else 0
                lines := it.stats.lines + if it.body = [] ∨ it.body.getLast? = some lineEndChr then 1 else 0 }
            signatures := if c = lineEndChr ∧ it.signatures.length < 48 then it.signatures ++ [(p.fr l).sum]
              else it.signatures }).modFr l fun fr => { fr with
          ref := if c = lineEndChr then .letters else (caseOf c).getD fr.ref
          sum := if c = lineEndChr then 0 else if c = spaceChr then fr.sum else (fr.sum + c * (fr.pos + 1)) % 65536
          pos := if c = lineEndChr then 0 else if c = spaceChr then fr.pos else fr.pos + 1 }) ∧
    (full → ¬ granted → p.StoreSound →
      let q := deliver l c p
      let signed : Item := { it with signatures :=
        if it.stats.lineEnds < it.stats.lines ∧ it.signatures.length < 48 then it.signatures ++ [(p.fr l).sum]
        else it.signatures }
      (q.fr l).state = .discard ∧ (q.fr l).item = none ∧ (q.fr l).heading = [] ∧ (q.fr l).held = [] ∧
      q.rx l = p.rx l ∧
      (q.line l).tally = { (p.line l).tally with between := bump (p.line l).tally.between } ∧
      (q.flag .storeFull).raised = true ∧ q.banks = p.banks ∧ q.history = p.history ∧ q.orders = p.orders ∧
      (∀ after ∈ q.item? n, after.source.isSome = true → after = { signed with
        state := .broken, verdict := some .fresh, committed := it.body.length, holders := after.holders }) ∧
      ∀ l', l' ≠ l → q.line l' = p.line l')

/-- An opening sequence in BODY is a run-on: RUN_ON is raised with the line as a member, the framer is in HEADING with
an empty buffer and receives no item, and the old item, where entries still hold it, is BROKEN with verdict FRESH and
wholly committed. -/
def Obligations.RunOnBreaksTheItem : Prop :=
  ∀ (p : Part) (l : LineNo) (n : Nat) (c : Chr), p.StoreSound → (p.fr l).state = .body → (p.fr l).item = some n →
    (p.fr l).held ++ [c] = (p.fr l).opening →
    let q := deliver l c p
    (q.fr l).state = .heading ∧ (q.fr l).heading = [] ∧ (q.fr l).item = none ∧
      (q.flag .runOn).raised = true ∧ l ∈ (q.flag .runOn).members ∧
      (∀ it, q.item? n = some it → it.source.isSome →
        it.state = .broken ∧ it.verdict = some .fresh ∧ it.committed = it.body.length) ∧
      ∀ l', l' ≠ l → q.line l' = p.line l'

/-- The closing sequence in BODY closes the item: its last line is signed if it is unterminated, it is wholly committed,
and the framer is in HUNT without it.  A KILL has no verdict, a killed item is FRESH, and any other has the verdict of
its comparison with the history, which then holds it.  NEAR_REPEAT removes the queued entries of mode SUPPRESS and
counts them, and counts those of mode MARK.  An item that no entry holds is freed with its blocks.  A character that
brings the uncommitted part of a body to the release length commits it: every entry of the item has a fresh estimate, and
a sender that waits for the item goes on where a line can be formed.  (The desk circuit may be given notices besides.)
-/
def Obligations.ClosingSequenceClosesTheItem : Prop :=
  (∀ (p : Part) (l : LineNo) (n : Nat) (it : Item) (c : Chr), p.StoreSound → p.QueuesOrdered → p.BacklogsCounted →
    p.alarm.owing = [] → (p.fr l).state = .body → (p.fr l).item = some n → p.item? n = some it →
    (p.fr l).held ++ [c] = (p.fr l).closing → (p.fr l).closing ≠ (p.fr l).opening →
    let q := deliver l c p
    let signed : Item := { it with signatures :=
      if it.stats.lineEnds < it.stats.lines ∧ it.signatures.length < 48 then it.signatures ++ [(p.fr l).sum]
      else it.signatures }
    let compared := compareWith l signed p.history
    let verdict := if it.kind = .kill then none else if it.killed = true then some .fresh else some compared.1
    q.fr l = { p.fr l with held := [], state := .hunt, heading := [], headStart := false, item := none } ∧
    q.rx l = p.rx l ∧ (q.line l).tally = (p.line l).tally ∧ (∀ l', l' ≠ l → q.line l' = p.line l') ∧
    q.banks = p.banks ∧ q.orders = p.orders ∧
    q.history = (if it.kind = .kill ∨ it.killed = true then p.history else compared.2) ∧
    (∀ after ∈ q.item? n, after.source.isSome = true → after = { signed with
      state := .closed, verdict := verdict, committed := it.body.length, holders := after.holders }) ∧
    (∀ c', (∀ e ∈ (p.q c').entries, e.item ≠ n) ∨ verdict ≠ some .nearRepeat →
      (q.circ c').tally.suppressed = (p.circ c').tally.suppressed ∧
      (q.circ c').tally.marked = (p.circ c').tally.marked) ∧
    (∀ c', ∀ e ∈ (p.q c').entries, e.item = n →
      (verdict = some .nearRepeat →
        (q.circ c').tally.suppressed = (if e.mode = .suppress then bump (p.circ c').tally.suppressed
          else (p.circ c').tally.suppressed) ∧
        (q.circ c').tally.marked = (if e.mode = .mark then bump (p.circ c').tally.marked
          else (p.circ c').tally.marked)) ∧
      (c' ≠ p.orders.desk →
        ((∃ x ∈ (q.q c').held, x.item = n) ↔ ¬ (verdict = some .nearRepeat ∧ e.mode = .suppress)))) ∧
    (it.holders = 0 → (∀ c', ∀ e ∈ (p.q c').held, e.item ≠ n) →
      q.items = p.items.filter (fun x => x.num ≠ n) ∧ q.store = {
        freeBlocks := p.store.freeBlocks + it.blocks
        agencyBlocks := p.store.agencyBlocks - it.blocks
        agencyItems := p.store.agencyItems - 1 })) ∧
  ∀ (p : Part) (l : LineNo) (n : Nat) (it : Item) (c : Chr), p.StoreSound → p.alarm.owing = [] →
    (p.fr l).state = .body → (p.fr l).item = some n → (p.fr l).held = [] → p.item? n = some it →
    2 ≤ (p.fr l).opening.length → 2 ≤ (p.fr l).closing.length →
    (p.fr l).opening.head? ≠ some c → (p.fr l).closing.head? ≠ some c → it.body.length ≠ 32 * it.blocks →
    1 ≤ (p.fr l).release → (p.fr l).release ≤ it.body.length + 1 - it.committed →
    let q := deliver l c p
    (∃ after, q.item? n = some after ∧ after.state = .filling ∧ after.body = it.body ++ [c] ∧
      after.committed = it.body.length + 1) ∧
    ∀ c', c' ≠ p.orders.desk →
      ((p.tx c').state ≠ .idle → (p.tx c').state ≠ .waiting →
        let again := fun e : Entry => if e.item = n then { e with
          estimate := estimateOf e (q.item n) (p.tx c').ordered } else e
        (q.q c').entries = (p.q c').entries.map again ∧ (q.q c').current = (p.q c').current.map again ∧
        (q.load c').backlog = backlogOf (q.q c')) ∧
      ((p.tx c').state = .waiting → (p.q c').current.map (·.item) = some n →
        (q.tx c').state = match q.examined c' with | .line _ => .copy | _ => .waiting)

/-! ### The distribution table -/

/-- The route of an item is the entry of the first of the four levels at which the active bank has one: (line,
category), (ANY, category), (line, ANY), (ANY, ANY); there is none exactly where no level has one. -/
def Obligations.LookupFollowsPrecedence : Prop :=
  ∀ (bank : List Route) (l : LineNo) (category : Text),
    let matching := fun rt : Route => (rt.key.line = none ∨ rt.key.line = some l) ∧
      (rt.key.category = none ∨ rt.key.category = some category)
    (lookup bank l category = none ↔ ∀ rt ∈ bank, ¬ matching rt) ∧
    ∀ rt, lookup bank l category = some rt → rt ∈ bank ∧ matching rt ∧ ∀ rt' ∈ bank, matching rt' →
      (rt'.key.category.isSome = true → rt.key.category.isSome = true) ∧
        (rt'.key.category.isSome = rt.key.category.isSome → rt'.key.line.isSome = true → rt.key.line.isSome = true)

/-- A ROUTE order that passes its checks replaces the pending entry of its key whole, or adds one to fewer than 64; a
65th is refused with FULL.  Line and category may each be ANY.  The active bank stands.

A ROUTE order is checked from left to right, and its first fault refuses it: a line or an alternate 8 or 9, a digit 8 or
9 in the circuit set and a class 0 or 6 to 9 with RANGE; a line, a category, a circuit set, a class, an alternate or a
repeat mode of the wrong form, a repeated digit, a line that stops before its circuit set, and a token that is no option
or an option given already, with ARGUMENT.  `reads` says what a line ROUTE with these tokens is refused with.

The orders are given apart from an order item (notes/assumptions/3.md).  That the class of a command is checked before
its alternate is the model's choice (notes/assumptions/31.md), and so is ARGUMENT for an option that repeats a key with
a value out of its range (notes/assumptions/32.md). -/
def Obligations.RouteEditsThePendingBank : Prop :=
  let letters := fun t : Text => t.length = 2 ∧ ∀ c ∈ t, isLetter c = true
  (∀ (s : State) (line : Option LineNo) (category : Option Text) (set : List Nat) (cls : Option Nat)
    (alt : Option CircNo) (mode : Option RepeatMode), s.TakesOrder → (∀ t, category = some t → letters t) →
    set.Nodup → (∀ d ∈ set, d ≤ 7) → (∀ k, cls = some k → 1 ≤ k ∧ k ≤ 5) →
    let rt : Route :=
      { key := { line := line, category := category }, circuits := allEight.filter fun c => set.contains c.val
        cls := cls, alt := alt, mode := mode.getD .send }
    let bank := s.part.banks.pending
    let known := bank.any fun x => x.key == rt.key
    exec (.route (line.map (·.val)) category set cls (alt.map (·.val)) mode) s = .next (
      if known then
        s.answered { s.part with banks := { s.part.banks with
          pending := bank.map fun x => if x.key == rt.key then rt else x } }
          [sentence [txt "OK", txt "REPLACED", dec bank.length]]
      else if bank.length < 64 then
        s.answered { s.part with banks := { s.part.banks with pending := bank ++ [rt] } }
          [sentence [txt "OK", txt "ADDED", dec (bank.length + 1)]]
      else s.answered s.part (noReply "FULL"))) ∧
  (∀ (s : State) (line : Option Nat) (category : Option Text) (set : List Nat) (cls alt : Option Nat)
    (mode : Option RepeatMode), s.TakesOrder →
    let refused := fun word : String => exec (.route line category set cls alt mode) s =
      .next (s.answered s.part (noReply word))
    let keyRight := (∀ k, line = some k → k ≤ 7) ∧ ∀ t, category = some t → letters t
    let formed := set.length ≤ 8 ∧ set.Nodup ∧ ∀ d ∈ set, d ≤ 9
    let setRight := formed ∧ ∀ d ∈ set, d ≤ 7
    (∀ k, line = some k → 8 ≤ k → refused (if k ≤ 9 then "RANGE" else "ARGUMENT")) ∧
    ((∀ k, line = some k → k ≤ 7) → (∃ t, category = some t ∧ ¬ letters t) → refused "ARGUMENT") ∧
    (keyRight → ¬ formed → refused "ARGUMENT") ∧
    (keyRight → formed → ¬ setRight → refused "RANGE") ∧
    (keyRight → setRight → ∀ k, cls = some k → ¬ (1 ≤ k ∧ k ≤ 5) →
      refused (if k ≤ 9 then "RANGE" else "ARGUMENT")) ∧
    (keyRight → setRight → (∀ k, cls = some k → 1 ≤ k ∧ k ≤ 5) → ∀ a, alt = some a → 8 ≤ a →
      refused (if a ≤ 9 then "RANGE" else "ARGUMENT"))) ∧
  let reads := fun (ts : List Text) (r : Reason) => ∀ (p : Part) (order : Text), tokens order = txt "ROUTE" :: ts →
    readOrder order p = .no r
  let lineRight := fun t : Text => t = txt "ANY" ∨ ∃ k, k ≤ 7 ∧ t = [28 + k]
  let categoryRight := fun t : Text => t = txt "ANY" ∨ letters t
  let setRight := fun t : Text => t = txt "NONE" ∨ (t.length ≤ 8 ∧ t.Nodup ∧ ∀ d ∈ t, 28 ≤ d ∧ d ≤ 35)
  reads [] .argument ∧
  (∀ (l : Text) (rest : List Text), ¬ lineRight l →
    reads (l :: rest) (if l ∈ [[36], [37]] then .range else .argument)) ∧
  ∀ l : Text, lineRight l → reads [l] .argument ∧
    (∀ (c : Text) (rest : List Text), ¬ categoryRight c → reads (l :: c :: rest) .argument) ∧
    ∀ c : Text, categoryRight c → reads [l, c] .argument ∧
      (∀ (x : Text) (rest : List Text), ¬ setRight x → reads (l :: c :: x :: rest)
        (if x.length ≤ 8 ∧ x.Nodup ∧ ∀ d ∈ x, 28 ≤ d ∧ d ≤ 37 then .range else .argument)) ∧
      ∀ (x tok : Text) (good rest : List Text), (∃ o, readRoute (l :: c :: x :: good) = .ok o) →
        let bad := reads (l :: c :: x :: (good ++ tok :: rest))
        let joined := fun (key v t : Text) => ∃ j, (j = 40 ∨ j = subChr) ∧ t = key ++ j :: v
        let keys := [txt "CLASS", txt "ALT", txt "REPEAT"]
        ((∀ key ∈ keys, ∀ v, ¬ joined key v tok) → bad .argument) ∧
        ∀ key ∈ keys, ∀ v, joined key v tok →
          ((∃ g ∈ good, ∃ w, joined key w g) ∨ v = [] ∨ 40 ∈ v ∨ subChr ∈ v → bad .argument) ∧
          (¬ (∃ g ∈ good, ∃ w, joined key w g) →
            (key = txt "CLASS" → (∀ k, 1 ≤ k → k ≤ 5 → v ≠ [28 + k]) →
              bad (if v ∈ [[28], [34], [35], [36], [37]] then .range else .argument)) ∧
            (key = txt "ALT" → (∀ k, k ≤ 7 → v ≠ [28 + k]) → bad (if v ∈ [[36], [37]] then .range else .argument)) ∧
            (key = txt "REPEAT" → v ∉ [txt "SEND", txt "MARK", txt "SUPPRESS"] → bad .argument))

/-- An UNROUTE order removes the pending entry of exactly its key, or is refused with ABSENT; its tokens are checked as
those of ROUTE, and a further token is refused. The active bank stands. The orders are given apart from an order item
(notes/assumptions/3.md). -/
def Obligations.UnrouteRemovesOneKey : Prop :=
  (∀ (s : State) (line : Option LineNo) (category : Option Text), s.TakesOrder →
    (∀ t, category = some t → t.length = 2 ∧ ∀ c ∈ t, isLetter c = true) →
    let bank := s.part.banks.pending
    let rest := bank.filter fun x => !(decide (x.key.line = line) && decide (x.key.category = category))
    exec (.unroute (line.map (·.val)) category) s = .next (
      if rest.length = bank.length then s.answered s.part (noReply "ABSENT")
      else s.answered { s.part with banks := { s.part.banks with pending := rest } }
        [sentence [txt "OK", dec rest.length]])) ∧
  (∀ (s : State) (n : Nat) (category : Option Text), s.TakesOrder → 8 ≤ n →
    exec (.unroute (some n) category) s =
      .next (s.answered s.part (noReply (if n ≤ 9 then "RANGE" else "ARGUMENT")))) ∧
  (∀ (s : State) (line : Option LineNo) (t : Text), s.TakesOrder →
    ¬ (t.length = 2 ∧ ∀ c ∈ t, isLetter c = true) →
    exec (.unroute (line.map (·.val)) (some t)) s = .next (s.answered s.part (noReply "ARGUMENT"))) ∧
  (∀ (p : Part) (order l c x : Text) (more : List Text), tokens order = txt "UNROUTE" :: l :: c :: x :: more →
    (∃ key, readUnroute [l, c] = .ok (.unroute key)) → readOrder order p = .no .argument)

/-- COPYBANK makes the pending bank an exact copy of the active bank, and is never refused for size, as no step takes a
bank past its 64 entries.  ENACT exchanges the two banks as wholes; the route of an item is then sought in the bank that
was pending, and no step but that exchange, or a power-up start, changes the active bank.  The orders are given apart
from an order item, whose form and reply are the model's choice (notes/assumptions/3.md). -/
def Obligations.CopybankAndEnactMoveWholeBanks : Prop :=
  (∀ s : State, s.TakesOrder → exec .copybank s = .next (s.answered
    { s.part with banks := { active := s.part.banks.active, pending := s.part.banks.active } }
    [sentence [txt "OK", dec s.part.banks.active.length]])) ∧
  (∀ s t : State, s.part.banks.active.length ≤ 64 ∧ s.part.banks.pending.length ≤ 64 → step s = .next t →
    t.part.banks.active.length ≤ 64 ∧ t.part.banks.pending.length ≤ 64) ∧
  (∀ (p : Part) (order x : Text) (more : List Text), tokens order = txt "COPYBANK" :: x :: more →
    readOrder order p = .no .argument) ∧
  (∀ s : State, s.TakesOrder → ∃ t : State, exec .enact s = .next t ∧
    t = s.answered { s.part with banks := { active := s.part.banks.pending, pending := s.part.banks.active } }
      [sentence [txt "OK", txt "ACTIVE", dec s.part.banks.pending.length]] ∧
    ∀ (p : Part) (l : LineNo) (n : Nat), p.banks = t.part.banks →
      (∀ rt, lookup s.part.banks.pending l (p.item n).category = some rt →
        routeItem l n p = rt.circuits.foldl (fun p c => offer rt n (rt.cls.getD (p.item n).cls) c p) p) ∧
      (lookup s.part.banks.pending l (p.item n).category = none ∨ s.part.banks.pending = [] →
        routeItem l n p = { p with unrouted := bump p.unrouted })) ∧
  (∀ s t : State, step s = .next t → t.part.banks.active = s.part.banks.active ∨
    t.part.banks = { active := s.part.banks.pending, pending := s.part.banks.active } ∨ t.part.banks = coldBanks) ∧
  (∀ (p : Part) (order x : Text) (more : List Text), tokens order = txt "ENACT" :: x :: more →
    readOrder order p = .no .argument)

/-! ### Dispatch queues -/

/-- An arrival is placed behind every entry of its class or a more urgent one, and ahead of every other; an entry that
is given back is placed ahead of the entries of its own class.  A request for an item that the queue or the current slot
holds is a duplicate and changes nothing.  A queue of fewer than 32 entries, the one whose break line is being sent among
them, takes any other request: the entry is created with its fields and its estimate and placed so, the holders count of
the item goes up by 1, the backlog has its estimate, and no flag but CONGESTED and no tally but that of a break taken is
touched.  It is then reviewed: an IDLE sender makes a selection, a WAITING one takes a break that is due, and any other
keeps the reasons that the arrival adds to the pending break.

An arrival at a full queue displaces, of the entries
never broken off, the last of the largest class, if that class is larger than its own: DISPLACED is raised, the tally
counts, the entry is gone and the arrival stands in its place by class.  Where there is no such entry it is refused:
QUEUE_FULL is raised and nothing else changes.  That a notice of DISPLACED or QUEUE_FULL, where one is due, is made when
the act of the raising block is done, and so not by the insertion itself, is the model's reading
(notes/assumptions/4.md). -/
def Obligations.ArrivalsStandByClass : Prop :=
  (∀ (e : Entry) (es : List Entry), es.Pairwise (fun a b => a.cls ≤ b.cls) →
    placeLast e es = (es.filter fun x => x.cls ≤ e.cls) ++ e :: es.filter (fun x => e.cls < x.cls) ∧
    placeFirst e es = (es.filter fun x => x.cls < e.cls) ++ e :: es.filter (fun x => e.cls ≤ x.cls)) ∧
  (∀ (p : Part) (c : CircNo) (r : Request), (∃ x ∈ (p.q c).held, x.item = r.item) → insert c r p = (.duplicate, p)) ∧
  (∀ (p : Part) (c : CircNo) (r : Request), ((p.q c).held.map (·.item)).Nodup →
    (∀ x ∈ (p.q c).held, x.item ≠ r.item) → p.queueCount c < 32 → ∃ q : Part, insert c r p = (.done, q) ∧
    let was := p.q c
    let tx := p.tx c
    let blank : Entry :=
      { item := r.item, cls := r.cls, source := (p.item r.item).source, admitted := p.clock, mode := r.mode
        resume := none, cseq := none, estimate := 0, spent := 0, diverted := r.diverted }
    let arrival := { blank with estimate := estimateOf blank (p.item r.item) tx.ordered }
    let entries := placeLast arrival was.entries
    let urgent := fun e : Entry => decide (e.cls ≤ was.force.preempt) && decide (e.cls < was.currentClass)
    let rival := fun e : Entry => decide (was.force.preempt < e.cls) && decide (turnOf e.source ≠ was.turn)
    let byClass := was.breakClass || (was.current.isSome && decide (1 ≤ was.force.preempt) && urgent arrival)
    let byQuantum := was.breakQuantum || (was.current.isSome && decide (was.force.mode = .rotation) && was.byTurn &&
      decide (1 ≤ was.force.quantum) && decide (was.force.quantum ≤ was.turnLines) && p.eligible arrival &&
      rival arrival)
    let begins := fun (state : SenderState) (kind : LineKind) => (q.tx c).state = state ∧ q.LineBegun c kind tx.force
    (∃ x ∈ (q.q c).held, x = { arrival with cseq := x.cseq }) ∧
    (∀ y ∈ was.held, ∃ x ∈ (q.q c).held, x.item = y.item) ∧ (q.load c).backlog = backlogOf (q.q c) ∧
    (∀ it, p.item? r.item = some it → q.item? r.item = some { it with holders := it.holders + 1 }) ∧
    (∀ f, f ≠ .congested → q.flag f = p.flag f) ∧ q.lines = p.lines ∧ q.banks = p.banks ∧ q.history = p.history ∧
    q.orders = p.orders ∧ (∀ c', c' ≠ c → q.circ c' = p.circ c') ∧
    (tx.state ≠ .waiting → (q.circ c).tally = (p.circ c).tally) ∧
    (tx.state ≠ .idle → tx.state ≠ .waiting → q.tx c = tx ∧
      q.q c = { was with entries := entries, breakClass := byClass, breakQuantum := byQuantum }) ∧
    (tx.state = .waiting →
      if (byClass && entries.any fun e => p.eligible e && urgent e) ||
          (byQuantum && entries.any fun e => p.eligible e && rival e) then
        begins .notice .breakLine ∧ (q.q c).entries = entries ∧
          (q.circ c).tally = { (p.circ c).tally with breaks := bump (p.circ c).tally.breaks }
      else (q.tx c).state = .waiting ∧ (q.circ c).tally = (p.circ c).tally ∧
        q.q c = { was with entries := entries, breakClass := false, breakQuantum := false }) ∧
    (tx.state = .idle → if tx.owed ≠ [] then begins .notice .owed ∧ (q.q c).entries = entries
      else match (p.modQ c fun q => { q with entries := entries, force := q.ordered }).choose c with
        | none => (q.tx c).state = .idle ∧ (q.q c).entries = entries
        | some ch => begins .heading .heading ∧ (q.q c).entries = entries.filter (fun x => x.item ≠ ch.entry.item) ∧
            (q.q c).current.map (·.item) = some ch.entry.item)) ∧
  ∀ (p : Part) (c : CircNo) (r : Request), ((p.q c).held.map (·.item)).Nodup →
    (∀ x ∈ (p.q c).held, x.item ≠ r.item) → 32 ≤ p.queueCount c →
    ((∀ x ∈ (p.q c).entries, x.resume.isSome = true ∨ x.cls ≤ r.cls) → ∃ q : Part, insert c r p = (.full, q) ∧
      (q.flag .queueFull).raised = true ∧ c ∈ (q.flag .queueFull).members ∧
      (∀ f, f ≠ .queueFull → q.flag f = p.flag f) ∧ { q with alarm := p.alarm } = p) ∧
    ∀ (before after : List Entry) (e : Entry), (p.q c).entries = before ++ e :: after → e.resume = none →
      r.cls < e.cls → (∀ x ∈ (p.q c).entries, x.resume = none → x.cls ≤ e.cls) →
      (∀ x ∈ after, x.resume = none → x.cls ≠ e.cls) → ∃ (q : Part) (arrival : Entry),
      insert c r p = (.done, q) ∧ (q.flag .displaced).raised = true ∧ c ∈ (q.flag .displaced).members ∧
      (q.circ c).tally.displaced = bump (p.circ c).tally.displaced ∧ (∀ x ∈ (q.q c).held, x.item ≠ e.item) ∧
      arrival.item = r.item ∧ arrival.cls = r.cls ∧ arrival.mode = r.mode ∧ arrival.diverted = r.diverted ∧
      arrival.source = (p.item r.item).source ∧ arrival.admitted = p.clock ∧ arrival.resume = none ∧
      (∃ x ∈ (q.q c).held, x.item = r.item) ∧
      ((p.tx c).state ≠ .idle → (p.tx c).state ≠ .waiting → (q.q c).entries = placeLast arrival (before ++ after)) ∧
      (∀ it, p.item? r.item = some it → q.item? r.item = some { it with holders := it.holders + 1 }) ∧
      q.lines = p.lines ∧ q.banks = p.banks ∧ q.history = p.history ∧ q.orders = p.orders ∧
      ∀ c', c' ≠ c → q.circ c' = p.circ c'

/-- In PRIORITY mode the selection takes the first eligible entry in queue order, and leaves the turn as it is. -/
def Obligations.PrioritySelectsTheFirstEligible : Prop :=
  ∀ (p : Part) (c : CircNo), (p.q c).force.mode = .priority → (p.q c).current = none →
    (∀ e, p.choose c = some { entry := e, byTurn := false, turn := (p.q c).turn, turnLines := (p.q c).turnLines } ↔
      ∃ before after, (p.q c).entries = before ++ e :: after ∧ p.eligible e = true ∧
        ∀ x ∈ before, p.eligible x = false) ∧
    (p.choose c = none ↔ ∀ e ∈ (p.q c).entries, p.eligible e = false)

/-- R102, the selection in ROTATION mode. -/
def Obligations.RotationServesTheTurn : Prop :=
  (∀ (p : Part) (c : CircNo), (p.q c).force.mode = .rotation → (p.q c).current = none → (p.q c).turn ≤ 8 →
    let q := p.q c
    let stepsTo := fun (e : Entry) => (turnOf e.source + 9 - q.turn) % 9
    (p.choose c = none ↔ ∀ e ∈ q.entries, p.eligible e = false) ∧
    (∀ (before after : List Entry) (e : Entry), q.entries = before ++ e :: after → p.eligible e = true →
      (e.cls ≤ q.force.preempt → (∀ x ∈ before, p.eligible x = true → q.force.preempt < x.cls) →
        p.choose c = some { entry := e, byTurn := false, turn := q.turn, turnLines := q.turnLines }) ∧
      ((∀ x ∈ q.entries, p.eligible x = true → q.force.preempt < x.cls ∧ stepsTo e ≤ stepsTo x) →
        (∀ x ∈ before, p.eligible x = true → turnOf x.source ≠ turnOf e.source) →
        p.choose c = some { entry := e, byTurn := true, turn := turnOf e.source
                            turnLines := if turnOf e.source = q.turn then q.turnLines else 0 })) ∧
    (∀ ch, p.choose c = some ch → (ch.byTurn = true ↔ q.force.preempt < ch.entry.cls)) ∧
    (q.force.preempt = 0 → (∀ e ∈ q.entries, 1 ≤ e.cls) → ∀ ch, p.choose c = some ch → ch.byTurn = true) ∧
    (p.choose c = none → (select c p).q c = q) ∧
    (∀ ch, p.choose c = some ch → ((select c p).q c).entries = q.entries.filter (fun x => x.item ≠ ch.entry.item) ∧
      ((select c p).q c).current = some { ch.entry with cseq := some (ch.entry.cseq.getD (p.tx c).nextCseq) } ∧
      ((select c p).q c).byTurn = ch.byTurn ∧ ((select c p).q c).turn = ch.turn ∧
      ((select c p).q c).turnLines = ch.turnLines)) ∧
  (∀ l : LineNo, turnOf (some l) = l.val) ∧
  (∀ (n serial clock : Nat) (slug body : Text), turnOf (unitItem n serial slug body clock).source = 8 ∧
    (unitItem n serial slug body clock).cls = 2) ∧
  (∀ c, (State.reset.part.q c).TurnWithin) ∧
  ∀ s t : State, (∀ c, (s.part.q c).TurnWithin) → step s = .next t → ∀ c, (t.part.q c).TurnWithin

/-- The stall timer of a waiting circuit expires. With an entry eligible a break is taken: the current entry gets its
resume point, the breaks tally counts, the timer stops and the sender is in NOTICE on its break line. With none the
timer starts afresh and STALL is raised with the circuit as a member. (The desk circuit may be given a notice besides.)
-/
def Obligations.StallExpiryBreaksOrRaises : Prop :=
  ∀ (s : State) (c : CircNo), s.part.inReset = false → (s.part.q c).stall.isSome = true → ∃ p : Part,
    exec (.stallTimerExpiry c) s = .next { s with part := p } ∧
    ((s.part.q c).entries.any s.part.eligible = true →
      (p.q c).entries = (s.part.q c).entries ∧ (p.q c).stall = none ∧
      (p.q c).current = (s.part.q c).current.map (fun e => { e with
        resume := some { offset := (s.part.tx c).offset, line := (s.part.tx c).lineNo } }) ∧
      (p.circ c).tally = { (s.part.circ c).tally with breaks := bump (s.part.circ c).tally.breaks } ∧
      (p.tx c).state = .notice ∧ (p.tx c).job.isBreak = true ∧ (p.tx c).out ≠ [] ∧
      { p with circs := s.part.circs } = s.part ∧ ∀ c', c' ≠ c → p.circ c' = s.part.circ c') ∧
    ((s.part.q c).entries.any s.part.eligible = false →
      (p.flag .stall).raised = true ∧ c ∈ (p.flag .stall).members ∧
      (c ≠ s.part.orders.desk →
        p.circ c = { s.part.circ c with q := { s.part.q c with stall := some (s.part.q c).stallTime } }) ∧
      ∀ c', c' ≠ c → c' ≠ s.part.orders.desk → p.circ c' = s.part.circ c')

/-- LAPSE removes the first entry in queue order that is past the age limit of its class and has never been broken off,
counts it as lapsed and raises LAPSED with the circuit as a member; where no entry is past its limit it changes nothing.
(The desk circuit may be given a notice besides.) That the command falls on the first entry past its limit is the
model's choice (notes/assumptions/9.md), and so is that it changes nothing where there is none
(notes/assumptions/8.md). -/
def Obligations.LapseRemovesTheFirstOverdue : Prop :=
  ∀ (s : State) (c : CircNo), s.part.inReset = false →
    (∀ (before after : List Entry) (e : Entry), (s.part.q c).entries = before ++ e :: after →
      (∀ x ∈ before ++ after, x.item ≠ e.item) → (∀ x ∈ before, overdue s.part.clock (s.part.q c) x = false) →
      e.resume = none → (s.part.q c).ageLimit e.cls ≠ 0 →
      (s.part.q c).ageLimit e.cls * 60 ≤ s.part.clock - e.admitted → ∃ p : Part,
      exec (.lapse c) s = .next { s with part := p } ∧
        (p.flag .lapsed).raised = true ∧ c ∈ (p.flag .lapsed).members ∧
        (c ≠ s.part.orders.desk → (p.q c).entries = before ++ after ∧ (p.q c).current = (s.part.q c).current ∧
          p.tx c = s.part.tx c ∧
          (p.circ c).tally = { (s.part.circ c).tally with lapsed := bump (s.part.circ c).tally.lapsed }) ∧
        p.lines = s.part.lines ∧ p.banks = s.part.banks ∧ p.history = s.part.history ∧ p.orders = s.part.orders ∧
        ∀ c', c' ≠ c → c' ≠ s.part.orders.desk → p.circ c' = s.part.circ c') ∧
    ((∀ e ∈ (s.part.q c).entries, overdue s.part.clock (s.part.q c) e = false) → exec (.lapse c) s = .next s)

/-- PURGE n and PURGE ALL, with a slug or without, remove the queued entries that have never been broken off and whose
item has the slug; the answer gives their number. Interrupted and current entries stay, no tally counts and no flag is
raised. The orders are given apart from an order item (notes/assumptions/3.md). -/
def Obligations.PurgeRemovesUnbrokenEntries : Prop :=
  ∀ (s : State) (only : Option CircNo) (slug : Option Text), s.TakesOrder → s.part.QueuesOrdered →
    s.part.BacklogsCounted → s.part.HoldersCounted → (∀ t, slug = some t → isSlug t = true) → ∃ p : Part,
    let gone := fun (c : CircNo) (e : Entry) => (only = none ∨ only = some c) ∧ e.resume = none ∧
      ∀ t, slug = some t → (s.part.item e.item).slug = t.take 12
    (∀ c, (p.q c).entries.Sublist (s.part.q c).entries ∧
      ∀ e ∈ (s.part.q c).entries, e ∈ (p.q c).entries ↔ ¬ gone c e) ∧
    (∀ c, (p.q c).current = (s.part.q c).current ∧ p.tx c = s.part.tx c ∧
      (p.circ c).tally = (s.part.circ c).tally) ∧
    p.alarm = s.part.alarm ∧ p.lines = s.part.lines ∧ p.banks = s.part.banks ∧ p.history = s.part.history ∧
    exec (.purge (only.map (·.val)) slug) s = .next (s.answered p [sentence [txt "OK", dec
      (allEight.map fun c => (s.part.q c).entries.length - (p.q c).entries.length).sum]])

/-- A rewrite removes the queued entries never broken off of the older items of its line, category, slug and take, and
changes no descriptor but its holders.  A kill reaches the entries of every other item of its line, category and slug,
and marks those items killed: queued entries go, an interrupted one with its kill notice owed; a HELD sender loses its
current one with its notice owed and a selection due; a WAITING one begins the kill line; a sender in another state is
left to read the mark, but an IDLE one with notices owed begins the first.  The history entries of the key go.  An ended
item that loses its last entry is freed.  Neither raises a flag or counts in a tally.  The order in which one purge owes
its notices, those of the interrupted entries in queue order and then that of the held current entry, is the model's
choice (notes/assumptions/14.md). -/
def Obligations.RewriteAndKillPurgeTheirKey : Prop :=
  ∀ (p : Part) (before after : List Item) (k : Item), p.QueuesOrdered → p.BacklogsCounted → p.HoldersCounted →
    p.items = before ++ k :: after →
    let sameStory := fun it : Item => decide (it.source = k.source ∧ it.category = k.category ∧ it.slug = k.slug ∧
      it.kind ≠ .kill)
    let kept := fun q : Part => q.alarm = p.alarm ∧ q.lines = p.lines ∧ q.banks = p.banks ∧ q.orders = p.orders ∧
      q.unrouted = p.unrouted ∧ (∀ c, (q.circ c).tally = (p.circ c).tally) ∧
      ∀ it ∈ p.items,
        (it.ended = true ∧ (∃ c, ∃ e ∈ (p.q c).held, e.item = it.num) ∧
            (∀ c, ∀ e ∈ (q.q c).held, e.item ≠ it.num) → ∀ it' ∈ q.items, it'.num ≠ it.num) ∧
        (it.ended = false ∨ (∃ c, ∃ e ∈ (q.q c).held, e.item = it.num) → ∃ it' ∈ q.items, it'.num = it.num)
    (let q := rewritePurge k.num p
      let gone := fun e : Entry => e.resume.isNone &&
        before.any fun it => it.num == e.item && sameStory it && it.take == k.take
      kept q ∧ q.history = p.history ∧ (∀ it ∈ q.items, ∃ it' ∈ p.items, it = { it' with holders := it.holders }) ∧
      ∀ c, (q.q c).entries = (p.q c).entries.filter (fun e => !gone e) ∧ (q.q c).current = (p.q c).current ∧
        q.tx c = p.tx c) ∧
    (let q := killPurge k.num p
      let matched := fun e : Entry => p.items.any fun it => it.num == e.item && sameStory it
      kept q ∧ q.history.threshold = p.history.threshold ∧ q.history.entries = (p.history.entries.filter fun h =>
        !decide (some h.line = k.source ∧ h.category = k.category ∧ h.slug = k.slug)) ∧
      (∀ it ∈ q.items, ∃ it' ∈ p.items,
        it = { it' with holders := it.holders, killed := it'.killed || sameStory it' }) ∧
      ∀ c,
        let tx := p.tx c
        let current := (p.q c).current.toList.filter matched
        let interrupted := (p.q c).entries.filter fun e => matched e && e.resume.isSome
        let owed := tx.owed ++ (interrupted ++ if tx.state = .held then current else []).map fun e => e.cseq.getD 0
        (q.q c).entries = (p.q c).entries.filter (fun e => !matched e) ∧ (q.tx c).owed = owed ∧
        (tx.state = .held ∧ current ≠ [] → (q.q c).current = none ∧
          q.tx c = { tx with owed := owed, heldPos := .selectionDue }) ∧
        (¬ (tx.state = .held ∧ current ≠ []) → (q.q c).current = (p.q c).current) ∧
        (tx.state = .waiting ∧ current ≠ [] →
          (q.tx c).state = .notice ∧ q.LineBegun c .killLine tx.force ∧ (q.q c).stall = none) ∧
        (tx.state = .idle ∧ owed ≠ [] → (q.tx c).state = .notice ∧ q.LineBegun c .owed tx.force) ∧
        ((tx.state = .idle → owed = []) ∧ (tx.state = .waiting ∨ tx.state = .held → current = []) →
          q.tx c = { tx with owed := owed }))

/-! ### Circuit senders -/

/-- A frame within an output line ends: it is counted as sent, a printing character moves the column on, CR brings it to
0, a FIVE shift character or fill sets the shift, and a frame of the current entry adds 1 to its spent, from which the
backlog is recomputed.  The last frame of an output line brings
besides what that line was for: after a start line end, the line itself; after a heading, the body from the start point;
after a body line, the next one, the break line of a pending break that still holds, or after the last one the trailer;
after a trailer or kill line, the removal of the entry and the next selection; after a break line, the entry's return to
its queue, or its removal with a notice owed if it has been killed; after an owed notice, the next one.  A killed item
cuts its entry with the kill line, and a pending hold stops the sender at the place where it stands.

The last frame moves column and shift as any other does, and where it ends a line end the shift is letters if the line
had a fill or unshift-on-line-end is ON; a change of code that comes into force in IDLE or HELD puts the shift in letters.

A body line of an entry taken by the turn counts in the turn, up to 255; where the count reaches the quantum in ROTATION
and another line waits, the pending break has the reason QUANTUM.  A break for the quantum ends the turn, as the end of a
trailer or kill line of such an entry does where the quantum is 0 or used up: the turn goes on by one line, with its count
at 0.  Any other break leaves turn and count as they are.

The model's choice is that FRAME_SENT changes nothing on a circuit that sends nothing (notes/assumptions/8.md).  Its
readings are that all that the end of a line brings comes in one step (notes/assumptions/28.md), that a broken-off entry
stands in its queue before the selection is made (notes/assumptions/16.md), and that the line end after an unterminated
last line ends that line (notes/assumptions/18.md). -/
def Obligations.FrameSentWithinALine : Prop :=
  (∀ (s : State) (c : CircNo) (f g : Frame) (rest : List Frame), s.part.inReset = false → s.part.alarm.owing = [] →
    s.part.BacklogsCounted →
    ((s.part.tx c).out = [] → exec (.frameSent c) s = .next s) ∧
    ((s.part.tx c).out = f :: g :: rest → ∃ p : Part, exec (.frameSent c) s = .next { s with part := p } ∧
      p.tx c = { s.part.tx c with
        out := g :: rest
        column := if f.sort = .printing then (s.part.tx c).column + 1 else if f.sort = .cr then 0
          else (s.part.tx c).column
        shift := if f.code = .five ∧ f.sort = .figs then .figures
          else if f.code = .five ∧ (f.sort = .ltrs ∨ f.sort = .fill) then .letters else (s.part.tx c).shift } ∧
      (p.circ c).tally = { (s.part.circ c).tally with sent := bump (s.part.circ c).tally.sent } ∧
      p.q c = (if (s.part.tx c).job.ofEntry = true then
        { s.part.q c with current := (s.part.q c).current.map fun e => { e with spent := e.spent + 1 } }
        else s.part.q c) ∧
      (p.load c).backlog = backlogOf (p.q c) ∧
      { p with circs := s.part.circs } = s.part ∧ ∀ c', c' ≠ c → p.circ c' = s.part.circ c')) ∧
  ∀ (s : State) (c : CircNo) (f : Frame), s.part.inReset = false → s.part.alarm.owing = [] →
    s.part.BacklogsCounted → s.part.QueuesOrdered → (s.part.q c).turn ≤ 8 → (s.part.tx c).out = [f] → ∃ p : Part,
    exec (.frameSent c) s = .next { s with part := p } ∧
    let tx := s.part.tx c
    let q := s.part.q c
    let spent := fun e : Entry => { e with spent := e.spent + 1 }
    let killed := q.current.any fun e => (s.part.item e.item).killed
    let column := if f.sort = .printing then tx.column + 1 else if f.sort = .cr then 0 else tx.column
    let stands := fun (offset line : Nat) => (p.tx c).offset = offset ∧ (p.tx c).lineNo = line
    let frame := if f.code = .five ∧ f.sort = .figs then .figures
      else if f.code = .five ∧ (f.sort = .ltrs ∨ f.sort = .fill) then .letters else tx.shift
    let shift := if (f.sort = .lf ∨ f.sort = .fill) ∧ (1 ≤ tx.force.fills ∨ tx.force.unshift = true) then .letters
      else frame
    let coded := (p.tx c).force = { tx.force with rate := tx.ordered.rate, code := tx.ordered.code }
    let stopped := fun (pos : HeldPos) => (p.tx c).state = .held ∧ (p.tx c).heldPos = pos ∧
      (p.tx c).holdPending = false ∧ (p.tx c).out = [] ∧ coded
    let begun := fun kind : LineKind => p.LineBegun c kind tx.force
    let begins := fun (state : SenderState) (kind : LineKind) => (p.tx c).state = state ∧ begun kind
    let printed := if tx.job.ofEntry = true then q.current.map spent else q.current
    let kept := (p.q c).current = printed ∧ (p.q c).entries = q.entries
    let rivals := q.entries.any fun e =>
      s.part.eligible e && decide (q.force.preempt < e.cls) && decide (turnOf e.source ≠ q.turn)
    let classHolds := q.entries.any fun e =>
      s.part.eligible e && decide (e.cls ≤ q.force.preempt) && decide (e.cls < q.currentClass)
    let broken := begins .notice .breakLine ∧ (p.circ c).tally.breaks = bump (s.part.circ c).tally.breaks ∧
      (p.q c).entries = q.entries ∧ ((p.q c).current = printed.map fun e => { e with
        resume := some { offset := (p.tx c).offset, line := (p.tx c).lineNo } })
    let body := fun due : Bool =>
      (p.tx c).force = { tx.ordered with rate := tx.force.rate, code := tx.force.code } ∧ match p.examined c with
      | .line ln => kept ∧ (p.tx c).state = .copy ∧ (p.tx c).job = .body ln.next ln.last ∧
          (p.tx c).out = textFrames (p.tx c).force.code (p.tx c).shift ln.text ++
            (if ln.last = true then [] else lineEndFrames (p.tx c).force.code (p.tx c).force.fills)
      | .wait => if due then broken else kept ∧ (p.tx c).state = .waiting ∧ (p.q c).stall = some q.stallTime
      | .done => kept ∧ (p.tx c).state = .trailer ∧ (column = 0 → begun .trailer)
    let pending := (q.breakClass && classHolds) || (q.breakQuantum && rivals)
    let rests := fun after : Queue => (p.q c).current = none ∧ (p.q c).entries = after.entries ∧
      (p.q c).turn = after.turn ∧ (p.q c).turnLines = after.turnLines
    let selects := fun after : Queue =>
      ((∀ e ∈ after.entries, s.part.eligible e = false) → (p.tx c).state = .idle ∧ coded ∧ rests after) ∧
      ((∃ e ∈ after.entries, s.part.eligible e = true) → begins .heading .heading ∧
        ∃ ch, (s.part.modQ c fun _ => after).choose c = some ch ∧
          (p.q c).entries = after.entries.filter (fun x => x.item ≠ ch.entry.item) ∧
          (p.q c).current = some { ch.entry with cseq := some (ch.entry.cseq.getD tx.nextCseq) } ∧
          (p.q c).byTurn = ch.byTurn ∧ (p.q c).turn = ch.turn ∧ (p.q c).turnLines = ch.turnLines)
    let goesOn := fun after : Queue => if tx.holdPending = true then stopped .selectionDue ∧ rests after
      else if (p.tx c).owed ≠ [] then begins .notice .owed ∧ rests after
      else selects { after with force := q.ordered }
    let lines := if q.byTurn = true ∧ q.turnLines < 255 then q.turnLines + 1 else q.turnLines
    let next := (q.turn + 1) % 9
    let reached := q.current.isSome && q.byTurn && decide (q.force.mode = .rotation) && decide (1 ≤ q.force.quantum) &&
      decide (lines = q.force.quantum) && decide (q.turnLines < lines) && rivals
    let byQuantum := q.breakQuantum || reached
    let turnKept := (p.q c).turn = q.turn ∧ (p.q c).turnLines = lines
    (p.circ c).tally.sent = bump (s.part.circ c).tally.sent ∧ (p.load c).backlog = backlogOf (p.q c) ∧
    p.alarm = s.part.alarm ∧ p.lines = s.part.lines ∧ p.banks = s.part.banks ∧ p.history = s.part.history ∧
    p.orders = s.part.orders ∧ (∀ c', c' ≠ c → p.circ c' = s.part.circ c') ∧
    (tx.job ≠ .warmFrame → (p.tx c).column = column ∧
      (p.tx c).shift = if (p.tx c).force.code = tx.force.code then shift else .letters) ∧
    (∀ kind, tx.job = .startEnd kind → (p.tx c).startMark = false ∧
      if kind = .body then killed = false → q.current.isSome = true → body pending
      else kept ∧ (p.tx c).state = tx.state ∧ begun kind) ∧
    (tx.job = .heading → if killed then kept ∧ begins .notice .killLine else
      (match q.current.bind (·.resume) with | some r => stands r.offset r.line | none => stands 0 1) ∧
      if tx.holdPending = true then kept ∧ stopped (.lineEnd false)
      else tx.startMark = false → q.current.isSome = true → body pending) ∧
    (∀ offset, tx.job = .body offset false → stands offset (tx.lineNo + 1) ∧
      let ended := q.current.any fun e => (s.part.item e.item).ended && (s.part.item e.item).body.length ≤ offset
      if killed || tx.holdPending || ended then
        turnKept ∧ kept ∧ (p.q c).breakClass = q.breakClass ∧ (p.q c).breakQuantum = byQuantum ∧
        if killed then begins .notice .killLine
        else if tx.holdPending = true then stopped (.lineEnd true)
        else tx.startMark = false → body false
      else (p.q c).breakClass = false ∧ (p.q c).breakQuantum = false ∧
        if (q.breakClass && classHolds) || (byQuantum && rivals) then
          broken ∧ if byQuantum && rivals then (p.q c).turn = next ∧ (p.q c).turnLines = 0 else turnKept
        else turnKept ∧ kept ∧ (p.circ c).tally.breaks = (s.part.circ c).tally.breaks ∧
          (tx.startMark = false → q.current.isSome = true → body false)) ∧
    (∀ offset, tx.job = .body offset true → (p.tx c).state = (if killed then .notice else .trailer) ∧
      kept ∧ stands tx.offset tx.lineNo ∧ (p.q c).turn = q.turn ∧ (p.q c).turnLines = q.turnLines ∧
      if column = 0 then begun (if killed then .killLine else .trailer)
      else (p.tx c).job = .lastEnd offset killed ∧ (p.tx c).out = lineEndFrames tx.force.code tx.force.fills) ∧
    (∀ offset kill, tx.job = .lastEnd offset kill → stands offset (tx.lineNo + 1) ∧ (p.tx c).state = tx.state ∧
      turnKept ∧ kept ∧ begun (if kill then .killLine else .trailer)) ∧
    (tx.job = .trailer ∨ tx.job = .killLine → ∀ e, q.current = some e →
      (p.circ c).tally.done = bump (s.part.circ c).tally.done ∧ (∀ x ∈ (p.q c).held, x.item ≠ e.item) ∧
      (p.tx c).owed = tx.owed ∧
      goesOn (if q.byTurn = true ∧ (q.force.quantum = 0 ∨ q.force.quantum ≤ q.turnLines) then
        { q with current := none, turn := next, turnLines := 0 } else { q with current := none })) ∧
    (tx.job = .breakLine → ∀ e, q.current = some e →
      if killed then (∀ x ∈ (p.q c).held, x.item ≠ e.item) ∧ (p.tx c).owed = tx.owed ++ [e.cseq.getD 0] ∧
        goesOn { q with current := none }
      else (∃ x ∈ (p.q c).held, x.item = e.item) ∧ (p.tx c).owed = tx.owed ∧
        goesOn { q with entries := placeFirst (spent e) q.entries, current := none }) ∧
    (tx.job = .owed → q.current = none → (p.tx c).owed = tx.owed.tail ∧
      if tx.holdPending = true then stopped .selectionDue
      else if tx.owed.tail ≠ [] then begun .owed else selects q)

/-- A body output line that can be formed is formed by the first of five steps that applies: up to the first line end
within the width, which is consumed; the whole of an ended item's last characters, where they fit; the width, where a
space or line end that is consumed follows it; up to the last space in the last columns of the margin, which is dropped;
and the width, broken hard.  So it is a run of the committed characters from the send offset, no longer than the width
and without a line end; the next line starts right after it, or after the one character that it consumes, and every line
moves on.

A sender examines the item of its current entry with the width and margin in force.  An ended item has its body done at
its length, and otherwise has a line; a filling one has a line where a character past the width is committed, or a line
end within that reach, and otherwise makes the sender wait. -/
def Obligations.FormedLineFitsTheWidth : Prop :=
  (∀ (body : Text) (ended : Bool) (width margin k : Nat), 1 ≤ width → k < body.length →
    (ended = true ∨ width + 1 ≤ body.length - k ∨ lineEndChr ∈ (body.drop k).take (width + 1)) →
    let ln := formLine body ended width margin k
    ln.text = (body.drop k).take ln.text.length ∧ ln.text.length ≤ width ∧ lineEndChr ∉ ln.text ∧
      (ln.next = k + ln.text.length ∨ (ln.next = k + ln.text.length + 1 ∧
        (body[k + ln.text.length]? = some spaceChr ∨ body[k + ln.text.length]? = some lineEndChr))) ∧
      k < ln.next ∧ ln.next ≤ body.length ∧ (ln.last = true → ended = true ∧ ln.next = body.length)) ∧
  (∀ (body : Text) (ended : Bool) (width margin k : Nat), 1 ≤ width → k < body.length →
    let ln := formLine body ended width margin k
    let formed := fun (length next : Nat) (last : Bool) =>
      ln = { text := (body.drop k).take length, next := next, last := last }
    let stands := fun (c : Chr) (j : Nat) => body[k + j]? = some c
    (∀ j, j < width → stands lineEndChr j → (∀ i, i < j → ¬ stands lineEndChr i) → formed j (k + j + 1) false) ∧
    ((∀ j, j < width → ¬ stands lineEndChr j) →
      (ended = true → body.length ≤ k + width → formed (body.length - k) body.length true) ∧
      (ended = false ∨ k + width < body.length →
        (stands spaceChr width ∨ stands lineEndChr width → formed width (k + width + 1) false) ∧
        (¬ stands spaceChr width → ¬ stands lineEndChr width →
          (∀ j, width - margin ≤ j → j < width → stands spaceChr j → (∀ i, j < i → i < width → ¬ stands spaceChr i) →
            formed j (k + j + 1) false) ∧
          ((∀ j, width - margin ≤ j → j < width → ¬ stands spaceChr j) → formed width (k + width) false))))) ∧
  (∀ (it : Item) (width margin k : Nat),
    (it.ended = true → it.committed = it.body.length →
      bodyStep it width margin k = if it.body.length ≤ k then .done else .line (formLine it.body true width margin k)) ∧
    (it.ended = false → bodyStep it width margin k =
      if width + 1 ≤ it.committed - k ∨ lineEndChr ∈ ((it.body.take it.committed).drop k).take (width + 1) then
        .line (formLine (it.body.take it.committed) false width margin k)
      else .wait)) ∧
  ∀ (p : Part) (c : CircNo) (e : Entry), (p.q c).current = some e →
    p.examined c = bodyStep (p.item e.item) (p.tx c).force.width (p.tx c).force.margin (p.tx c).offset

/-- HOLD stops a sender at once in IDLE and in WAITING, with the held position it stands at; while a line is being sent
it waits, pending, and on a HELD sender it changes nothing. FREE of a sender that is not held cancels a pending hold.
The orders are given apart from an order item (notes/assumptions/3.md). -/
def Obligations.HoldStopsOrWaits : Prop :=
  ∀ (s : State) (c : CircNo), s.TakesOrder →
    (∀ pos, ((s.part.tx c).state = .idle ∧ (s.part.tx c).out = [] ∧ pos = .nothingDue) ∨
        ((s.part.tx c).state = .waiting ∧ pos = .waiting) →
      exec (.hold c.val) s = .next (s.answered (s.part.setCirc c { s.part.circ c with
        q := { s.part.q c with stall := none }
        tx := { s.part.tx c with
          state := .held, heldPos := pos, holdPending := false, job := .none, out := []
          force := { (s.part.tx c).force with
            rate := (s.part.tx c).ordered.rate, code := (s.part.tx c).ordered.code }
          shift := if (s.part.tx c).force.code = (s.part.tx c).ordered.code then (s.part.tx c).shift
            else .letters } }) okReply)) ∧
    ((s.part.tx c).state = .heading ∨ (s.part.tx c).state = .copy ∨ (s.part.tx c).state = .notice ∨
        (s.part.tx c).state = .trailer →
      exec (.hold c.val) s =
        .next (s.answered (s.part.modTx c fun tx => { tx with holdPending := true }) okReply)) ∧
    ((s.part.tx c).state = .held → exec (.hold c.val) s = .next (s.answered s.part okReply)) ∧
    ((s.part.tx c).state ≠ .held → exec (.free c.val) s =
      .next (s.answered (s.part.modTx c fun tx => { tx with holdPending := false }) okReply))

/-- FREE of a HELD sender touches no line and no other circuit.  With nothing due or a selection due a selection point
falls: with kill notices owed the sender is in NOTICE on the first of them; otherwise the selection is made with the
mode, P and Q ordered, its entry is current with its heading begun, and where nothing is chosen the sender is IDLE.
Held at a line end, a pending break that still holds is taken, and otherwise the sender goes on from where it stands: the
next body line, the wait for it, or the trailer; after a body line with which the body of an ended item has all been
sent no break is checked (the model's reading, notes/assumptions/19.md).  Held while it waited, a pending break that
still holds is taken, and otherwise the item is examined: its next line, the trailer, or the wait with the stall timer
started afresh.  (A sender held there has sent its start line end, before its heading.)  The order is given apart from
an order item (notes/assumptions/3.md). -/
def Obligations.FreeGoesOnFromTheHeldPosition : Prop :=
  ∀ (s : State) (c : CircNo), s.TakesOrder → (s.part.tx c).state = .held → ∃ p : Part,
    exec (.free c.val) s = .next (s.answered p okReply) ∧
    { p with circs := s.part.circs } = s.part ∧ (∀ c', c' ≠ c → p.circ c' = s.part.circ c') ∧
    let tx := s.part.tx c
    let q := s.part.q c
    let begins := fun (state : SenderState) (kind : LineKind) =>
      (p.tx c).state = state ∧ p.LineBegun c kind tx.force
    let killed := q.current.any fun e => (s.part.item e.item).killed
    let broken := begins .notice .breakLine ∧ (p.circ c).tally.breaks = bump (s.part.circ c).tally.breaks ∧
      (p.q c).entries = q.entries ∧ (p.q c).stall = none ∧
      (p.q c).current = q.current.map fun e => { e with resume := some { offset := tx.offset, line := tx.lineNo } }
    let goesOn := (p.q c).current = q.current ∧ (p.q c).entries = q.entries ∧
      (p.tx c).offset = tx.offset ∧ (p.tx c).lineNo = tx.lineNo ∧
      match p.examined c with
      | .line ln => (p.tx c).state = .copy ∧ (p.tx c).job = .body ln.next ln.last ∧
          (p.tx c).force = { tx.ordered with rate := tx.force.rate, code := tx.force.code } ∧
          (p.tx c).out = textFrames (p.tx c).force.code (p.tx c).shift ln.text ++
            (if ln.last = true then [] else lineEndFrames (p.tx c).force.code (p.tx c).force.fills)
      | .wait => (p.tx c).state = .waiting ∧ (p.q c).stall = some q.stallTime
      | .done => (p.tx c).state = (if killed then .notice else .trailer) ∧
          (tx.column = 0 → p.LineBegun c (if killed then .killLine else .trailer) tx.force)
    (tx.heldPos = .nothingDue ∨ tx.heldPos = .selectionDue →
      (tx.owed ≠ [] → begins .notice .owed) ∧
      (tx.owed = [] → match (s.part.modQ c fun q => { q with force := q.ordered }).choose c with
        | none => (p.tx c).state = .idle ∧ (p.q c).entries = q.entries ∧ (p.q c).current = q.current
        | some ch => begins .heading .heading ∧
            (p.q c).entries = q.entries.filter (fun x => x.item ≠ ch.entry.item) ∧
            (p.q c).current = some { ch.entry with cseq := some (ch.entry.cseq.getD tx.nextCseq) } ∧
            (p.q c).byTurn = ch.byTurn ∧ (p.q c).turn = ch.turn ∧ (p.q c).turnLines = ch.turnLines)) ∧
    (∀ afterBody, tx.heldPos = .lineEnd afterBody →
      let sent := afterBody = true ∧ q.current.any (fun e => (s.part.item e.item).ended &&
        (s.part.item e.item).body.length ≤ tx.offset) = true
      (¬ sent → s.part.breakDue c = true → broken) ∧
      (sent ∨ s.part.breakDue c = false → tx.startMark = false → goesOn)) ∧
    (tx.heldPos = .waiting →
      (s.part.breakDue c = true → broken) ∧ (s.part.breakDue c = false → tx.startMark = false → goesOn))

/-! ### Load monitor -/

/-- R145, the heading length HL; and the estimate of an entry, the five terms of Table 8-1 capped at 65535. -/
def Obligations.EstimateFollowsTheFormula : Prop :=
  ∀ (e : Entry) (it : Item) (tx : TxParams), it.category.length = 2 → e.cls ≤ 9 → tx.margin < tx.width →
    let hl := 18 + it.slug.length + digitsOf it.take
      + (if it.kind = .rewrite ∨ it.kind = .correction ∨ it.kind = .kill then 3 else 0)
      + (if e.mode = .mark ∧ it.verdict = some .nearRepeat then 4 else 0)
      + (match e.resume with | some r => 10 + digitsOf r.line | none => 0)
    let folds := it.stats.printable / (tx.width - tx.margin)
      + (if it.stats.printable % (tx.width - tx.margin) = 0 then 0 else 1)
    (headingText e it).length = hl ∧ headingLength e it tx.width = min tx.width hl ∧
    estimateOf e it tx = min 65535 (min tx.width hl + 9 + it.stats.printable
      + (if tx.code = .five then it.stats.caseChanges else 0)
      + (it.stats.lineEnds + folds + 3) * (2 + tx.fills))

/-- The gate of a circuit admits classes 1 to 4 in LOADED, 1 to 3 in CONGESTED and every class in NORMAL.  An admitted
request goes to the queue of the circuit: it stands there as an entry, in a full queue by a displacement, and nothing is
counted as shed or diverted; or the queue refuses it with QUEUE_FULL, and nothing is counted and no alternate tried.  A
refused request with no alternate, or with one of the route's own circuits as its alternate, or whose gate refuses it
too, is shed and nothing else; one with an alternate whose gate admits it is counted as diverted where the queue of the
alternate takes it, and stands there as a diverted entry of the same class, and as shed where that queue refuses it.  The
queue of the desk circuit may be given a notice besides; of that circuit all this is said where every flag is raised
already or has its notices off.  That a duplicate, refused by a queue, is counted as shed on the circuit that the request
named is the model's reading (notes/assumptions/21.md). -/
def Obligations.GateShedsOrDiverts : Prop :=
  ∀ (p : Part) (rt : Route) (n cls : Nat) (c : CircNo), p.alarm.owing = [] → 1 ≤ cls → cls ≤ 5 →
    let refuses := fun c => ((p.load c).state = .loaded ∧ cls = 5) ∨ ((p.load c).state = .congested ∧ 4 ≤ cls)
    let shed := p.modTally c fun t => { t with shed := bump t.shed }
    let silent := ∀ f, (p.flag f).raised = true ∨ (p.flag f).notice = false
    let absent := fun c => ∀ e ∈ (p.q c).held, e.item ≠ n
    let takes := fun c => p.queueCount c < 32 ∨ ∃ e ∈ (p.q c).entries, e.resume = none ∧ cls < e.cls
    let stands := fun (q : Part) (c : CircNo) (diverted : Bool) => ∃ e ∈ (q.q c).held, e.item = n ∧ e.cls = cls ∧
      e.diverted = diverted ∧ e.mode = rt.mode ∧ e.admitted = p.clock ∧ e.resume = none ∧ e.spent = 0
    let full := fun (q : Part) (c : CircNo) => (q.flag .queueFull).raised = true ∧ c ∈ (q.flag .queueFull).members
    let q := offer rt n cls c p
    (¬ refuses c →
      ((∃ e ∈ (p.q c).held, e.item = n) → q = shed) ∧
      (absent c → c ≠ p.orders.desk ∨ silent →
        (∀ c', c' ≠ c → c' ≠ p.orders.desk → q.circ c' = p.circ c') ∧
        (takes c → stands q c false ∧ (q.circ c).tally = { (p.circ c).tally with
            displaced := if p.queueCount c < 32 then (p.circ c).tally.displaced else bump (p.circ c).tally.displaced
            breaks := (q.circ c).tally.breaks } ∧
          (32 ≤ p.queueCount c → (q.flag .displaced).raised = true ∧ c ∈ (q.flag .displaced).members) ∧
          (((p.q c).held.map (·.item)).Nodup → (q.load c).backlog = backlogOf (q.q c))) ∧
        (¬ takes c → full q c ∧ q.circ c = p.circ c))) ∧
    (refuses c →
      ((∀ a, rt.alt = some a → a = c ∨ a ∈ rt.circuits ∨ refuses a ∨ ∃ e ∈ (p.q a).held, e.item = n) → q = shed) ∧
      ∀ a, rt.alt = some a → a ≠ c → a ∉ rt.circuits → ¬ refuses a → absent a →
        (a ≠ p.orders.desk ∧ c ≠ p.orders.desk) ∨ silent →
        (takes a → stands q a true ∧
          (q.circ c).tally = { (p.circ c).tally with diverted := bump (p.circ c).tally.diverted }) ∧
        (¬ takes a → full q a ∧ q.circ a = p.circ a ∧
          (q.circ c).tally = { (p.circ c).tally with shed := bump (p.circ c).tally.shed }))

/-- After an evaluation the overload state agrees with the backlog: CONGESTED at its threshold or above, LOADED between
the thresholds, NORMAL below them, and a state once entered is kept down to its threshold less the hysteresis.  CONGESTED
falls to LOADED below its own threshold less the hysteresis, and to NORMAL only below that of LOADED. -/
def Obligations.EvaluationFollowsTheThresholds : Prop :=
  ∀ (ld : Load), ld.hyst < ld.loadOn → ld.loadOn ≤ ld.congOn →
    (ld.congOn ≤ ld.backlog → evaluated ld = .congested) ∧
    (ld.backlog < ld.congOn → ld.loadOn ≤ ld.backlog → ld.state ≠ .congested → evaluated ld = .loaded) ∧
    (ld.backlog < ld.congOn → ld.congOn - ld.hyst ≤ ld.backlog → ld.state = .congested → evaluated ld = .congested) ∧
    (ld.backlog < ld.loadOn → ld.state = .normal → evaluated ld = .normal) ∧
    (ld.backlog < ld.loadOn → ld.loadOn - ld.hyst ≤ ld.backlog → ld.state = .loaded → evaluated ld = .loaded) ∧
    (ld.backlog < ld.congOn - ld.hyst → ld.loadOn - ld.hyst ≤ ld.backlog → ld.state = .congested →
      evaluated ld = .loaded) ∧
    (ld.backlog < ld.loadOn - ld.hyst → ld.backlog < ld.congOn - ld.hyst → evaluated ld = .normal) ∧
    ({ ld with state := evaluated ld } : Load).Agrees

/-! ### The slug history -/

/-- R168, the verdict on an item whose key the history does not hold. -/
def Obligations.NewKeyIsFresh : Prop :=
  ∀ (l : LineNo) (it : Item) (h : History),
    (∀ x ∈ h.entries, ¬ (x.line = l ∧ x.category = it.category ∧ x.slug = it.slug ∧ x.take = it.take)) →
    (compareWith l it h).1 = .fresh ∧
    (compareWith l it h).2.threshold = h.threshold ∧
    (compareWith l it h).2.entries =
      (if 64 ≤ h.entries.length then h.entries.drop 1 else h.entries) ++
        [{ line := l, category := it.category, slug := it.slug, take := it.take, signatures := it.signatures
           lastUse := it.received }] ∧
    (∀ (p : Part) (n : Nat), p.history = h → p.item? n = some it → it.source = some l → it.kind ≠ .kill →
      it.killed = false →
      verdict n p = ({ p with history := (compareWith l it h).2 }).modItem n fun it =>
        { it with verdict := some .fresh }) ∧
    (64 ≤ h.entries.length → ∀ (x : HistEntry) (it' : Item), h.entries.head? = some x →
      (∀ y ∈ h.entries.drop 1, ¬ (y.line = x.line ∧ y.category = x.category ∧ y.slug = x.slug ∧ y.take = x.take)) →
      ¬ (x.line = l ∧ x.category = it.category ∧ x.slug = it.slug ∧ x.take = it.take) →
      it'.category = x.category → it'.slug = x.slug → it'.take = x.take →
      (compareWith x.line it' (compareWith l it h).2).1 = .fresh)

/-- The threshold T is 0 to 48 and stays so at every step; REPEAT sets it and nothing else, and refuses a larger value
with RANGE.  D up to T is NEAR_REPEAT and more is FRESH, D counting the places at which the signature lists differ.
Power-up and RESTART COLD set T to 2, RESTART WARM keeps it.  The orders are given apart from an order item, whose form
and reply are the model's choice (notes/assumptions/3.md). -/
def Obligations.ThresholdIsSetByRepeat : Prop :=
  (State.reset.part.history.threshold ≤ 48 ∧
    ∀ s t : State, s.part.history.threshold ≤ 48 → step s = .next t → t.part.history.threshold ≤ 48) ∧
  (∀ (s : State) (t : Nat), s.TakesOrder → t ≤ 48 → ∃ words : Text,
    exec (.repeatSet t) s = .next (s.answered
      { s.part with history := { s.part.history with threshold := t } } [sentence [txt "OK", words]])) ∧
  (∀ (s : State) (t : Nat), s.TakesOrder → 48 < t →
    exec (.repeatSet t) s = .next (s.answered s.part (noReply "RANGE"))) ∧
  (∀ (l : LineNo) (it : Item) (h : History) (old : HistEntry), h.entries.find? (keyOf l it) = some old →
    (changedLines old.signatures it.signatures ≤ h.threshold → (compareWith l it h).1 = .nearRepeat) ∧
    (h.threshold < changedLines old.signatures it.signatures → (compareWith l it h).1 = .fresh)) ∧
  (∀ old new : List Nat, changedLines old new =
    ((List.range (max old.length new.length)).filter fun i => old[i]? ≠ new[i]?).length) ∧
  (∀ (s : State) (ua : Fin 16) (dr : Fin 4), ∃ t, exec (.powerUp ua dr) s = .next t ∧ t.part.history.threshold = 2) ∧
  (∀ s : State, s.TakesOrder →
    (∃ t, exec .restartCold s = .next t ∧ t.part.history.threshold = 2) ∧
    ∃ t, exec .restartWarm s = .next t ∧ t.part.history.threshold = s.part.history.threshold)

/-! ### Orders on lines -/

/-- SHIFT, DESK and RELEASE store their setting, and OPEN an open time that the space timer has not reached; nothing else
changes but the order unit's answer OK.  An open time that the running timer of a READY line has reached is stored and
opens the line at once: LINE_OPEN is raised, the opens tally counts, and the framer takes a line interruption.

BEGIN and END store a sequence of 2 to 6 letters other than the line's other one.  Held characters are released to the
current sink first: in HUNT and DISCARD they count as between items; in HEADING they are stored, and the 81st is a heading
fault; in ORDER they are collected, and a character past a limit answers LONG; in BODY they are stored and, where the
uncommitted ones reach the release size, committed, and the first that needs a block that the store refuses makes the item
BROKEN.  After a fault the rest counts as between items.  The framer otherwise keeps its state.  Where a block is needed
only after the commit that some of the held characters bring, nothing is said of it.  The orders are given apart from an order item (notes/assumptions/3.md). -/
def Obligations.LineSettingOrdersStoreTheirValue : Prop :=
  ∀ (s : State) (l : LineNo), s.TakesOrder →
    let rx := s.part.rx l
    let fr := s.part.fr l
    let tally := (s.part.line l).tally
    let others := fun p : Part => ∀ l', l' ≠ l → p.line l' = s.part.line l'
    (∀ on, exec (.lineShift l.val on) s =
      .next (s.answered (s.part.modRx l fun rx => { rx with unshift := on }) okReply)) ∧
    (∀ on, exec (.lineDesk l.val on) s =
      .next (s.answered (s.part.modRx l fun rx => { rx with desk := on }) okReply)) ∧
    (∀ k, k = 0 ∨ (32 ≤ k ∧ k ≤ 4096) → exec (.lineRelease l.val k) s =
      .next (s.answered (s.part.modFr l fun fr => { fr with release := k }) okReply)) ∧
    (∀ k, 1 ≤ k → k ≤ 15 →
      ((rx.cond = .ready → ∀ t, rx.spaceTimer = some t → t < k) → exec (.lineOpenTime l.val k) s =
        .next (s.answered (s.part.modRx l fun rx => { rx with openTime := k }) okReply)) ∧
      ∀ t, rx.cond = .ready → rx.spaceTimer = some t → k ≤ t → ∃ p : Part,
        exec (.lineOpenTime l.val k) s = .next (s.answered p okReply) ∧
        p.rx l = { rx with
          openTime := k, cond := .opened, phase := .hunting, shift := .letters, pendingCR := false
          spaceTimer := none } ∧
        (p.line l).tally.opens = bump tally.opens ∧
        (fr.held = [] → (p.line l).tally = { tally with opens := bump tally.opens }) ∧
        (p.flag .lineOpen).raised = true ∧ l ∈ (p.flag .lineOpen).members ∧ (p.fr l).state = .hunt ∧
        (p.fr l).held = [] ∧ others p ∧ (s.part.StoreSound → s.part.BrokenOff p l)) ∧
    ∀ t : Text, 2 ≤ t.length → t.length ≤ 6 → (∀ c ∈ t, isLetter c = true) →
      let stores := fun (i : Instr) (set : Framer → Framer) =>
        let gives := fun p : Part => exec i s = .next (s.answered p okReply)
        let free := set { fr with held := [] }
        let counted := fun (tally : LineTally) (held : Text) =>
          { tally with between := held.foldl (fun n _ => bump n) tally.between }
        let dropped := fun (held : Text) (tally : LineTally) (p : Part) =>
          p.line l = { s.part.line l with
            fr := { free with state := .discard, heading := [], headStart := false }, tally := counted tally held } ∧
          others p
        (fr.held = [] → gives (s.part.modFr l set)) ∧
        (fr.state = .hunt ∨ fr.state = .discard →
          gives (s.part.setLine l { s.part.line l with fr := free, tally := counted tally fr.held })) ∧
        (fr.state = .heading → fr.held ≠ [] → (∀ c ∈ fr.held, isLetter c = true) → fr.heading.length ≤ 80 →
          if fr.heading.length + fr.held.length ≤ 80 then
            gives (s.part.modFr l fun _ => { free with heading := fr.heading ++ fr.held, headStart := false })
          else ∃ p : Part, gives p ∧ (p.flag .headingFault).raised = true ∧ l ∈ (p.flag .headingFault).members ∧
            dropped (fr.held.drop (80 - fr.heading.length)) { tally with refused := bump tally.refused } p) ∧
        (∀ serial lines cur, fr.state = .order → s.part.orders.buffer = .collecting l serial lines cur →
          (∀ c ∈ fr.held, isLetter c = true) → cur.length ≤ 80 → lines.length ≤ 24 →
          let past := if cur = [] ∧ lines.length = 24 then fr.held else fr.held.drop (80 - cur.length)
          if past = [] then
            gives ((s.part.modFr l fun _ => free).setBuffer (.collecting l serial lines (cur ++ fr.held)))
          else ∃ p : Part, gives p ∧ p.orders = { s.part.orders with buffer := .free } ∧ dropped past tally p) ∧
        ∀ n it, fr.state = .body → fr.item = some n → s.part.item? n = some it → it.state = .filling →
          fr.held ≠ [] → (∀ c ∈ fr.held, isLetter c = true) →
          let granted := 0 < s.part.store.freeBlocks ∧ s.part.store.agencyBlocks < 2000
          let size := it.body.length + fr.held.length
          let full := 32 * it.blocks
          let before := fun stored : Nat => fr.release = 0 ∨ it.body.length = full ∨ stored - it.committed < fr.release
          (size ≤ full ∨ (it.body.length ≤ full ∧ fr.held.length ≤ 32 ∧ granted ∧ before size) → ∃ p : Part, gives p ∧
            (∃ (fr' : Framer) (after : Item), p.fr l = { free with ref := fr'.ref, sum := fr'.sum, pos := fr'.pos } ∧
              p.item? n = some after ∧ after.body = it.body ++ fr.held ∧ after.state = .filling ∧
              (fr.release = 0 ∨ size - it.committed < fr.release → after.committed = it.committed) ∧
              (0 < fr.release → fr.release ≤ size - it.committed → fr.held.length ≤ fr.release →
                after.committed = max (it.body.length + 1) (it.committed + fr.release))) ∧
            (p.line l).tally = tally ∧ others p) ∧
          (it.body.length ≤ full → full < size → ¬ granted → before full → s.part.StoreSound → ∃ p : Part, gives p ∧
            (p.flag .storeFull).raised = true ∧ (p.fr l).state = .discard ∧ (p.fr l).held = [] ∧
            (p.fr l).item = none ∧ (p.line l).tally = counted tally (fr.held.drop (full - it.body.length)) ∧ others p ∧
            ∀ after ∈ p.item? n, after.source.isSome = true →
              after.state = .broken ∧ after.verdict = some .fresh ∧
              after.body = it.body ++ fr.held.take (full - it.body.length) ∧ after.committed = after.body.length)
      (t ≠ fr.closing → stores (.lineBegin l.val t) fun fr => { fr with opening := t }) ∧
      (t ≠ fr.opening → stores (.lineEnd l.val t) fun fr => { fr with closing := t })

/-- RATE and CODE store their value and restart the line, and PARK ON of a line that is not parked parks it: the shift
is letters, no carriage return is pending, no frame is in progress, and the framer takes a line interruption: it is in
HUNT with nothing held, and an item that it received in BODY is BROKEN. A restart keeps the condition and the space
timer; PARK OFF makes the line READY; no order on one line changes another.
The orders are given apart from an order item (notes/assumptions/3.md). -/
def Obligations.LineRestartAndParkOrders : Prop :=
  ∀ (s : State) (l : LineNo), s.TakesOrder →
    let rested := fun (p : Part) => (p.fr l).state = .hunt ∧ (p.fr l).held = [] ∧
      (s.part.StoreSound → s.part.BrokenOff p l) ∧
      (p.line l).tally.received = (s.part.line l).tally.received ∧ ∀ l', l' ≠ l → p.line l' = s.part.line l'
    (∀ (n : Nat) (r : Rate), Rate.ofBaud n = some r → ∃ p : Part,
      exec (.lineRate l.val n) s = .next (s.answered p okReply) ∧ rested p ∧ p.rx l = { s.part.rx l with
        rate := r, shift := .letters, pendingCR := false
        phase := if (s.part.rx l).cond = .ready ∧ (s.part.rx l).pin = .space then .waitMark else .hunting }) ∧
    (∀ code : LineCode, ∃ p : Part,
      exec (.lineCode l.val code) s = .next (s.answered p okReply) ∧ rested p ∧ p.rx l = { s.part.rx l with
        code := code, shift := .letters, pendingCR := false
        phase := if (s.part.rx l).cond = .ready ∧ (s.part.rx l).pin = .space then .waitMark else .hunting }) ∧
    ((s.part.rx l).cond ≠ .parked → ∃ p : Part,
      exec (.linePark l.val true) s = .next (s.answered p okReply) ∧ rested p ∧ p.rx l = { s.part.rx l with
        cond := .parked, shift := .letters, pendingCR := false, phase := .hunting, spaceTimer := none }) ∧
    ((s.part.rx l).cond = .parked →
      exec (.linePark l.val true) s = .next (s.answered s.part okReply) ∧
      exec (.linePark l.val false) s = .next (s.answered (s.part.modRx l fun rx => { rx with
        cond := .ready, phase := if rx.pin = .space then .waitMark else .hunting
        spaceTimer := if rx.pin = .space then some 0 else none }) okReply)) ∧
    ((s.part.rx l).cond ≠ .parked → exec (.linePark l.val false) s = .next (s.answered s.part okReply))

/-! ### Orders on circuits -/

/-- RATE and CODE are stored as ordered, and come into force at once in IDLE and in HELD, where a change of code puts
the shift in letters; UNSHIFT, MODE, PREEMPT, QUANTUM and STALL are stored as ordered. Nothing else changes but the
order unit's answer OK. The orders are given apart from an order item (notes/assumptions/3.md). -/
def Obligations.CircSettingOrdersStoreTheirValue : Prop :=
  ∀ (s : State) (c : CircNo), s.TakesOrder →
    let inForce := (s.part.tx c).state = .idle ∨ (s.part.tx c).state = .held
    (∀ (n : Nat) (r : Rate), Rate.ofBaud n = some r → exec (.circRate c.val n) s =
      .next (s.answered (s.part.modTx c fun tx => { tx with
        ordered := { tx.ordered with rate := r }
        force := if inForce then { tx.force with rate := r, code := tx.ordered.code } else tx.force
        shift := if inForce ∧ tx.force.code ≠ tx.ordered.code then .letters else tx.shift }) okReply)) ∧
    (∀ code : LineCode, exec (.circCode c.val code) s =
      .next (s.answered (s.part.modTx c fun tx => { tx with
        ordered := { tx.ordered with code := code }
        force := if inForce then { tx.force with rate := tx.ordered.rate, code := code } else tx.force
        shift := if inForce ∧ tx.force.code ≠ code then .letters else tx.shift }) okReply)) ∧
    (∀ on, exec (.circUnshift c.val on) s = .next (s.answered (s.part.modTx c fun tx => { tx with
      ordered := { tx.ordered with unshift := on } }) okReply)) ∧
    (∀ m, exec (.circMode c.val m) s = .next (s.answered (s.part.modQ c fun q => { q with
      ordered := { q.ordered with mode := m } }) okReply)) ∧
    (∀ k, k ≤ 4 → exec (.circPreempt c.val k) s = .next (s.answered (s.part.modQ c fun q => { q with
      ordered := { q.ordered with preempt := k } }) okReply)) ∧
    (∀ k, k ≤ 255 → exec (.circQuantum c.val k) s = .next (s.answered (s.part.modQ c fun q => { q with
      ordered := { q.ordered with quantum := k } }) okReply)) ∧
    (∀ k, 5 ≤ k → k ≤ 255 → exec (.circStall c.val k) s = .next (s.answered (s.part.modQ c fun q => { q with
      stallTime := k }) okReply))

/-- WIDTH, MARGIN and FILL store their value as ordered and re-estimate every entry of the circuit, queued and current,
from which the backlog is recomputed and the overload state evaluated; the parameters in force stand. (CONGESTED may be
raised; the desk circuit may then be given a notice besides.) The orders are given apart from an order item
(notes/assumptions/3.md). -/
def Obligations.CircPaperOrdersReestimate : Prop :=
  ∀ (s : State) (c : CircNo) (i : Instr) (f : TxParams → TxParams), s.TakesOrder →
    (∃ k, (32 ≤ k ∧ k ≤ 80 ∧ i = .circWidth c.val k ∧ f = fun o => { o with width := k }) ∨
      (k ≤ 16 ∧ i = .circMargin c.val k ∧ f = fun o => { o with margin := k }) ∨
      (k ≤ 7 ∧ i = .circFill c.val k ∧ f = fun o => { o with fills := k })) → ∃ p : Part,
    exec i s = .next (s.answered p okReply) ∧ p.lines = s.part.lines ∧ p.banks = s.part.banks ∧
    p.history = s.part.history ∧ (∀ c', c' ≠ c → c' ≠ s.part.orders.desk → p.circ c' = s.part.circ c') ∧
    ((p.tx c).ordered = f (s.part.tx c).ordered ∧ (c ≠ s.part.orders.desk →
      let again := fun e : Entry => { e with
        estimate := estimateOf e (s.part.item e.item) (f (s.part.tx c).ordered) }
      p.tx c = { s.part.tx c with ordered := f (s.part.tx c).ordered } ∧
      p.q c = { s.part.q c with
        entries := (s.part.q c).entries.map again, current := (s.part.q c).current.map again } ∧
      (p.load c).backlog = backlogOf (p.q c) ∧ (p.circ c).tally = (s.part.circ c).tally ∧
      (p.load c).state = (if (p.load c).backlog = (s.part.load c).backlog then (s.part.load c).state
        else evaluated { s.part.load c with backlog := (p.load c).backlog })))

/-- AGE1 to AGE5 set the age limit of their class, and every queued entry of that class that has never been broken off
and stands at or past it lapses at once: these entries are gone and every other one stays, each is counted as lapsed, and
where there is one LAPSED is raised with the circuit as a member.  Where there is none, nothing but the limit changes.
(The desk circuit may be given a notice besides.)  The order is given apart from an order item, whose form and reply are
the model's choice (notes/assumptions/3.md). -/
def Obligations.CircAgeOrderSetsTheLimit : Prop :=
  ∀ (s : State) (c : CircNo) (k : Fin 5) (minutes : Nat), s.TakesOrder → minutes ≤ 255 → ∃ p : Part,
    exec (.circAge c.val k minutes) s = .next (s.answered p okReply) ∧
    let due := fun e : Entry => e.cls = k.val + 1 ∧ e.resume = none ∧ minutes ≠ 0 ∧
      minutes * 60 ≤ s.part.clock - e.admitted
    (p.q c).ages = (s.part.q c).ages.set k.val minutes k.isLt ∧
    p.lines = s.part.lines ∧ p.banks = s.part.banks ∧ p.history = s.part.history ∧
    (∀ c', c' ≠ c → c' ≠ s.part.orders.desk → p.circ c' = s.part.circ c') ∧
    (((s.part.q c).held.map (·.item)).Nodup → c ≠ s.part.orders.desk →
      (p.q c).entries.Sublist (s.part.q c).entries ∧
      (∀ e ∈ (s.part.q c).entries, e ∈ (p.q c).entries ↔ ¬ due e) ∧
      (p.q c).current = (s.part.q c).current ∧ p.tx c = s.part.tx c ∧
      ((s.part.circ c).tally.lapsed ≤ 9999999 → (p.circ c).tally = { (s.part.circ c).tally with
        lapsed := min 9999999 ((s.part.circ c).tally.lapsed +
          ((s.part.q c).entries.length - (p.q c).entries.length)) })) ∧
    ((∃ e ∈ (s.part.q c).entries, due e) → (p.flag .lapsed).raised = true ∧ c ∈ (p.flag .lapsed).members) ∧
    ((∀ e ∈ (s.part.q c).entries, ¬ due e) → p = s.part.modQ c fun q => { q with
      ages := q.ages.set k.val minutes k.isLt })

/-- LOADON, CONGON and HYST set their threshold where the relation HYST < LOAD_ON ≤ CONG_ON then holds, and the overload
state is evaluated once; otherwise the order is refused with RANGE and changes nothing. (At an entry into CONGESTED the
flag is raised, and the desk circuit may be given a notice besides.) The orders are given apart from an order item
(notes/assumptions/3.md). -/
def Obligations.CircThresholdOrdersEvaluate : Prop :=
  ∀ (s : State) (c : CircNo) (k : Nat) (i : Instr) (ld : Load), s.TakesOrder → k ≤ 999999 →
    (i = .circLoadon c.val k ∧ ld = { s.part.load c with loadOn := k }) ∨
      (i = .circCongon c.val k ∧ ld = { s.part.load c with congOn := k }) ∨
      (i = .circHyst c.val k ∧ ld = { s.part.load c with hyst := k }) →
    (¬ (ld.hyst < ld.loadOn ∧ ld.loadOn ≤ ld.congOn) → exec i s = .next (s.answered s.part (noReply "RANGE"))) ∧
    (ld.hyst < ld.loadOn → ld.loadOn ≤ ld.congOn → ∃ p : Part, exec i s = .next (s.answered p okReply) ∧
      (c ≠ s.part.orders.desk →
        p.circ c = { s.part.circ c with load := { ld with state := evaluated ld } }) ∧
      (∀ c', c' ≠ c → c' ≠ s.part.orders.desk → p.circ c' = s.part.circ c') ∧
      p.lines = s.part.lines ∧ p.banks = s.part.banks ∧ p.history = s.part.history ∧
      (evaluated ld = .congested → (s.part.load c).state ≠ .congested →
        (p.flag .congested).raised = true ∧ c ∈ (p.flag .congested).members) ∧
      (¬ (evaluated ld = .congested ∧ (s.part.load c).state ≠ .congested) →
        p = s.part.modLoad c fun _ => { ld with state := evaluated ld }))

/-! ### Reports, alarms and the order unit -/

/-- SHOW, SHOW LINE, TALLY, ALARM and REPEAT change nothing but the order unit's answer, which after OK holds the report
of R180 to R183 and R192: for SHOW six lines and one for each queued entry, with the backlog also as the time of R156;
for SHOW LINE three lines; for TALLY 17 and for ALARM eleven.  The orders are given apart from an order item, whose form
and reply are the model's choice (notes/assumptions/3.md). -/
def Obligations.ReportsChangeNothing : Prop :=
  ∀ s : State, s.TakesOrder →
    let p := s.part
    let answers := fun (i : Instr) (report : List Text) => exec i s = .next (s.answered p report)
    let tag := fun (w : String) (n : Nat) => txt w ++ dec n
    (∀ l : LineNo, answers (.showLine l.val) [txt "OK",
      sentence [txt "LINE", dec l.val, condWord (p.rx l).cond, framerWord (p.fr l).state],
      sentence [codeWord (p.rx l).code, dec (p.rx l).rate.baud, txt "OPEN", dec (p.rx l).openTime,
        txt "SHIFT", onOff (p.rx l).unshift, txt "DESK", onOff (p.rx l).desk,
        txt "PARK", onOff ((p.rx l).cond = .parked)],
      sentence [txt "BEGIN", (p.fr l).opening, txt "END", (p.fr l).closing, txt "RELEASE", dec (p.fr l).release]]) ∧
    (∀ c : CircNo,
      let q := p.q c
      let ld := p.load c
      let o := (p.tx c).ordered
      let named := fun e : Entry => (match (p.item e.item).source with | some l => 2 + l.val | none => 22) ::
        dec4 (p.item e.item).serial
      let units := match o.code with | .five => 75 | .seven => 100
      let seconds := ((ld.backlog * units * 100 + (o.rate.baud - 1)) / o.rate.baud + 999) / 1000
      answers (.showCirc c.val) ([txt "OK",
        sentence ([txt "CIRC", dec c.val, senderWord (p.tx c).state] ++
          (if (p.tx c).holdPending then [txt "HOLDING"] else []) ++
          [overloadWord ld.state, txt "B", dec ld.backlog,
            dec (seconds / 60) ++ txt "M" ++ dec2 (seconds % 60) ++ txt "S"]),
        sentence (match q.current with
          | some e => [txt "CURRENT", named e, dec4 (e.cseq.getD 0)]
          | none => [txt "CURRENT", txt "NONE"]),
        sentence [codeWord o.code, dec o.rate.baud, tag "W" o.width, tag "M" o.margin, tag "F" o.fills,
          txt "UNSHIFT", onOff o.unshift],
        sentence [modeWord q.ordered.mode, tag "P" q.ordered.preempt, tag "Q" q.ordered.quantum,
          txt "STALL", dec q.stallTime, txt "AGE",
          dec q.ages[0], dec q.ages[1], dec q.ages[2], dec q.ages[3], dec q.ages[4]],
        sentence [txt "LOADON", dec ld.loadOn, txt "CONGON", dec ld.congOn, txt "HYST", dec ld.hyst],
        sentence [txt "QUEUE", dec q.entries.length]] ++
        q.entries.map fun e => sentence ([dec e.cls, named e, (p.item e.item).slug, tag "T" (p.item e.item).take,
          txt "E", dec e.estimate] ++ (match e.resume with | some r => [txt "INT", tag "L" r.line] | none => []) ++
          if e.diverted then [txt "DIV"] else []))) ∧
    answers .tally (txt "OK" :: ([0, 1, 2, 3, 4, 5, 6, 7].map fun l : LineNo =>
        let t := (p.line l).tally
        sentence [txt "LINE", dec l.val, txt "RX", dec t.received, txt "SUB", dec t.substitutions,
          txt "OPENS", dec t.opens, txt "BETWEEN", dec t.between, txt "ACCEPTED", dec t.accepted,
          txt "REFUSED", dec t.refused]) ++
      ([0, 1, 2, 3, 4, 5, 6, 7].map fun c : CircNo =>
        let t := (p.circ c).tally
        sentence [txt "CIRC", dec c.val, txt "SENT", dec t.sent, txt "DONE", dec t.done, txt "BREAKS", dec t.breaks,
          txt "LAPSED", dec t.lapsed, txt "DISPLACED", dec t.displaced, txt "SHED", dec t.shed,
          txt "DIVERTED", dec t.diverted, txt "SUPPRESSED", dec t.suppressed, txt "MARKED", dec t.marked]) ++
      [sentence [txt "UNROUTED", dec p.unrouted, txt "LOST", dec p.alarm.lost]]) ∧
    answers .alarm (txt "OK" :: ([(Flag.lineOpen, "LINE-OPEN", "LINE"), (.headingFault, "HEADING-FAULT", "LINE"),
        (.runOn, "RUN-ON", "LINE"), (.storeFull, "STORE-FULL", ""), (.tableFull, "TABLE-FULL", ""),
        (.queueFull, "QUEUE-FULL", "CIRC"), (.displaced, "DISPLACED", "CIRC"), (.congested, "CONGESTED", "CIRC"),
        (.lapsed, "LAPSED", "CIRC"), (.stall, "STALL", "CIRC"), (.orderFault, "ORDER-FAULT", "LINE")].map
      fun (x : Flag × String × String) =>
        let f := p.flag x.1
        sentence ([txt x.2.1, if f.raised then txt "RAISED" else txt "CLEAR"] ++
          (if f.raised = true ∧ x.2.2 ≠ "" then [txt x.2.2, f.members.map fun m => 28 + m.val] else []) ++
          [txt "MASK", onOff f.enabled, txt "NOTICE", onOff f.notice]))) ∧
    answers .repeatShow [sentence ([txt "OK", txt "T", dec p.history.threshold,
      txt "HELD", dec p.history.entries.length] ++ match p.history.entries with
        | h :: _ => [txt "AGE", dec ((p.clock - h.lastUse) / 60) ++ txt "M"]
        | [] => [])]

/-- TALLY ZERO gives the report of TALLY and sets every tally of the part to zero; nothing else changes. The orders are
given apart from an order item (notes/assumptions/3.md). -/
def Obligations.TallyZeroReportsAndZeroes : Prop :=
  ∀ s : State, s.TakesOrder → ∃ (p : Part) (reply : List Text),
    exec .tally s = .next (s.answered s.part reply) ∧ exec .tallyZero s = .next (s.answered p reply) ∧
    (∀ l, p.line l = { s.part.line l with tally :=
      { received := 0, substitutions := 0, opens := 0, between := 0, accepted := 0, refused := 0 } }) ∧
    (∀ c, p.circ c = { s.part.circ c with tally :=
      { sent := 0, done := 0, breaks := 0, lapsed := 0, displaced := 0, shed := 0, diverted := 0, suppressed := 0
        marked := 0 } }) ∧
    p.unrouted = 0 ∧ p.alarm = { s.part.alarm with lost := 0 } ∧
    { p with lines := s.part.lines, circs := s.part.circs, unrouted := s.part.unrouted, alarm := s.part.alarm } =
      s.part

/-- ALARM CLEAR clears the flags it names with their members, ALARM MASK sets their enables and ALARM NOTICE their
notice masks; ALL names all eleven. A list that names a flag twice, or none, is refused with ARGUMENT. The orders are
given apart from an order item (notes/assumptions/3.md).  ALARMn is low exactly while RESETn is high and a flag is both
raised and enabled; so each of these orders moves it at once, as a raise of an enabled flag does. -/
def Obligations.AlarmOrdersActOnNamedFlags : Prop :=
  (∀ p : Part, p.alarmLow = true ↔ p.inReset = false ∧ ∃ f, (p.flag f).raised = true ∧ (p.flag f).enabled = true) ∧
  (∀ (p : Part) (f : Flag) (m : Fin 8), p.inReset = false →
    (raise f m p).alarmLow = (p.alarmLow || (p.flag f).enabled)) ∧
  ∀ (s : State) (pick : FlagPick) (on : Bool), s.TakesOrder →
    let named := fun f : Flag => match pick with | .all => True | .names fs => f ∈ fs
    let set := fun (p : Part) (g : FlagState → FlagState) =>
      (∀ f, named f → p.flag f = g (s.part.flag f)) ∧ (∀ f, ¬ named f → p.flag f = s.part.flag f) ∧
        p.alarm.serial = s.part.alarm.serial ∧ p.alarm.lost = s.part.alarm.lost ∧ p.alarm.owing = [] ∧
        { p with alarm := s.part.alarm } = s.part
    (pick = .all ∨ (∃ fs, pick = .names fs ∧ fs ≠ [] ∧ fs.Nodup) →
      (∃ p, exec (.alarmClear pick) s = .next (s.answered p okReply) ∧
        set p fun x => { x with raised := false, members := [] }) ∧
      (∃ p, exec (.alarmMask pick on) s = .next (s.answered p okReply) ∧ set p fun x => { x with enabled := on }) ∧
      (∃ p, exec (.alarmNotice pick on) s = .next (s.answered p okReply) ∧ set p fun x => { x with notice := on })) ∧
    (∀ fs, pick = .names fs → fs = [] ∨ ¬ fs.Nodup →
      exec (.alarmClear pick) s = .next (s.answered s.part (noReply "ARGUMENT")) ∧
      exec (.alarmMask pick on) s = .next (s.answered s.part (noReply "ARGUMENT")) ∧
      exec (.alarmNotice pick on) s = .next (s.answered s.part (noReply "ARGUMENT")))

/-- DESK sets the desk circuit, UNIT the unit address; nothing else changes but the order unit's answer OK. The orders
are given apart from an order item (notes/assumptions/3.md). -/
def Obligations.DeskAndUnitOrdersStoreTheirValue : Prop :=
  ∀ s : State, s.TakesOrder →
    (∀ c : CircNo, exec (.desk c.val) s =
      .next (s.answered { s.part with orders := { s.part.orders with desk := c } } okReply)) ∧
    (∀ t : Text, t.length = 2 → (∀ c ∈ t, isLetter c = true) → exec (.unit t) s =
      .next (s.answered { s.part with orders := { s.part.orders with address := t } } okReply))

/-- An answer is made whole, in the lowest-numbered FREE descriptor with the blocks that its body takes, and stands on the
desk circuit at class 2, unless its queue refuses it, when QUEUE_FULL is raised and the item is freed at once.  Without a
descriptor or the blocks it is lost and takes nothing: STORE_FULL is raised and the lost tally counts, twice where the
notice of that raise is lost too.  A notice is made in the same way at the edge of a flag whose notice mask is ON, with
the next notice serial; no other raise makes one.  An answer body of more than 1,536 characters keeps the lines that fit
in 1,526 and ends in TRUNCATED.  `quiet` says that a raise of the flag makes no notice. -/
def Obligations.UnitItemsAreMadeWholeOrLost : Prop :=
  (∀ (p : Part), p.alarm.owing = [] →
    let desk := p.orders.desk
    let quiet := fun f : Flag => (p.flag f).raised = true ∨ (p.flag f).notice = false
    let room := fun (n length : Nat) => n < 256 ∧ (∀ it ∈ p.items, it.num ≠ n) ∧
      (∀ k, k < n → ∃ it ∈ p.items, it.num = k) ∧ (length + 31) / 32 ≤ p.store.freeBlocks
    let noRoom := fun length : Nat => (∀ k, k < 256 → ∃ it ∈ p.items, it.num = k) ∨
      p.store.freeBlocks < (length + 31) / 32
    let made := fun (n serial : Nat) (slug body : Text) (q : Part) =>
      q.items = p.items ++ [{
        num := n, state := .closed, source := none, serial := serial, cls := 2, category := txt "QD", slug := slug
        take := 1, kind := .new, body := body, blocks := (body.length + 31) / 32, committed := body.length
        stats := statsOf body, signatures := [], verdict := none, killed := false, holders := 1
        received := p.clock }] ∧
      q.store = { p.store with freeBlocks := p.store.freeBlocks - (body.length + 31) / 32 } ∧
      (∃ e ∈ (q.q desk).held, e.item = n ∧ e.cls = 2 ∧ e.mode = .send ∧ e.diverted = false ∧ e.source = none ∧
        e.admitted = p.clock) ∧
      q.lines = p.lines ∧ q.banks = p.banks ∧ q.history = p.history ∧ q.orders = p.orders ∧
      q.alarm.lost = p.alarm.lost ∧ ∀ c, c ≠ desk → q.circ c = p.circ c
    let lost := fun (q : Part) (count : Nat) => { q with alarm := p.alarm } = p ∧ q.alarm.lost = count ∧
      q.alarm.serial = p.alarm.serial ∧ (q.flag .storeFull).raised = true ∧ q.alarm.owing = []
    (∀ (serial : Nat) (lines : List Text),
      let body := answerBody lines
      let q := makeAnswer serial lines p
      (∀ n, room n body.length → (p.q desk).held.length < 32 → (∀ e ∈ (p.q desk).held, e.item ≠ n) →
        quiet .congested → made n serial p.orders.address body q ∧ q.alarm.serial = p.alarm.serial) ∧
      (∀ n, room n body.length → 32 ≤ p.queueCount desk → (∀ e ∈ (p.q desk).held, e.item ≠ n) →
        (∀ e ∈ (p.q desk).entries, e.resume.isSome = true ∨ e.cls ≤ 2) → quiet .queueFull →
        { q with alarm := p.alarm } = p ∧ q.alarm.lost = p.alarm.lost ∧ (q.flag .queueFull).raised = true ∧
          desk ∈ (q.flag .queueFull).members) ∧
      (noRoom body.length → quiet .storeFull → lost q (bump p.alarm.lost)) ∧
      ((∀ k, k < 256 → ∃ it ∈ p.items, it.num = k) → ¬ quiet .storeFull → lost q (bump (bump p.alarm.lost)))) ∧
    ∀ (f : Flag) (m : Fin 8),
      let line := sentence ([txt "ALARM", flagName f] ++ match memberWord f with
        | some word => [word, [28 + m.val]]
        | none => [])
      let q := raiseNow f m p
      (q.flag f).raised = true ∧
      (quiet f → { q with alarm := p.alarm } = p ∧ q.alarm.serial = p.alarm.serial ∧ q.alarm.lost = p.alarm.lost ∧
        ∀ g, g ≠ f → q.flag g = p.flag g) ∧
      ∀ n, ¬ quiet f → room n (line.length + 1) → (p.q desk).held.length < 32 →
        (∀ e ∈ (p.q desk).held, e.item ≠ n) → f = .congested ∨ quiet .congested →
        made n p.alarm.serial (txt "ALARM") (line ++ [lineEndChr]) q ∧
          q.alarm.serial = if p.alarm.serial < 9999 then p.alarm.serial + 1 else 1) ∧
  ∀ lines : List Text,
    let whole := fun ts : List Text => ts.flatMap fun t => t ++ [lineEndChr]
    ((whole lines).length ≤ 1536 → answerBody lines = whole lines) ∧
    (1536 < (whole lines).length → ∃ k, answerBody lines = whole (lines.take k ++ [txt "TRUNCATED"]) ∧
      (whole (lines.take k)).length ≤ 1526 ∧ 1526 < (whole (lines.take (k + 1))).length ∧
      (answerBody lines).length ≤ 1536)

/-- An order that fails its checks changes nothing but the order unit's answer: a line or circuit 8 or 9, a value out of
its range, and a sequence that is not 2 to 6 letters or is equal to the other sequence of the line are RANGE; a longer
line or circuit number, an address that is not two letters and a slug of the wrong form are ARGUMENT; and an unknown verb
is UNKNOWN.  A line or circuit number decides before the value that follows it.  The orders are given apart from an order
item (notes/assumptions/3.md). That a line of spaces is answered UNKNOWN is the model's reading
(notes/assumptions/22.md), and UNKNOWN for a first token with a malformed joining character, which R172 would refuse with
ARGUMENT, is its choice (notes/assumptions/33.md). -/
def Obligations.RefusedOrdersChangeNothing : Prop :=
  ∀ (s : State) (line : Fin 8) (n : Nat), s.TakesOrder →
    let l := line.val
    let refused := fun (i : Instr) (word : String) => exec i s = .next (s.answered s.part (noReply word))
    let bad := fun t other : Text => t.length < 2 ∨ 6 < t.length ∨ (∃ c ∈ t, isLetter c = false) ∨ t = other
    (∀ (k : Nat) (code : LineCode) (on : Bool) (mode : QueueMode) (t : Text) (slug : Option Text) (age : Fin 5),
      8 ≤ k → ∀ i ∈ [Instr.lineRate k n, .lineCode k code, .lineOpenTime k n, .lineShift k on, .lineDesk k on,
        .lineBegin k t, .lineEnd k t, .lineRelease k n, .linePark k on, .circRate k n, .circCode k code,
        .circWidth k n, .circMargin k n, .circFill k n, .circUnshift k on, .circMode k mode, .circPreempt k n,
        .circQuantum k n, .circStall k n, .circAge k age n, .circLoadon k n, .circCongon k n, .circHyst k n, .hold k,
        .free k, .showCirc k, .showLine k, .desk k, .purge (some k) slug],
        refused i (if k ≤ 9 then "RANGE" else "ARGUMENT")) ∧
    (Rate.ofBaud n = none → refused (.lineRate l n) "RANGE" ∧ refused (.circRate l n) "RANGE") ∧
    (n = 0 ∨ 15 < n → refused (.lineOpenTime l n) "RANGE") ∧
    ((n ≠ 0 ∧ n < 32) ∨ 4096 < n → refused (.lineRelease l n) "RANGE") ∧
    (∀ t : Text, bad t (s.part.fr line).closing → refused (.lineBegin l t) "RANGE") ∧
    (∀ t : Text, bad t (s.part.fr line).opening → refused (.lineEnd l t) "RANGE") ∧
    (n < 32 ∨ 80 < n → refused (.circWidth l n) "RANGE") ∧ (16 < n → refused (.circMargin l n) "RANGE") ∧
    (7 < n → refused (.circFill l n) "RANGE") ∧ (4 < n → refused (.circPreempt l n) "RANGE") ∧
    (255 < n → refused (.circQuantum l n) "RANGE" ∧ ∀ k, refused (.circAge l k n) "RANGE") ∧
    (n < 5 ∨ 255 < n → refused (.circStall l n) "RANGE") ∧
    (999999 < n → refused (.circLoadon l n) "RANGE" ∧ refused (.circCongon l n) "RANGE" ∧
      refused (.circHyst l n) "RANGE") ∧
    (48 < n → refused (.repeatSet n) "RANGE") ∧
    (∀ t : Text, ¬ (t.length = 2 ∧ ∀ c ∈ t, isLetter c = true) → refused (.unit t) "ARGUMENT") ∧
    (∀ t : Text, ¬ (∃ first more, t = first :: more ∧ isLetter first = true ∧
        ∀ c ∈ more, isLetter c = true ∨ isDigit c = true ∨ c = 38) →
      refused (.purge none (some t)) "ARGUMENT" ∧ refused (.purge (some l) (some t)) "ARGUMENT") ∧
    (∀ t, isUnknownLine t = true → refused (.unknownVerb t) "UNKNOWN")

/-- A step with no command waiting takes the next order line of an executing order item.  A refused line adds its answer,
its number, NO and the reason word, and changes nothing else; an accepted one has its effect and adds its number, OK and
its words, and its report.  After the last line the answer item is made and the buffer is free; RESTART ends the item at
its own line.  An order command that reads as the line does has the line's effect.  With no item executing, or with
RESETn low, the part idles (the model's choice, notes/assumptions/2.md; that a command may stand for the line is its
choice too, notes/assumptions/3.md). -/
def Obligations.IdleStepTakesAnOrderLineOrIdles : Prop :=
  (∀ s : State, s.pending = [] → s.part.inReset = true ∨ s.part.orders.buffer.isExecuting = false →
    step s = .next s) ∧
  (∀ (s : State) (l : LineNo) (serial done : Nat) (t : Text) (rest answers : List Text),
    s.pending = [] → s.part.inReset = false → s.part.alarm.owing = [] →
    s.part.orders.buffer = .executing l serial (t :: rest) done answers →
    let number := dec (done + 1)
    let gives := fun p : Part => step s = .next { s with part := p }
    let goesOn := fun (p : Part) (answers : List Text) =>
      (rest = [] → gives ((makeAnswer serial answers p).setBuffer .free)) ∧
      (rest ≠ [] → gives (p.setBuffer (.executing l serial rest (done + 1) answers)))
    (∀ r, readOrder t s.part = .no r →
      goesOn s.part (answers ++ [sentence [number, txt "NO", reasonWord r]])) ∧
    (∀ o, readOrder t s.part = .ok o → o ≠ .restartWarm → o ≠ .restartCold →
      let d := act o s.part
      goesOn (settle d.part) (answers ++ (sentence (match d.words with
        | .ok [] => [number, txt "OK"]
        | .ok words => [number, txt "OK", words]
        | .no r => [number, txt "NO", reasonWord r]) :: d.report))) ∧
    (readOrder t s.part = .ok .restartWarm → gives (makeAnswer serial
      (answers ++ [sentence [number, txt "OK", txt "RESTARTED", txt "WARM"]]) (warmPart s.part))) ∧
    (readOrder t s.part = .ok .restartCold → gives (makeAnswer serial
      (answers ++ [sentence [number, txt "OK", txt "RESTARTED", txt "COLD"]])
      (coldPart s.part.straps s.part.pins))) ∧
    let does := fun (o : Order) (i : Instr) => readOrder t s.part = .ok o → step s = exec i s
    (∀ (k : LineNo) (on : Bool) (code : LineCode) (n : Nat) (w : Text),
      (∀ r : Rate, does (.line k { rate := some r }) (.lineRate k.val r.baud)) ∧
      does (.line k { code := some code }) (.lineCode k.val code) ∧
      (1 ≤ n → n ≤ 15 → does (.line k { openTime := some n }) (.lineOpenTime k.val n)) ∧
      does (.line k { shift := some on }) (.lineShift k.val on) ∧
      does (.line k { desk := some on }) (.lineDesk k.val on) ∧
      (2 ≤ w.length → w.length ≤ 6 → (∀ c ∈ w, isLetter c = true) →
        (w ≠ (s.part.fr k).closing → does (.line k { opening := some w }) (.lineBegin k.val w)) ∧
        (w ≠ (s.part.fr k).opening → does (.line k { closing := some w }) (.lineEnd k.val w))) ∧
      (n = 0 ∨ (32 ≤ n ∧ n ≤ 4096) → does (.line k { release := some n }) (.lineRelease k.val n)) ∧
      does (.line k { park := some on }) (.linePark k.val on) ∧ does (.showLine k) (.showLine k.val)) ∧
    (∀ (c : CircNo) (on : Bool) (code : LineCode) (m : QueueMode) (n : Nat),
      (∀ r : Rate, does (.circ c { rate := some r }) (.circRate c.val r.baud)) ∧
      does (.circ c { code := some code }) (.circCode c.val code) ∧
      (32 ≤ n → n ≤ 80 → does (.circ c { width := some n }) (.circWidth c.val n)) ∧
      (n ≤ 16 → does (.circ c { margin := some n }) (.circMargin c.val n)) ∧
      (n ≤ 7 → does (.circ c { fills := some n }) (.circFill c.val n)) ∧
      does (.circ c { unshift := some on }) (.circUnshift c.val on) ∧
      does (.circ c { mode := some m }) (.circMode c.val m) ∧
      (n ≤ 4 → does (.circ c { preempt := some n }) (.circPreempt c.val n)) ∧
      (n ≤ 255 → does (.circ c { quantum := some n }) (.circQuantum c.val n)) ∧
      (5 ≤ n → n ≤ 255 → does (.circ c { stall := some n }) (.circStall c.val n)) ∧
      (n ≤ 255 → does (.circ c { age1 := some n }) (.circAge c.val 0 n) ∧
        does (.circ c { age2 := some n }) (.circAge c.val 1 n) ∧
        does (.circ c { age3 := some n }) (.circAge c.val 2 n) ∧
        does (.circ c { age4 := some n }) (.circAge c.val 3 n) ∧
        does (.circ c { age5 := some n }) (.circAge c.val 4 n)) ∧
      (n ≤ 999999 → let ld := s.part.load c
        (ld.hyst < n → n ≤ ld.congOn → does (.circ c { loadOn := some n }) (.circLoadon c.val n)) ∧
        (ld.hyst < ld.loadOn → ld.loadOn ≤ n → does (.circ c { congOn := some n }) (.circCongon c.val n)) ∧
        (n < ld.loadOn → ld.loadOn ≤ ld.congOn → does (.circ c { hyst := some n }) (.circHyst c.val n))) ∧
      does (.hold c) (.hold c.val) ∧ does (.free c) (.free c.val) ∧ does (.showCirc c) (.showCirc c.val) ∧
      does (.desk c) (.desk c.val)) ∧
    (∀ (rt : Route), (∀ w, rt.key.category = some w → w.length = 2 ∧ ∀ c ∈ w, isLetter c = true) →
      does (.unroute rt.key) (.unroute (rt.key.line.map (·.val)) rt.key.category) ∧
      (rt.circuits.Pairwise (· < ·) → (∀ k, rt.cls = some k → 1 ≤ k ∧ k ≤ 5) →
        does (.route rt) (.route (rt.key.line.map (·.val)) rt.key.category (rt.circuits.map (·.val)) rt.cls
          (rt.alt.map (·.val)) (some rt.mode)))) ∧
    (∀ (c : Option CircNo) (slug : Option Text), (∀ w, slug = some w → isSlug w = true ∧ w.length ≤ 12) →
      does (.purge c slug) (.purge (c.map (·.val)) slug)) ∧
    (∀ (fs : List Flag) (on : Bool), fs ≠ [] → fs.Nodup →
      does (.alarmClear fs) (.alarmClear (.names fs)) ∧ does (.alarmMask fs on) (.alarmMask (.names fs) on) ∧
      does (.alarmNotice fs on) (.alarmNotice (.names fs) on)) ∧
    (∀ w : Text, w.length = 2 → (∀ c ∈ w, isLetter c = true) → does (.unit w) (.unit w)) ∧
    (∀ n, n ≤ 48 → does (.repeatSet n) (.repeatSet n)) ∧ does .repeatShow .repeatShow ∧
    does .copybank .copybank ∧ does .enact .enact ∧ does .tally .tally ∧ does .tallyZero .tallyZero ∧
    does .alarm .alarm ∧ does .restartWarm .restartWarm ∧ does .restartCold .restartCold ∧
    step s = exec (.unknownVerb t) s)

/-! ### Invariants -/

/-- The state after reset has every invariant below. -/
def Obligations.ResetHasEveryInvariant : Prop :=
  State.reset.part.CountsWithin ∧ State.reset.part.LinesSound ∧ State.reset.part.QueuesOrdered ∧
    State.reset.part.BacklogsCounted ∧ State.reset.part.StoreSound ∧ State.reset.part.HoldersCounted ∧
    State.reset.part.AlarmSound

/-- No step takes a tally or the part clock past its limit. -/
def Obligations.StepKeepsCountsWithin : Prop :=
  ∀ s t : State, s.part.CountsWithin → step s = .next t → t.part.CountsWithin

/-- Every step keeps each receiver in agreement with its line's condition and pin. -/
def Obligations.StepKeepsLinesSound : Prop :=
  ∀ s t : State, s.part.LinesSound → step s = .next t → t.part.LinesSound

/-- Every step keeps each queue in queue order, within its 32 entries and the current one, with one entry for an item.
-/
def Obligations.StepKeepsQueuesOrdered : Prop :=
  ∀ s t : State, s.part.QueuesOrdered → step s = .next t → t.part.QueuesOrdered

/-- Every step keeps each backlog equal to what its entries still owe, and each overload state in agreement with it. -/
def Obligations.StepKeepsBacklogsCounted : Prop :=
  ∀ s t : State, s.part.BacklogsCounted → step s = .next t → t.part.BacklogsCounted

/-- Every step keeps each block of the store in the free pool or in one chain, the counts exact, and the agency limits.
-/
def Obligations.StepKeepsStoreSound : Prop :=
  ∀ s t : State, s.part.StoreSound → step s = .next t → t.part.StoreSound

/-- Every step keeps each holders count equal to the number of entries that refer to the descriptor. -/
def Obligations.StepKeepsHoldersCounted : Prop :=
  ∀ s t : State, s.part.HoldersCounted → step s = .next t → t.part.HoldersCounted

/-- Every step keeps the alarm flags sound, and leaves no notice owed. The notices owed are the model's own field
(notes/assumptions/4.md). -/
def Obligations.StepKeepsAlarmSound : Prop :=
  ∀ s t : State, s.part.AlarmSound → step s = .next t → t.part.AlarmSound
end

