-- ==== Sys2Proof/Laws/State.lean ====
section
/-! SUPPORT. What each named update of the part writes, and that it writes nothing else: one lemma per field per update. -/

namespace Sys2Proof.Machine

variable {p : Part} {l l' : LineNo} {c c' : CircNo}

/-! ### The machine -/

@[simp] theorem State.onPart_part (s : State) (f : Part → Part) : (s.onPart f).part = f s.part := rfl
@[simp] theorem State.onPart_pending (s : State) (f : Part → Part) : (s.onPart f).pending = s.pending := rfl
@[simp] theorem get_mapAll {α β : Type} {n : Nat} (f : α → β) (v : Vector α n) (i : Fin n) :
    (mapAll f v).get i = f (v.get i) := by
  simp [mapAll, Vector.get_eq_getElem]

@[simp] theorem getElem_mapAll {α β : Type} {n : Nat} (f : α → β) (v : Vector α n) (i : Nat) (h : i < n) :
    (mapAll f v)[i] = f v[i] := by
  simp [mapAll]

theorem State.after_eq (s : State) (f : Part → Part) : s.after f = .next { s with part := f s.part } := rfl

/-! ### One line -/

@[simp] theorem Part.line_setLine (x : Line) : (p.setLine l x).line l = x := by
  simp [Part.line, Part.setLine, Vector.get_eq_getElem]

theorem Part.line_setLine_ne (x : Line) (h : l' ≠ l) : (p.setLine l x).line l' = p.line l' := by
  have : l.val ≠ l'.val := fun e => h (Fin.ext e.symm)
  simp [Part.line, Part.setLine, Vector.get_eq_getElem, this]

@[simp] theorem Part.circs_setLine (x : Line) : (p.setLine l x).circs = p.circs := rfl
@[simp] theorem Part.circ_setLine (x : Line) : (p.setLine l x).circ c = p.circ c := rfl
@[simp] theorem Part.items_setLine (x : Line) : (p.setLine l x).items = p.items := rfl
@[simp] theorem Part.store_setLine (x : Line) : (p.setLine l x).store = p.store := rfl
@[simp] theorem Part.banks_setLine (x : Line) : (p.setLine l x).banks = p.banks := rfl
@[simp] theorem Part.history_setLine (x : Line) : (p.setLine l x).history = p.history := rfl
@[simp] theorem Part.orders_setLine (x : Line) : (p.setLine l x).orders = p.orders := rfl
@[simp] theorem Part.alarm_setLine (x : Line) : (p.setLine l x).alarm = p.alarm := rfl
@[simp] theorem Part.unrouted_setLine (x : Line) : (p.setLine l x).unrouted = p.unrouted := rfl
@[simp] theorem Part.clock_setLine (x : Line) : (p.setLine l x).clock = p.clock := rfl
@[simp] theorem Part.straps_setLine (x : Line) : (p.setLine l x).straps = p.straps := rfl
@[simp] theorem Part.inReset_setLine (x : Line) : (p.setLine l x).inReset = p.inReset := rfl

/-! ### One circuit -/

@[simp] theorem Part.circ_setCirc (x : Circ) : (p.setCirc c x).circ c = x := by
  simp [Part.circ, Part.setCirc, Vector.get_eq_getElem]

theorem Part.circ_setCirc_ne (x : Circ) (h : c' ≠ c) : (p.setCirc c x).circ c' = p.circ c' := by
  have : c.val ≠ c'.val := fun e => h (Fin.ext e.symm)
  simp [Part.circ, Part.setCirc, Vector.get_eq_getElem, this]

@[simp] theorem Part.lines_setCirc (x : Circ) : (p.setCirc c x).lines = p.lines := rfl
@[simp] theorem Part.line_setCirc (x : Circ) : (p.setCirc c x).line l = p.line l := rfl
@[simp] theorem Part.items_setCirc (x : Circ) : (p.setCirc c x).items = p.items := rfl
@[simp] theorem Part.store_setCirc (x : Circ) : (p.setCirc c x).store = p.store := rfl
@[simp] theorem Part.banks_setCirc (x : Circ) : (p.setCirc c x).banks = p.banks := rfl
@[simp] theorem Part.history_setCirc (x : Circ) : (p.setCirc c x).history = p.history := rfl
@[simp] theorem Part.orders_setCirc (x : Circ) : (p.setCirc c x).orders = p.orders := rfl
@[simp] theorem Part.alarm_setCirc (x : Circ) : (p.setCirc c x).alarm = p.alarm := rfl
@[simp] theorem Part.unrouted_setCirc (x : Circ) : (p.setCirc c x).unrouted = p.unrouted := rfl
@[simp] theorem Part.clock_setCirc (x : Circ) : (p.setCirc c x).clock = p.clock := rfl
@[simp] theorem Part.straps_setCirc (x : Circ) : (p.setCirc c x).straps = p.straps := rfl
@[simp] theorem Part.inReset_setCirc (x : Circ) : (p.setCirc c x).inReset = p.inReset := rfl

/-! ### The parts of a line -/

section
variable (f : Receiver → Receiver) (g : Framer → Framer) (h : LineTally → LineTally)

@[simp] theorem Part.line_modRx : (p.modRx l f).line l = { p.line l with rx := f (p.line l).rx } := by
  simp [Part.modRx]
@[simp] theorem Part.line_modFr : (p.modFr l g).line l = { p.line l with fr := g (p.line l).fr } := by
  simp [Part.modFr]
@[simp] theorem Part.line_modLineTally :
    (p.modLineTally l h).line l = { p.line l with tally := h (p.line l).tally } := by
  simp [Part.modLineTally]

theorem Part.line_modRx_ne (n : l' ≠ l) : (p.modRx l f).line l' = p.line l' := Part.line_setLine_ne _ n
theorem Part.line_modFr_ne (n : l' ≠ l) : (p.modFr l g).line l' = p.line l' := Part.line_setLine_ne _ n
theorem Part.line_modLineTally_ne (n : l' ≠ l) : (p.modLineTally l h).line l' = p.line l' :=
  Part.line_setLine_ne _ n

@[simp] theorem Part.rx_modRx : (p.modRx l f).rx l = f (p.rx l) := by simp [Part.rx]
@[simp] theorem Part.fr_modFr : (p.modFr l g).fr l = g (p.fr l) := by simp [Part.fr]

@[simp] theorem Part.fr_modRx : (p.modRx l f).fr l' = p.fr l' := by
  by_cases n : l' = l
  · subst n; simp [Part.fr]
  · simp [Part.fr, Part.line_modRx_ne _ n]
@[simp] theorem Part.rx_modFr : (p.modFr l g).rx l' = p.rx l' := by
  by_cases n : l' = l
  · subst n; simp [Part.rx]
  · simp [Part.rx, Part.line_modFr_ne _ n]
@[simp] theorem Part.rx_modLineTally : (p.modLineTally l h).rx l' = p.rx l' := by
  by_cases n : l' = l
  · subst n; simp [Part.rx]
  · simp [Part.rx, Part.line_modLineTally_ne _ n]
@[simp] theorem Part.fr_modLineTally : (p.modLineTally l h).fr l' = p.fr l' := by
  by_cases n : l' = l
  · subst n; simp [Part.fr]
  · simp [Part.fr, Part.line_modLineTally_ne _ n]

theorem Part.rx_modRx_ne (n : l' ≠ l) : (p.modRx l f).rx l' = p.rx l' := by
  simp [Part.rx, Part.line_modRx_ne _ n]
theorem Part.fr_modFr_ne (n : l' ≠ l) : (p.modFr l g).fr l' = p.fr l' := by
  simp [Part.fr, Part.line_modFr_ne _ n]

@[simp] theorem Part.circ_modRx : (p.modRx l f).circ c = p.circ c := rfl
@[simp] theorem Part.circ_modFr : (p.modFr l g).circ c = p.circ c := rfl
@[simp] theorem Part.circ_modLineTally : (p.modLineTally l h).circ c = p.circ c := rfl
@[simp] theorem Part.items_modRx : (p.modRx l f).items = p.items := rfl
@[simp] theorem Part.items_modFr : (p.modFr l g).items = p.items := rfl
@[simp] theorem Part.items_modLineTally : (p.modLineTally l h).items = p.items := rfl
end

/-! ### The parts of a circuit -/

section
variable (f : Queue → Queue) (g : Sender → Sender) (h : Load → Load) (k : CircTally → CircTally)

@[simp] theorem Part.circ_modQ : (p.modQ c f).circ c = { p.circ c with q := f (p.circ c).q } := by
  simp [Part.modQ]
@[simp] theorem Part.circ_modTx : (p.modTx c g).circ c = { p.circ c with tx := g (p.circ c).tx } := by
  simp [Part.modTx]
@[simp] theorem Part.circ_modLoad : (p.modLoad c h).circ c = { p.circ c with load := h (p.circ c).load } := by
  simp [Part.modLoad]
@[simp] theorem Part.circ_modTally : (p.modTally c k).circ c = { p.circ c with tally := k (p.circ c).tally } := by
  simp [Part.modTally]

theorem Part.circ_modQ_ne (n : c' ≠ c) : (p.modQ c f).circ c' = p.circ c' := Part.circ_setCirc_ne _ n
theorem Part.circ_modTx_ne (n : c' ≠ c) : (p.modTx c g).circ c' = p.circ c' := Part.circ_setCirc_ne _ n
theorem Part.circ_modLoad_ne (n : c' ≠ c) : (p.modLoad c h).circ c' = p.circ c' := Part.circ_setCirc_ne _ n
theorem Part.circ_modTally_ne (n : c' ≠ c) : (p.modTally c k).circ c' = p.circ c' := Part.circ_setCirc_ne _ n

@[simp] theorem Part.q_modQ : (p.modQ c f).q c = f (p.q c) := by simp [Part.q]
@[simp] theorem Part.tx_modTx : (p.modTx c g).tx c = g (p.tx c) := by simp [Part.tx]
@[simp] theorem Part.load_modLoad : (p.modLoad c h).load c = h (p.load c) := by simp [Part.load]

theorem Part.q_modQ_ne (n : c' ≠ c) : (p.modQ c f).q c' = p.q c' := by simp [Part.q, Part.circ_modQ_ne _ n]
theorem Part.tx_modTx_ne (n : c' ≠ c) : (p.modTx c g).tx c' = p.tx c' := by simp [Part.tx, Part.circ_modTx_ne _ n]
theorem Part.load_modLoad_ne (n : c' ≠ c) : (p.modLoad c h).load c' = p.load c' := by
  simp [Part.load, Part.circ_modLoad_ne _ n]

@[simp] theorem Part.tx_modQ : (p.modQ c f).tx c' = p.tx c' := by
  by_cases n : c' = c
  · subst n; simp [Part.tx]
  · simp [Part.tx, Part.circ_modQ_ne _ n]
@[simp] theorem Part.load_modQ : (p.modQ c f).load c' = p.load c' := by
  by_cases n : c' = c
  · subst n; simp [Part.load]
  · simp [Part.load, Part.circ_modQ_ne _ n]
@[simp] theorem Part.q_modTx : (p.modTx c g).q c' = p.q c' := by
  by_cases n : c' = c
  · subst n; simp [Part.q]
  · simp [Part.q, Part.circ_modTx_ne _ n]
@[simp] theorem Part.load_modTx : (p.modTx c g).load c' = p.load c' := by
  by_cases n : c' = c
  · subst n; simp [Part.load]
  · simp [Part.load, Part.circ_modTx_ne _ n]
@[simp] theorem Part.q_modLoad : (p.modLoad c h).q c' = p.q c' := by
  by_cases n : c' = c
  · subst n; simp [Part.q]
  · simp [Part.q, Part.circ_modLoad_ne _ n]
@[simp] theorem Part.tx_modLoad : (p.modLoad c h).tx c' = p.tx c' := by
  by_cases n : c' = c
  · subst n; simp [Part.tx]
  · simp [Part.tx, Part.circ_modLoad_ne _ n]
@[simp] theorem Part.q_modTally : (p.modTally c k).q c' = p.q c' := by
  by_cases n : c' = c
  · subst n; simp [Part.q]
  · simp [Part.q, Part.circ_modTally_ne _ n]
@[simp] theorem Part.tx_modTally : (p.modTally c k).tx c' = p.tx c' := by
  by_cases n : c' = c
  · subst n; simp [Part.tx]
  · simp [Part.tx, Part.circ_modTally_ne _ n]
@[simp] theorem Part.load_modTally : (p.modTally c k).load c' = p.load c' := by
  by_cases n : c' = c
  · subst n; simp [Part.load]
  · simp [Part.load, Part.circ_modTally_ne _ n]

@[simp] theorem Part.line_modQ : (p.modQ c f).line l = p.line l := rfl
@[simp] theorem Part.line_modTx : (p.modTx c g).line l = p.line l := rfl
@[simp] theorem Part.line_modLoad : (p.modLoad c h).line l = p.line l := rfl
@[simp] theorem Part.line_modTally : (p.modTally c k).line l = p.line l := rfl
@[simp] theorem Part.items_modQ : (p.modQ c f).items = p.items := rfl
@[simp] theorem Part.items_modTx : (p.modTx c g).items = p.items := rfl
@[simp] theorem Part.items_modLoad : (p.modLoad c h).items = p.items := rfl
@[simp] theorem Part.items_modTally : (p.modTally c k).items = p.items := rfl
end

/-! ### Descriptors and flags -/

@[simp] theorem Part.circ_modItem (n : Nat) (f : Item → Item) : (p.modItem n f).circ c = p.circ c := rfl
@[simp] theorem Part.line_modItem (n : Nat) (f : Item → Item) : (p.modItem n f).line l = p.line l := rfl
@[simp] theorem Part.q_modItem (n : Nat) (f : Item → Item) : (p.modItem n f).q c = p.q c := rfl
@[simp] theorem Part.tx_modItem (n : Nat) (f : Item → Item) : (p.modItem n f).tx c = p.tx c := rfl
@[simp] theorem Part.load_modItem (n : Nat) (f : Item → Item) : (p.modItem n f).load c = p.load c := rfl

theorem flagIdx_injective {f g : Flag} (h : flagIdx f = flagIdx g) : f = g := by
  cases f <;> cases g <;> first | rfl | exact absurd h (by decide)

@[simp] theorem Alarm.flag_modFlag (a : Alarm) (f : Flag) (g : FlagState → FlagState) :
    (a.modFlag f g).flag f = g (a.flag f) := by
  simp [Alarm.flag, Alarm.modFlag, Vector.get_eq_getElem]

theorem Alarm.flag_modFlag_ne (a : Alarm) {f f' : Flag} (g : FlagState → FlagState) (h : f' ≠ f) :
    (a.modFlag f g).flag f' = a.flag f' := by
  have : (flagIdx f).val ≠ (flagIdx f').val := fun e => h (flagIdx_injective (Fin.ext e.symm))
  simp [Alarm.flag, Alarm.modFlag, Vector.get_eq_getElem, this]

@[simp] theorem Part.flag_modFlag (f : Flag) (g : FlagState → FlagState) : (p.modFlag f g).flag f = g (p.flag f) :=
  Alarm.flag_modFlag ..

theorem Part.flag_modFlag_ne {f f' : Flag} (g : FlagState → FlagState) (h : f' ≠ f) :
    (p.modFlag f g).flag f' = p.flag f' := Alarm.flag_modFlag_ne _ g h

section
variable (a : Alarm)
@[simp] theorem Part.alarm_setAlarm : (p.setAlarm a).alarm = a := rfl
@[simp] theorem Part.flag_setAlarm (f : Flag) : (p.setAlarm a).flag f = a.flag f := rfl
@[simp] theorem Part.circ_setAlarm : (p.setAlarm a).circ c = p.circ c := rfl
@[simp] theorem Part.circs_setAlarm : (p.setAlarm a).circs = p.circs := rfl
@[simp] theorem Part.q_setAlarm : (p.setAlarm a).q c = p.q c := rfl
@[simp] theorem Part.tx_setAlarm : (p.setAlarm a).tx c = p.tx c := rfl
@[simp] theorem Part.load_setAlarm : (p.setAlarm a).load c = p.load c := rfl
@[simp] theorem Part.line_setAlarm : (p.setAlarm a).line l = p.line l := rfl
@[simp] theorem Part.lines_setAlarm : (p.setAlarm a).lines = p.lines := rfl
@[simp] theorem Part.rx_setAlarm : (p.setAlarm a).rx l = p.rx l := rfl
@[simp] theorem Part.fr_setAlarm : (p.setAlarm a).fr l = p.fr l := rfl
@[simp] theorem Part.items_setAlarm : (p.setAlarm a).items = p.items := rfl
@[simp] theorem Part.store_setAlarm : (p.setAlarm a).store = p.store := rfl
@[simp] theorem Part.banks_setAlarm : (p.setAlarm a).banks = p.banks := rfl
@[simp] theorem Part.history_setAlarm : (p.setAlarm a).history = p.history := rfl
@[simp] theorem Part.orders_setAlarm : (p.setAlarm a).orders = p.orders := rfl
@[simp] theorem Part.unrouted_setAlarm : (p.setAlarm a).unrouted = p.unrouted := rfl
@[simp] theorem Part.clock_setAlarm : (p.setAlarm a).clock = p.clock := rfl
@[simp] theorem Part.straps_setAlarm : (p.setAlarm a).straps = p.straps := rfl
@[simp] theorem Part.inReset_setAlarm : (p.setAlarm a).inReset = p.inReset := rfl
end

/-! ### Tallies -/

theorem bump_le {n : Nat} (h : n ≤ Config.tallyMax) : bump n ≤ Config.tallyMax := by
  unfold bump; split <;> omega

theorem bump_eq (n : Nat) (h : n < Config.tallyMax) : bump n = n + 1 := by simp [bump, h]

end Sys2Proof.Machine
end

