-- ==== Sys2Proof/Laws/Load.lean ====
section
/-! SUPPORT. What raising a flag, evaluating an overload state and recomputing a backlog do, and what they leave alone. -/

namespace Sys2Proof.Machine

variable {p : Part} {c c' : CircNo} {l : LineNo}

/-! ### Raising a flag -/

@[simp] theorem Part.circ_raise (f : Flag) (m : Fin 8) : (raise f m p).circ c = p.circ c := rfl
@[simp] theorem Part.circs_raise (f : Flag) (m : Fin 8) : (raise f m p).circs = p.circs := rfl
@[simp] theorem Part.q_raise (f : Flag) (m : Fin 8) : (raise f m p).q c = p.q c := rfl
@[simp] theorem Part.tx_raise (f : Flag) (m : Fin 8) : (raise f m p).tx c = p.tx c := rfl
@[simp] theorem Part.load_raise (f : Flag) (m : Fin 8) : (raise f m p).load c = p.load c := rfl
@[simp] theorem Part.line_raise (f : Flag) (m : Fin 8) : (raise f m p).line l = p.line l := rfl
@[simp] theorem Part.lines_raise (f : Flag) (m : Fin 8) : (raise f m p).lines = p.lines := rfl
@[simp] theorem Part.items_raise (f : Flag) (m : Fin 8) : (raise f m p).items = p.items := rfl
@[simp] theorem Part.store_raise (f : Flag) (m : Fin 8) : (raise f m p).store = p.store := rfl
@[simp] theorem Part.banks_raise (f : Flag) (m : Fin 8) : (raise f m p).banks = p.banks := rfl
@[simp] theorem Part.history_raise (f : Flag) (m : Fin 8) : (raise f m p).history = p.history := rfl
@[simp] theorem Part.orders_raise (f : Flag) (m : Fin 8) : (raise f m p).orders = p.orders := rfl
@[simp] theorem Part.unrouted_raise (f : Flag) (m : Fin 8) : (raise f m p).unrouted = p.unrouted := rfl
@[simp] theorem Part.clock_raise (f : Flag) (m : Fin 8) : (raise f m p).clock = p.clock := rfl
@[simp] theorem Part.straps_raise (f : Flag) (m : Fin 8) : (raise f m p).straps = p.straps := rfl
@[simp] theorem Part.inReset_raise (f : Flag) (m : Fin 8) : (raise f m p).inReset = p.inReset := rfl
@[simp] theorem Part.alarm_raise (f : Flag) (m : Fin 8) : (raise f m p).alarm = p.alarm.raise f m := rfl

/-- What a raise leaves of each flag (R188): the flag raised is raised, with its members after the raise; the others
stand. -/
theorem Alarm.flag_raise (a : Alarm) (f g : Flag) (m : Fin 8) :
    (a.raise f m).flag g =
      if g = f then { a.flag f with raised := true, members := membersAfter f m (a.flag f) } else a.flag g := by
  have : ∀ b : Alarm, ∀ o, ({ b with owing := o } : Alarm).flag g = b.flag g := fun _ _ => rfl
  unfold Alarm.raise
  simp only
  split <;> split
  all_goals try rw [this]
  all_goals first | (subst g; exact Alarm.flag_modFlag ..) | exact Alarm.flag_modFlag_ne _ _ ‹_›

@[simp] theorem Alarm.lost_raise (a : Alarm) (f : Flag) (m : Fin 8) : (a.raise f m).lost = a.lost := by
  simp only [Alarm.raise]; split <;> rfl

@[simp] theorem Alarm.serial_raise (a : Alarm) (f : Flag) (m : Fin 8) : (a.raise f m).serial = a.serial := by
  simp only [Alarm.raise]; split <;> rfl

/-! ### Evaluation and recomputation (R149, R151) -/

/-- An evaluation writes the overload state of its circuit and, at most, raises CONGESTED. -/
theorem evaluate_eq (c : CircNo) (p : Part) :
    ∃ a, evaluate c p = (p.modLoad c fun ld => { ld with state := evaluated ld }).setAlarm a ∧
      (a = p.alarm ∨ a = p.alarm.raise .congested c) := by
  unfold evaluate
  simp only
  split
  · exact ⟨_, rfl, .inr rfl⟩
  · exact ⟨_, rfl, .inl rfl⟩

theorem Part.setCirc_self (x : Circ) (h : x = p.circ c) : p.setCirc c x = p := by
  subst h; simp [Part.setCirc, Part.circ, Vector.get_eq_getElem]

theorem Part.modLoad_id (h : Load → Load) (hh : h (p.load c) = p.load c) : p.modLoad c h = p :=
  Part.setCirc_self _ (congrArg (fun x => { p.circ c with load := x }) hh)

theorem Part.modLoad_modLoad (h k : Load → Load) : (p.modLoad c h).modLoad c k = p.modLoad c fun ld => k (h ld) := by
  simp only [Part.modLoad, Part.circ_setCirc]
  simp [Part.setCirc]

/-- A recomputation writes the backlog and the overload state of its circuit and, at most, raises CONGESTED. -/
theorem recompute_eq (c : CircNo) (p : Part) :
    ∃ a st, recompute c p =
        (p.modLoad c fun ld => { ld with backlog := backlogOf (p.q c), state := st }).setAlarm a ∧
      (a = p.alarm ∨ a = p.alarm.raise .congested c) ∧
      (backlogOf (p.q c) = (p.load c).backlog ∧ st = (p.load c).state ∨
        st = evaluated { p.load c with backlog := backlogOf (p.q c) }) := by
  unfold recompute
  simp only
  split
  · next h =>
    refine ⟨p.alarm, (p.load c).state, ?_, .inl rfl, .inl ⟨h, rfl⟩⟩
    rw [Part.modLoad_id _ (by simp [h])]; rfl
  · obtain ⟨a, he, ha⟩ := evaluate_eq c (p.modLoad c fun ld => { ld with backlog := backlogOf (p.q c) })
    refine ⟨a, evaluated { p.load c with backlog := backlogOf (p.q c) }, ?_, ha, .inr rfl⟩
    rw [he, Part.modLoad_modLoad]
    rfl

section
variable (c c' : CircNo) (p : Part)

@[simp] theorem q_recompute : (recompute c p).q c' = p.q c' := by
  obtain ⟨a, st, h, -⟩ := recompute_eq c p; simp [h]
@[simp] theorem tx_recompute : (recompute c p).tx c' = p.tx c' := by
  obtain ⟨a, st, h, -⟩ := recompute_eq c p; simp [h]
@[simp] theorem lines_recompute : (recompute c p).lines = p.lines := by
  obtain ⟨a, st, h, -⟩ := recompute_eq c p; simp only [h]; rfl
@[simp] theorem line_recompute (l : LineNo) : (recompute c p).line l = p.line l := by simp [Part.line]
@[simp] theorem items_recompute : (recompute c p).items = p.items := by
  obtain ⟨a, st, h, -⟩ := recompute_eq c p; simp only [h]; rfl
@[simp] theorem store_recompute : (recompute c p).store = p.store := by
  obtain ⟨a, st, h, -⟩ := recompute_eq c p; simp only [h]; rfl
@[simp] theorem banks_recompute : (recompute c p).banks = p.banks := by
  obtain ⟨a, st, h, -⟩ := recompute_eq c p; simp only [h]; rfl
@[simp] theorem history_recompute : (recompute c p).history = p.history := by
  obtain ⟨a, st, h, -⟩ := recompute_eq c p; simp only [h]; rfl
@[simp] theorem orders_recompute : (recompute c p).orders = p.orders := by
  obtain ⟨a, st, h, -⟩ := recompute_eq c p; simp only [h]; rfl
@[simp] theorem unrouted_recompute : (recompute c p).unrouted = p.unrouted := by
  obtain ⟨a, st, h, -⟩ := recompute_eq c p; simp only [h]; rfl
@[simp] theorem clock_recompute : (recompute c p).clock = p.clock := by
  obtain ⟨a, st, h, -⟩ := recompute_eq c p; simp only [h]; rfl
@[simp] theorem straps_recompute : (recompute c p).straps = p.straps := by
  obtain ⟨a, st, h, -⟩ := recompute_eq c p; simp only [h]; rfl
@[simp] theorem inReset_recompute : (recompute c p).inReset = p.inReset := by
  obtain ⟨a, st, h, -⟩ := recompute_eq c p; simp only [h]; rfl
@[simp] theorem lost_recompute : (recompute c p).alarm.lost = p.alarm.lost := by
  obtain ⟨a, st, h, ha, -⟩ := recompute_eq c p
  rw [h]; rcases ha with rfl | rfl <;> simp
@[simp] theorem tally_recompute : ((recompute c p).circ c').tally = (p.circ c').tally := by
  obtain ⟨a, st, h, -⟩ := recompute_eq c p
  by_cases n : c' = c
  · subst n; simp [h]
  · simp [h, Part.circ_modLoad_ne _ n]

theorem load_recompute_ne (n : c' ≠ c) : (recompute c p).load c' = p.load c' := by
  obtain ⟨a, st, h, -⟩ := recompute_eq c p; simp [h, Part.load_modLoad_ne _ n]

/-- After a recomputation the backlog of the circuit is the sum over its entries, and its thresholds stand. -/
theorem load_recompute : ∃ st, (recompute c p).load c = { p.load c with backlog := backlogOf (p.q c), state := st } ∧
    (backlogOf (p.q c) = (p.load c).backlog ∧ st = (p.load c).state ∨
      st = evaluated { p.load c with backlog := backlogOf (p.q c) }) := by
  obtain ⟨a, st, h, -, hs⟩ := recompute_eq c p
  exact ⟨st, by simp [h], hs⟩
end

/-- After an evaluation the overload state agrees with the backlog, whatever it was before (R151). -/
theorem agrees_evaluated (ld : Load) (h : ld.hyst < ld.loadOn ∧ ld.loadOn ≤ ld.congOn) :
    ({ ld with state := evaluated ld } : Load).Agrees := by
  unfold Load.Agrees evaluated
  grind

end Sys2Proof.Machine
end

