-- ==== Sys2Proof/Laws/Items.lean ====
section
/-! SUPPORT. Reading descriptors after each change of the item table. -/

namespace Sys2Proof.Machine

variable {p : Part} {c : CircNo} {n k : Nat}

theorem Part.item?_eq (p q : Part) (h : p.items = q.items) : p.item? n = q.item? n := by simp [Part.item?, h]

/-- Changing one descriptor, its number kept, changes what is read of that number alone. -/
theorem Part.item?_modItem (f : Item → Item) (hf : ∀ it, (f it).num = it.num) :
    (p.modItem k f).item? n = (p.item? n).map fun it => if n = k then f it else it := by
  have hg : ((fun it : Item => it.num == n) ∘ fun it => if it.num == k then f it else it) = fun it => it.num == n := by
    funext it; simp only [Function.comp]; split <;> simp [hf]
  unfold Part.item? Part.modItem
  simp only [List.find?_map, hg]
  cases h : p.items.find? fun it => it.num == n with
  | none => rfl
  | some it =>
    have : it.num = n := by simpa using List.find?_some h
    simp [this]

/-- Dropping another descriptor leaves what is read of this one. -/
theorem find?_filter_ne (xs : List Item) (h : n ≠ k) :
    (xs.filter fun x => x.num != k).find? (fun it => it.num == n) = xs.find? fun it => it.num == n := by
  induction xs with
  | nil => rfl
  | cons x xs ih =>
    by_cases hx : x.num = k
    · have : (x.num == n) = false := by simp [hx]; exact fun e => h e.symm
      simp [hx, ih, show (k == n) = false by simp; exact fun e => h e.symm]
    · by_cases hn : x.num = n
      · simp [hn, h]
      · have h2 : (x.num == n) = false := by simpa using hn
        simp [hx, h2, ih]

theorem Part.item?_examineFree (h : n ≠ k) : (examineFree k p).item? n = p.item? n := by
  unfold examineFree
  split
  · rfl
  · split
    · exact find?_filter_ne _ h
    · rfl

theorem Part.num_of_item? {it : Item} (h : p.item? n = some it) : it.num = n := by
  simpa using List.find?_some h

theorem Part.mem_of_item? {it : Item} (h : p.item? n = some it) : it ∈ p.items := List.mem_of_find?_eq_some h

theorem Part.item_of_item? {it : Item} (h : p.item? n = some it) : p.item n = it := by simp [Part.item, h]

/-- With numbers of their own, a descriptor in use is the one read under its number. -/
theorem Part.item?_of_mem (h : (p.items.map (·.num)).Nodup) {it : Item} (hm : it ∈ p.items) :
    p.item? it.num = some it := by
  unfold Part.item?
  induction hx : p.items generalizing p with
  | nil => simp [hx] at hm
  | cons x xs ih =>
    rw [hx] at h hm
    simp only [List.map_cons, List.nodup_cons, List.mem_map, not_exists, not_and] at h
    rcases List.mem_cons.mp hm with rfl | hm
    · simp
    · have : (x.num == it.num) = false := by simpa using fun e => h.1 it hm e.symm
      simp only [List.find?_cons, this]
      exact ih (p := { p with items := xs }) h.2 hm rfl

/-- Descriptor `n` is FILLING. -/
def Part.Filling (p : Part) (n : Nat) : Prop := ∃ it, p.item? n = some it ∧ it.state = .filling

theorem Part.Filling.isSome (h : p.Filling n) : (p.item? n).isSome := by
  obtain ⟨it, h, -⟩ := h; simp [h]

theorem Part.Filling.of_items {q : Part} (h : p.Filling n) (e : q.items = p.items) : q.Filling n := by
  obtain ⟨it, h, hs⟩ := h; exact ⟨it, by rw [← h]; exact Part.item?_eq _ _ e, hs⟩

theorem Part.Filling.modItem (h : p.Filling n) (f : Item → Item) (hn : ∀ it, (f it).num = it.num)
    (hf : ∀ it, (f it).state = it.state) : (p.modItem k f).Filling n := by
  obtain ⟨it, h, hs⟩ := h
  refine ⟨_, by rw [Part.item?_modItem f hn, h]; rfl, ?_⟩
  split <;> simp [hf, hs]

/-- A FILLING descriptor is not freed (R64, R67). -/
theorem Part.Filling.examineFree (h : p.Filling n) : (examineFree k p).Filling n := by
  by_cases e : n = k
  · subst e
    obtain ⟨it, h, hs⟩ := h
    unfold Machine.examineFree
    simp [h, Item.ended, hs, Part.Filling]
  · obtain ⟨it, h, hs⟩ := h
    exact ⟨it, by rw [Part.item?_examineFree e, h], hs⟩

theorem Part.Filling.addItem (h : p.Filling n) (x : Item) : (p.addItem x).Filling n := by
  obtain ⟨it, h, hs⟩ := h
  refine ⟨it, ?_, hs⟩
  simp only [Part.item?, Part.addItem] at *
  simp [List.find?_append, h]

/-- The lowest FREE number belongs to no descriptor in use. -/
theorem lowestFrom_spec {used : List Nat} {fuel m k : Nat} (h : lowestFrom used fuel m = some k) :
    k ∉ used ∧ m ≤ k ∧ k < m + fuel ∧ ∀ j, m ≤ j → j < k → j ∈ used := by
  induction fuel generalizing m with
  | zero => simp [lowestFrom] at h
  | succ fuel ih =>
    unfold lowestFrom at h
    split at h
    · next hc =>
      obtain ⟨h1, h2, h3, h4⟩ := ih h
      refine ⟨h1, by omega, by omega, fun j hj hk => ?_⟩
      by_cases e : j = m
      · subst e; simpa using hc
      · exact h4 j (by omega) hk
    · next hc => cases h; exact ⟨by simpa using hc, by omega, by omega, fun j _ _ => by omega⟩

theorem Part.lowestFree_spec (h : p.lowestFree = some n) :
    n ∉ p.items.map (·.num) ∧ n < Config.tableSize ∧ ∀ j, j < n → j ∈ p.items.map (·.num) := by
  obtain ⟨h1, -, h3, h4⟩ := lowestFrom_spec h
  exact ⟨h1, by simpa using h3, fun j hj => h4 j (Nat.zero_le _) hj⟩

theorem Part.item?_addItem_self (x : Item) (h : x.num ∉ p.items.map (·.num)) : (p.addItem x).item? x.num = some x := by
  simp only [Part.item?, Part.addItem]
  rw [List.find?_append, List.find?_eq_none.mpr]
  · simp
  · intro y hy
    simp only [List.mem_map, not_exists, not_and] at h
    simpa using h y hy

end Sys2Proof.Machine
end

