-- ==== Sys2Proof/Laws/OutMoves.lean ====
section
/-! SUPPORT. What the circuit side of the part can do: every operation of the queues, the senders, admission and the alarm
unit is a sequence of the named acts of `OutMove`.  An invariant of those acts is an invariant of every operation. -/

namespace Sys2Proof.Machine

/-- One act of the circuit side. -/
inductive OutMove : Part → Part → Prop
  | raise (f : Flag) (m : Fin 8) : OutMove p (raise f m p)
  | alarm (a : Alarm) (flags : a.flags = p.alarm.flags)
      (lost : p.alarm.lost ≤ Config.tallyMax → a.lost ≤ Config.tallyMax) : OutMove p (p.setAlarm a)
  | queue (c : CircNo) (f : Queue → Queue) (entries : (f (p.q c)).entries = (p.q c).entries)
      (current : (f (p.q c)).current = (p.q c).current) (ordered : (f (p.q c)).ordered = (p.q c).ordered)
      (stallTime : (f (p.q c)).stallTime = (p.q c).stallTime) (ages : (f (p.q c)).ages = (p.q c).ages)
      (turn : (p.q c).TurnWithin → (f (p.q c)).TurnWithin) : OutMove p (p.modQ c f)
  | tx (c : CircNo) (f : Sender → Sender) (ordered : (f (p.tx c)).ordered = (p.tx c).ordered)
      (broken : (f (p.tx c)).job.isBreak = true →
        (p.tx c).job.isBreak = true ∨ ∀ e, (p.q c).current = some e → e.resume.isSome) : OutMove p (p.modTx c f)
  | tally (c : CircNo) (f : CircTally → CircTally) (within : ∀ t, t.Within → (f t).Within) :
      OutMove p (p.modTally c f)
  | interrupt (c : CircNo) (r : Resume) : OutMove p (interruptAt c r p)
  | take (c : CircNo) (ch : Choice) (n : Nat) (empty : (p.q c).current = none)
      (queued : ch.entry ∈ (p.q c).entries) (unbroken : (p.tx c).job.isBreak = false)
      (turn : (p.q c).TurnWithin → ch.turn ≤ 8 ∧ ch.turnLines ≤ 255) : OutMove p (takeEntry c ch n p)
  | giveBack (c : CircNo) (e : Entry) (current : (p.q c).current = some e)
      (broken : (p.tx c).job.isBreak = true) : OutMove p (giveBack c e p)
  | removeQueued (c : CircNo) (n : Nat) : OutMove p (removeQueued c n p)
  | removeCurrent (c : CircNo) : OutMove p (removeCurrent c p)
  | put (c : CircNo) (r : Request) (single : ((p.q c).held.any fun e => e.item == r.item) = false)
      (room : (p.q c).held.length ≤ 32) (held : (p.item? r.item).isSome) : OutMove p (putEntry c r p)
  | replace (c : CircNo) (e : Entry) (r : Request) (queued : e ∈ (p.q c).entries)
      (single : ((p.q c).held.any fun e => e.item == r.item) = false) (held : (p.item? r.item).isSome) :
      OutMove p (putEntry c r (displaceEntry c e p))
  | reestimate (n : Nat) (c : CircNo) : OutMove p (reestimateOn n c p)
  | spend (c : CircNo) : OutMove p (spendOne c p)
  | free (n : Nat) : OutMove p (examineFree n p)
  | addUnit (n serial : Nat) (slug body : Text) (lowest : p.lowestFree = some n)
      (room : blocksFor body.length ≤ p.store.freeBlocks) : OutMove p (addUnit n serial slug body p)

/-- A sequence of acts of the circuit side. -/
abbrev OutMoves : Part → Part → Prop := Relation.ReflTransGen OutMove

/-- What every act keeps, every sequence of acts keeps. -/
theorem OutMoves.keeps {I : Part → Prop} (step : ∀ {p q}, OutMove p q → I p → I q) {p q : Part} (h : OutMoves p q)
    (hp : I p) : I q := by
  induction h with
  | refl => exact hp
  | tail _ m ih => exact step m ih

variable {p₀ p : Part} {c : CircNo}

/-! Each lemma below carries a sequence of acts over one more operation. -/

theorem OutMoves.act {q : Part} (h : OutMoves p₀ p) (m : OutMove p q) : OutMoves p₀ q := h.tail m

theorem OutMoves.foldl {α : Type} {f : Part → α → Part} (hf : ∀ p a, OutMoves p₀ p → OutMoves p₀ (f p a)) (xs : List α)
    (h : OutMoves p₀ p) : OutMoves p₀ (xs.foldl f p) := by
  induction xs generalizing p with
  | nil => exact h
  | cons x xs ih => exact ih (hf p x h)

theorem OutMoves.eachCirc {f : CircNo → Part → Part} (hf : ∀ c p, OutMoves p₀ p → OutMoves p₀ (f c p))
    (h : OutMoves p₀ p) : OutMoves p₀ (p.eachCirc f) :=
  OutMoves.foldl (fun p c => hf c p) _ h

/-! ### Tallies -/

theorem CircTally.Within.bump_sent {t : CircTally} (h : t.Within) : ({ t with sent := bump t.sent }).Within :=
  ⟨bump_le h.1, h.2⟩
theorem CircTally.Within.bump_done {t : CircTally} (h : t.Within) : ({ t with done := bump t.done }).Within :=
  ⟨h.1, bump_le h.2.1, h.2.2⟩
theorem CircTally.Within.bump_breaks {t : CircTally} (h : t.Within) : ({ t with breaks := bump t.breaks }).Within := by
  obtain ⟨h1, h2, h3, h4⟩ := h; exact ⟨h1, h2, bump_le h3, h4⟩
theorem CircTally.Within.bump_lapsed {t : CircTally} (h : t.Within) : ({ t with lapsed := bump t.lapsed }).Within := by
  obtain ⟨h1, h2, h3, h4, h5⟩ := h; exact ⟨h1, h2, h3, bump_le h4, h5⟩
theorem CircTally.Within.bump_displaced {t : CircTally} (h : t.Within) :
    ({ t with displaced := bump t.displaced }).Within := by
  obtain ⟨h1, h2, h3, h4, h5, h6⟩ := h; exact ⟨h1, h2, h3, h4, bump_le h5, h6⟩
theorem CircTally.Within.bump_shed {t : CircTally} (h : t.Within) : ({ t with shed := bump t.shed }).Within := by
  obtain ⟨h1, h2, h3, h4, h5, h6, h7⟩ := h; exact ⟨h1, h2, h3, h4, h5, bump_le h6, h7⟩
theorem CircTally.Within.bump_diverted {t : CircTally} (h : t.Within) :
    ({ t with diverted := bump t.diverted }).Within := by
  obtain ⟨h1, h2, h3, h4, h5, h6, h7, h8⟩ := h; exact ⟨h1, h2, h3, h4, h5, h6, bump_le h7, h8⟩
theorem CircTally.Within.bump_suppressed {t : CircTally} (h : t.Within) :
    ({ t with suppressed := bump t.suppressed }).Within := by
  obtain ⟨h1, h2, h3, h4, h5, h6, h7, h8, h9⟩ := h; exact ⟨h1, h2, h3, h4, h5, h6, h7, bump_le h8, h9⟩
theorem CircTally.Within.bump_marked {t : CircTally} (h : t.Within) : ({ t with marked := bump t.marked }).Within := by
  obtain ⟨h1, h2, h3, h4, h5, h6, h7, h8, h9⟩ := h; exact ⟨h1, h2, h3, h4, h5, h6, h7, h8, bump_le h9⟩

/-! ### Queues -/

/-- A change of a queue that touches neither its entries nor its orders. -/
theorem OutMoves.modQ {f : Queue → Queue} (h : OutMoves p₀ p) (hf : (f (p.q c)).entries = (p.q c).entries ∧
    (f (p.q c)).current = (p.q c).current ∧ (f (p.q c)).ordered = (p.q c).ordered ∧
    (f (p.q c)).stallTime = (p.q c).stallTime ∧ (f (p.q c)).ages = (p.q c).ages ∧
    ((p.q c).TurnWithin → (f (p.q c)).TurnWithin)) : OutMoves p₀ (p.modQ c f) :=
  h.act (.queue c f hf.1 hf.2.1 hf.2.2.1 hf.2.2.2.1 hf.2.2.2.2.1 hf.2.2.2.2.2)

theorem OutMoves.modTally {f : CircTally → CircTally} (h : OutMoves p₀ p) (hf : ∀ t, t.Within → (f t).Within) :
    OutMoves p₀ (p.modTally c f) := h.act (.tally c f hf)

theorem OutMoves.raise (f : Flag) (m : Fin 8) (h : OutMoves p₀ p) : OutMoves p₀ (raise f m p) := h.act (.raise f m)

theorem OutMoves.clearBreak (h : OutMoves p₀ p) : OutMoves p₀ (clearBreak c p) := h.modQ ⟨rfl, rfl, rfl, rfl, rfl, id⟩

theorem OutMoves.stopStall (h : OutMoves p₀ p) : OutMoves p₀ (stopStall c p) := h.modQ ⟨rfl, rfl, rfl, rfl, rfl, id⟩

theorem OutMoves.addReasons (e : Entry) (h : OutMoves p₀ p) : OutMoves p₀ (addReasons c e p) := by
  unfold Machine.addReasons; exact h.modQ ⟨rfl, rfl, rfl, rfl, rfl, id⟩

theorem nextTurn_le (t : Nat) : nextTurn t ≤ 8 := by unfold nextTurn; split <;> omega

theorem Queue.TurnWithin.endTurn {q : Queue} : (endTurn q).TurnWithin := ⟨nextTurn_le _, Nat.zero_le _⟩

theorem OutMoves.countTurnLine (h : OutMoves p₀ p) : OutMoves p₀ (countTurnLine c p) := by
  simp only [Machine.countTurnLine]; split
  · refine h.modQ ⟨rfl, rfl, rfl, rfl, rfl, fun w => ⟨w.1, ?_⟩⟩
    have := w.2; dsimp only; split <;> omega
  · exact h

theorem OutMoves.removeQueued (n : Nat) (h : OutMoves p₀ p) : OutMoves p₀ (removeQueued c n p) :=
  h.act (.removeQueued c n)

theorem OutMoves.lapseEntry (e : Entry) (h : OutMoves p₀ p) : OutMoves p₀ (lapseEntry c e p) :=
  ((h.removeQueued e.item).modTally fun _ w => w.bump_lapsed).raise .lapsed c

theorem OutMoves.reestimateItem (n : Nat) (h : OutMoves p₀ p) : OutMoves p₀ (reestimateItem n p) :=
  h.eachCirc fun c _ h => h.act (.reestimate n c)

/-! ### Senders -/

/-- A change of a sender that keeps its ordered parameters and does not begin a break line. -/
theorem OutMoves.modTx {f : Sender → Sender} (h : OutMoves p₀ p) (ho : (f (p.tx c)).ordered = (p.tx c).ordered)
    (hj : (f (p.tx c)).job = (p.tx c).job ∨ (f (p.tx c)).job.isBreak = false) : OutMoves p₀ (p.modTx c f) :=
  h.act (.tx c f ho fun b => hj.elim (fun e => .inl (e ▸ b)) fun n => by simp [n] at b)

theorem OutMoves.owe (n : Nat) (h : OutMoves p₀ p) : OutMoves p₀ (owe c n p) := h.modTx rfl (.inl rfl)

theorem OutMoves.bringLine (h : OutMoves p₀ p) : OutMoves p₀ (p.modTx c bringLine) := h.modTx rfl (.inl rfl)

theorem OutMoves.enterIdle (h : OutMoves p₀ p) : OutMoves p₀ (enterIdle c p) := h.modTx rfl (.inr rfl)

theorem OutMoves.enterHeld (pos : HeldPos) (h : OutMoves p₀ p) : OutMoves p₀ (enterHeld c pos p) := by
  unfold Machine.enterHeld
  exact (h.modQ ⟨rfl, rfl, rfl, rfl, rfl, id⟩).modTx rfl (.inr rfl)

/-- An output line may begin on circuit `c`: it is no break line, or the current entry has its resume point. -/
def LineOk (p : Part) (c : CircNo) (kind : LineKind) : Prop :=
  kind ≠ .breakLine ∨ (p.tx c).job.isBreak = true ∨ ∀ e, (p.q c).current = some e → e.resume.isSome

theorem OutMoves.beginLine {kind : LineKind} (h : OutMoves p₀ p) (ok : LineOk p c kind) :
    OutMoves p₀ (beginLine c kind p) := by
  have hb : ∀ q : Part, OutMoves p₀ q → (q.tx c).job = (p.tx c).job → (q.q c).current = (p.q c).current →
      ∀ j : Job, (j.isBreak = true → kind = .breakLine) → ∀ f : Sender → Sender,
      (∀ tx, (f tx).ordered = tx.ordered ∧ (f tx).job = j) → OutMoves p₀ (q.modTx c f) :=
    fun q hq same cur j hj f hf => hq.act (.tx c f (hf _).1 fun b => by
      rw [(hf _).2] at b
      rcases ok with ok | ok | ok
      · exact absurd (hj b) ok
      · exact .inl (by rw [same]; exact ok)
      · exact .inr (by rw [cur]; exact ok))
  unfold Machine.beginLine Machine.sendStartEnd
  simp only
  split
  · exact hb p h rfl rfl (.startEnd kind) (by cases kind <;> simp [Job.isBreak]) _ fun _ => ⟨rfl, rfl⟩
  · exact hb _ h.bringLine (by simp [Machine.bringLine]) (by simp) (lineJob kind)
      (by cases kind <;> simp [Job.isBreak, lineJob]) _ fun _ => ⟨rfl, rfl⟩

theorem OutMoves.beginNotice {kind : LineKind} (h : OutMoves p₀ p) (ok : LineOk p c kind) :
    OutMoves p₀ (beginNotice c kind p) := by
  unfold Machine.beginNotice
  refine OutMoves.beginLine (OutMoves.stopStall (h.modTx rfl (.inl rfl))) ?_
  rcases ok with ok | ok | ok
  · exact .inl ok
  · exact .inr (.inl (by simpa [Machine.stopStall] using ok))
  · exact .inr (.inr (by simpa [Machine.stopStall] using ok))

theorem OutMoves.takeBreak (quantum : Bool) (h : OutMoves p₀ p) : OutMoves p₀ (takeBreak c quantum p) := by
  unfold Machine.takeBreak
  simp only
  have hc := ((h.act (.interrupt c { offset := (p.tx c).offset, line := (p.tx c).lineNo })).modTally (c := c)
    fun _ w => w.bump_breaks).clearBreak (c := c)
  split
  · refine OutMoves.beginNotice (hc.modQ ⟨rfl, rfl, rfl, rfl, rfl, fun _ => .endTurn⟩) (.inr (.inr ?_))
    simp only [endTurn, Machine.clearBreak, interruptAt, Part.q_modQ, Part.q_modTally, Option.map_eq_some_iff]
    rintro e ⟨a, -, rfl⟩; rfl
  · refine OutMoves.beginNotice hc (.inr (.inr ?_))
    simp only [Machine.clearBreak, interruptAt, Part.q_modQ, Part.q_modTally, Option.map_eq_some_iff]
    rintro e ⟨a, -, rfl⟩; rfl

theorem OutMoves.checkBreak {cont : Part → Part} (h : OutMoves p₀ p) (hc : ∀ p, OutMoves p₀ p → OutMoves p₀ (cont p)) :
    OutMoves p₀ (checkBreak c cont p) := by
  unfold Machine.checkBreak; split
  · exact h.takeBreak _
  · exact hc _ h.clearBreak

theorem OutMoves.becomeCurrent (ch : Choice) (h : OutMoves p₀ p) (empty : (p.q c).current = none)
    (queued : ch.entry ∈ (p.q c).entries) (turn : (p.q c).TurnWithin → ch.turn ≤ 8 ∧ ch.turnLines ≤ 255) :
    OutMoves p₀ (becomeCurrent c ch p) := by
  unfold Machine.becomeCurrent
  simp only
  refine OutMoves.beginLine (OutMoves.act (h.modTx rfl (.inr rfl)) (.take c ch _ ?_ ?_ ?_ ?_)) (.inl (by decide))
  · simpa using empty
  · simpa using queued
  · simp [Job.isBreak]
  · simpa using turn

theorem findTurn_mem {es : List Entry} {fuel t t' : Nat} {e : Entry} (h : findTurn es fuel t = some (t', e)) :
    e ∈ es := by
  induction fuel generalizing t with
  | zero => simp [findTurn] at h
  | succ n ih =>
    unfold findTurn at h
    split at h
    · next he => cases h; exact List.mem_of_find?_eq_some he
    · exact ih h

/-- What a selection takes was queued and eligible, and the current slot was empty (R100–R102). -/
theorem choose_spec {ch : Choice} (h : p.choose c = some ch) :
    (p.q c).current = none ∧ ch.entry ∈ (p.q c).entries ∧ p.eligible ch.entry = true := by
  unfold Part.choose at h
  split at h
  · cases h
  · next hn =>
    refine ⟨by simpa using hn, ?_⟩
    have : ch.entry ∈ (p.q c).entries.filter p.eligible := by
      unfold chooseFrom at h
      split at h
      · obtain ⟨e, he, rfl⟩ := Option.map_eq_some_iff.mp h
        exact List.mem_of_mem_head? he
      · split at h
        · next he => cases h; exact List.mem_of_find?_eq_some he
        · obtain ⟨⟨t, e⟩, he, rfl⟩ := Option.map_eq_some_iff.mp h
          exact findTurn_mem he
    simpa using this

theorem findTurn_le {es : List Entry} {fuel t t' : Nat} {e : Entry} (h : findTurn es fuel t = some (t', e))
    (ht : t ≤ 8) : t' ≤ 8 := by
  induction fuel generalizing t with
  | zero => simp [findTurn] at h
  | succ n ih =>
    unfold findTurn at h
    split at h
    · cases h; exact ht
    · exact ih h (nextTurn_le t)

/-- A selection keeps the turn line and its count within their ranges (R102). -/
theorem choose_turn {ch : Choice} (h : p.choose c = some ch) (w : (p.q c).TurnWithin) :
    ch.turn ≤ 8 ∧ ch.turnLines ≤ 255 := by
  unfold Part.choose at h
  split at h
  · cases h
  · unfold chooseFrom at h
    split at h
    · obtain ⟨e, -, rfl⟩ := Option.map_eq_some_iff.mp h; exact w
    · split at h
      · cases h; exact w
      · obtain ⟨⟨t, e⟩, he, rfl⟩ := Option.map_eq_some_iff.mp h
        refine ⟨findTurn_le he w.1, ?_⟩
        have := w.2; dsimp only; split <;> omega

theorem OutMoves.select (h : OutMoves p₀ p) : OutMoves p₀ (select c p) := by
  unfold Machine.select; split
  · next hc => exact h.becomeCurrent _ (choose_spec hc).1 (choose_spec hc).2.1 (choose_turn hc)
  · exact h.enterIdle

theorem OutMoves.selectionPoint (h : OutMoves p₀ p) : OutMoves p₀ (selectionPoint c p) := by
  unfold Machine.selectionPoint
  have h := (h.modQ (c := c) (f := fun q => { q with force := q.ordered }) ⟨rfl, rfl, rfl, rfl, rfl, id⟩).clearBreak (c := c)
  simp only
  split
  · exact h.select
  · exact h.beginNotice (.inl (by decide))

theorem OutMoves.enterTrailer (next : Nat) (h : OutMoves p₀ p) : OutMoves p₀ (enterTrailer c next p) := by
  unfold Machine.enterTrailer
  simp only
  have h (state : SenderState) := (h.modTx (c := c) (f := fun tx => { tx with state := state }) rfl
    (.inl rfl)).stopStall (c := c)
  by_cases hc : ((Machine.stopStall c (p.modTx c fun tx => { tx with
      state := if p.currentKilled c then .notice else .trailer })).tx c).column = 0
  · rw [if_pos hc]; exact (h _).beginLine (.inl (by split <;> decide))
  · rw [if_neg hc]; exact (h _).modTx rfl (.inr rfl)

theorem OutMoves.sendBody (ln : BodyLine) (h : OutMoves p₀ p) : OutMoves p₀ (sendBody c ln p) := by
  unfold Machine.sendBody
  exact (h.modTx rfl (.inr rfl)).stopStall

theorem OutMoves.enterWaiting (h : OutMoves p₀ p) : OutMoves p₀ (enterWaiting c p) := by
  unfold Machine.enterWaiting
  exact ((h.modTx rfl (.inr rfl)).modQ ⟨rfl, rfl, rfl, rfl, rfl, id⟩).checkBreak fun _ h => h

theorem OutMoves.sendStartEnd {kind : LineKind} (ok : kind ≠ .breakLine) (h : OutMoves p₀ p) :
    OutMoves p₀ (sendStartEnd c kind p) := by
  unfold Machine.sendStartEnd
  exact h.modTx rfl (.inr (by cases kind <;> simp_all [Job.isBreak]))

theorem OutMoves.startBody (h : OutMoves p₀ p) : OutMoves p₀ (startBody c p) := by
  unfold Machine.startBody
  simp only
  split
  · exact h.sendStartEnd (by decide)
  · split
    · exact h.bringLine.enterTrailer _
    · exact h.bringLine.sendBody _
    · exact h.bringLine.enterWaiting

theorem OutMoves.examineWaiting (h : OutMoves p₀ p) : OutMoves p₀ (examineWaiting c p) := by
  unfold Machine.examineWaiting
  simp only
  split
  · exact h.bringLine.enterTrailer _
  · exact h.bringLine.sendBody _
  · exact h.bringLine

theorem OutMoves.endBodyLine (next : Nat) (h : OutMoves p₀ p) : OutMoves p₀ (endBodyLine c next p) := by
  unfold Machine.endBodyLine
  exact OutMoves.countTurnLine (h.modTx rfl (.inl rfl))

theorem OutMoves.completeEntry (h : OutMoves p₀ p) : OutMoves p₀ (completeEntry c p) := by
  unfold Machine.completeEntry
  refine OutMoves.modQ ((h.act (.removeCurrent c)).modTally fun _ w => w.bump_done) ?_
  unfold turnAtItemEnd; split
  · exact ⟨rfl, rfl, rfl, rfl, rfl, fun _ => .endTurn⟩
  · exact ⟨rfl, rfl, rfl, rfl, rfl, id⟩

theorem OutMoves.holdOrSelect (h : OutMoves p₀ p) : OutMoves p₀ (holdOrSelect c p) := by
  unfold Machine.holdOrSelect; split
  · exact h.enterHeld _
  · exact h.selectionPoint

theorem OutMoves.setStart (h : OutMoves p₀ p) : OutMoves p₀ (setStart c p) := by
  unfold Machine.setStart
  simp only
  refine h.modTx ?_ (.inl ?_) <;> split <;> rfl

theorem OutMoves.headingDone (h : OutMoves p₀ p) : OutMoves p₀ (headingDone c p) := by
  unfold Machine.headingDone; split
  · exact h.beginNotice (.inl (by decide))
  · split
    · exact h.setStart.enterHeld _
    · exact h.setStart.startBody

theorem OutMoves.bodyDone (next : Nat) (h : OutMoves p₀ p) : OutMoves p₀ (bodyDone c next p) := by
  unfold Machine.bodyDone
  have h := h.endBodyLine (c := c) next
  simp only
  split
  · exact h.beginNotice (.inl (by decide))
  · split
    · exact h.enterHeld _
    · split
      · exact h.startBody
      · exact h.checkBreak fun _ h => h.startBody

theorem OutMoves.breakDone (h : OutMoves p₀ p) (hj : (p.tx c).job.isBreak = true) : OutMoves p₀ (breakDone c p) := by
  unfold Machine.breakDone
  split
  · next e he =>
    split
    · exact OutMoves.holdOrSelect (OutMoves.owe _ (h.act (.removeCurrent c)))
    · exact OutMoves.holdOrSelect (h.act (.giveBack c e he hj))
  · exact h.holdOrSelect

theorem OutMoves.owedDone (h : OutMoves p₀ p) : OutMoves p₀ (owedDone c p) := by
  unfold Machine.owedDone
  have h := h.modTx (c := c) (f := fun tx => { tx with owed := tx.owed.tail }) rfl (.inl rfl)
  simp only
  split
  · exact h.enterHeld _
  · split
    · exact h.select
    · exact h.beginLine (.inl (by decide))

theorem OutMoves.warmDone (h : OutMoves p₀ p) : OutMoves p₀ (warmDone c p) := by
  unfold Machine.warmDone
  have h := h.modTx (c := c) (f := warmIdle) rfl (.inr rfl)
  simp only
  split
  · exact h.selectionPoint
  · exact h

theorem OutMoves.jobDone {job : Job} (h : OutMoves p₀ p) (hj : (p.tx c).job = job) : OutMoves p₀ (jobDone c job p) := by
  unfold Machine.jobDone
  cases job with
  | none => exact h
  | startEnd kind =>
    have h := h.modTx (c := c) (f := fun tx => { tx with startMark := false }) rfl (.inl rfl)
    cases kind
    case body => exact h.startBody
    case breakLine => exact h.beginLine (.inr (.inl (by simp [hj, Job.isBreak])))
    all_goals exact h.beginLine (.inl (by decide))
  | heading => exact h.headingDone
  | body next last =>
    simp only; split
    · exact h.enterTrailer _
    · exact h.bodyDone _
  | lastEnd next kill => exact OutMoves.beginLine (h.endBodyLine next) (.inl (by split <;> decide))
  | trailer => exact h.completeEntry.holdOrSelect
  | breakLine => exact h.breakDone (by simp [hj, Job.isBreak])
  | killLine => exact h.completeEntry.holdOrSelect
  | owed => exact h.owedDone
  | warmFrame => exact h.warmDone

end Sys2Proof.Machine
end

