-- ==== Sys2Proof/Laws/Admission.lean ====
section
/-! SUPPORT. Frames, insertion, unit items, notices, answers, commits and the gate as sequences of acts of the circuit side;
and that no act of the circuit side frees a FILLING descriptor. -/

namespace Sys2Proof.Machine

variable {p₀ p : Part} {c : CircNo}

/-! ### One frame (R123) -/

@[simp] theorem tx_spendOne (c c' : CircNo) (p : Part) : (spendOne c p).tx c' = p.tx c' := by simp [spendOne]

theorem OutMoves.frameSent (h : OutMoves p₀ p) : OutMoves p₀ (frameSent c p) := by
  unfold Machine.frameSent
  split
  · exact h
  · next f rest he =>
    have h1 := ((h.modTx (c := c) (f := fun tx => { frameEnded f (rest = []) tx with out := rest }) rfl
      (.inl rfl)).modTally (c := c) fun _ w => w.bump_sent)
    have h2 : OutMoves p₀ (if (p.tx c).job.ofEntry then spendOne c (((p.modTx c fun tx =>
        { frameEnded f (rest = []) tx with out := rest })).modTally c fun t => { t with sent := bump t.sent })
        else ((p.modTx c fun tx => { frameEnded f (rest = []) tx with out := rest })).modTally c
          fun t => { t with sent := bump t.sent }) := by
      split
      · exact h1.act (.spend c)
      · exact h1
    simp only
    split
    · exact h2.jobDone (by split <;> simp [frameEnded])
    · exact h2

/-! ### FILLING descriptors stay -/

/-- No act of the circuit side frees a FILLING descriptor (R64). -/
theorem Part.Filling.act {n : Nat} {q : Part} (m : OutMove p q) (h : p.Filling n) : q.Filling n := by
  have released : ∀ {p : Part} {c k}, p.Filling n → (Machine.released c k p).Filling n := fun {p c k} h =>
    Part.Filling.examineFree (Part.Filling.of_items (p := p.modItem k fun it => { it with holders := it.holders - 1 })
      (h.modItem _ (fun _ => rfl) fun _ => rfl) (by simp))
  have removeQueued : ∀ {p : Part} {c k}, p.Filling n → (Machine.removeQueued c k p).Filling n := fun h => by
    unfold Machine.removeQueued; split
    · exact released (h.of_items rfl)
    · exact h
  have put : ∀ {p : Part} {c r}, p.Filling n → (Machine.putEntry c r p).Filling n := fun {p c r} h =>
    Part.Filling.of_items (p := p.modItem r.item fun it => { it with holders := it.holders + 1 })
      (h.modItem _ (fun _ => rfl) fun _ => rfl) (items_recompute ..)
  cases m with
  | raise | alarm | queue | tx | tally | interrupt | take | giveBack => exact h.of_items rfl
  | removeQueued => exact removeQueued h
  | removeCurrent c =>
    unfold Machine.removeCurrent; split
    · exact released (h.of_items rfl)
    · exact h
  | put => exact put h
  | replace c e r => exact put (by unfold displaceEntry; exact (removeQueued h).of_items rfl)
  | reestimate => exact h.of_items (by simp [reestimateOn, Part.modEntries])
  | spend => exact h.of_items (by simp [spendOne])
  | free => exact h.examineFree
  | addUnit => exact (h.addItem _).of_items rfl

theorem Part.Filling.acts {n : Nat} {q : Part} (m : OutMoves p q) (h : p.Filling n) : q.Filling n :=
  OutMoves.keeps (I := fun p => p.Filling n) (fun m h => Part.Filling.act m h) m h

/-! ### Insertion (R97, R98) -/

theorem OutMoves.review (e : Entry) (h : OutMoves p₀ p) : OutMoves p₀ (review c e p) := by
  unfold Machine.review; split
  · exact h.selectionPoint
  · simp only; split
    · exact (h.addReasons e).checkBreak fun _ h => h
    · exact h.addReasons e

theorem displaceable_mem {cls : Nat} {es : List Entry} {e : Entry} (h : displaceable cls es = some e) : e ∈ es := by
  unfold displaceable at h
  suffices H : ∀ (xs : List Entry) (best : Option Entry), (∀ b, best = some b → b ∈ es) → (∀ x ∈ xs, x ∈ es) →
      ∀ e, xs.foldl (fun best e => if e.resume.isNone && cls < e.cls then
        (match best with
          | none => some e
          | some b => if b.cls ≤ e.cls then some e else some b) else best) best = some e → e ∈ es from
    H es none (by simp) (fun _ hx => hx) e h
  intro xs
  induction xs with
  | nil => exact fun best hb _ e he => hb e he
  | cons x xs ih =>
    intro best hb hx e he
    refine ih _ ?_ (fun y hy => hx y (.tail _ hy)) e he
    intro b hbb
    simp only at hbb
    split at hbb
    · split at hbb
      · cases hbb; exact hx _ (.head _)
      · next b' => split at hbb <;> cases hbb
                   · exact hx _ (.head _)
                   · exact hb _ rfl
    · exact hb b hbb

theorem OutMoves.insert (r : Request) (h : OutMoves p₀ p) (held : (p.item? r.item).isSome) :
    OutMoves p₀ (insert c r p).2 := by
  unfold Machine.insert
  split
  · exact h
  · next hs =>
    have hs : ((p.q c).held.any fun e => e.item == r.item) = false := by simpa using hs
    split
    · next hr =>
      refine OutMoves.review _ (h.act (.put c r hs ?_ held))
      have : (p.q c).current.toList.length ≤ 1 := by cases (p.q c).current <;> simp
      simp only [Part.queueCount, Queue.held, List.length_append, Config.queueSize] at *
      omega
    · split
      · next e he =>
        simp only [placeEntry]
        exact OutMoves.review _ (h.act (.replace c e r (displaceable_mem he) hs held))
      · exact h.raise _ _

/-! ### Unit items, notices and answers (R69–R75, R191) -/

theorem item?_addUnit {n serial : Nat} {slug body : Text} (h : p.lowestFree = some n) :
    (addUnit n serial slug body p).item? n = some (unitItem n serial slug body p.clock) := by
  have := Part.item?_addItem_self (p := p) (unitItem n serial slug body p.clock) (Part.lowestFree_spec h).1
  exact (Part.item?_eq _ _ rfl).trans this

theorem OutMoves.makeUnit {serial : Nat} {slug body : Text} {q : Part} (h : OutMoves p₀ p)
    (m : makeUnit serial slug body p = some q) : OutMoves p₀ q := by
  unfold Machine.makeUnit at m
  split at m
  · cases m
  · next n hn =>
    split at m
    · next hb =>
      have hi := (h.act (.addUnit n serial slug body hn hb)).insert (c := p.orders.desk)
        { item := n, cls := 2, mode := .send, diverted := false } (by simp [item?_addUnit hn])
      split at m
      · next he => cases m; rw [he] at hi; exact hi
      · next he => cases m; exact (by rw [he] at hi; exact hi : OutMoves p₀ _).act (.free n)
    · cases m

theorem OutMoves.loseUnit (h : OutMoves p₀ p) : OutMoves p₀ (loseUnit p) := by
  unfold Machine.loseUnit
  exact (h.act (.alarm { p.alarm with lost := bump p.alarm.lost } rfl bump_le)).raise _ _

theorem OutMoves.makeNotice (line : Text) (h : OutMoves p₀ p) : OutMoves p₀ (makeNotice line p) := by
  unfold Machine.makeNotice
  split
  · next q hq => exact (h.makeUnit hq).act (.alarm _ rfl id)
  · exact h.loseUnit

theorem OutMoves.settleAux (fuel : Nat) (h : OutMoves p₀ p) : OutMoves p₀ (settleAux fuel p) := by
  induction fuel generalizing p with
  | zero => exact h
  | succ fuel ih =>
    unfold Machine.settleAux
    split
    · exact h
    · next line rest _ => exact ih (OutMoves.makeNotice line (h.act (.alarm { p.alarm with owing := rest } rfl id)))

theorem OutMoves.settle (h : OutMoves p₀ p) : OutMoves p₀ (settle p) := h.settleAux _

theorem OutMoves.raiseNow (f : Flag) (m : Fin 8) (h : OutMoves p₀ p) : OutMoves p₀ (raiseNow f m p) :=
  (h.raise f m).settle

theorem OutMoves.makeAnswer (serial : Nat) (lines : List Text) (h : OutMoves p₀ p) :
    OutMoves p₀ (makeAnswer serial lines p) := by
  unfold Machine.makeAnswer
  refine OutMoves.settle ?_
  split
  · next q hq => exact h.settle.makeUnit hq
  · exact h.settle.loseUnit

/-! ### Commits, the gate and routing (R50, R81–R84, R152–R154) -/

theorem OutMoves.commitOn (n : Nat) (old : Item) (h : OutMoves p₀ p) : OutMoves p₀ (commitOn n old c p) := by
  unfold Machine.commitOn
  split
  · exact h
  · split
    · split
      · exact h.examineWaiting
      · exact h
    · split
      · exact h.review _
      · exact h

theorem OutMoves.divert (rt : Route) (n cls : Nat) (h : OutMoves p₀ p) (held : (p.item? n).isSome) :
    OutMoves p₀ (divert rt n cls c p) := by
  have shed : ∀ {q}, OutMoves p₀ q → OutMoves p₀ (countShed c q) := fun h => h.modTally fun _ w => w.bump_shed
  unfold Machine.divert
  split
  · exact shed h
  · next a _ =>
    split
    · have hi := h.insert (c := a) { item := n, cls := cls, mode := rt.mode, diverted := true } held
      split
      · next q he => rw [he] at hi; exact hi.modTally fun _ w => w.bump_diverted
      · next he => rw [he] at hi; exact shed hi
    · exact shed h

theorem OutMoves.offer (rt : Route) (n cls : Nat) (h : OutMoves p₀ p) (held : (p.item? n).isSome) :
    OutMoves p₀ (offer rt n cls c p) := by
  unfold Machine.offer
  refine OutMoves.settle ?_
  split
  · have hi := h.insert (c := c) { item := n, cls := cls, mode := rt.mode, diverted := false } held
    split
    · next he => rw [he] at hi; exact hi.modTally fun _ w => w.bump_shed
    · next he => rw [he] at hi; exact hi
  · exact h.divert rt n cls held

theorem OutMoves.admits (rt : Route) (n cls : Nat) (cs : List CircNo) (h : OutMoves p₀ p) (held : p.Filling n) :
    OutMoves p₀ (cs.foldl (fun p c => Machine.offer rt n cls c p) p) := by
  induction cs generalizing p with
  | nil => exact h
  | cons c cs ih =>
    have ha := OutMoves.offer (c := c) rt n cls (.refl (a := p)) held.isSome
    exact ih (h.trans ha) (held.acts ha)

end Sys2Proof.Machine
end

