-- ==== Sys2Proof/Laws/Moves.lean ====
section
/-! SUPPORT. What the framer of one line can do: every operation from a delivery to the end of an item is a sequence of the
named acts of `Move`. -/

namespace Sys2Proof.Machine

/-- One act of the framer of line `l`, or of the circuit side on its account. -/
inductive Move (l : LineNo) : Part → Part → Prop
  | out (m : OutMove p q) : Move l p q
  | fr (f : Framer → Framer) (opening : (f (p.fr l)).opening = (p.fr l).opening)
      (closing : (f (p.fr l)).closing = (p.fr l).closing) (release : (f (p.fr l)).release = (p.fr l).release)
      (item : (f (p.fr l)).item = (p.fr l).item) : Move l p (p.modFr l f)
  | tally (f : LineTally → LineTally) (within : ∀ t, t.Within → (f t).Within)
      (keeps : ∀ t, (f t).received = t.received ∧ (f t).substitutions = t.substitutions ∧ (f t).opens = t.opens) :
      Move l p (p.modLineTally l f)
  | grant (n : Nat) (h : Heading) (lowest : p.lowestFree = some n)
      (room : p.store.agencyItems < Config.agencyItemLimit) : Move l p (grantItem l n h p)
  | endItem (n : Nat) (st : ItemState) (v : Option Verdict) (receiving : (p.fr l).item = some n)
      (ended : st ≠ .filling) : Move l p (endItem l n st v p)
  | commit (n : Nat) : Move l p (p.modItem n fun it => { it with committed := it.body.length })
  | append (n : Nat) (c : Chr) (receiving : (p.fr l).item = some n)
      (granted : (p.item n).chainFull = true → p.blockGranted = true) : Move l p (appendChr l n c p)
  | kill (f : Item → Bool) : Move l p (markKilled f p)
  | verdict (n : Nat) (v : Option Verdict) : Move l p (p.modItem n fun it => { it with verdict := v })
  | history (h : History) (threshold : h.threshold = p.history.threshold) : Move l p (p.setHistory h)
  | buffer (b : OrderBuffer) : Move l p (p.setBuffer b)
  | unrouted : Move l p { p with unrouted := bump p.unrouted }

/-- A sequence of acts of the framer of line `l`. -/
abbrev Moves (l : LineNo) : Part → Part → Prop := Relation.ReflTransGen (Move l)

theorem Moves.keeps {l : LineNo} {I : Part → Prop} (step : ∀ {p q}, Move l p q → I p → I q) {p q : Part}
    (h : Moves l p q) (hp : I p) : I q := by
  induction h with
  | refl => exact hp
  | tail _ m ih => exact step m ih

variable {l : LineNo} {p₀ p : Part} {c : CircNo}

theorem Moves.act {q : Part} (h : Moves l p₀ p) (m : Move l p q) : Moves l p₀ q := h.tail m

/-- What the circuit side does on the framer's account. -/
theorem Moves.outs {q : Part} (h : Moves l p₀ p) (m : OutMoves p q) : Moves l p₀ q := by
  induction m with
  | refl => exact h
  | tail _ m ih => exact ih.tail (.out m)

theorem Moves.eachCirc {f : CircNo → Part → Part} (hf : ∀ c p, OutMoves p (f c p)) (h : Moves l p₀ p) :
    Moves l p₀ (p.eachCirc f) :=
  h.outs (OutMoves.eachCirc (fun c p hp => hp.trans (hf c p)) .refl)

theorem Moves.settle (h : Moves l p₀ p) : Moves l p₀ (settle p) := h.outs (OutMoves.settle .refl)

theorem Moves.raiseNow (f : Flag) (m : Fin 8) (h : Moves l p₀ p) : Moves l p₀ (raiseNow f m p) :=
  h.outs (OutMoves.raiseNow f m .refl)

theorem Moves.makeAnswer (serial : Nat) (lines : List Text) (h : Moves l p₀ p) :
    Moves l p₀ (makeAnswer serial lines p) := h.outs (OutMoves.makeAnswer serial lines .refl)

theorem Moves.free (n : Nat) (h : Moves l p₀ p) : Moves l p₀ (examineFree n p) := h.act (.out (.free n))

theorem Moves.commit (n : Nat) (old : Item) (h : Moves l p₀ p) : Moves l p₀ (commit n old p) := by
  unfold Machine.commit
  exact Moves.eachCirc (fun c p => OutMoves.commitOn n old .refl)
    ((h.act (.commit n)).outs (OutMoves.reestimateItem n .refl))

/-! ### Kills, rewrites and the verdict (R158–R169) -/

theorem OutMoves.killQueued (e : Entry) (h : OutMoves p₀ p) : OutMoves p₀ (killQueued c e p) := by
  unfold Machine.killQueued
  simp only
  split
  · exact (h.removeQueued _).owe _
  · exact h.removeQueued _

theorem OutMoves.killCurrent (e : Entry) (h : OutMoves p₀ p) : OutMoves p₀ (killCurrent c e p) := by
  unfold Machine.killCurrent
  split
  · exact h.beginNotice (.inl (by decide))
  · exact (OutMoves.owe _ (h.act (.removeCurrent c))).modTx rfl (.inl rfl)
  all_goals exact h

theorem OutMoves.killCurrentOf (ns : List Nat) (h : OutMoves p₀ p) : OutMoves p₀ (killCurrentOf ns c p) := by
  unfold Machine.killCurrentOf
  split
  · split
    · exact h.killCurrent _
    · exact h
  · exact h

theorem OutMoves.killOn (ns : List Nat) (h : OutMoves p₀ p) : OutMoves p₀ (killOn ns c p) := by
  unfold Machine.killOn
  have h1 := h.foldl (f := fun p e => Machine.killQueued c e p) (fun p e hp => hp.killQueued e)
    ((p.q c).entries.filter fun e => ns.contains e.item)
  have h2 := h1.killCurrentOf (c := c) ns
  simp only
  split
  · exact h2.selectionPoint
  · exact h2

theorem Moves.killPurge (n : Nat) (h : Moves l p₀ p) : Moves l p₀ (killPurge n p) := by
  unfold Machine.killPurge
  have h1 := Moves.eachCirc (f := Machine.killOn ((p.items.filter (killMatches (p.item n))).map (·.num)))
    (fun c p => OutMoves.killOn _ .refl) (h.act (.kill (killMatches (p.item n))))
  simp only
  generalize (Machine.markKilled _ _).eachCirc _ = q at *
  exact h1.act (.history _ rfl)

theorem rewritePurge_moves (n : Nat) (p : Part) : OutMoves p (rewritePurge n p) := by
  unfold rewritePurge
  exact OutMoves.eachCirc (fun c p hp => hp.foldl (fun p e hp => hp.removeQueued _) _) .refl

theorem Moves.purgeFor (kind : Kind) (n : Nat) (h : Moves l p₀ p) : Moves l p₀ (purgeFor kind n p) := by
  unfold Machine.purgeFor
  split
  · exact (h.killPurge n).settle
  · exact (h.outs (rewritePurge_moves n p)).settle
  all_goals exact h

theorem Moves.verdict (n : Nat) (h : Moves l p₀ p) : Moves l p₀ (verdict n p) := by
  unfold Machine.verdict
  simp only
  split
  · exact h
  · split
    · exact h
    · split
      · exact h.act (.verdict n _)
      · next k _ _ _ =>
        have ht : (compareWith k (p.item n) p.history).2.threshold = p.history.threshold := by
          unfold compareWith; split <;> rfl
        have h2 := (h.act (.history _ ht)).act (.verdict n (some (compareWith k (p.item n) p.history).1))
        split
        · refine Moves.eachCirc (fun c p => ?_) h2
          unfold repeatOn
          split
          · exact .refl
          · split
            · exact OutMoves.removeQueued _ (OutMoves.modTally .refl fun _ w => w.bump_suppressed)
            · exact OutMoves.modTally .refl fun _ w => w.bump_marked
            · exact .refl
        · exact h2

/-! ### FILLING descriptors through a purge -/

theorem Part.Filling.markKilled {k : Nat} (f : Item → Bool) (h : p.Filling k) : (markKilled f p).Filling k := by
  obtain ⟨it, h, hs⟩ := h
  have hg : ((fun it : Item => it.num == k) ∘ fun it => if f it then { it with killed := true } else it)
      = fun it => it.num == k := by
    funext it; simp only [Function.comp]; split <;> rfl
  refine ⟨if f it then { it with killed := true } else it, ?_, ?_⟩
  · simp only [Part.item?, Machine.markKilled, List.find?_map, hg] at h ⊢
    rw [h]; rfl
  · split <;> exact hs

theorem Part.Filling.purgeFor {kind : Kind} {n k : Nat} (h : p.Filling k) : (purgeFor kind n p).Filling k := by
  unfold Machine.purgeFor
  split
  · refine Part.Filling.acts (OutMoves.settle .refl) ?_
    unfold killPurge
    have h1 := Part.Filling.acts (OutMoves.eachCirc (f := killOn ((p.items.filter (killMatches (p.item n))).map (·.num)))
      (fun c p hp => hp.killOn _) .refl) (h.markKilled (killMatches (p.item n)))
    simp only
    generalize (Machine.markKilled _ _).eachCirc _ = q at *
    exact h1.of_items rfl
  · exact Part.Filling.acts (OutMoves.settle .refl) (h.acts (rewritePurge_moves n p))
  all_goals exact h

/-! ### Routing (R81–R84) -/

theorem Moves.routeItem (k : LineNo) (n : Nat) (h : Moves l p₀ p) (held : p.Filling n) :
    Moves l p₀ (routeItem k n p) := by
  unfold Machine.routeItem
  split
  · exact h.act .unrouted
  · next rt _ => exact h.outs (OutMoves.admits rt n (rt.cls.getD (p.item n).cls) rt.circuits .refl held)

/-! ### Framers (chapter 3) -/

theorem Moves.modFr {f : Framer → Framer} (h : Moves l p₀ p) (hf : (f (p.fr l)).opening = (p.fr l).opening ∧
    (f (p.fr l)).closing = (p.fr l).closing ∧ (f (p.fr l)).release = (p.fr l).release ∧
    (f (p.fr l)).item = (p.fr l).item) : Moves l p₀ (p.modFr l f) :=
  h.act (.fr f hf.1 hf.2.1 hf.2.2.1 hf.2.2.2)

theorem Moves.toState (st : FramerState) (h : Moves l p₀ p) : Moves l p₀ (toState l st p) := h.modFr ⟨rfl, rfl, rfl, rfl⟩

theorem Moves.countBetween (h : Moves l p₀ p) : Moves l p₀ (countBetween l p) :=
  h.act (.tally _ (fun _ ⟨a, b, c, d, e, f⟩ => ⟨a, b, c, bump_le d, e, f⟩) fun _ => ⟨rfl, rfl, rfl⟩)

theorem Moves.countAccepted (h : Moves l p₀ p) : Moves l p₀ (countAccepted l p) :=
  h.act (.tally _ (fun _ ⟨a, b, c, d, e, f⟩ => ⟨a, b, c, d, bump_le e, f⟩) fun _ => ⟨rfl, rfl, rfl⟩)

theorem Moves.countRefused (h : Moves l p₀ p) : Moves l p₀ (countRefused l p) :=
  h.act (.tally _ (fun _ ⟨a, b, c, d, e, f⟩ => ⟨a, b, c, d, e, bump_le f⟩) fun _ => ⟨rfl, rfl, rfl⟩)

theorem Moves.headingFault (h : Moves l p₀ p) : Moves l p₀ (headingFault l p) := by
  unfold Machine.headingFault
  exact ((h.toState _).countRefused).raiseNow _ _

theorem Moves.orderHeading (hd : Heading) (h : Moves l p₀ p) : Moves l p₀ (orderHeading l hd p) := by
  unfold Machine.orderHeading
  split
  · exact ((h.toState _).countRefused).raiseNow _ _
  · split
    · exact ((h.act (.buffer _)).toState _).countAccepted
    · exact ((h.toState _).countRefused).makeAnswer _ _

theorem grantItem_filling {n : Nat} {hd : Heading} (lowest : p.lowestFree = some n) : (grantItem l n hd p).Filling n :=
  ⟨_, (Part.item?_eq _ _ rfl).trans
    (Part.item?_addItem_self (agencyItem n l hd p.clock) (Part.lowestFree_spec lowest).1), rfl⟩

theorem Moves.copyHeading (hd : Heading) (h : Moves l p₀ p) : Moves l p₀ (copyHeading l hd p) := by
  unfold Machine.copyHeading
  split
  · exact ((h.toState _).countRefused).raiseNow _ _
  · next n hn =>
    split at hn
    · next room =>
      exact (((((h.act (.grant n hd hn room)).purgeFor _ _).routeItem _ _
        ((grantItem_filling hn).purgeFor)).toState _).countAccepted)
    · cases hn

theorem Moves.endHeading (h : Moves l p₀ p) : Moves l p₀ (endHeading l p) := by
  unfold Machine.endHeading
  split
  · exact h.headingFault
  · split
    · exact h.orderHeading _
    · exact h.copyHeading _

theorem Moves.headingChr (c : Chr) (h : Moves l p₀ p) : Moves l p₀ (headingChr l c p) := by
  unfold Machine.headingChr
  simp only
  split
  · exact h
  · split
    · exact h.endHeading
    · split
      · exact h.modFr ⟨rfl, rfl, rfl, rfl⟩
      · exact h.headingFault.countBetween

theorem Moves.breakItem (h : Moves l p₀ p) : Moves l p₀ (breakItem l p) := by
  unfold Machine.breakItem
  split
  · exact h
  · next n hn => exact (((h.act (.endItem n _ _ hn (by decide))).commit _ _).free _).settle

theorem Moves.closeItem (h : Moves l p₀ p) : Moves l p₀ (closeItem l p) := by
  unfold Machine.closeItem
  split
  · exact h
  · next n hn => exact ((((h.act (.endItem n _ _ hn (by decide))).verdict _).commit _ _).free _).settle

theorem Moves.bodyChr (c : Chr) (h : Moves l p₀ p) : Moves l p₀ (bodyChr l c p) := by
  unfold Machine.bodyChr
  split
  · exact h
  · next n hn =>
    split
    · exact ((h.breakItem.toState _).raiseNow _ _).countBetween
    · next hg =>
      have h1 := h.act (.append n c hn (by simpa using hg))
      simp only
      split
      · exact (h1.commit _ _).settle
      · exact h1

theorem Moves.abandonOrder (word : String) (h : Moves l p₀ p) : Moves l p₀ (abandonOrder l word p) := by
  unfold Machine.abandonOrder
  split
  · split
    · exact (h.act (.buffer _)).makeAnswer _ _
    · exact h
  · exact h

theorem Moves.orderChr (c : Chr) (h : Moves l p₀ p) : Moves l p₀ (orderChr l c p) := by
  unfold Machine.orderChr
  split
  · split
    · split
      · exact h
      · exact h.act (.buffer _)
    · split
      · exact ((h.abandonOrder _).toState _).countBetween
      · exact h.act (.buffer _)
  · exact h

theorem Moves.closeOrder (h : Moves l p₀ p) : Moves l p₀ (closeOrder l p) := by
  unfold Machine.closeOrder
  split
  · simp only
    split
    · split
      · exact (h.makeAnswer _ _).act (.buffer _)
      · exact h.act (.buffer _)
    · exact ((h.raiseNow _ _).makeAnswer _ _).act (.buffer _)
  · exact h

theorem Moves.releaseChr (c : Chr) (h : Moves l p₀ p) : Moves l p₀ (releaseChr l c p) := by
  unfold Machine.releaseChr
  split
  · exact h.countBetween
  · exact h.countBetween
  · exact h.headingChr c
  · exact h.bodyChr c
  · exact h.orderChr c

theorem Moves.matchOpening (h : Moves l p₀ p) : Moves l p₀ (matchOpening l p) := by
  unfold Machine.matchOpening
  split
  · exact h.toState _
  · exact h.toState _
  · exact ((h.toState _).countRefused).raiseNow _ _
  · exact ((h.breakItem).raiseNow _ _).toState _
  · exact (h.abandonOrder _).toState _

theorem Moves.matchClosing (h : Moves l p₀ p) : Moves l p₀ (matchClosing l p) := by
  unfold Machine.matchClosing
  split
  · exact h
  · exact ((h.toState _).countRefused).raiseNow _ _
  · exact h.closeItem.toState _
  · exact (h.toState _).closeOrder
  · exact h.toState _

theorem Moves.examine (t : Text) (h : Moves l p₀ p) : Moves l p₀ (examine l t p) := by
  induction t generalizing p with
  | nil => exact h
  | cons c cs ih =>
    unfold Machine.examine
    simp only
    split
    · exact h.matchOpening
    · split
      · exact h.matchClosing
      · split
        · exact h.modFr ⟨rfl, rfl, rfl, rfl⟩
        · exact ih (h.releaseChr c)

theorem Moves.deliver (c : Chr) (h : Moves l p₀ p) : Moves l p₀ (deliver l c p) :=
  Moves.examine _ (h.modFr ⟨rfl, rfl, rfl, rfl⟩)

theorem Moves.releaseHeld (h : Moves l p₀ p) : Moves l p₀ (releaseHeld l p) := by
  unfold Machine.releaseHeld
  have h1 : Moves l p₀ (p.modFr l fun fr => { fr with held := [] }) := h.modFr ⟨rfl, rfl, rfl, rfl⟩
  generalize (p.fr l).held = xs
  generalize p.modFr l _ = q at h1
  induction xs generalizing q with
  | nil => exact h1
  | cons x xs ih => exact ih _ (h1.releaseChr x)

theorem Moves.interrupt (h : Moves l p₀ p) : Moves l p₀ (interrupt l p) := by
  unfold Machine.interrupt
  simp only
  split
  · exact h.releaseHeld
  · exact h.releaseHeld.toState _
  · exact h.releaseHeld.toState _
  · exact (h.releaseHeld.breakItem).toState _
  · exact (h.releaseHeld.abandonOrder _).toState _

end Sys2Proof.Machine
end

