-- ==== Sys2Proof/Laws/Acts.lean ====
section
/-! SUPPORT. What one step can do to the part: every command is a sequence of the named acts of `Act`.  An invariant of those
acts is an invariant of every step. -/

namespace Sys2Proof.Machine

/-! ### The acts -/

/-- One act of a step. -/
inductive Act : Part → Part → Prop
  | move (l : LineNo) (m : Move l p q) : Act p q
  | rx (l : LineNo) (f : Receiver → Receiver) : Act p (p.modRx l f)
  | tally (l : LineNo) (f : LineTally → LineTally) (within : ∀ t, t.Within → (f t).Within) : Act p (p.modLineTally l f)
  | framer (l : LineNo) (f : Framer → Framer) (item : (f (p.fr l)).item = (p.fr l).item) : Act p (p.modFr l f)
  | clock : Act p { p with clock := if p.clock < Config.clockMax then p.clock + 1 else p.clock }
  | sender (c : CircNo) (f : Sender → Sender) (job : (f (p.tx c)).job.isBreak = true → (p.tx c).job.isBreak = true) :
      Act p (p.modTx c f)
  | reestimate (c : CircNo) : Act p (reestimateCirc c p)
  | queue (c : CircNo) (f : Queue → Queue) (entries : (f (p.q c)).entries = (p.q c).entries)
      (current : (f (p.q c)).current = (p.q c).current) (turn : (f (p.q c)).turn = (p.q c).turn)
      (turnLines : (f (p.q c)).turnLines = (p.q c).turnLines) : Act p (p.modQ c f)
  | thresholds (c : CircNo) (k : CircKeys) (relation : (thresholdsAfter k (p.load c)).hyst <
      (thresholdsAfter k (p.load c)).loadOn ∧ (thresholdsAfter k (p.load c)).loadOn ≤
      (thresholdsAfter k (p.load c)).congOn) : Act p (evaluate c (p.modLoad c (thresholdsAfter k)))
  | banks (b : Banks) (room : p.banks.active.length ≤ Config.bankSize ∧ p.banks.pending.length ≤ Config.bankSize →
      b.active.length ≤ Config.bankSize ∧ b.pending.length ≤ Config.bankSize) : Act p { p with banks := b }
  | orders (o : OrderUnit) : Act p { p with orders := o }
  | threshold (t : Nat) (range : t ≤ 48) : Act p (p.setHistory { p.history with threshold := t })
  | zero : Act p (zeroTallies p)
  | clear (f : Flag) : Act p (clearFlag f p)
  | mask (f : Flag) (g : FlagState → FlagState)
      (same : ∀ x, (g x).raised = x.raised ∧ (g x).members = x.members) : Act p (p.modFlag f g)
  | warm : Act p (warmPart p)
  | cold (straps : Straps) : Act p (powerUp straps p)
  | low : Act p (resetLow p)

/-- A sequence of acts. -/
abbrev Acts : Part → Part → Prop := Relation.ReflTransGen Act

variable {p₀ p q : Part}

/-! ### Orders that have passed their checks -/

theorem Checked.bind_ok {α β : Type} {x : Checked α} {f : α → Checked β} {b : β} :
    x.bind f = .ok b ↔ ∃ a, x = .ok a ∧ f a = .ok b := by cases x <;> simp [Checked.bind]

theorem Checked.map_ok {α β : Type} {x : Checked α} {f : α → β} {b : β} :
    x.map f = .ok b ↔ ∃ a, x = .ok a ∧ f a = b := by simp [Checked.map, Checked.bind_ok]

/-- A CIRC order with a threshold key keeps the relation of the thresholds (R150, R178), and a REPEAT order carries a
threshold within its range (R165); nothing is asked of any other. -/
def Order.Sound (p : Part) (o : Order) : Prop :=
  (∀ c k, o = .circ c k → (k.loadOn.isSome || k.congOn.isSome || k.hyst.isSome) = true →
    (thresholdsAfter k (p.load c)).hyst < (thresholdsAfter k (p.load c)).loadOn ∧
      (thresholdsAfter k (p.load c)).loadOn ≤ (thresholdsAfter k (p.load c)).congOn) ∧
  ∀ t, o = .repeatSet t → t ≤ 48

theorem checkThresholds_sound {c : CircNo} {k : CircKeys} {o : Order} (h : checkThresholds p c k = .ok o) :
    o.Sound p := by
  unfold checkThresholds at h
  simp only at h
  split at h
  · cases h
  · next hn =>
    cases h
    refine ⟨?_, by simp⟩
    rintro c' k' ⟨⟩ hk
    simpa [hk] using hn

theorem noMore_ok {ts : List Text} {o o' : Order} (h : noMore ts o = .ok o') : o' = o := by
  unfold noMore at h; split at h <;> cases h; rfl

theorem Order.sound_of_ne {o : Order} (h : ∀ c k t, o ≠ .circ c k ∧ o ≠ .repeatSet t) : o.Sound p :=
  ⟨fun c k e => absurd e (h c k 0).1, fun t e => absurd e (h 0 {} t).2⟩

theorem checkRange_ok {lo hi n m : Nat} (h : checkRange lo hi n = .ok m) : m ≤ hi := by
  unfold checkRange at h; split at h
  · next hr => cases h; exact hr.2
  · cases h

/-- A REPEAT order whose number is in its range is sound (R165). -/
theorem Order.sound_repeatSet {t : Nat} (h : t ≤ 48) : (Order.repeatSet t).Sound p :=
  ⟨by simp, by rintro t' ⟨⟩; exact h⟩

theorem readOne_sound {ts : List Text} {f : CircNo → Order} {o : Order} (hf : ∀ x c k t, f x ≠ .circ c k ∧ f x ≠ .repeatSet t)
    (h : readOne ts f = .ok o) : o.Sound p := by
  unfold readOne at h; split at h
  · obtain ⟨c, -, h⟩ := Checked.bind_ok.mp h
    cases noMore_ok h; exact Order.sound_of_ne (hf c)
  · cases h

theorem ite_ok {c : Prop} [Decidable c] {a b : Checked Order} {o : Order} {P : Prop}
    (h : (if c then a else b) = .ok o) (ha : a = .ok o → P) (hb : b = .ok o → P) : P := by
  split at h
  · exact ha h
  · exact hb h

theorem readLine_sound {ts : List Text} {o : Order} (h : readLine p ts = .ok o) : o.Sound p := by
  unfold readLine at h; split at h
  · obtain ⟨l, -, h⟩ := Checked.bind_ok.mp h
    refine ite_ok h (fun h => by cases h) fun h => ?_
    obtain ⟨k, -, rfl⟩ := Checked.map_ok.mp h
    exact Order.sound_of_ne (by simp)
  · cases h

theorem readCirc_sound {ts : List Text} {o : Order} (h : readCirc p ts = .ok o) : o.Sound p := by
  unfold readCirc at h; split at h
  · obtain ⟨c, -, h⟩ := Checked.bind_ok.mp h
    refine ite_ok h (fun h => by cases h) fun h => ?_
    obtain ⟨k, -, h⟩ := Checked.bind_ok.mp h
    exact checkThresholds_sound h
  · cases h

theorem readRoute_sound {ts : List Text} {o : Order} (h : readRoute ts = .ok o) : o.Sound p := by
  unfold readRoute at h
  split at h
  · obtain ⟨_, -, h⟩ := Checked.bind_ok.mp h
    split at h
    · obtain ⟨_, -, h⟩ := Checked.bind_ok.mp h
      split at h
      · obtain ⟨_, -, h⟩ := Checked.bind_ok.mp h
        obtain ⟨k, -, rfl⟩ := Checked.map_ok.mp h
        exact Order.sound_of_ne (by simp)
      · cases h
    · cases h
  · cases h

theorem readUnroute_sound {ts : List Text} {o : Order} (h : readUnroute ts = .ok o) : o.Sound p := by
  unfold readUnroute at h
  split at h
  · obtain ⟨_, -, h⟩ := Checked.bind_ok.mp h
    split at h
    · obtain ⟨_, -, h⟩ := Checked.bind_ok.mp h
      cases noMore_ok h; exact Order.sound_of_ne (by simp)
    · cases h
  · cases h

theorem readPurge_sound {ts : List Text} {o : Order} (h : readPurge ts = .ok o) : o.Sound p := by
  unfold readPurge at h
  split at h
  · obtain ⟨_, -, h⟩ := Checked.bind_ok.mp h
    split at h
    · cases h; exact Order.sound_of_ne (by simp)
    · obtain ⟨_, -, h⟩ := Checked.bind_ok.mp h
      cases noMore_ok h; exact Order.sound_of_ne (by simp)
  · cases h

theorem readShow_sound {ts : List Text} {o : Order} (h : readShow ts = .ok o) : o.Sound p := by
  unfold readShow at h
  split at h
  · exact ite_ok h (readOne_sound (by simp)) (readOne_sound (by simp))
  · cases h

theorem readTally_sound {ts : List Text} {o : Order} (h : readTally ts = .ok o) : o.Sound p := by
  unfold readTally at h
  split at h
  · cases h; exact Order.sound_of_ne (by simp)
  · refine ite_ok h (fun h => ?_) fun h => by cases h
    cases noMore_ok h; exact Order.sound_of_ne (by simp)

theorem readAlarm_sound {ts : List Text} {o : Order} (h : readAlarm ts = .ok o) : o.Sound p := by
  unfold readAlarm at h
  split at h
  · cases h; exact Order.sound_of_ne (by simp)
  · refine ite_ok h (fun h => ?_) fun h => ite_ok h (fun h => ?_) fun h => ite_ok h (fun h => ?_) fun h => by cases h
    · obtain ⟨_, -, rfl⟩ := Checked.map_ok.mp h; exact Order.sound_of_ne (by simp)
    · obtain ⟨_, -, h⟩ := Checked.bind_ok.mp h
      obtain ⟨_, -, rfl⟩ := Checked.map_ok.mp h; exact Order.sound_of_ne (by simp)
    · obtain ⟨_, -, h⟩ := Checked.bind_ok.mp h
      obtain ⟨_, -, rfl⟩ := Checked.map_ok.mp h; exact Order.sound_of_ne (by simp)

theorem readRepeatOrder_sound {ts : List Text} {o : Order} (h : readRepeatOrder ts = .ok o) : o.Sound p := by
  unfold readRepeatOrder at h
  split at h
  · cases h; exact Order.sound_of_ne (by simp)
  · obtain ⟨n, hn, h⟩ := Checked.bind_ok.mp h
    obtain ⟨_, -, hn⟩ := Checked.bind_ok.mp hn
    cases noMore_ok h; exact Order.sound_repeatSet (checkRange_ok hn)

theorem readUnit_sound {ts : List Text} {o : Order} (h : readUnit ts = .ok o) : o.Sound p := by
  unfold readUnit at h
  split at h
  · obtain ⟨_, -, h⟩ := Checked.bind_ok.mp h
    cases noMore_ok h; exact Order.sound_of_ne (by simp)
  · cases h

theorem readRestart_sound {ts : List Text} {o : Order} (h : readRestart ts = .ok o) : o.Sound p := by
  unfold readRestart at h
  split at h
  · refine ite_ok h (fun h => ?_) fun h => ite_ok h (fun h => ?_) fun h => by cases h
    · cases noMore_ok h; exact Order.sound_of_ne (by simp)
    · cases noMore_ok h; exact Order.sound_of_ne (by simp)
  · cases h

/-- What passes the checks of an order line is a sound order. -/
theorem readOrder_sound {t : Text} {o : Order} (h : readOrder t p = .ok o) : o.Sound p := by
  have plain : ∀ {ts o'}, (∀ c k t, o' ≠ .circ c k ∧ o' ≠ .repeatSet t) → noMore ts o' = .ok o → o.Sound p := fun hne h => by
    cases noMore_ok h; exact Order.sound_of_ne hne
  unfold readOrder at h
  split at h
  · cases h
  · exact ite_ok h readLine_sound fun h => ite_ok h readCirc_sound fun h => ite_ok h readRoute_sound fun h =>
      ite_ok h readUnroute_sound fun h => ite_ok h (plain (by simp)) fun h => ite_ok h (plain (by simp)) fun h =>
      ite_ok h (readOne_sound (by simp)) fun h => ite_ok h (readOne_sound (by simp)) fun h =>
      ite_ok h readPurge_sound fun h => ite_ok h readShow_sound fun h => ite_ok h readTally_sound fun h =>
      ite_ok h readAlarm_sound fun h => ite_ok h readRepeatOrder_sound fun h =>
      ite_ok h (readOne_sound (by simp)) fun h => ite_ok h readUnit_sound fun h =>
      ite_ok h readRestart_sound fun h => by cases h

/-! ### Sequences of acts -/

/-- What every act keeps, every sequence of acts keeps. -/
theorem Acts.keeps {I : Part → Prop} (step : ∀ {p q : Part}, Act p q → I p → I q) (h : Acts p q) (hp : I p) : I q := by
  induction h with
  | refl => exact hp
  | tail _ m ih => exact step m ih

theorem Acts.act (h : Acts p₀ p) (m : Act p q) : Acts p₀ q := h.tail m

theorem Acts.moves {l : LineNo} (h : Acts p₀ p) (m : Moves l p q) : Acts p₀ q := by
  induction m with
  | refl => exact h
  | tail _ m ih => exact ih.tail (.move l m)

theorem Acts.outs (h : Acts p₀ p) (m : OutMoves p q) : Acts p₀ q := h.moves (l := 0) (Moves.outs .refl m)

theorem Acts.foldl {α : Type} {f : Part → α → Part} (hf : ∀ p a, Acts p₀ p → Acts p₀ (f p a)) (xs : List α)
    (h : Acts p₀ p) : Acts p₀ (xs.foldl f p) := by
  induction xs generalizing p with
  | nil => exact h
  | cons x xs ih => exact ih (hf p x h)

theorem Acts.settle (h : Acts p₀ p) : Acts p₀ (settle p) := h.outs (OutMoves.settle .refl)

theorem Acts.makeAnswer (serial : Nat) (lines : List Text) (h : Acts p₀ p) : Acts p₀ (makeAnswer serial lines p) :=
  h.outs (OutMoves.makeAnswer serial lines .refl)

/-! ### Receivers (chapter 2) -/

variable {l : LineNo} {c : CircNo}

theorem Acts.raiseNow (f : Flag) (m : Fin 8) (h : Acts p₀ p) : Acts p₀ (raiseNow f m p) :=
  h.outs (OutMoves.raiseNow f m .refl)

theorem Acts.modLineTally {f : LineTally → LineTally} (h : Acts p₀ p) (hf : ∀ t, t.Within → (f t).Within) :
    Acts p₀ (p.modLineTally l f) := h.act (.tally l f hf)

theorem Acts.interrupt (h : Acts p₀ p) : Acts p₀ (interrupt l p) := h.moves (Moves.interrupt .refl)
theorem Acts.deliver (x : Chr) (h : Acts p₀ p) : Acts p₀ (deliver l x p) := h.moves (Moves.deliver x .refl)
theorem Acts.releaseHeld (h : Acts p₀ p) : Acts p₀ (releaseHeld l p) := h.moves (Moves.releaseHeld .refl)

theorem Acts.enterOpen (h : Acts p₀ p) : Acts p₀ (enterOpen l p) := by
  unfold Machine.enterOpen
  refine Acts.interrupt (Acts.raiseNow _ _ (Acts.modLineTally (h.act (.rx l _)) ?_))
  exact fun _ ⟨a, b, c, d, e, f⟩ => ⟨a, b, bump_le c, d, e, f⟩

theorem Acts.parkLine (h : Acts p₀ p) : Acts p₀ (parkLine l p) := by
  unfold Machine.parkLine; split
  · exact h
  · exact (h.act (.rx l _)).interrupt

theorem Acts.unparkLine (h : Acts p₀ p) : Acts p₀ (unparkLine l p) := by
  unfold Machine.unparkLine; split
  · exact h.act (.rx l _)
  · exact h

theorem Acts.setOpenTime (t : Nat) (h : Acts p₀ p) : Acts p₀ (setOpenTime l t p) := by
  unfold Machine.setOpenTime
  simp only
  split
  · split
    · exact (h.act (.rx l _)).enterOpen
    · exact h.act (.rx l _)
  · exact h.act (.rx l _)

theorem Acts.pinToSpace (h : Acts p₀ p) : Acts p₀ (pinToSpace l p) := by
  unfold Machine.pinToSpace; split
  · exact h
  · split <;> exact h.act (.rx l _)

theorem Acts.pinToMark (h : Acts p₀ p) : Acts p₀ (pinToMark l p) := by
  unfold Machine.pinToMark; split
  · exact h
  · split
    · exact h.act (.rx l _)
    · split <;> exact h.act (.rx l _)

theorem Acts.checkNoise (h : Acts p₀ p) : Acts p₀ (checkNoise l p) := by
  unfold Machine.checkNoise; split
  · exact h.act (.rx l _)
  · exact h

theorem Acts.receiveChr (x : Chr) (h : Acts p₀ p) : Acts p₀ (receiveChr l x p) := by
  unfold Machine.receiveChr
  split
  · exact ((h.act (.rx l _)).deliver _).deliver _
  · exact h.deliver _

theorem Acts.receiveResult (r : RxResult) (h : Acts p₀ p) : Acts p₀ (receiveResult l r p) := by
  unfold Machine.receiveResult; split
  · exact h.act (.rx l _)
  · exact (h.act (.rx l _)).deliver _
  · exact h.act (.rx l _)
  · exact h.act (.rx l _)
  · exact h
  · refine Acts.receiveChr _ ?_
    split
    · exact h.act (.tally l _ fun _ ⟨a, b, c, d, e, f⟩ => ⟨a, bump_le b, c, d, e, f⟩)
    · exact h

theorem Acts.frameReceived (data : Nat) (parity stop : Level) (h : Acts p₀ p) :
    Acts p₀ (frameReceived l data parity stop p) := by
  unfold Machine.frameReceived; split
  · exact h
  · have h1 := (h.act (.rx l fun rx => { rx with
        pin := stop, phase := huntPhase stop
        spaceTimer := if stop = .mark then none else some (rx.spaceTimer.getD 0) })).modLineTally
      (l := l) (f := fun t => { t with received := bump t.received }) fun _ ⟨a, b, c, d, e, f⟩ => ⟨bump_le a, b, c, d, e, f⟩
    simp only
    split
    · exact h1.receiveResult _
    · exact (h1.act (.rx l _)).receiveResult _

theorem Acts.spaceTimerExpiry (h : Acts p₀ p) : Acts p₀ (spaceTimerExpiry l p) := by
  unfold Machine.spaceTimerExpiry; split
  · exact h.enterOpen
  · exact h

theorem Acts.clockTick (h : Acts p₀ p) : Acts p₀ (clockTick p) := by
  unfold Machine.clockTick; split
  · exact h
  · exact Acts.foldl (fun p l h => h.act (.rx l _)) _ (h.act .clock)

/-! ### The thresholds of a circuit -/

/-- The thresholds of every circuit stand as they stood. -/
def SameLimits (p q : Part) : Prop :=
  ∀ c, (q.load c).loadOn = (p.load c).loadOn ∧ (q.load c).congOn = (p.load c).congOn ∧
    (q.load c).hyst = (p.load c).hyst

theorem SameLimits.refl (p : Part) : SameLimits p p := fun _ => ⟨rfl, rfl, rfl⟩

theorem SameLimits.trans {r : Part} (h : SameLimits p q) (k : SameLimits q r) : SameLimits p r := fun c =>
  ⟨(k c).1.trans (h c).1, (k c).2.1.trans (h c).2.1, (k c).2.2.trans (h c).2.2⟩

theorem SameLimits.of_load (h : ∀ c, q.load c = p.load c) : SameLimits p q := fun c => by simp [h c]

theorem SameLimits.modQ (f : Queue → Queue) (h : SameLimits p q) : SameLimits p (q.modQ c f) :=
  h.trans (.of_load fun _ => by simp)

theorem SameLimits.modTx (f : Sender → Sender) (h : SameLimits p q) : SameLimits p (q.modTx c f) :=
  h.trans (.of_load fun _ => by simp)

theorem SameLimits.modItem {n : Nat} (f : Item → Item) (h : SameLimits p q) : SameLimits p (q.modItem n f) :=
  h.trans (.of_load fun _ => rfl)

theorem SameLimits.raise (f : Flag) (m : Fin 8) (h : SameLimits p q) : SameLimits p (raise f m q) :=
  h.trans (.of_load fun _ => rfl)

theorem SameLimits.modTally (f : CircTally → CircTally) (h : SameLimits p q) : SameLimits p (q.modTally c f) :=
  h.trans (.of_load fun _ => by simp)

theorem SameLimits.recompute (h : SameLimits p q) : SameLimits p (recompute c q) := h.trans fun c' => by
  by_cases n : c' = c
  · subst n; obtain ⟨st, h, -⟩ := load_recompute c' q; simp [h]
  · simp [load_recompute_ne c c' q n]

theorem SameLimits.examineFree (n : Nat) (h : SameLimits p q) : SameLimits p (examineFree n q) := by
  unfold Machine.examineFree; split
  · exact h
  · split
    · exact h.trans (.of_load fun _ => rfl)
    · exact h

theorem SameLimits.released (n : Nat) (h : SameLimits p q) : SameLimits p (released c n q) := by
  unfold Machine.released
  exact (SameLimits.recompute (h.modItem _)).examineFree n

theorem SameLimits.removeQueued (n : Nat) (h : SameLimits p q) : SameLimits p (removeQueued c n q) := by
  unfold Machine.removeQueued; split
  · exact SameLimits.released n (h.modQ _)
  · exact h

theorem SameLimits.putEntry (r : Request) (h : SameLimits p q) : SameLimits p (putEntry c r q) := by
  unfold Machine.putEntry
  exact SameLimits.recompute (SameLimits.modItem _ (h.modQ _))

/-- No act of the circuit side changes a threshold (R150). -/
theorem OutMove.sameLimits (m : OutMove p q) : SameLimits p q := by
  cases m with
  | raise | alarm | addUnit => exact .of_load fun _ => rfl
  | queue | interrupt | take | giveBack => exact (SameLimits.refl p).modQ _
  | tx => exact (SameLimits.refl p).modTx _
  | tally => exact (SameLimits.refl p).modTally _
  | removeQueued => exact (SameLimits.refl p).removeQueued _
  | removeCurrent =>
    unfold Machine.removeCurrent; split
    · exact SameLimits.released _ ((SameLimits.refl p).modQ _)
    · exact .refl p
  | put => exact (SameLimits.refl p).putEntry _
  | replace =>
    refine SameLimits.putEntry _ ?_
    unfold displaceEntry
    exact SameLimits.raise _ _ (SameLimits.modTally _ ((SameLimits.refl p).removeQueued _))
  | reestimate => exact ((SameLimits.refl p).modQ _).recompute
  | spend => exact ((SameLimits.refl p).modQ _).recompute
  | free => exact (SameLimits.refl p).examineFree _

theorem OutMoves.sameLimits (m : OutMoves p q) : SameLimits p q := by
  induction m with
  | refl => exact .refl p
  | tail _ m ih => exact ih.trans m.sameLimits

/-! ### Orders (chapter 10) -/

theorem Acts.actLine (k : LineKeys) (h : Acts p₀ p) : Acts p₀ (actLine l k p) := by
  unfold Machine.actLine
  have h1 : Acts p₀ (setLineCode l k.rate k.code p) := by
    unfold setLineCode; split
    · exact (((h.act (.rx l _)).act (.rx l _))).interrupt
    · exact h
  have h2 : Acts p₀ (setOpen l k.openTime (setLineCode l k.rate k.code p)) := by
    unfold setOpen; split
    · exact h1.setOpenTime _
    · exact h1
  have h3 : Acts p₀ (setSequences l k.opening k.closing (setShiftDesk l k.shift k.desk
      (setOpen l k.openTime (setLineCode l k.rate k.code p)))) := by
    unfold setSequences; split
    · exact ((h2.act (.rx l _)).releaseHeld).act (.framer l _ rfl)
    · exact h2.act (.rx l _)
  simp only
  generalize setSequences l k.opening k.closing _ = p3 at *
  have h4 : Acts p₀ (setRelease l k.release p3) := h3.act (.framer l _ rfl)
  unfold setPark
  split
  · exact h4.parkLine
  · exact h4.unparkLine
  · exact h4

theorem OutMoves.holdCirc (h : OutMoves p₀ p) : OutMoves p₀ (holdCirc c p) := by
  unfold Machine.holdCirc
  split
  · exact h
  · exact h.enterHeld _
  · exact h.enterHeld _
  all_goals exact h.modTx rfl (.inl rfl)

theorem OutMoves.freeCirc (h : OutMoves p₀ p) : OutMoves p₀ (freeCirc c p) := by
  unfold Machine.freeCirc
  split
  · unfold resumeHeld
    split
    · exact (h.modTx rfl (.inl rfl)).selectionPoint
    · exact h.selectionPoint
    · split
      · exact h.startBody
      · exact h.checkBreak fun _ hp => hp.startBody
    · exact ((h.modTx (f := fun tx => { tx with state := .waiting }) rfl (.inl rfl)).modQ
        ⟨rfl, rfl, rfl, rfl, rfl, id⟩).checkBreak fun _ hp => hp.examineWaiting
  · exact h.modTx rfl (.inl rfl)

theorem purgeCircs_outs (cs : List CircNo) (slug : Option Text) (n : Nat) (h : OutMoves p₀ p) :
    OutMoves p₀ (cs.foldl (fun (n, p) c =>
      let es := p.purgeable c slug
      (n + es.length, es.foldl (fun p e => Machine.removeQueued c e.item p) p)) (n, p)).2 := by
  induction cs generalizing p n with
  | nil => exact h
  | cons c cs ih => exact ih _ (h.foldl (fun p e hp => hp.removeQueued _) _)

theorem Acts.actCirc {k : CircKeys} (h : Acts p₀ p) (sound : (Order.circ c k).Sound p) : Acts p₀ (actCirc c k p) := by
  unfold Machine.actCirc
  have h1 : Acts p₀ (setSender c k p) ∧ SameLimits p (setSender c k p) := by
    unfold setSender
    refine ⟨h.act (.sender c _ ?_), .of_load fun _ => by simp⟩
    simp only
    split <;> simp [bringCode]
  generalize setSender c k p = p1 at *
  have h2 : Acts p₀ (reestimateFor c k p1) ∧ SameLimits p (reestimateFor c k p1) := by
    unfold reestimateFor; split
    · exact ⟨h1.1.act (.reestimate c), SameLimits.recompute (h1.2.modQ _)⟩
    · exact h1
  simp only
  generalize reestimateFor c k p1 = p2 at *
  have h3 : Acts p₀ (setQueue c k p2) ∧ SameLimits p (setQueue c k p2) := by
    unfold setQueue
    exact ⟨h2.1.act (.queue c _ rfl rfl rfl rfl), h2.2.trans (.of_load fun _ => by simp)⟩
  generalize setQueue c k p2 = p3 at *
  have ho : OutMoves p3 ((agedClasses k).foldl (lapseClass c) p3) := OutMoves.foldl
    (fun p cls hp => hp.foldl (fun p e hp => hp.lapseEntry e) _) _ .refl
  have h4 := h3.2.trans ho.sameLimits
  have h5 := h3.1.outs ho
  generalize (agedClasses k).foldl (lapseClass c) p3 = p4 at *
  unfold setThresholds
  split
  · next hk =>
    refine h5.act (.thresholds c k ?_)
    have := sound.1 c k rfl hk
    obtain ⟨a, b, d⟩ := h4 c
    simpa [thresholdsAfter, a, b, d] using this
  · exact h5

theorem Acts.actOrder {o : Order} (h : Acts p₀ p) (sound : o.Sound p) : Acts p₀ (Machine.act o p).part := by
  unfold Machine.act
  split
  · exact h.actLine _
  · exact h.actCirc sound
  · unfold actRoute
    simp only
    split
    · exact h.act (.banks _ fun r => ⟨r.1, by simpa using r.2⟩)
    · split
      · next hl => exact h.act (.banks _ fun r => ⟨r.1, by simpa using hl⟩)
      · exact h
  · unfold actUnroute
    simp only
    split
    · exact h.act (.banks _ fun r => ⟨r.1, le_trans (List.length_filter_le _ _) r.2⟩)
    · exact h
  · exact h.act (.banks _ fun r => ⟨r.1, r.1⟩)
  · exact h.act (.banks _ fun r => ⟨r.2, r.1⟩)
  · exact h.outs (OutMoves.holdCirc .refl)
  · exact h.outs (OutMoves.freeCirc .refl)
  · exact h.outs (purgeCircs_outs _ _ 0 .refl)
  · exact h
  · exact h
  · exact h
  · exact h.act .zero
  · exact h
  · exact Acts.foldl (fun p f hp => hp.act (.clear f)) _ h
  · next fs on => exact Acts.foldl (fun p f hp => hp.act (.mask f (fun x => { x with enabled := on }) fun _ => ⟨rfl, rfl⟩)) fs h
  · next fs on => exact Acts.foldl (fun p f hp => hp.act (.mask f (fun x => { x with notice := on }) fun _ => ⟨rfl, rfl⟩)) fs h
  · exact h
  · exact h.act (.threshold _ (sound.2 _ rfl))
  · exact h.act (.orders _)
  · exact h.act (.orders _)
  · exact h.act .warm
  · exact h.act (.cold _)

theorem Acts.execute {x : Checked Order} (h : Acts p₀ p) (sound : ∀ o, x = .ok o → o.Sound p) :
    Acts p₀ (execute x p).part := by
  unfold Machine.execute; split
  · exact (h.actOrder (sound _ rfl)).settle
  · exact h

theorem Acts.setBuffer (b : OrderBuffer) (h : Acts p₀ p) : Acts p₀ (p.setBuffer b) := h.act (.orders _)

theorem Acts.nextOrder (h : Acts p₀ p) : Acts p₀ (nextOrder p) := by
  unfold Machine.nextOrder
  split
  · next t rest done answers _ =>
    have h1 := h.execute (x := readOrder t p) fun o ho => readOrder_sound ho
    unfold afterOrder
    simp only
    split
    · exact h1.makeAnswer _ _
    · split
      · exact (h1.makeAnswer _ _).setBuffer _
      · exact h1.setBuffer _
  · exact h

theorem Acts.orderCommand {check : Part → Checked Order} (h : Acts p₀ p)
    (sound : ∀ o, check p = .ok o → o.Sound p) : Acts p₀ (orderCommand check p) := by
  have apart : Acts p₀ (orderApart (check p) p) := (h.execute sound).act (.orders _)
  unfold Machine.orderCommand
  split
  · exact h
  · split
    · split
      · exact h.nextOrder
      · exact apart
    · exact apart

/-! ### One step -/

theorem checkLine_sound {n : Nat} {key : LineNo → Checked LineKeys} {o : Order} (h : checkLine n key = .ok o) :
    o.Sound p := by
  obtain ⟨l, -, h⟩ := Checked.bind_ok.mp h
  obtain ⟨k, -, rfl⟩ := Checked.map_ok.mp h
  exact Order.sound_of_ne (by simp)

theorem checkCirc_sound {n : Nat} {keys : Checked CircKeys} {o : Order} (h : checkCirc p n keys = .ok o) :
    o.Sound p := by
  obtain ⟨c, -, h⟩ := Checked.bind_ok.mp h
  obtain ⟨k, -, h⟩ := Checked.bind_ok.mp h
  exact checkThresholds_sound h

theorem map_sound {α : Type} {x : Checked α} {f : α → Order} {o : Order} (hf : ∀ a c k t, f a ≠ .circ c k ∧ f a ≠ .repeatSet t)
    (h : x.map f = .ok o) : o.Sound p := by
  obtain ⟨a, -, rfl⟩ := Checked.map_ok.mp h
  exact Order.sound_of_ne (hf a)

theorem ok_sound {o o' : Order} (ho : ∀ c k t, o ≠ .circ c k ∧ o ≠ .repeatSet t) (h : Checked.ok o = .ok o') : o'.Sound p := by
  cases h; exact Order.sound_of_ne ho

/-- A command leaves the queue of commands as it is, and what it does to the part is a sequence of acts. -/
theorem exec_acts (i : Instr) (s : State) :
    ∃ t, exec i s = .next t ∧ t.pending = s.pending ∧ Acts s.part t.part := by
  have out : ∀ f : Part → Part, Acts s.part (f s.part) →
      ∃ t, s.after f = .next t ∧ t.pending = s.pending ∧ Acts s.part t.part := fun f h => ⟨_, rfl, rfl, h⟩
  have line : ∀ (n : Nat) (key : Part → LineNo → Checked LineKeys), ∃ t, s.after (orderCommand fun p => checkLine n (key p)) = .next t ∧ t.pending = s.pending ∧
      Acts s.part t.part := fun n key => out _ (Acts.orderCommand .refl fun o h => checkLine_sound h)
  have circ : ∀ (n : Nat) (key : Part → Checked CircKeys), ∃ t, s.after (orderCommand fun p => checkCirc p n (key p)) = .next t ∧
      t.pending = s.pending ∧ Acts s.part t.part := fun n key =>
    out _ (Acts.orderCommand .refl fun o h => checkCirc_sound h)
  have quiet : ∀ {α : Type} (x : Part → Checked α) (f : α → Order), (∀ a c k t, f a ≠ .circ c k ∧ f a ≠ .repeatSet t) →
      ∃ t, s.after (orderCommand fun p => (x p).map f) = .next t ∧ t.pending = s.pending ∧ Acts s.part t.part :=
    fun x f hf => out _ (Acts.orderCommand .refl fun o h => map_sound hf h)
  have done : ∀ o : Order, (∀ c k t, o ≠ .circ c k ∧ o ≠ .repeatSet t) →
      ∃ t, s.after (orderCommand fun _ => .ok o) = .next t ∧ t.pending = s.pending ∧ Acts s.part t.part :=
    fun o ho => out _ (Acts.orderCommand .refl fun o' h => ok_sound ho h)
  cases i with
  | powerUp ua dr => exact out _ (Acts.act .refl (.cold _))
  | resetnLow => exact out _ (Acts.act .refl .low)
  | frameReceived l data parity stop => exact out _ (Acts.frameReceived _ _ _ .refl)
  | spaceTimerExpiry l => exact out _ (Acts.spaceTimerExpiry .refl)
  | returnToMark l => exact out _ (Acts.pinToMark .refl)
  | changeBackToMark l => exact out _ (Acts.pinToMark .refl)
  | leadingEdge l => exact out _ (Acts.pinToSpace .refl)
  | noiseCheck l => exact out _ (Acts.checkNoise .refl)
  | partClockTick => exact out _ (Acts.clockTick .refl)
  | frameSent c =>
    refine out _ ?_
    split
    · exact .refl
    · exact Acts.settle (Acts.outs .refl (OutMoves.frameSent .refl))
  | stallTimerExpiry c =>
    refine out _ ?_
    split
    · exact .refl
    · unfold stallTimerExpiry
      split
      · exact .refl
      · split
        · exact Acts.outs .refl (OutMoves.takeBreak _ .refl)
        · exact Acts.outs .refl (OutMoves.raiseNow _ _ (OutMoves.modQ .refl ⟨rfl, rfl, rfl, rfl, rfl, id⟩))
  | lapse c =>
    refine out _ ?_
    split
    · exact .refl
    · unfold lapseFirst
      split
      · exact Acts.settle (Acts.outs .refl (OutMoves.lapseEntry _ .refl))
      · exact .refl
  | lineRate | lineCode | lineOpenTime | lineShift | lineDesk | lineBegin | lineEnd | lineRelease | linePark =>
    exact line _ _
  | circRate | circCode | circWidth | circMargin | circFill | circUnshift | circMode | circPreempt | circQuantum
  | circStall | circAge | circLoadon | circCongon | circHyst => exact circ _ _
  | route line category set cls alt mode =>
    refine out _ (Acts.orderCommand .refl fun o h => ?_)
    iterate 4 obtain ⟨_, -, h⟩ := Checked.bind_ok.mp h
    exact map_sound (by simp) h
  | unroute line category =>
    refine out _ (Acts.orderCommand .refl fun o h => ?_)
    obtain ⟨_, -, h⟩ := Checked.bind_ok.mp h
    exact map_sound (by simp) h
  | purge n slug =>
    refine out _ (Acts.orderCommand .refl fun o h => ?_)
    obtain ⟨_, -, h⟩ := Checked.bind_ok.mp h
    exact map_sound (by simp) h
  | hold | free | showCirc | showLine | alarmClear | alarmMask | alarmNotice | desk | unit =>
    exact quiet _ _ (by simp)
  | repeatSet t =>
    refine out _ (Acts.orderCommand .refl fun o h => ?_)
    obtain ⟨_, hn, rfl⟩ := Checked.map_ok.mp h
    exact Order.sound_repeatSet (checkRange_ok hn)
  | copybank | enact | tally | tallyZero | alarm | repeatShow | restartWarm | restartCold => exact done _ (by simp)
  | unknownVerb t => exact out _ (Acts.orderCommand .refl fun o h => readOrder_sound h)

/-- A step answers a next state, whose part is reached by a sequence of acts. -/
theorem step_acts (s : State) : ∃ t, step s = .next t ∧ Acts s.part t.part := by
  unfold step
  split
  · obtain ⟨t, h, -, ha⟩ := exec_acts (by assumption) { s with pending := by assumption }
    exact ⟨t, h, ha⟩
  · refine ⟨_, rfl, ?_⟩
    unfold State.onPart idle
    simp only
    split
    · exact .refl
    · exact Acts.nextOrder .refl

end Sys2Proof.Machine
end

