-- ==== Sys2Proof/Laws/Orders.lean ====
section
/-! SUPPORT. An order given apart from an order item: what its command answers, by the outcome of its checks; and updates of
one line or one circuit after another. -/

namespace Sys2Proof.Machine

variable {p : Part} {l : LineNo} {c : CircNo}

/-! ### One update after another -/

theorem Part.setLine_setLine (x y : Line) : (p.setLine l x).setLine l y = p.setLine l y := by simp [Part.setLine]

theorem Part.setLine_self (x : Line) (h : x = p.line l) : p.setLine l x = p := by
  subst h; simp [Part.setLine, Part.line, Vector.get_eq_getElem]

theorem Part.setCirc_setCirc (x y : Circ) : (p.setCirc c x).setCirc c y = p.setCirc c y := by simp [Part.setCirc]

theorem Part.modRx_id (f : Receiver → Receiver) (h : f (p.rx l) = p.rx l) : p.modRx l f = p :=
  Part.setLine_self _ (congrArg (fun x => { p.line l with rx := x }) h)

theorem Part.modFr_id (f : Framer → Framer) (h : f (p.fr l) = p.fr l) : p.modFr l f = p :=
  Part.setLine_self _ (congrArg (fun x => { p.line l with fr := x }) h)

theorem Part.modQ_id (f : Queue → Queue) (h : f (p.q c) = p.q c) : p.modQ c f = p :=
  Part.setCirc_self _ (congrArg (fun x => { p.circ c with q := x }) h)

theorem Part.modTx_id (f : Sender → Sender) (h : f (p.tx c) = p.tx c) : p.modTx c f = p :=
  Part.setCirc_self _ (congrArg (fun x => { p.circ c with tx := x }) h)

theorem Part.modRx_modRx (f g : Receiver → Receiver) : (p.modRx l f).modRx l g = p.modRx l fun rx => g (f rx) := by
  simp [Part.modRx, Part.setLine_setLine]

theorem Part.modFr_modFr (f g : Framer → Framer) : (p.modFr l f).modFr l g = p.modFr l fun fr => g (f fr) := by
  simp [Part.modFr, Part.setLine_setLine]

theorem Part.modQ_modQ (f g : Queue → Queue) : (p.modQ c f).modQ c g = p.modQ c fun q => g (f q) := by
  simp [Part.modQ, Part.setCirc_setCirc]

theorem Part.modTx_modTx (f g : Sender → Sender) : (p.modTx c f).modTx c g = p.modTx c fun tx => g (f tx) := by
  simp [Part.modTx, Part.setCirc_setCirc]

/-! ### Orders apart from an item (R175; notes/assumptions/3.md) -/

/-- With no notice owed there is none to make. -/
theorem settle_of_settled (h : p.alarm.owing = []) : settle p = p := by
  unfold settle; rw [h]
  show settleAux 11 p = p
  unfold settleAux; rw [h]

theorem orderCommand_apart {s : State} (h : s.TakesOrder) (check : Part → Checked Order) :
    orderCommand check s.part = orderApart (check s.part) s.part := by
  have ha := h.apart
  unfold orderCommand
  rw [if_neg (by simp [h.running])]
  cases hb : s.part.orders.buffer with
  | executing => simp [hb, OrderBuffer.isExecuting] at ha
  | free | collecting => rfl

/-- An accepted order acts, its notices are made, and it is answered. -/
theorem after_accepted {s : State} (h : s.TakesOrder) {check : Part → Checked Order} {o : Order}
    (hc : check s.part = .ok o) : s.after (orderCommand check) =
      .next (s.answered (settle (act o s.part).part) (answerLines [] (act o s.part))) := by
  unfold State.after State.onPart
  rw [orderCommand_apart h, hc]; rfl

/-- An accepted order that raises no flag acts and is answered. -/
theorem after_quiet {s : State} (h : s.TakesOrder) {check : Part → Checked Order} {o : Order}
    (hc : check s.part = .ok o) (ho : (act o s.part).part.alarm.owing = []) : s.after (orderCommand check) =
      .next (s.answered (act o s.part).part (answerLines [] (act o s.part))) := by
  rw [after_accepted h hc, settle_of_settled ho]

/-- A refused order changes nothing but the answer. -/
theorem after_refused {s : State} (h : s.TakesOrder) {check : Part → Checked Order} {r : Reason}
    (hc : check s.part = .no r) : s.after (orderCommand check) =
      .next (s.answered s.part [sentence [txt "NO", reasonWord r]]) := by
  unfold State.after State.onPart
  rw [orderCommand_apart h, hc]; rfl

theorem decAux_ne_nil (fuel n : Nat) (acc : Text) (h : fuel ≠ 0 ∨ acc ≠ []) : decAux fuel n acc ≠ [] := by
  induction fuel generalizing n acc with
  | zero => simpa [decAux] using h
  | succ fuel ih =>
    unfold decAux; split
    · simp
    · exact ih _ _ (.inr (by simp))

theorem dec_ne_nil (n : Nat) : dec n ≠ [] := decAux_ne_nil _ _ _ (.inl (by simp))

/-- The answer line of an accepted order with words after OK (R176). -/
theorem answerLine_words (number : List Text) {ws : Text} (h : ws ≠ []) :
    answerLine number (.ok ws) = sentence (number ++ [txt "OK", ws]) := by
  cases ws with
  | nil => exact absurd rfl h
  | cons => rfl

theorem checkEight_val (n : Fin 8) : checkEight n.val = .ok n := by simp [checkEight]

end Sys2Proof.Machine
end

