-- ==== Sys2Proof/Tests/Slice0.lean ====
section
/-! SUPPORT. The model's own tests: ill-formed commands, the worked examples and tables of the manual, one step of each command,
and, for every statement with hypotheses, a concrete state and operands that meet them. -/

namespace Sys2Proof.Tests

open Sys2Proof Sys2Proof.Machine

set_option Elab.async false

/-! ### Helpers -/

/-- The state after a command that does not stop. -/
def ran (i : Instr) (s : State) : State :=
  match exec i s with
  | .next t => t
  | _ => s

/-- The part right after reset, and the state with a part. -/
def base : Part := State.reset.part
def on (p : Part) : State := { State.reset with part := p }

/-- What the order unit answered. -/
def reply (s : State) : List Text := s.part.orders.reply

/-- An item of line 0 with this body, all of it committed. -/
def story (n : Nat) (state : ItemState) (body : Text) : Item :=
  { num := n, state := state, source := some 0, serial := 237, cls := 3, category := txt "PO", slug := txt "BUDGET"
    take := 2, kind := .add, body := body, blocks := blocksFor body.length, committed := body.length
    stats := statsOf body, signatures := [], verdict := none, killed := false, holders := 1, received := 0 }

/-- An entry for item `n`. -/
def entry (n cls : Nat) : Entry :=
  { item := n, cls := cls, source := some 0, admitted := 0, mode := .send, resume := none, cseq := some 417
    estimate := 100, spent := 0, diverted := false }

/-- The part with these items, the copy store counting them. -/
def withItems (items : List Item) (p : Part) : Part :=
  { p with
    items := items
    store :=
      { freeBlocks := 2048 - (items.map (·.blocks)).sum, agencyBlocks := (items.map (·.blocks)).sum
        agencyItems := items.length } }

/-- The part with one closed item, queued on circuit 1. -/
def queued : Part :=
  (((withItems [story 0 .closed (txt "VOTE")] base).modQ 1 fun q => { q with entries := [entry 0 3] }).modLoad 1
    fun ld => { ld with backlog := 100 })

/-- The part with circuit 1 printing that item. -/
def printing (state : SenderState) : Part :=
  ((((withItems [story 0 .closed (txt "VOTE")] base).modQ 1 fun q => { q with current := some (entry 0 3) }).modLoad 1
    fun ld => { ld with backlog := 100 }).modTx 1 fun tx => { tx with state := state, startMark := false })

/-- The part with a frame in progress on line 0. -/
def framed (p : Part) : Part := p.modRx 0 fun rx => { rx with phase := .frame }

/-- The part with the framer of line 0 changed. -/
def framing (f : Framer → Framer) : Part := base.modFr 0 f

/-! ### Commands that cannot be given -/

theorem test_wf_sequence : WellFormed (.lineBegin 0 (txt "Q X")) = false ∧ WellFormed (.lineEnd 0 []) = false ∧
    WellFormed (.lineBegin 0 (txt "QXQX")) = true := by decide +kernel
theorem test_wf_unit : WellFormed (.unit (txt "P:")) = false ∧ WellFormed (.unit [lineEndChr]) = false ∧
    WellFormed (.unit (txt "PA")) = true := by decide +kernel
theorem test_wf_route_category : WellFormed (.route none (some (txt "ANY")) [] none none none) = false ∧
    WellFormed (.route none (some []) [] none none none) = false ∧
    WellFormed (.route none none [0, 7] none none none) = true := by decide +kernel
theorem test_wf_route_set : WellFormed (.route none none [10] none none none) = false := by decide +kernel
theorem test_wf_unroute : WellFormed (.unroute none (some (txt "ANY"))) = false ∧
    WellFormed (.unroute (some 8) none) = true := by decide +kernel
theorem test_wf_purge : WellFormed (.purge none (some (txt "A B"))) = false ∧
    WellFormed (.purge (some 1) (some [50])) = false ∧ WellFormed (.purge none none) = true := by decide +kernel
theorem test_wf_unknown : WellFormed (.unknownVerb (txt "HOLD 3")) = false ∧ WellFormed (.unknownVerb []) = false ∧
    WellFormed (.unknownVerb (List.replicate 81 2)) = false ∧ WellFormed (.unknownVerb (txt "HALT 3")) = true := by
  decide +kernel

/-- The table gives no word for any command. -/
theorem test_no_words (s : State) (n w : Nat) : decodeTableWord n w = none ∧ s.withFetchWord n w = s := ⟨rfl, rfl⟩

/-! ### Codes (Tables 1-1 to 1-9, 2-4) -/

/-- Table 1-8, received on SEVEN: "Vote: (" as copy codes. -/
theorem test_seven_decodes : [86, 111, 116, 101, 58, 32, 49, 40].map decodeSeven =
    [23, 16, 21, 6, 40, 1, 29, 41].map fun c => .chr c false := by decide +kernel
theorem test_seven_functions : [13, 10, 7, 127, 61].map decodeSeven =
    [.cr, .lf, .nothing, .nothing, .chr 49 true] := by decide +kernel
/-- Table 1-9: the line "VOTE: 12 (FINAL)" as sent on a FIVE circuit with two fills. -/
theorem test_five_line : ((textFrames .five .letters (txt "VOTE: 12 (FINAL)") ++ lineEndFrames .five 2).map (·.value)) =
    [22, 15, 20, 5, 30, 13, 27, 1, 2, 27, 14, 31, 6, 9, 14, 1, 12, 30, 15, 28, 29, 31, 31] := by decide +kernel
/-- Table 1-7: the parity units of A and of DEL. -/
theorem test_parity : evenParity 65 = .space ∧ evenParity 127 = .mark := by decide +kernel
/-- A on FIVE, code point 1, and on SEVEN, value 65 (R6, Tables 1-3 and 1-7): start, data units with the least
significant first, parity, stop. -/
theorem test_levels : (printFrame .five 2).levels =
      [(.space, 10), (.mark, 10), (.space, 10), (.space, 10), (.space, 10), (.space, 10), (.mark, 15)] ∧
    (printFrame .seven 2).levels = [(.space, 10), (.mark, 10), (.space, 10), (.space, 10), (.space, 10), (.space, 10),
      (.space, 10), (.mark, 10), (.space, 10), (.mark, 10)] := by decide +kernel
/-- R14: the time of 109 characters on FIVE at 50 baud (Table 7-4). -/
theorem test_time : timeOf .five .b50 109 = 16350 ∧ timeOf .seven .b300 18 = 600 := by decide +kernel

/-! ### Headings and bodies (3.10) -/

theorem test_heading : parseHeading (txt "237 3 PO BUDGET T2") = some
    { serial := 237, cls := 3, category := txt "PO", slug := txt "BUDGET", take := 2, kind := .add } := by
  decide +kernel
/-- The two headings of R42, and the last of two kind marks. -/
theorem test_heading_marks : let h := fun t => (parseHeading (txt t)).map fun h => (h.cls, h.slug, h.take, h.kind)
    h "1044 2 FN RATES T3 CO T1" = some (2, txt "RATES", 1, .correction) ∧
      h "88 9 SP CUP-FINAL-REPLAY2" = some (5, txt "CUP-FINAL-RE", 1, .new) ∧
      h "1 0 PO VOTE KL RW T0004 X" = some (1, txt "VOTE", 1, .rewrite) := by decide +kernel
theorem test_heading_faults : parseHeading (txt "239 X PO CABINET") = none ∧ parseHeading (txt "239 3 POL CABINET") = none ∧
    parseHeading (txt "23900 3 PO CABINET") = none ∧ parseHeading (txt "239 3 PO 1CABINET") = none := by decide +kernel
/-- The statistics of Table 3-5. -/
theorem test_statistics : statsOf (txt "VOTE 12" ++ [48] ++ txt "QJQ 5" ++ [48]) =
    { printable := 12, lineEnds := 2, caseChanges := 2, lines := 2 } := by decide +kernel
/-- The signature of the line VOTE 12, as its line end is stored (Table 3-5). -/
theorem test_signature : let p := (withItems [story 0 .filling []] base).modFr 0 fun fr => { fr with
      state := .body, item := some 0 }
    ((txt "VOTE 12" ++ [48]).foldl (fun p c => appendChr 0 0 c p) p |>.item 0).signatures = [467] := by decide +kernel
/-- D of the two editions of Table 9-4. -/
theorem test_changed_lines : changedLines [128, 211, 206, 51] [128, 211, 203, 51, 113] = 2 := by decide +kernel

/-! ### Output lines and estimates (7.13, 8.8) -/

/-- The two lines of Table 7-4. -/
theorem test_form_line : let body := txt "CABINET MINISTERS MET AT NOON TODAY TO AGREE THE BUDGET" ++ [48]
    formLine body true 32 8 0 = { text := txt "CABINET MINISTERS MET AT NOON", next := 30, last := false } ∧
    formLine body true 32 8 30 = { text := txt "TODAY TO AGREE THE BUDGET", next := 56, last := false } := by
  decide +kernel
/-- HL of BUDGET (R145), and its estimate at admission (Table 8-5). -/
theorem test_estimate : headingLength (entry 0 3) (story 0 .filling []) 69 = 25 ∧
    estimateOf (entry 0 3) (story 0 .filling []) (base.tx 1).ordered = 46 := by decide +kernel
/-- BUDGET at its close (Table 8-4), and backlogs as time. -/
theorem test_estimate_close : estimateOf (entry 0 3) { story 0 .closed [] with stats :=
      { printable := 1000, lineEnds := 12, caseChanges := 14, lines := 13 } } (base.tx 1).ordered = 1176 ∧
    timeText 1176 (base.tx 1).ordered = txt "2M57S" ∧ timeText 7056 (base.tx 1).ordered = txt "17M39S" := by
  decide +kernel
/-- The states of Table 8-6. -/
theorem test_states : evaluated { coldLoad with backlog := 6275 } = .loaded ∧
    evaluated { coldLoad with backlog := 5020, state := .loaded } = .loaded ∧
    evaluated { coldLoad with backlog := 4608, state := .loaded } = .normal ∧
    evaluated { backlog := 4608, state := .normal, loadOn := 3000, congOn := 4500, hyst := 1000 } = .congested := by
  decide +kernel

/-! ### Order lines (10.8) -/

theorem test_check_letters :
    checkLetters [txt "HOLD 3", txt "CIRC 3 RATE:75", txt "UNROUTE 4 SP", txt "FREE 3"] = txt "VR" := by decide +kernel
theorem test_order_lines : readOrder (txt "CIRC 3 RATE:75") base = .ok (.circ 3 { rate := some .b75 }) ∧
    readOrder (txt "LINE 8 RATE:75") base = .no .range ∧ readOrder (txt "LINE 1 RATE:75 RATE:75") base = .no .argument ∧
    readOrder (txt "HALT 3") base = .no .unknown := by decide +kernel
theorem test_lookup_levels : (lookup base.banks.active 3 (txt "SP")).map (·.circuits) = some [3] ∧
    lookup base.banks.pending 3 (txt "SP") = none := by decide +kernel

/-! ### One step of each command -/

theorem test_power_up : let t := ran (.powerUp 0 0) State.reset
    (t.part.orders.address, (t.part.rx 7).rate, (t.part.tx 7).force.rate, (t.part.rx 6).rate) =
      (txt "PA", .b300, .b300, .b50) := by decide +kernel
theorem test_resetn_low : (ran .resetnLow State.reset).part.inReset = true ∧
    (ran .resetnLow (on (base.modTx 1 fun tx => { tx with job := .owed, out := lineEndFrames .five 2 }))).part.tx 1 =
      { base.tx 1 with job := .none, out := [] } := by decide +kernel
theorem test_leading_edge : (ran (.leadingEdge 0) State.reset).part.rx 0 =
    { base.rx 0 with pin := .space, spaceTimer := some 0, phase := .noiseCheck } := by decide +kernel
theorem test_noise_check : ((ran (.noiseCheck 0) (ran (.leadingEdge 0) State.reset)).part.rx 0).phase = .frame := by
  decide +kernel
theorem test_change_back : ((ran (.changeBackToMark 0) (ran (.leadingEdge 0) State.reset)).part.rx 0).spaceTimer = none := by
  decide +kernel
theorem test_space_timer_expiry : let t := ran (.spaceTimerExpiry 0) (ran (.leadingEdge 0) State.reset)
    (t.part.rx 0).cond = .opened ∧ (t.part.flag .lineOpen).members = [0] ∧ t.part.alarmLow = true ∧
      t.part.items.map (·.body) = [txt "ALARM LINE-OPEN LINE 0" ++ [48]] := by decide +kernel
theorem test_return_to_mark : let s := ran (.returnToMark 0) (on (base.modRx 0 fun rx => { rx with
      cond := .opened, pin := .space }))
    (s.part.rx 0).cond = .ready ∧ (s.part.rx 0).phase = .hunting := by decide +kernel
/-- Z between items is counted and dropped (Table 3-4). -/
theorem test_frame_received : ((ran (.frameReceived 0 26 .mark .mark) (on (framed base))).part.line 0).tally =
    { received := 1, substitutions := 0, opens := 0, between := 1, accepted := 0, refused := 0 } := by decide +kernel
/-- With no frame in progress none is delivered or counted (R18). -/
theorem test_frame_received_without_frame : ran (.frameReceived 0 26 .mark .mark) State.reset = State.reset := by
  decide +kernel
/-- The X that completes QXQX (Table 3-4). -/
theorem test_frame_opens : ((ran (.frameReceived 0 24 .mark .mark)
    (on (framed (framing fun fr => { fr with held := txt "QXQ" })))).part.fr 0).state = .heading := by decide +kernel
theorem test_clock_tick : let s := ran .partClockTick (on { base with clock := 4294967295 })
    s.part.clock = 4294967295 ∧ (ran .partClockTick s).part.clock = 4294967295 ∧
      (ran .partClockTick State.reset).part.clock = 1 := by decide +kernel
/-- The last frame of a trailer: the entry is removed, its item is freed, and the sender is IDLE (Table 7-4). -/
theorem test_frame_sent : let t := ran (.frameSent 1) (on ((printing .trailer).modTx 1 fun tx => { tx with
      job := .trailer, out := [frameOf .five 31 127 .fill] }))
    (t.part.tx 1).state = .idle ∧ (t.part.q 1).current = none ∧ (t.part.circ 1).tally.done = 1 ∧
      (t.part.load 1).backlog = 0 := by decide +kernel
/-- The start line end of the heading keeps the two fills in force; the heading line then has the three ordered (R142). -/
theorem test_start_line_end : let t := ran (.free 1) (on (queued.modTx 1 fun tx => { tx with
      state := .held, heldPos := .selectionDue, ordered := { tx.ordered with fills := 3 } }))
    (t.part.tx 1).force.fills = 2 ∧ (t.part.tx 1).out.length = 4 ∧
      ((ran (.frameSent 1) (on (t.part.modTx 1 fun tx => { tx with out := tx.out.drop 3 }))).part.tx 1).force.fills = 3 := by
  decide +kernel
theorem test_frame_sent_spends : let t := ran (.frameSent 1) (on ((printing .trailer).modTx 1 fun tx => { tx with
      job := .trailer, out := lineFrames tx (txt "END") }))
    (t.part.load 1).backlog = 99 ∧ (t.part.tx 1).column = 1 := by decide +kernel
/-- R103, R105, R106: the line with which the count reaches a quantum of 1 is broken off for a unit item, and the turn goes
on by one line. -/
theorem test_quantum_break : let t := ran (.frameSent 1) (on (((withItems [story 0 .closed (txt "VOTE NOW"),
      { story 1 .closed (txt "OK") with source := none }] base).modQ 1 fun q => { q with
        current := some (entry 0 3), byTurn := true, turn := 0, turnLines := 0
        entries := [{ entry 1 3 with source := none }], force := { q.force with mode := .rotation, quantum := 1 } }).modTx 1
      fun tx => { tx with state := .copy, job := .body 5 false, out := [frameOf .five 31 127 .fill], startMark := false }))
    (t.part.tx 1).state = .notice ∧ (t.part.q 1).turn = 1 ∧ (t.part.q 1).turnLines = 0 ∧
      (t.part.circ 1).tally.breaks = 1 := by decide +kernel
theorem test_stall_expiry : let t := ran (.stallTimerExpiry 1) (on (((printing .waiting).modQ 1 fun q => { q with
      stall := some 30 })))
    (t.part.flag .stall).members = [1] ∧ (t.part.q 1).stall = some 30 := by decide +kernel
theorem test_lapse : let t := ran (.lapse 1) (on ({ queued with clock := 60 }.modQ 1 fun q => { q with
      ages := #v[0, 0, 1, 0, 0] }))
    (t.part.q 1).entries = [] ∧ (t.part.circ 1).tally.lapsed = 1 ∧ (t.part.flag .lapsed).members = [1] := by
  decide +kernel

theorem test_line_rate : ((ran (.lineRate 0 75) State.reset).part.rx 0).rate = .b75 ∧
    reply (ran (.lineRate 0 60) State.reset) = [txt "NO RANGE"] := by decide +kernel
theorem test_line_code : ((ran (.lineCode 0 .seven) State.reset).part.rx 0).code = .seven := by decide +kernel
theorem test_line_open_time : ((ran (.lineOpenTime 0 15) State.reset).part.rx 0).openTime = 15 ∧
    reply (ran (.lineOpenTime 0 16) State.reset) = [txt "NO RANGE"] := by decide +kernel
theorem test_line_shift : ((ran (.lineShift 0 true) State.reset).part.rx 0).unshift = true := by decide +kernel
theorem test_line_desk : ((ran (.lineDesk 7 false) State.reset).part.rx 7).desk = false := by decide +kernel
theorem test_line_begin : ((ran (.lineBegin 0 (txt "ZCZC")) State.reset).part.fr 0).opening = txt "ZCZC" ∧
    reply (ran (.lineBegin 0 (txt "QJQJ")) State.reset) = [txt "NO RANGE"] := by decide +kernel
theorem test_line_end : ((ran (.lineEnd 0 (txt "NNNN")) State.reset).part.fr 0).closing = txt "NNNN" := by decide +kernel
theorem test_line_release : ((ran (.lineRelease 0 4096) State.reset).part.fr 0).release = 4096 ∧
    reply (ran (.lineRelease 0 31) State.reset) = [txt "NO RANGE"] := by decide +kernel
theorem test_line_park : ((ran (.linePark 0 true) State.reset).part.rx 0).cond = .parked := by decide +kernel

theorem test_circ_rate : ((ran (.circRate 3 75) State.reset).part.tx 3).force.rate = .b75 := by decide +kernel
/-- In COPY the rate is ordered and not in force (Table 10-4). -/
theorem test_circ_rate_copy : let t := ran (.circRate 1 75) (on (printing .copy))
    (t.part.tx 1).ordered.rate = .b75 ∧ (t.part.tx 1).force.rate = .b50 := by decide +kernel
theorem test_circ_code : ((ran (.circCode 3 .seven) State.reset).part.tx 3).force.code = .seven := by decide +kernel
theorem test_circ_width : let t := ran (.circWidth 1 32) (on queued)
    (t.part.tx 1).ordered.width = 32 ∧ (t.part.load 1).backlog = backlogOf (t.part.q 1) ∧
      reply (ran (.circWidth 1 81) State.reset) = [txt "NO RANGE"] := by decide +kernel
theorem test_circ_margin : ((ran (.circMargin 1 16) State.reset).part.tx 1).ordered.margin = 16 := by decide +kernel
theorem test_circ_fill : ((ran (.circFill 1 7) State.reset).part.tx 1).ordered.fills = 7 := by decide +kernel
theorem test_circ_unshift : ((ran (.circUnshift 1 true) State.reset).part.tx 1).ordered.unshift = true := by decide +kernel
theorem test_circ_mode : ((ran (.circMode 1 .rotation) State.reset).part.q 1).ordered.mode = .rotation := by decide +kernel
theorem test_circ_preempt : ((ran (.circPreempt 1 0) State.reset).part.q 1).ordered.preempt = 0 := by decide +kernel
theorem test_circ_quantum : ((ran (.circQuantum 1 255) State.reset).part.q 1).ordered.quantum = 255 := by decide +kernel
theorem test_circ_stall : ((ran (.circStall 1 5) State.reset).part.q 1).stallTime = 5 ∧
    reply (ran (.circStall 1 4) State.reset) = [txt "NO RANGE"] := by decide +kernel
theorem test_circ_age : ((ran (.circAge 1 4 255) State.reset).part.q 1).ages = #v[0, 0, 0, 0, 255] := by decide +kernel
theorem test_circ_age_lapses : let t := ran (.circAge 1 2 1) (on { queued with clock := 60 })
    (t.part.q 1).entries = [] ∧ (t.part.circ 1).tally.lapsed = 1 := by decide +kernel
theorem test_circ_loadon : let t := ran (.circLoadon 1 1001) State.reset
    (t.part.load 1).loadOn = 1001 ∧ reply (ran (.circLoadon 1 1000) State.reset) = [txt "NO RANGE"] := by decide +kernel
/-- With the desk circuit's notice of CONGESTED (Table 8-6). -/
theorem test_circ_congon : let t := ran (.circCongon 0 4500) (on (base.modLoad 0 fun ld => { ld with
      backlog := 4608, loadOn := 3000 }))
    (t.part.load 0).state = .congested ∧ (t.part.flag .congested).members = [0] ∧ (t.part.q 7).held.length = 1 := by
  decide +kernel
theorem test_circ_hyst : ((ran (.circHyst 1 5999) State.reset).part.load 1).hyst = 5999 ∧
    reply (ran (.circHyst 1 6000) State.reset) = [txt "NO RANGE"] := by decide +kernel

theorem test_route : let t := ran (.route (some 4) (some (txt "SP")) [6, 2] (some 3) (some 5) (some .mark)) State.reset
    t.part.banks.pending = [{ key := { line := some 4, category := some (txt "SP") }, circuits := [2, 6], cls := some 3
                              alt := some 5, mode := .mark }] ∧ reply t = [txt "OK ADDED 1"] := by decide +kernel
theorem test_route_refused : reply (ran (.route none none [8] none none none) State.reset) = [txt "NO RANGE"] ∧
    reply (ran (.route none none [1, 1] none none none) State.reset) = [txt "NO ARGUMENT"] := by decide +kernel
theorem test_unroute : reply (ran (.unroute (some 4) (some (txt "SP"))) State.reset) = [txt "NO ABSENT"] := by decide +kernel
theorem test_copybank : let t := ran .copybank State.reset
    t.part.banks.pending = t.part.banks.active ∧ reply t = [txt "OK 8"] := by decide +kernel
theorem test_enact : let t := ran .enact State.reset
    t.part.banks.active = [] ∧ t.part.banks.pending.length = 8 ∧ reply t = [txt "OK ACTIVE 0"] := by decide +kernel
theorem test_hold : ((ran (.hold 3) State.reset).part.tx 3).state = .held ∧
    ((ran (.hold 1) (on (printing .copy))).part.tx 1).holdPending = true := by decide +kernel
theorem test_free : ((ran (.free 3) (ran (.hold 3) State.reset)).part.tx 3).state = .idle := by decide +kernel
theorem test_purge : let t := ran (.purge none (some (txt "BUDGET"))) (on queued)
    (t.part.q 1).entries = [] ∧ t.part.items = [] ∧ t.part.store.freeBlocks = 2048 ∧ reply t = [txt "OK 1"] := by
  decide +kernel
theorem test_show_circ : (reply (ran (.showCirc 1) (on queued))).getLast? =
    some (txt "3 A0237 BUDGET T2 E 100") := by decide +kernel
theorem test_show_line : reply (ran (.showLine 7) State.reset) = [txt "OK", txt "LINE 7 READY HUNT",
    txt "FIVE 50 OPEN 3 SHIFT OFF DESK ON PARK OFF", txt "BEGIN QXQX END QJQJ RELEASE 256"] := by decide +kernel
theorem test_tally : (reply (ran .tally State.reset)).length = 18 := by decide +kernel
theorem test_tally_zero : ((ran .tallyZero (on (base.modTally 1 fun t => { t with sent := 7 }))).part.circ 1).tally.sent = 0 := by
  decide +kernel
theorem test_alarm : (reply (ran .alarm State.reset)).length = 12 := by decide +kernel
theorem test_alarm_clear : let s := on (raise .queueFull 1 base)
    (s.part.flag .queueFull).raised = true ∧ ((ran (.alarmClear .all) s).part.flag .queueFull).raised = false := by
  decide +kernel
theorem test_alarm_mask : let s := on (raise .queueFull 1 base)
    s.part.alarmLow = true ∧ (ran (.alarmMask (.names [.queueFull]) false) s).part.alarmLow = false := by decide +kernel
theorem test_alarm_notice : ((ran (.alarmNotice (.names [.lapsed]) true) State.reset).part.flag .lapsed).notice = true ∧
    reply (ran (.alarmNotice (.names [.lapsed, .lapsed]) true) State.reset) = [txt "NO ARGUMENT"] := by decide +kernel
theorem test_repeat : reply (ran .repeatShow State.reset) = [txt "OK T 2 HELD 0"] := by decide +kernel
theorem test_repeat_set : (ran (.repeatSet 48) State.reset).part.history.threshold = 48 ∧
    reply (ran (.repeatSet 49) State.reset) = [txt "NO RANGE"] := by decide +kernel
theorem test_desk : (ran (.desk 2) State.reset).part.orders.desk = 2 ∧
    reply (ran (.desk 8) State.reset) = [txt "NO RANGE"] ∧ reply (ran (.desk 10) State.reset) = [txt "NO ARGUMENT"] := by
  decide +kernel
theorem test_unit : (ran (.unit (txt "PA")) State.reset).part.orders.address = txt "PA" ∧
    reply (ran (.unit (txt "P1")) State.reset) = [txt "NO ARGUMENT"] := by decide +kernel
theorem test_unknown_verb : reply (ran (.unknownVerb (txt "HALT 3")) State.reset) = [txt "NO UNKNOWN"] := by decide +kernel
theorem test_restart_warm : let t := ran .restartWarm (on queued)
    t.part.items = [] ∧ (t.part.q 1).entries = [] ∧ reply t = [txt "OK RESTARTED WARM"] := by decide +kernel
/-- A frame in progress is completed, and then the sender is IDLE, with a pending hold cleared (R141). -/
theorem test_restart_warm_frame : let t := ran .restartWarm (on ((printing .copy).modTx 1 fun tx => { tx with
      job := .body 4 false, holdPending := true, out := lineEndFrames .five 2 }))
    (t.part.tx 1).holdPending = true ∧ (t.part.tx 1).state = .copy ∧ (t.part.tx 1).out = [frameOf .five 28 13 .cr] ∧
      let u := (ran (.frameSent 1) t).part.tx 1
      u.state = .idle ∧ u.holdPending = false ∧ u.startMark = true := by decide +kernel
theorem test_restart_cold : let t := ran .restartCold (on { queued with clock := 9 })
    t.part.clock = 0 ∧ reply t = [txt "OK RESTARTED COLD"] := by decide +kernel
/-- The third order line of the item of 10.8, taken by an idle step (Table 10-4). -/
theorem test_idle_step : (match step (on (base.setBuffer (.executing 7 44 [txt "UNROUTE 4 SP", txt "FREE 3"] 2
      [txt "1 OK", txt "2 OK"]))) with
    | .next t => t.part.orders.buffer
    | _ => .free) = .executing 7 44 [txt "FREE 3"] 3 [txt "1 OK", txt "2 OK", txt "3 NO ABSENT"] := by decide +kernel

/-! ### What meets the hypotheses of the statements

For each statement with hypotheses, a state and operands that meet them, for each clause, at the ends of its ranges.  A
statement whose only hypothesis is that the part takes an order is met by `witness_takesOrder`. -/

theorem witness_takesOrder : State.reset.TakesOrder ∧ (on queued).TakesOrder := ⟨⟨rfl, rfl, rfl⟩, rfl, rfl, rfl⟩

theorem witness_StepRunsFrontCommand : ({ State.reset with pending := [.tally, .alarm] } : State).pending =
    .tally :: [.alarm] := rfl

/-- A level change excepted, and no power-up, while RESETn is low. -/
theorem witness_ResetnLowHoldsThePart : (ran .resetnLow State.reset).part.inReset = true ∧
    (∀ ua dr, Instr.tally ≠ .powerUp ua dr) ∧ Instr.tally ≠ .resetnLow ∧
    ∀ l, Instr.tally ≠ .leadingEdge l ∧ Instr.tally ≠ .returnToMark l ∧ Instr.tally ≠ .changeBackToMark l := by
  refine ⟨by decide +kernel, ?_, ?_, ?_⟩ <;> simp

/-- A sender without a frame in progress, and one with three. -/
theorem witness_RestartWarmClearsTheWork : (on queued).TakesOrder ∧ ((on queued).part.tx 1).out = [] ∧
    let s := on (queued.modTx 1 fun tx => { tx with out := lineEndFrames .five 1 })
    s.TakesOrder ∧ (s.part.tx 1).out = frameOf .five 28 13 .cr :: [frameOf .five 29 10 .lf, frameOf .five 31 127 .fill] :=
  ⟨⟨rfl, rfl, rfl⟩, by decide +kernel, ⟨rfl, rfl, rfl⟩, by decide +kernel⟩

/-- Mark and READY; space and READY; OPEN and space. -/
theorem witness_PinChangesMoveTheReceiver : base.inReset = false ∧ (base.rx 0).cond = .ready ∧ (base.rx 0).pin = .mark ∧
    (let p := (ran (.leadingEdge 0) State.reset).part; p.inReset = false ∧ (p.rx 0).cond = .ready ∧ (p.rx 0).pin = .space) ∧
    (let p := (ran (.spaceTimerExpiry 0) (ran (.leadingEdge 0) State.reset)).part; p.inReset = false ∧ (p.rx 0).cond = .opened ∧ (p.rx 0).pin = .space) := by decide +kernel

theorem witness_NoiseCheckDecidesAFrame :
    (let p := (ran (.leadingEdge 0) State.reset).part; p.inReset = false ∧ (p.rx 0).cond = .ready ∧ (p.rx 0).phase = .noiseCheck) ∧
    base.inReset = false ∧ (base.rx 0).cond = .ready ∧ (base.rx 0).phase = .hunting ∧ (base.rx 0).pin = .mark ∧
      (base.rx 0).spaceTimer = none := by decide +kernel

theorem witness_SpaceTimerExpiryOpensTheLine : let p := (ran (.leadingEdge 0) State.reset).part
    p.inReset = false ∧ (p.rx 0).cond = .ready ∧ (p.rx 0).spaceTimer.isSome = true ∧ (p.fr 0).held = [] := by
  decide +kernel

/-- A and the space on FIVE in letters, A and the plus sign on SEVEN; then a space at the stop sample, and odd parity;
and no frame in progress. -/
theorem witness_FrameBetweenItems : let five := framed base
    let seven := five.modRx 0 fun rx => { rx with code := .seven }
    (five.inReset = false ∧ (five.rx 0).cond = .ready ∧ (five.rx 0).phase = .frame ∧ (five.rx 0).pendingCR = false ∧
      (five.fr 0).state = .hunt ∧ (five.fr 0).held = [] ∧ 2 ≤ (five.fr 0).opening.length ∧
      (five.fr 0).opening.head? ≠ some 2 ∧ (five.fr 0).opening.head? ≠ some subChr ∧ (five.rx 0).code ≠ .seven ∧
      decoded (five.rx 0) (1#7).toNat = .chr 2 false ∧ decoded (five.rx 0) (27#7).toNat = .chr 1 false) ∧
    ((seven.rx 0).code = .seven ∧ (seven.rx 0).cond = .ready ∧ (seven.rx 0).phase = .frame ∧
      (seven.rx 0).pendingCR = false ∧ decoded (seven.rx 0) (65#7).toNat = .chr 2 false ∧
      Level.space = evenParity (65#7).toNat ∧ decoded (seven.rx 0) (43#7).toNat = .chr 47 false ∧
      Level.mark ≠ evenParity (65#7).toNat) ∧ (base.rx 0).phase ≠ .frame := by decide +kernel

/-- With a carriage return pending, each result on FIVE and on SEVEN, and a space at the stop sample. -/
theorem witness_every_result : let five := (framed base).modRx 0 fun rx => { rx with pendingCR := true, unshift := true }
    let seven := five.modRx 0 fun rx => { rx with code := .seven }
    let figures : Receiver := { five.rx 0 with shift := .figures }
    five.inReset = false ∧ (five.rx 0).cond = .ready ∧ (five.rx 0).phase = .frame ∧ (five.rx 0).pendingCR = true ∧
      (five.rx 0).code = .five ∧ [0, 26, 27, 28, 29, 30, 31, 33].map (decoded (five.rx 0)) =
        [.nothing, .chr 27 false, .chr 1 false, .cr, .lf, .figs, .ltrs, .chr 2 false] ∧
      [1, 9, 10, 11, 20, 21, 26].map (decoded figures) = [.chr 29 false, .chr 37 false, .chr 28 false, .chr 38 false,
        .chr 47 false, .chr 49 true, .chr 49 true] ∧
      (seven.rx 0).code = .seven ∧ 127 < 128 ∧ [13, 10, 0, 31, 127, 32, 48, 57, 33, 43].map (decoded (seven.rx 0)) =
        [.cr, .lf, .nothing, .nothing, .nothing, .chr 1 false, .chr 28 false, .chr 37 false, .chr 49 true,
          .chr 47 false] ∧
      Level.mark ≠ evenParity (65#7).toNat := by decide +kernel
/-- R18, R19: a carriage return and a copy character deliver a line end and the character; the return is then clear. -/
theorem test_pending_return : let s := on ((framed base).modRx 0 fun rx => { rx with pendingCR := true })
    let t := ran (.frameReceived 0 3 .mark .mark) s
    (t.part.rx 0).pendingCR = false ∧ (t.part.line 0).tally.between = 2 ∧ (t.part.line 0).tally.received = 1 := by
  decide +kernel

theorem witness_ClockTickCountsSeconds : base.inReset = false := rfl

/-- Both ends of the alphabet, on FIVE in either shift and on SEVEN; unshift-on-space with no space; and a frame. -/
theorem witness_PrintedCopyReadsBack : (∀ c ∈ ([1, 2, 27, 28, 47, 49] : Text), 1 ≤ c ∧ c ≤ 49 ∧ c ≠ lineEndChr) ∧
    (base.rx 0).unshift = false ∧ spaceChr ∉ ([2, 27, 28, 47, 49] : Text) ∧
    ((base.rx 0).code = .five → (base.rx 0).shift = .letters) ∧
    (({ base.rx 0 with shift := .figures } : Receiver).code = .five →
      ({ base.rx 0 with shift := .figures } : Receiver).shift = .figures) ∧
    ({ base.rx 0 with code := .seven } : Receiver).code ≠ .five ∧ base.inReset = false ∧ (base.tx 0).out = [] ∧
    ((base.modTx 0 fun tx => { tx with out := lineEndFrames .five 0 }).tx 0).out =
      frameOf .five 28 13 .cr :: [frameOf .five 29 10 .lf] := by decide +kernel

theorem witness_OpeningSequenceEntersHeading : ∀ st ∈ [FramerState.hunt, .discard],
    let fr := (framing fun fr => { fr with state := st, held := txt "QXQ" }).fr 0
    (fr.state = .hunt ∨ fr.state = .discard) ∧ fr.held ++ txt "X" = fr.opening := by decide +kernel

/-- The longest and the shortest fields; no further word, words of which the last of each kind decides, and words that are
no mark. -/
theorem witness_HeadingGivesItsFields :
    (∀ x ∈ [txt "CO", txt "X", []], ∀ digits, ¬ x = txt "T" ++ digits) ∧
    (∀ digits, txt "T1000" = txt "T" ++ digits → ¬ digits.length ≤ 3) ∧
    (let marks := [txt "T999", txt "KL", txt "T0", txt "CO", txt "X", []];
      (∀ serial ∈ [txt "0", txt "9999"], 1 ≤ serial.length ∧ serial.length ≤ 4 ∧ ∀ d ∈ serial, isDigit d = true) ∧
      (∀ cls ∈ txt "0159", isDigit cls = true) ∧ (txt "AZ").length = 2 ∧ (∀ c ∈ txt "AZ", isLetter c = true) ∧
      isSlug (txt "A-NAME-OF-MORE-THAN-12") = true ∧ isSlug (txt "Z") = true ∧ (∀ w ∈ marks, spaceChr ∉ w) ∧
      marks = [txt "T999", txt "KL"] ++ txt "T0" :: [txt "CO", txt "X", []] ∧
      marks = [txt "T999", txt "KL", txt "T0"] ++ txt "CO" :: [txt "X", []] ∧
      (txt "T0" = txt "T" ++ txt "0" ∧ 1 ≤ (txt "0").length ∧ (txt "0").length ≤ 3 ∧ ∀ d ∈ txt "0", isDigit d = true) ∧
      ∀ x ∈ [txt "X", []], x ≠ txt "RW" ∧ x ≠ txt "CO" ∧ x ≠ txt "KL") := by
  refine ⟨fun x hx digits h => ?_, fun digits h => ?_, by decide +kernel⟩
  · have first : x.head? = some 21 := h ▸ rfl
    clear h
    revert x
    decide +kernel
  · have len := congrArg List.length h
    rw [List.length_append, show (txt "T1000").length = 5 from rfl, show (txt "T").length = 1 from rfl] at len
    omega

theorem witness_UnroutedHeadingGetsADescriptor :
    let p := { framing fun fr => { fr with state := .heading, heading := txt "1 3 PO BUDGET" } with
      banks := { active := [], pending := [] }, items := [story 0 .filling []] }
    let h : Heading := { serial := 1, cls := 3, category := txt "PO", slug := txt "BUDGET", take := 1, kind := .new }
    parseHeading (p.fr 0).heading = some h ∧ (h.category ≠ txt "QD" ∨ h.slug ≠ p.orders.address) ∧
      (h.kind ≠ .kill ∧ h.kind ≠ .rewrite) ∧ lookup p.banks.active 0 h.category = none ∧ p.store.agencyItems < 248 ∧
      1 < 256 ∧ (∀ it ∈ p.items, it.num ≠ 1) ∧ ∀ k, k < 1 → ∃ it ∈ p.items, it.num = k := by decide +kernel

/-- A heading that has not the form; 248 agency items, and all 256 descriptors in use; the 80th character and the 81st,
before the first character and after it; and each sequence all but complete. -/
theorem witness_heading_refused : let h := fun (heading held : Text) => framing fun fr => { fr with
      state := .heading, heading := heading, held := held, headStart := heading = [] }
    let p := h (txt "1 3 PO BUDGET") []
    let head : Heading := { serial := 1, cls := 3, category := txt "PO", slug := txt "BUDGET", take := 1, kind := .new }
    ((p.fr 0).held = [] ∧ parseHeading ((h (txt "1 3 PO") []).fr 0).heading = none ∧
      parseHeading (p.fr 0).heading = some head ∧ (head.category ≠ txt "QD" ∨ head.slug ≠ p.orders.address) ∧
      248 ≤ ({ p with store := { p.store with agencyItems := 248 } } : Part).store.agencyItems ∧
      ∀ k, k < 256 → ∃ it ∈ (List.range 256).map fun n => story n .closed [], it.num = k) ∧
    ((p.fr 0).state = .heading ∧ 2 ≤ (p.fr 0).opening.length ∧ 2 ≤ (p.fr 0).closing.length ∧
      (p.fr 0).headStart = false ∧ ((h [] []).fr 0).headStart = true ∧
      (∀ c ∈ [spaceChr, lineEndChr, 2], (p.fr 0).opening.head? ≠ some c ∧ (p.fr 0).closing.head? ≠ some c) ∧
      ((h (List.replicate 79 2) []).fr 0).heading.length < 80 ∧ 80 ≤ ((h (List.replicate 80 2) []).fr 0).heading.length ∧
      ((h [] (txt "QXQ")).fr 0).held ++ txt "X" = (p.fr 0).opening ∧
      ((h [] (txt "QJQ")).fr 0).held ++ txt "J" = (p.fr 0).closing ∧ (p.fr 0).closing ≠ (p.fr 0).opening) := by
  decide +kernel

/-- The claim of a free buffer, of one in use, and on a line that is not desk-capable. -/
theorem witness_OrderHeadingClaimsTheBuffer : ∀ l ∈ [(7 : LineNo), 0],
    let p := base.modFr l fun fr => { fr with state := .heading, heading := txt "44 1 QD PP" }
    let h : Heading := { serial := 44, cls := 1, category := txt "QD", slug := txt "PP", take := 1, kind := .new }
    parseHeading (p.fr l).heading = some h ∧ h.category = txt "QD" ∧ h.slug = p.orders.address ∧
      (p.rx l).desk = decide (l = 7) ∧ p.orders.buffer = .free ∧ 2 ≤ (p.fr l).opening.length ∧
      2 ≤ (p.fr l).closing.length ∧ (p.setBuffer (.collecting 3 1 [] [])).orders.buffer ≠ .free := by decide +kernel

/-- In ORDER with this held string, these lines collected and this one being collected. -/
def ordering (held : Text) (lines : List Text) (cur : Text) : Part :=
  (base.setBuffer (.collecting 7 44 lines cur)).modFr 7 fun fr => { fr with state := .order, held := held }

/-- The 80th character and the 81st, the 24th line and the 25th. -/
theorem witness_order_collects : ∀ x ∈ [(23, 79, true), (24, 1, true), (23, 0, true), (0, 80, false), (24, 0, false)],
    let lines := List.replicate x.1 (txt "FREE 1")
    let cur := List.replicate x.2.1 2
    let p := ordering [] lines cur
    (p.fr 7).state = .order ∧ p.orders.buffer = .collecting 7 44 lines cur ∧ (p.fr 7).held = [] ∧
      (p.fr 7).opening.head? ≠ some 2 ∧ (p.fr 7).closing.head? ≠ some 2 ∧ 2 ≠ lineEndChr ∧
      (p.fr 7).opening.head? ≠ some lineEndChr ∧ (p.fr 7).closing.head? ≠ some lineEndChr ∧
      (if x.2.2 then cur.length < 80 ∧ (cur = [] → lines.length < 24)
        else cur.length = 80 ∨ (cur = [] ∧ lines.length = 24)) := by decide +kernel

/-- An opening sequence; a right check line after an order and alone; a wrong one, and none. -/
theorem witness_order_ends : ((ordering (txt "QXQ") [] []).fr 7).held ++ txt "X" = (base.fr 7).opening ∧
    ((ordering (txt "QJQ") [] []).fr 7).held ++ txt "J" = (base.fr 7).closing ∧
    (base.fr 7).closing ≠ (base.fr 7).opening ∧
    (let sum := ([txt "HOLD 3"].map List.sum).sum % 676;
      tokens (txt "CK CX") = [txt "CK", [2 + sum / 26, 2 + sum % 26]]) ∧
    tokens (txt "CK AA") = [txt "CK", [2 + 0 / 26, 2 + 0 % 26]] ∧
    ∀ lines ∈ [[], [txt "HOLD 3", txt "CK AA"]], checkRight lines = false := by decide +kernel

/-- The last place of a block, with one character fewer than the release length uncommitted; and no early release; for a
letter and a line end; then a full chain with a block to take, and the first block of an empty one. -/
theorem witness_BodyCharacterIsStored : ∀ release ∈ [0, 33], ∀ n ∈ [0, 31, 32],
    let it := { story 0 .filling (List.replicate n 2) with committed := min n 1 }
    let p := (withItems [it] base).modFr 0 fun fr => { fr with state := .body, item := some 0, release := release }
    (p.fr 0).state = .body ∧ (p.fr 0).item = some 0 ∧ (p.fr 0).held = [] ∧ p.item? 0 = some it ∧
      2 ≤ (p.fr 0).opening.length ∧ 2 ≤ (p.fr 0).closing.length ∧
      (∀ c ∈ [2, lineEndChr], (p.fr 0).opening.head? ≠ some c ∧ (p.fr 0).closing.head? ≠ some c) ∧
      (it.body.length = 32 * it.blocks ↔ n ≠ 31) ∧ 0 < p.store.freeBlocks ∧ p.store.agencyBlocks < 2000 ∧
      ((p.fr 0).release = 0 ∨ it.body.length + 1 - it.committed < (p.fr 0).release) := by decide +kernel

/-- A circuit in NORMAL below LOAD_ON has its backlog counted. -/
theorem counted_of_normal {x : Circ} (h : x.load.state = .normal ∧ x.load.backlog < x.load.loadOn ∧
    x.load.backlog = backlogOf x.q ∧ (x.load.hyst < x.load.loadOn ∧ x.load.loadOn ≤ x.load.congOn) ∧
    (∀ e ∈ x.q.held, e.estimate ≤ Config.estimateMax) ∧ (x.q.held.map (·.item)).Nodup) : x.Counted :=
  ⟨h.2.2.2.2.2, h.2.2.1, h.2.2.2.2.1, h.2.2.2.1, by unfold Load.Agrees; rw [h.1]; exact h.2.1⟩

/-- A circuit that sends no break line has its queue ordered. -/
theorem ordered_of_plain {x : Circ} (h : x.tx.job.isBreak = false ∧ x.q.held.length ≤ 33 ∧
    (x.q.held.map (·.item)).Nodup ∧ x.q.entries.Pairwise fun a b =>
      a.cls < b.cls ∨ (a.cls = b.cls ∧ (b.resume.isSome → a.resume.isSome))) : x.Ordered :=
  ⟨h.2.2.2, h.2.2.1, h.2.1, fun b => by rw [h.1] at b; cases b⟩

/-- A part with one item, which a line may be receiving, has its store sound. -/
theorem sound_of_one {p : Part} {it : Item} (one : p.items = [it]) (chained : it.Chained)
    (counts : it.num < 256 ∧ it.agency = true ∧ it.blocks ≤ 2000 ∧
      p.store = { freeBlocks := 2048 - it.blocks, agencyBlocks := it.blocks, agencyItems := 1 })
    (receiving : ∀ l, (p.fr l).item = none ∨
      ((p.fr l).item = some it.num ∧ it.state = .filling ∧ it.source = some l)) : p.StoreSound := by
  obtain ⟨num, agency, few, store⟩ := counts
  refine ⟨?_, ?_, ?_, ?_, ?_, ?_, ?_, ?_, fun l n h => ?_⟩
  case refine_9 =>
    obtain r | ⟨r, rest⟩ := receiving l
    · rw [r] at h; cases h
    · rw [r] at h; cases h
      exact ⟨it, by rw [one]; exact List.mem_singleton_self _, rfl, rest⟩
  all_goals simp [one, store, agency, num, chained, few, Config.tableSize, Config.storeBlocks, Config.agencyBlockLimit,
    Config.agencyItemLimit] <;> omega

/-- Line 0 receiving one item, with the opening sequence all but complete. -/
def runningOn : Part :=
  (withItems [story 0 .filling (txt "VOTE")] base).modFr 0 fun fr => { fr with
    state := .body, item := some 0, held := txt "QXQ" }

theorem witness_RunOnBreaksTheItem : runningOn.StoreSound ∧ (runningOn.fr 0).state = .body ∧
    (runningOn.fr 0).item = some 0 ∧ (runningOn.fr 0).held ++ txt "X" = (runningOn.fr 0).opening :=
  ⟨sound_of_one rfl (by unfold Item.Chained; decide +kernel) (by decide +kernel) (by decide +kernel), by decide +kernel⟩

/-- The line of that item takes an order, and its space timer expires, with nothing held and with held characters that
the chain has room for. -/
theorem witness_interruption : ∀ held ∈ [[], txt "QXQ"],
    let p := (runningOn.modFr 0 fun fr => { fr with held := held }).modRx 0 fun rx => { rx with
      pin := .space, spaceTimer := some 0 }
    p.StoreSound ∧ (on p).TakesOrder ∧ (p.rx 0).cond = .ready ∧ (p.rx 0).spaceTimer.isSome = true ∧
      (p.fr 0).held = held ∧ (p.fr 0).state = .body ∧ (p.fr 0).item = some 0 ∧
      p.item? 0 = some (story 0 .filling (txt "VOTE")) ∧ 4 + held.length ≤ 32 * 1 := by
  intro held hh
  have s := witness_RunOnBreaksTheItem.1
  refine ⟨⟨s.numbers, s.range, s.chained, s.blocks, s.agencyBlocks, s.agencyItems, s.blockLimit, s.itemLimit,
    fun l n h => s.receiving l n ?_⟩, ⟨rfl, rfl, rfl⟩, rfl, rfl, rfl, rfl, rfl, rfl, ?_⟩
  · rw [← h]; fin_cases l <;> rfl
  · revert held; decide +kernel

/-- An item whose chain holds all 2000 blocks that agency items may hold, with this room left, and line 0 receiving it
with this held string. -/
def longest (room : Nat) : Item :=
  { story 0 .filling [] with body := List.replicate (64000 - room) 2, blocks := 2000, committed := 64000 - room }
def fullStore (room : Nat) (held : Text) : Part :=
  ({ base with items := [longest room], store := { freeBlocks := 48, agencyBlocks := 2000, agencyItems := 1 } } :
    Part).modFr 0 fun fr => { fr with state := .body, item := some 0, held := held }

theorem longest_length (room : Nat) : (longest room).body.length = 64000 - room := List.length_replicate ..

theorem fullStore_sound (room : Nat) (held : Text) (h : room < 32) : (fullStore room held).StoreSound := by
  refine sound_of_one (it := longest room) rfl ?_ ⟨show 0 < 256 by decide, rfl, Nat.le_refl 2000, rfl⟩ fun l => ?_
  · unfold Item.Chained
    rw [longest_length]
    exact ⟨by unfold blocksFor longest; simp only [Config.blockSize]; omega, Nat.le_refl _⟩
  · fin_cases l
    · exact .inr ⟨rfl, rfl, rfl⟩
    all_goals exact .inl rfl

/-- A full chain, and no block for it. -/
theorem witness_block_refused : let p := fullStore 0 []
    p.StoreSound ∧ (p.fr 0).state = .body ∧ (p.fr 0).item = some 0 ∧ (p.fr 0).held = [] ∧ p.item? 0 = some (longest 0) ∧
      (longest 0).body.length = 32 * (longest 0).blocks ∧ ¬ (0 < p.store.freeBlocks ∧ p.store.agencyBlocks < 2000) :=
  ⟨fullStore_sound 0 [] (by decide), rfl, rfl, rfl, rfl, longest_length 0, by decide +kernel⟩

/-- Line 0 receiving that item with the closing sequence all but complete; and with a commit due at the next character. -/
theorem witness_ClosingSequenceClosesTheItem :
    (let p := runningOn.modFr 0 fun fr => { fr with held := txt "QJQ" };
      p.StoreSound ∧ p.QueuesOrdered ∧ p.BacklogsCounted ∧ (p.alarm.owing = [] ∧ (p.fr 0).state = .body ∧
        (p.fr 0).item = some 0 ∧ p.item? 0 = some (story 0 .filling (txt "VOTE")) ∧
        (p.fr 0).held ++ txt "J" = (p.fr 0).closing ∧ (p.fr 0).closing ≠ (p.fr 0).opening)) ∧
    let it := { story 0 .filling (List.replicate 31 2) with committed := 0 }
    let p := (withItems [it] base).modFr 0 fun fr => { fr with state := .body, item := some 0, release := 32 }
    p.alarm.owing = [] ∧ (p.fr 0).state = .body ∧ (p.fr 0).item = some 0 ∧ (p.fr 0).held = [] ∧ p.item? 0 = some it ∧
      (p.fr 0).opening.head? ≠ some 2 ∧ (p.fr 0).closing.head? ≠ some 2 ∧ it.body.length ≠ 32 * it.blocks ∧
      1 ≤ (p.fr 0).release ∧ (p.fr 0).release ≤ it.body.length + 1 - it.committed ∧
      ((p.modTx 1 fun tx => { tx with state := .waiting }).tx 1).state = .waiting := by
  have s := witness_RunOnBreaksTheItem.1
  refine ⟨⟨⟨s.numbers, s.range, s.chained, s.blocks, s.agencyBlocks, s.agencyItems, s.blockLimit, s.itemLimit,
    fun l n h => ?_⟩, fun c => ?_, fun c => ?_, by decide +kernel⟩, by decide +kernel⟩
  · refine s.receiving l n ?_
    rw [← h]; fin_cases l <;> rfl
  · fin_cases c <;> exact ordered_of_plain (by decide +kernel)
  · fin_cases c <;> exact counted_of_normal (by decide +kernel)

theorem witness_LookupFollowsPrecedence : lookup base.banks.active 0 (txt "PO") = some (coldRoute 0) ∧
    lookup [] 0 (txt "PO") = none := by decide +kernel

/-- The empty set and all eight circuits, classes 1 and 5, and a bank with room, with the key, and full without it. -/
theorem witness_RouteEditsThePendingBank : (txt "AZ").length = 2 ∧ (∀ c ∈ txt "AZ", isLetter c = true) ∧
    ([] : List Nat).Nodup ∧ [0, 1, 2, 3, 4, 5, 6, 7].Nodup ∧ (∀ d ∈ [0, 1, 2, 3, 4, 5, 6, 7], d ≤ 7) ∧
    (∀ k, some 5 = some k → 1 ≤ k ∧ k ≤ 5) ∧ (∀ k, some 1 = some k → 1 ≤ k ∧ k ≤ 5) ∧
    (List.replicate 64 (coldRoute 0)).any (fun x => x.key == { line := some 1, category := some (txt "AZ") }) = false := by
  refine ⟨by decide, by decide, by decide, by decide, by decide, ?_, ?_, by decide +kernel⟩ <;> rintro k ⟨⟩ <;> decide

/-- ANY twice; lines, digits, classes and alternates next to their ranges; each fault of a line, next to a line that is
right. -/
theorem witness_route_refused : (∀ t, (none : Option Text) = some t → t.length = 2 ∧ ∀ c ∈ t, isLetter c = true) ∧
    (∀ k, (none : Option Nat) = some k → 1 ≤ k ∧ k ≤ 5) ∧ 8 ≤ 8 ∧ 8 ≤ 9 ∧ 8 ≤ 10 ∧
    (∀ t ∈ [txt "A", txt "A1"], ¬ (t.length = 2 ∧ ∀ c ∈ t, isLetter c = true)) ∧
    (∀ set ∈ [[1, 1], [10], [0, 1, 2, 3, 4, 5, 6, 7, 8]], ¬ (set.length ≤ 8 ∧ set.Nodup ∧ ∀ d ∈ set, d ≤ 9) ∨
      ¬ ∀ d ∈ set, d ≤ 7) ∧ (∀ k ∈ [0, 6, 9, 10], ¬ (1 ≤ k ∧ k ≤ 5)) ∧
    (∀ x ∈ [(txt "ROUTE 8 PO 1", Reason.range), (txt "ROUTE 10 PO 1", .argument), (txt "ROUTE ANY P 1", .argument),
        (txt "ROUTE", .argument), (txt "ROUTE 1", .argument), (txt "ROUTE ANY ANY", .argument),
        (txt "ROUTE 1 PO 8", .range), (txt "ROUTE 1 PO 11", .argument), (txt "ROUTE 1 PO NONE FAST", .argument),
        (txt "ROUTE 1 PO 1 CLASS:6", .range), (txt "ROUTE 1 PO 1 CLASS:10", .argument),
        (txt "ROUTE 1 PO 1 ALT:8", .range), (txt "ROUTE 1 PO 1 CLASS:1 CLASS:6", .argument),
        (txt "ROUTE 1 PO 1 REPEAT:DROP", .argument)], readOrder x.1 base = .no x.2) ∧
    (∃ o, readRoute [txt "1", txt "PO", txt "1", txt "CLASS:1"] = .ok o) ∧
    tokens (txt "ROUTE 1 PO 1 CLASS:1 CLASS:6") =
      txt "ROUTE" :: txt "1" :: txt "PO" :: txt "1" :: ([txt "CLASS:1"] ++ txt "CLASS:6" :: []) := by
  refine ⟨by rintro t ⟨⟩, by rintro k ⟨⟩, by decide, by decide, by decide, by decide +kernel, by decide +kernel,
    by decide, by decide +kernel, ⟨_, rfl⟩, by decide +kernel⟩

/-- A key of two letters and ANY; circuits 8, 9 and 10; a category of one letter; a further token. -/
theorem witness_UnrouteRemovesOneKey : (∀ t, some (txt "AZ") = some t → t.length = 2 ∧ ∀ c ∈ t, isLetter c = true) ∧
    (∀ t, (none : Option Text) = some t → t.length = 2 ∧ ∀ c ∈ t, isLetter c = true) ∧ 8 ≤ 8 ∧ 8 ≤ 9 ∧ 8 ≤ 10 ∧
    ¬ ((txt "A").length = 2 ∧ ∀ c ∈ txt "A", isLetter c = true) ∧
    tokens (txt "UNROUTE 4 SP X") = txt "UNROUTE" :: txt "4" :: txt "SP" :: txt "X" :: [] ∧
    ∃ key, readUnroute [txt "4", txt "SP"] = .ok (.unroute key) := by
  refine ⟨?_, ?_, by decide, by decide, by decide, by decide, by decide +kernel,
    { line := some 4, category := some (txt "SP") }, by decide +kernel⟩
  · rintro t ⟨⟩; decide
  · rintro t ⟨⟩



theorem witness_CopybankAndEnactMoveWholeBanks :
    (let bank := List.replicate 64 (coldRoute 0)
      let s := on { base with banks := { active := bank, pending := bank } }
      s.part.banks.active.length ≤ 64 ∧ s.part.banks.pending.length ≤ 64 ∧ step s = .next s) ∧
    tokens (txt "COPYBANK X") = txt "COPYBANK" :: txt "X" :: [] ∧ (ran .enact State.reset).part.banks.active = [] ∧
    (∃ t, step State.reset = .next t) ∧ lookup (on base).part.banks.pending 0 ((base.item 0).category) = none ∧
    lookup ({ base with banks := { active := [], pending := base.banks.active } } : Part).banks.pending 0
      ((base.item 0).category) = some (coldRoute 0) ∧
    tokens (txt "ENACT X") = txt "ENACT" :: txt "X" :: [] :=
  ⟨⟨by decide +kernel, by decide +kernel, rfl⟩, by decide +kernel, by decide +kernel, ⟨_, rfl⟩, by decide +kernel,
    by decide +kernel, by decide +kernel⟩

/-- A full queue of 32 entries of class 4, for an arrival of class 3 and for one of class 4; and one that counts the
entry whose break line is being sent. -/
theorem witness_ArrivalsStandByClass : [entry 0 1, entry 1 3, entry 2 3, entry 3 5].Pairwise (fun a b => a.cls ≤ b.cls) ∧
    (let es := (List.range 31).map fun n => entry n 4
      let p := base.modQ 1 fun q => { q with entries := es ++ [entry 31 4] };
      ((p.q 1).held.map (·.item)).Nodup ∧ (∀ x ∈ (p.q 1).held, x.item ≠ 40) ∧ 32 ≤ p.queueCount 1 ∧
        (∀ x ∈ (p.q 1).entries, x.resume.isSome = true ∨ x.cls ≤ 4) ∧ (p.q 1).entries = es ++ entry 31 4 :: [] ∧
        (entry 31 4).resume = none ∧ 3 < (entry 31 4).cls ∧
        (∀ x ∈ (p.q 1).entries, x.resume = none → x.cls ≤ (entry 31 4).cls) ∧
        ∀ x ∈ ([] : List Entry), x.resume = none → x.cls ≠ (entry 31 4).cls) ∧
    32 ≤ (((printing .notice).modQ 1 fun q => { q with entries := (List.range 31).map fun n => entry (n + 1) 4 }).modTx 1
      fun tx => { tx with job := .breakLine }).queueCount 1 := by decide +kernel

/-- An empty queue and one of 31 entries, for an arrival it does not hold and for one that is queued or current; the
sender IDLE, WAITING and in COPY, a break of each kind pending, and a notice owed. -/
theorem witness_insertion : let many := (printing .waiting).modQ 1 fun q => { q with
      entries := (List.range 31).map (fun n => entry (n + 1) 4), breakClass := true, breakQuantum := true }
    (∀ p ∈ [base, queued, printing .copy, many], ((p.q 1).held.map (·.item)).Nodup ∧
      (∀ x ∈ (p.q 1).held, x.item ≠ 40) ∧ p.queueCount 1 < 32) ∧ many.queueCount 1 = 31 ∧
    (∃ x ∈ (queued.q 1).held, x.item = 0) ∧ (∃ x ∈ ((printing .copy).q 1).held, x.item = 0) ∧
    (queued.tx 1).state = .idle ∧ (queued.tx 1).owed = [] ∧ (many.tx 1).state = .waiting ∧
    ((printing .copy).tx 1).state = .copy ∧ ((base.modTx 1 fun tx => { tx with owed := [210] }).tx 1).owed ≠ [] := by
  decide +kernel

theorem witness_PrioritySelectsTheFirstEligible : (queued.q 1).force.mode = .priority ∧ (queued.q 1).current = none ∧
    (queued.choose 1).isSome = true ∧ (base.choose 1).isNone = true := by decide +kernel

/-- A selection above the preempt threshold, by the turn, and one within it; and with nothing queued. -/
theorem witness_RotationServesTheTurn : (∀ preempt ∈ [0, 2, 3],
    let p := queued.modQ 1 fun q => { q with force := { q.force with mode := .rotation, preempt := preempt }, turn := 8 }
    (p.q 1).force.mode = .rotation ∧ (p.q 1).current = none ∧ (p.q 1).turn ≤ 8 ∧
      (p.q 1).entries = [] ++ entry 0 3 :: [] ∧ p.eligible (entry 0 3) = true ∧ (∀ e ∈ (p.q 1).entries, 1 ≤ e.cls) ∧
      (p.choose 1).map (·.byTurn) = some (decide (preempt < 3))) ∧
    ((base.modQ 1 fun q => { q with force := { q.force with mode := .rotation } }).choose 1).isNone = true ∧
    (∀ c, (queued.q c).TurnWithin) ∧ ∃ t, step (on queued) = .next t :=
  ⟨by decide +kernel, by decide +kernel, fun c => ⟨by fin_cases c <;> decide +kernel, by fin_cases c <;> decide +kernel⟩,
    _, rfl⟩

/-- One with an entry eligible, one without. -/
theorem witness_StallExpiryBreaksOrRaises : ∀ x ∈ [(queued, true), (base, false)],
    let p := x.1.modQ 1 fun q => { q with current := some (entry 1 5), stall := some 30 }
    p.inReset = false ∧ (p.q 1).stall.isSome = true ∧ (p.q 1).entries.any p.eligible = x.2 ∧ 1 ≠ p.orders.desk := by
  decide +kernel

/-- At its age limit to the second, and one second before it. -/
theorem witness_LapseRemovesTheFirstOverdue :
    let p := { queued with clock := 60 }.modQ 1 fun q => { q with ages := #v[0, 0, 1, 0, 0] }
    p.inReset = false ∧ (p.q 1).entries = [] ++ entry 0 3 :: [] ∧ (∀ x ∈ ([] ++ [] : List Entry), x.item ≠ (entry 0 3).item) ∧
      (∀ x ∈ ([] : List Entry), overdue p.clock (p.q 1) x = false) ∧ (entry 0 3).resume = none ∧
      (p.q 1).ageLimit (entry 0 3).cls ≠ 0 ∧ (p.q 1).ageLimit (entry 0 3).cls * 60 ≤ p.clock - (entry 0 3).admitted ∧
      (1 : CircNo) ≠ p.orders.desk ∧
      ∀ e ∈ (p.q 1).entries, overdue 59 (p.q 1) e = false := by decide +kernel

/-- The invariants of the queues hold of the part with one item queued. -/
theorem queued_sound : queued.QueuesOrdered ∧ queued.BacklogsCounted ∧ queued.HoldersCounted := by
  have held : ∀ c, (queued.q c).held = if c = 1 then [entry 0 3] else [] := by decide +kernel
  refine ⟨fun c => ?_, fun c => ?_, by decide +kernel, fun c => ?_, by decide +kernel, fun c e he => ?_⟩
  · fin_cases c <;> exact ordered_of_plain (by decide +kernel)
  · fin_cases c <;> exact counted_of_normal (by decide +kernel)
  · rw [held]; split <;> decide
  · rw [held] at he
    split at he
    · exact ⟨story 0 .closed (txt "VOTE"), by decide +kernel, by rw [List.mem_singleton.mp he]; rfl⟩
    · cases he

theorem witness_PurgeRemovesUnbrokenEntries : (on queued).TakesOrder ∧ (on queued).part.QueuesOrdered ∧
    (on queued).part.BacklogsCounted ∧ (on queued).part.HoldersCounted ∧
    (∀ t, some (txt "BUDGET") = some t → isSlug t = true) ∧ ∀ t, (none : Option Text) = some t → isSlug t = true := by
  refine ⟨⟨rfl, rfl, rfl⟩, queued_sound.1, queued_sound.2.1, queued_sound.2.2, ?_, ?_⟩
  · rintro t ⟨⟩; decide +kernel
  · rintro t ⟨⟩

/-- A story queued on circuit 1, and a kill or a rewrite of it. -/
theorem witness_RewriteAndKillPurgeTheirKey : ∀ kind ∈ [Kind.kill, .rewrite],
    let k := { story 1 .filling [] with kind := kind, holders := 0 }
    let p := { queued with items := queued.items ++ [k] }
    p.QueuesOrdered ∧ p.BacklogsCounted ∧ p.HoldersCounted ∧ p.items = [story 0 .closed (txt "VOTE")] ++ k :: [] := by
  have held : ∀ c, (queued.q c).held = if c = 1 then [entry 0 3] else [] := by decide +kernel
  intro kind hk
  refine ⟨queued_sound.1, queued_sound.2.1, ⟨?_, queued_sound.2.2.single, ?_, fun c e he => ?_⟩, rfl⟩
  · revert kind; decide +kernel
  · revert kind; decide +kernel
  · obtain ⟨it, h, e⟩ := queued_sound.2.2.refers c e he
    exact ⟨it, List.mem_append_left _ h, e⟩

/-- No frame, and two frames. -/
theorem witness_FrameSentWithinALine : queued.inReset = false ∧ queued.alarm.owing = [] ∧ queued.BacklogsCounted ∧
    (queued.tx 1).out = [] ∧ ∃ p : Part, p.inReset = false ∧ p.alarm.owing = [] ∧ p.BacklogsCounted ∧
      (p.tx 1).out = frameOf .five 28 13 .cr :: frameOf .five 29 10 .lf :: [] := by
  refine ⟨rfl, rfl, queued_sound.2.1, by decide +kernel,
    queued.modTx 1 fun tx => { tx with out := lineEndFrames .five 0 }, rfl, rfl, fun c => ?_, by decide +kernel⟩
  fin_cases c <;> exact counted_of_normal (by decide +kernel)

/-- Circuit 1 about to send the last frame of this job. -/
def ending (job : Job) : Part :=
  (printing .copy).modTx 1 fun tx => { tx with job := job, out := [frameOf .five 31 127 .fill] }

/-- R125: a line end with no fill puts the shift in letters only with unshift-on-line-end ON, and a fill always does. -/
theorem test_unshift : ∀ unshift ∈ [true, false], ∀ fills ∈ [0, 1],
    let p := (ending .heading).modTx 1 fun tx => { tx with
      shift := .figures, force := { tx.force with unshift := unshift, fills := fills }, out := [frameOf .five 29 10 .lf] }
    ((ran (.frameSent 1) (on p)).part.tx 1).shift = if unshift || fills = 1 then .letters else .figures := by
  decide +kernel

/-- The last frame of each output line with a current entry, and of an owed notice without one. -/
theorem witness_last_frame : (∀ job ∈ [Job.startEnd .heading, .startEnd .body, .heading, .body 4 false, .body 4 true,
      .lastEnd 4 false, .trailer, .killLine], (ending job).inReset = false ∧ (ending job).alarm.owing = [] ∧
      (ending job).BacklogsCounted ∧ (ending job).QueuesOrdered ∧ ((ending job).q 1).turn ≤ 8 ∧
      ((ending job).tx 1).out = [frameOf .five 31 127 .fill] ∧ ((ending job).tx 1).job = job ∧
      ((ending job).q 1).current = some (entry 0 3)) ∧
    ((queued.modTx 1 fun tx => { tx with job := .owed, owed := [210] }).q 1).current = none := by
  have same : ∀ job c, ((ending job).circ c).q = ((printing .copy).circ c).q ∧
      ((ending job).circ c).load = ((printing .copy).circ c).load := by
    intro job c; fin_cases c <;> exact ⟨rfl, rfl⟩
  have sound : ∀ c, ((printing .copy).circ c).Counted ∧ ((printing .copy).circ c).Ordered := by
    intro c
    fin_cases c <;> exact ⟨counted_of_normal (by decide +kernel), ordered_of_plain (by decide +kernel)⟩
  have plain : ∀ job ∈ [Job.startEnd .heading, .startEnd .body, .heading, .body 4 false, .body 4 true, .lastEnd 4 false,
      .trailer, .killLine], ∀ c, ((ending job).circ c).tx.job.isBreak = false := by decide +kernel
  refine ⟨fun job hj => ⟨rfl, rfl, fun c => ?_, fun c => ?_, ?_⟩, by decide +kernel⟩
  · obtain ⟨hq, hl⟩ := same job c
    have s := (sound c).1
    exact ⟨by rw [hq]; exact s.single, by rw [hq, hl]; exact s.backlog, by rw [hq]; exact s.estimates,
      by rw [hl]; exact s.relation, by rw [hl]; exact s.agrees⟩
  · obtain ⟨hq, -⟩ := same job c
    have s := (sound c).2
    exact ⟨by rw [hq]; exact s.order, by rw [hq]; exact s.single, by rw [hq]; exact s.count,
      fun h => by rw [plain job hj c] at h; cases h⟩
  · revert job; decide +kernel

/-- A break line with a current entry that carries its resume point. -/
theorem witness_last_break : let p := (ending .breakLine).modQ 1 fun q => { q with
      current := some { entry 0 3 with resume := some { offset := 0, line := 1 } } }
    (p.tx 1).job = .breakLine ∧ (p.tx 1).job.isBreak = true ∧ ∀ e, (p.q 1).current = some e → e.resume.isSome := by
  decide +kernel

/-- The last character of an ended item; a full width and one more; a line end within the width. -/
theorem witness_FormedLineFitsTheWidth : (1 ≤ 1 ∧ 3 < (txt "VOTE").length) ∧ 0 < (txt "VOTE").length ∧
    3 + 1 ≤ (txt "VOTE").length - 0 ∧ 1 < (txt "VO" ++ [lineEndChr]).length ∧
    lineEndChr ∈ ((txt "VO" ++ [lineEndChr]).drop 1).take (1 + 1) := by decide +kernel
/-- Each step of R130, with width 4 and margin 2: a line end at the first and at the last place of the width; one and
four last characters; a space and a line end after the width; the last space at both ends of the margin; and a space
that is outside the margin. -/
theorem witness_line_steps : let stands := fun (body : Text) (c : Chr) (j : Nat) => body[0 + j]? = some c
    let unbroken := fun body : Text => ∀ j, j < 4 → ¬ stands body lineEndChr j
    let past := fun body : Text => unbroken body ∧ 0 + 4 < body.length
    let inside := fun body : Text => past body ∧ ¬ stands body spaceChr 4 ∧ ¬ stands body lineEndChr 4
    (∀ x ∈ [(0, 48 :: txt "VOTE"), (3, txt "VOT" ++ [48])], x.1 < 4 ∧ stands x.2 lineEndChr x.1 ∧
      ∀ i, i < x.1 → ¬ stands x.2 lineEndChr i) ∧
    (∀ body ∈ [txt "V", txt "VOTE"], unbroken body ∧ body.length ≤ 0 + 4) ∧
    (past (txt "VOTE X") ∧ stands (txt "VOTE X") spaceChr 4 ∧ past (txt "VOTE" ++ [48]) ∧
      stands (txt "VOTE" ++ [48]) lineEndChr 4) ∧
    (∀ x ∈ [(2, txt "VO TES"), (3, txt "VO  TES"), (3, txt "VOT ES")], inside x.2 ∧ 4 - 2 ≤ x.1 ∧ x.1 < 4 ∧
      stands x.2 spaceChr x.1 ∧ ∀ i, i < 4 → x.1 < i → ¬ stands x.2 spaceChr i) ∧
    (inside (txt "V OTES") ∧ ∀ j, j < 4 → 4 - 2 ≤ j → ¬ stands (txt "V OTES") spaceChr j) ∧
    (inside (txt "VOT ES") ∧ ∀ j, j < 4 → ¬ 4 - 0 ≤ j) := by
  refine ⟨?_, ?_, ?_, ?_, ?_⟩ <;> decide +kernel
/-- An ended item at its end and one character before it; a filling one with the character past the width, with the line
end at its place, and with neither. -/
theorem witness_examination : let ended := story 0 .closed (txt "VOTE")
    let filling := fun body : Text => story 0 .filling body
    ended.ended = true ∧ ended.committed = ended.body.length ∧ ended.body.length ≤ 4 ∧ ¬ ended.body.length ≤ 3 ∧
    (filling (txt "VOTES")).ended = false ∧ 4 + 1 ≤ (filling (txt "VOTES")).committed - 0 ∧
    lineEndChr ∈ (((filling (txt "VOT" ++ [48])).body.take 4).drop 0).take (3 + 1) ∧
    ¬ (4 + 1 ≤ (filling (txt "VOTE")).committed - 0 ∨ lineEndChr ∈ (((filling (txt "VOTE")).body.take 4).drop 0).take (4 + 1)) ∧
    ((printing .copy).q 1).current = some (entry 0 3) := by decide +kernel

theorem witness_HoldStopsOrWaits : (base.tx 1).state = .idle ∧ (base.tx 1).out = [] ∧ (base.tx 1).state ≠ .held ∧
    ∀ st ∈ [SenderState.waiting, .heading, .copy, .notice, .trailer, .held], ((printing st).tx 1).state = st := by
  decide +kernel

/-- With nothing to select; with an eligible entry; with a notice owed. -/
theorem witness_FreeGoesOnFromTheHeldPosition : ∀ pos ∈ [HeldPos.nothingDue, .selectionDue],
    let held := fun (p : Part) => p.modTx 1 fun tx => { tx with state := .held, heldPos := pos }
    let choice := fun (p : Part) => (p.modQ 1 fun q => { q with force := q.ordered }).choose 1
    (on (held base)).TakesOrder ∧ ((held base).tx 1).state = .held ∧ ((held base).tx 1).heldPos = pos ∧
      ((held base).tx 1).owed = [] ∧ choice (held base) = none ∧ ((held queued).tx 1).owed = [] ∧
      choice (held queued) = some { entry := entry 0 3, byTurn := false, turn := 0, turnLines := 0 } ∧
      (((held base).modTx 1 fun tx => { tx with owed := [210] }).tx 1).owed ≠ [] := by
  refine fun pos hp => ⟨⟨rfl, rfl, rfl⟩, ?_⟩
  revert pos
  decide +kernel

/-- Held in mid-item with a more urgent entry and without, on a body that goes on, has ended and has all been sent; the
body of an ended item sent with a break pending, and the same held after its heading. -/
theorem witness_free_mid_item : ∀ pos ∈ [HeldPos.lineEnd true, .lineEnd false, .waiting], ∀ offset ∈ [0, 4],
    let p := (printing .held).modTx 1 fun tx => { tx with heldPos := pos, offset := offset }
    let due := p.modQ 1 fun q => { q with breakClass := true, entries := [entry 1 1] }
    let sent := p.modItem 0 fun it => { it with body := txt "VOTE", state := .closed }
    (p.tx 1).state = .held ∧ (p.tx 1).heldPos = pos ∧ (p.tx 1).startMark = false ∧ p.breakDue 1 = false ∧
      (({ due with items := due.items ++ [story 1 .closed (txt "WIN")] } : Part).breakDue 1) = true ∧
      ((sent.q 1).current.any fun e => (sent.item e.item).ended &&
        decide ((sent.item e.item).body.length ≤ (sent.tx 1).offset)) = decide (offset = 4) := by decide +kernel

theorem witness_EstimateFollowsTheFormula : (story 0 .closed []).category.length = 2 ∧ (entry 0 3).cls ≤ 9 ∧
    (base.tx 1).ordered.margin < (base.tx 1).ordered.width ∧ 16 < 32 := by decide +kernel

/-- LOADED with class 5, CONGESTED with class 4: with no alternate, with a refusing one, and with one that admits, whose
queue has room, is full of the same class, and holds the item. -/
theorem witness_GateShedsOrDiverts : let rt := { coldRoute 0 with alt := some 2 }
    let p := (withItems [story 0 .filling []] base).modLoad 0 fun ld => { ld with state := .loaded }
    let full := p.modQ 2 fun q => { q with entries := (List.range 32).map fun n => entry (n + 1) 5 }
    p.alarm.owing = [] ∧ 1 ≤ 5 ∧ 5 ≤ 5 ∧ ((p.load 0).state = .loaded ∧ 5 = 5) ∧ rt.alt = some 2 ∧
      (2 : CircNo) ≠ 0 ∧ (2 : CircNo) ∉ rt.circuits ∧ (p.load 2).state = .normal ∧ 2 ≠ p.orders.desk ∧
      0 ≠ p.orders.desk ∧ (∀ e ∈ (full.q 2).held, e.item ≠ 0) ∧ p.queueCount 2 < 32 ∧
      ¬ (full.queueCount 2 < 32 ∨ ∃ e ∈ (full.q 2).entries, e.resume = none ∧ 5 < e.cls) ∧
      (∃ e ∈ (full.q 2).held, e.item = 1) ∧ (coldRoute 0).alt = none ∧
      (((p.modLoad 2 fun ld => { ld with state := .congested }).load 2).state = .congested ∧ 4 ≤ 4) := by
  decide +kernel
/-- NORMAL with class 5, LOADED with class 4, CONGESTED with class 3: a queue with room, one that has an entry to
displace, and one that has none; the desk circuit with no notice to make; and an item that the queue holds. -/
theorem witness_gate_admits : let item := withItems [story 0 .filling []] base
    let full := item.modQ 0 fun q => { q with entries := (List.range 32).map fun n => entry (n + 1) 4 }
    let silent := modFlags allFlags (fun x => { x with notice := false }) item
    (∀ x ∈ [(Overload.normal, 5), (.loaded, 4), (.congested, 3)], 1 ≤ x.2 ∧ x.2 ≤ 5 ∧
      ¬ ((x.1 = .loaded ∧ x.2 = 5) ∨ (x.1 = .congested ∧ 4 ≤ x.2))) ∧ item.alarm.owing = [] ∧ silent.alarm.owing = [] ∧
    (∀ e ∈ (item.q 0).held, e.item ≠ 0) ∧ item.queueCount 0 < 32 ∧ 0 ≠ item.orders.desk ∧
    (∀ e ∈ (full.q 0).held, e.item ≠ 0) ∧ 32 ≤ full.queueCount 0 ∧ ((full.q 0).held.map (·.item)).Nodup ∧
    (∃ e ∈ (full.q 0).entries, e.resume = none ∧ 3 < e.cls) ∧
    ¬ (full.queueCount 0 < 32 ∨ ∃ e ∈ (full.q 0).entries, e.resume = none ∧ 4 < e.cls) ∧
    (∀ f ∈ allFlags, (silent.flag f).raised = true ∨ (silent.flag f).notice = false) ∧
    ∃ e ∈ (full.q 0).held, e.item = 1 := by decide +kernel

/-- Each clause at its boundary. -/
theorem witness_EvaluationFollowsTheThresholds : ∀ ld ∈ [{ coldLoad with backlog := 12000 },
      { coldLoad with backlog := 11999 }, { coldLoad with backlog := 6000, state := .loaded },
      { coldLoad with backlog := 11000, state := .congested },
      { coldLoad with backlog := 10999, state := .congested }, { coldLoad with backlog := 5000, state := .congested },
      { coldLoad with backlog := 5999 },
      { coldLoad with backlog := 5000, state := .loaded }, { coldLoad with backlog := 4999, state := .congested }],
    ld.hyst < ld.loadOn ∧ ld.loadOn ≤ ld.congOn := by decide +kernel

/-- A full history, whose head is evicted. -/
theorem witness_NewKeyIsFresh : let x : HistEntry :=
      { line := 1, category := txt "SP", slug := txt "OPEN", take := 1, signatures := [], lastUse := 0 }
    let y : HistEntry := { x with slug := txt "RACE" }
    let h : History := { entries := x :: List.replicate 63 y, threshold := 2 }
    let it := story 0 .closed []
    (∀ x ∈ h.entries, ¬ (x.line = 0 ∧ x.category = it.category ∧ x.slug = it.slug ∧ x.take = it.take)) ∧
      64 ≤ h.entries.length ∧ h.entries.head? = some x ∧
      (∀ y ∈ h.entries.drop 1, ¬ (y.line = x.line ∧ y.category = x.category ∧ y.slug = x.slug ∧ y.take = x.take)) ∧
      ¬ (x.line = 0 ∧ x.category = it.category ∧ x.slug = it.slug ∧ x.take = it.take) ∧
      (let p := { withItems [it] base with history := h }; p.history = h ∧ p.item? 0 = some it ∧ it.source = some 0 ∧
        it.kind ≠ .kill ∧ it.killed = false) := by decide +kernel

/-- D at the threshold, and one more. -/
theorem witness_ThresholdIsSetByRepeat : let it := story 0 .closed []
    let old : HistEntry := { line := 0, category := txt "PO", slug := txt "BUDGET", take := 2, signatures := [1, 2], lastUse := 0 }
    (48 ≤ 48 ∧ 48 < 49 ∧ base.history.threshold ≤ 48) ∧
      (({ entries := [old], threshold := 2 } : History).entries.find? (keyOf 0 it) = some old) ∧
      changedLines old.signatures it.signatures ≤ 2 ∧ 1 < changedLines old.signatures it.signatures := by decide +kernel

/-- The ends of the ranges; an open time just above a running space timer, and one that it has reached; sequences of 2
and 6 letters. -/
theorem witness_LineSettingOrdersStoreTheirValue : (32 ≤ 32 ∧ 32 ≤ 4096) ∧ (32 ≤ 4096 ∧ 4096 ≤ 4096) ∧ 1 ≤ 15 ∧
    (let p := (ran (.leadingEdge 0) State.reset).part; (p.rx 0).cond = .ready ∧ ∀ t ∈ (p.rx 0).spaceTimer, t < 1) ∧
    (let p := base.modRx 0 fun rx => { rx with pin := .space, spaceTimer := some 3 };
      (p.rx 0).cond = .ready ∧ (p.rx 0).spaceTimer = some 3 ∧ 3 ≤ 3) ∧
    (∀ t ∈ [txt "AZ", txt "ABCDEZ"], 2 ≤ t.length ∧ t.length ≤ 6 ∧ (∀ c ∈ t, isLetter c = true) ∧ (base.fr 0).held = [] ∧
      t ≠ (base.fr 0).closing ∧ t ≠ (base.fr 0).opening) := by decide +kernel
/-- Held characters: between items; the last that a heading takes, and one more; the last of an order line and one more,
and a line past the 24th. -/
theorem witness_held_released :
    let holding := fun (st : FramerState) (p : Part) => p.modFr 7 fun fr => { fr with state := st, held := txt "QX" }
    (∀ st ∈ [FramerState.hunt, .discard], (on (holding st base)).TakesOrder ∧ ((holding st base).fr 7).state = st) ∧
    (∀ x ∈ [(78, true), (79, false), (80, false)],
      let p := (holding .heading base).modFr 7 fun fr => { fr with heading := List.replicate x.1 2 }
      (on p).TakesOrder ∧ (p.fr 7).state = .heading ∧ (p.fr 7).held ≠ [] ∧ (∀ c ∈ (p.fr 7).held, isLetter c = true) ∧
        (p.fr 7).heading.length ≤ 80 ∧ decide ((p.fr 7).heading.length + (p.fr 7).held.length ≤ 80) = x.2) ∧
    ∀ x ∈ [(78, 24, []), (79, 0, txt "X"), (80, 0, txt "QX"), (0, 24, txt "QX"), (0, 23, [])],
      let lines := List.replicate x.2.1 (txt "ENACT")
      let cur : Text := List.replicate x.1 2
      let p := (holding .order base).setBuffer (.collecting 7 44 lines cur)
      (on p).TakesOrder ∧ (p.fr 7).state = .order ∧ p.orders.buffer = .collecting 7 44 lines cur ∧
        (∀ c ∈ (p.fr 7).held, isLetter c = true) ∧ cur.length ≤ 80 ∧ lines.length ≤ 24 ∧
        (if cur = [] ∧ lines.length = 24 then (p.fr 7).held else (p.fr 7).held.drop (80 - cur.length)) = x.2.2 := by
  refine ⟨fun st h => ⟨⟨rfl, rfl, rfl⟩, ?_⟩, fun x h => ⟨⟨rfl, rfl, rfl⟩, ?_⟩, fun x h => ⟨⟨rfl, rfl, rfl⟩, ?_⟩⟩
  · revert st; decide +kernel
  · revert x; decide +kernel
  · revert x; decide +kernel
/-- Characters held in BODY: the last that a block takes; a full chain and a part-filled one that is granted a block; the
last before a commit, and the one that brings it; and a block refused at once, and after one character. -/
theorem witness_held_body : (∀ x ∈ [(30, 30, 32), (32, 0, 32), (31, 31, 32), (31, 0, 0), (29, 0, 32), (30, 0, 32)],
      let it := { story 0 .filling (List.replicate x.1 2) with committed := x.2.1 }
      let p := (withItems [it] base).modFr 0 fun fr => { fr with
        state := .body, item := some 0, held := txt "QX", release := x.2.2 }
      let stored := it.body.length + (p.fr 0).held.length
      (on p).TakesOrder ∧ (p.fr 0).state = .body ∧ (p.fr 0).item = some 0 ∧ p.item? 0 = some it ∧ it.state = .filling ∧
        (p.fr 0).held ≠ [] ∧ (∀ c ∈ (p.fr 0).held, isLetter c = true) ∧ (stored ≤ 32 * it.blocks ∨
          (it.body.length ≤ 32 * it.blocks ∧ (p.fr 0).held.length ≤ 32 ∧ (0 < p.store.freeBlocks ∧ p.store.agencyBlocks < 2000) ∧
            ((p.fr 0).release = 0 ∨ it.body.length = 32 * it.blocks ∨ stored - it.committed < (p.fr 0).release))) ∧
        (if (p.fr 0).release = 0 ∨ stored - it.committed < (p.fr 0).release then x ≠ (30, 0, 32) ∧ x ≠ (32, 0, 32)
          else 0 < (p.fr 0).release ∧ (p.fr 0).release ≤ stored - it.committed ∧
            (p.fr 0).held.length ≤ (p.fr 0).release)) ∧
    ∀ room ∈ [0, 1], let p := fullStore room (txt "QX")
      (on p).TakesOrder ∧ p.StoreSound ∧ (p.fr 0).state = .body ∧ (p.fr 0).item = some 0 ∧
        p.item? 0 = some (longest room) ∧ (longest room).state = .filling ∧ (p.fr 0).held = txt "QX" ∧
        ¬ (0 < p.store.freeBlocks ∧ p.store.agencyBlocks < 2000) ∧
        ((longest room).body.length ≤ 32 * (longest room).blocks ∧
          32 * (longest room).blocks < (longest room).body.length + (txt "QX").length ∧
          32 * (longest room).blocks - (longest room).committed < (p.fr 0).release) := by
  refine ⟨fun x h => ⟨⟨rfl, rfl, rfl⟩, ?_⟩, fun room h => ⟨⟨rfl, rfl, rfl⟩, fullStore_sound room _ ?_, rfl, rfl, rfl, rfl,
    rfl, ?_, ?_⟩⟩
  · revert x; decide +kernel
  · revert room; decide
  · revert room; decide +kernel
  · rw [longest_length]; revert room; decide +kernel

theorem witness_LineRestartAndParkOrders : Rate.ofBaud 50 = some .b50 ∧ Rate.ofBaud 300 = some .b300 ∧
    (base.rx 0).cond ≠ .parked ∧ ((ran (.linePark 0 true) State.reset).part.rx 0).cond = .parked ∧
    (ran (.linePark 0 true) State.reset).TakesOrder :=
  ⟨by decide, by decide, by decide +kernel, by decide +kernel, by decide +kernel, by decide +kernel, by decide +kernel⟩

theorem witness_CircSettingOrdersStoreTheirValue : Rate.ofBaud 50 = some .b50 ∧ Rate.ofBaud 300 = some .b300 ∧ 0 ≤ 4 ∧
    4 ≤ 4 ∧ 0 ≤ 255 ∧ 255 ≤ 255 ∧ (5 ≤ 5 ∧ 5 ≤ 255) ∧ (base.tx 0).state = .idle ∧ ((printing .copy).tx 1).state = .copy := by
  decide +kernel

/-- The ends of the three ranges. -/
theorem witness_CircPaperOrdersReestimate : ∀ k ∈ [32, 80], ∀ m ∈ [0, 16], ∀ n ∈ [0, 7],
    (32 ≤ k ∧ k ≤ 80 ∧ Instr.circWidth 1 k = .circWidth 1 k) ∧ (m ≤ 16 ∧ Instr.circMargin 1 m = .circMargin 1 m) ∧
      (n ≤ 7 ∧ Instr.circFill 1 n = .circFill 1 n) ∧ (1 : CircNo) ≠ base.orders.desk := by decide +kernel

/-- With an entry at the new limit to the second, with one a second short of it, and with no limit. -/
theorem witness_CircAgeOrderSetsTheLimit : 0 ≤ 255 ∧ 255 ≤ 255 ∧ (1 : CircNo) ≠ queued.orders.desk ∧
    ((queued.q 1).held.map (·.item)).Nodup ∧ (queued.circ 1).tally.lapsed ≤ 9999999 ∧
    (let due := fun (clock minutes : Nat) (e : Entry) => e.cls = 2 + 1 ∧ e.resume = none ∧ minutes ≠ 0 ∧
        minutes * 60 ≤ clock - e.admitted;
      (∃ e ∈ (queued.q 1).entries, due 60 1 e) ∧ (∀ e ∈ (queued.q 1).entries, ¬ due 59 1 e) ∧
        ∀ e ∈ (queued.q 1).entries, ¬ due 60 0 e) ∧ (on { queued with clock := 60 }).TakesOrder :=
  ⟨by decide, by decide, by decide +kernel, by decide +kernel, by decide +kernel, by decide +kernel, ⟨rfl, rfl, rfl⟩⟩

/-- Each key, with a relation that fails and one that just holds. -/
theorem witness_CircThresholdOrdersEvaluate : let ld := base.load 1
    999999 ≤ 999999 ∧ ¬ ({ ld with loadOn := 1000 }.hyst < 1000 ∧ 1000 ≤ ld.congOn) ∧
      ({ ld with loadOn := 1001 }.hyst < 1001 ∧ 1001 ≤ ld.congOn) ∧
      (ld.hyst < ld.loadOn ∧ ld.loadOn ≤ { ld with congOn := 6000 }.congOn) ∧ ({ ld with hyst := 5999 }.hyst < ld.loadOn) ∧
      (1 : CircNo) ≠ base.orders.desk ∧
      (evaluated { ld with backlog := 6000, congOn := 6000 } = .congested ∧ ld.state ≠ .congested) := by decide +kernel

/-- One flag, ALL, a repeated flag and none. -/
theorem witness_AlarmOrdersActOnNamedFlags : [Flag.lapsed] ≠ [] ∧ [Flag.lapsed].Nodup ∧ FlagPick.all = .all ∧
    ¬ [Flag.lapsed, .lapsed].Nodup ∧ ([] : List Flag) = [] ∧ base.inReset = false ∧
    (base.flag .lapsed).enabled = true ∧ (raise .lapsed 1 base).alarmLow = true ∧ base.alarmLow = false := by
  decide +kernel

/-- An empty table and store with room; a full desk queue; a full table; and a store with a block too few. -/
theorem witness_UnitItemsAreMadeWholeOrLost : base.alarm.owing = [] ∧
    (0 < 256 ∧ (∀ it ∈ base.items, it.num ≠ 0) ∧ (∀ k, k < 0 → ∃ it ∈ base.items, it.num = k) ∧
      (1536 + 31) / 32 ≤ base.store.freeBlocks ∧ (base.q base.orders.desk).held.length < 32 ∧
      (∀ e ∈ (base.q base.orders.desk).held, e.item ≠ 0) ∧ (base.flag .congested).raised = false) ∧
    (((modFlags allFlags (fun x => { x with notice := false }) base).flag .congested).notice = false ∧
      ((raise .congested 1 base).flag .congested).raised = true) ∧
    (let p := base.modQ 7 fun q => { q with entries := (List.range 32).map fun n => entry (n + 1) 2 };
      32 ≤ p.queueCount p.orders.desk ∧ (∀ e ∈ (p.q p.orders.desk).held, e.item ≠ 0) ∧
        (∀ e ∈ (p.q p.orders.desk).entries, e.resume.isSome = true ∨ e.cls ≤ 2) ∧ (p.flag .queueFull).notice = false) ∧
    (let p := { base with items := (List.range 256).map fun n => story n .closed [] };
      (∀ k < 256, ∃ it ∈ p.items, it.num = k) ∧ (p.flag .storeFull).raised = false ∧
        (p.flag .storeFull).notice = true) ∧
    ({ base with store := { base.store with freeBlocks := 47 } } : Part).store.freeBlocks < (1536 + 31) / 32 := by
  decide +kernel

theorem witness_DeskAndUnitOrdersStoreTheirValue : (txt "AZ").length = 2 ∧ ∀ c ∈ txt "AZ", isLetter c = true := by decide

/-- The values next to each range: numbers, sequences, addresses and slugs. -/
theorem witness_RefusedOrdersChangeNothing : Rate.ofBaud 49 = none ∧ Rate.ofBaud 301 = none ∧ 15 < 16 ∧
    (1 ≠ 0 ∧ 1 < 32) ∧ 31 < 32 ∧ 4096 < 4097 ∧ 80 < 81 ∧ 16 < 17 ∧ 7 < 8 ∧ 4 < 5 ∧ 255 < 256 ∧ 4 < 5 ∧ 999999 < 1000000 ∧
    48 < 49 ∧ isUnknownLine (txt "HALT 3") = true ∧ 8 ≤ 8 ∧ 8 ≤ 9 ∧ 8 ≤ 10 ∧ (txt "A").length < 2 ∧
    6 < (txt "ABCDEFG").length ∧ (∃ c ∈ txt "A1", isLetter c = false) ∧ txt "QJQJ" = (base.fr 0).closing ∧
    txt "QXQX" = (base.fr 0).opening ∧
    ∀ t ∈ [txt "A", txt "A1", txt "ABC"], ¬ (t.length = 2 ∧ ∀ c ∈ t, isLetter c = true) := by decide +kernel
theorem witness_slug_refused : ∀ t ∈ [[], txt "1A", txt "A.B"], ¬ ∃ first more, t = first :: more ∧
    isLetter first = true ∧ ∀ c ∈ more, isLetter c = true ∨ isDigit c = true ∨ c = 38 := by
  rintro t ht ⟨first, more, rfl, h, hm⟩
  have all : ∀ t ∈ [[], txt "1A", txt "A.B"], t = [] ∨ isLetter (t.headD 0) = false ∨
      ∃ c ∈ t.tail, ¬ (isLetter c = true ∨ isDigit c = true ∨ c = 38) := by decide +kernel
  rcases all _ ht with h' | h' | ⟨c, hc, h'⟩
  · cases h'
  · rw [List.headD_cons, h] at h'; cases h'
  · exact h' (hm c hc)

/-- A refused line, an accepted one and a RESTART, each with one after it and as the last. -/
theorem witness_IdleStepTakesAnOrderLineOrIdles :
    (State.reset.pending = [] ∧ base.orders.buffer.isExecuting = false) ∧
    ∀ x ∈ [(txt "HALT", Checked.no Reason.unknown), (txt "LINE 0 SHIFT:ON", .ok (.line 0 { shift := some true })),
        (txt "RESTART WARM", .ok .restartWarm), (txt "RESTART COLD", .ok .restartCold)],
      ∀ rest ∈ [[txt "FREE 1"], []],
        let s := on (base.setBuffer (.executing 7 44 (x.1 :: rest) 0 []))
        s.pending = [] ∧ s.part.inReset = false ∧ s.part.alarm.owing = [] ∧
          s.part.orders.buffer = .executing 7 44 (x.1 :: rest) 0 [] ∧ readOrder x.1 s.part = x.2 := by decide +kernel

/-- A line for each command that may stand for one, at the ends of its range. -/
theorem witness_order_lines : ∀ x ∈ [(txt "LINE 0 RATE:300", Order.line 0 { rate := some .b300 }),
      (txt "LINE 7 CODE:SEVEN", .line 7 { code := some .seven }), (txt "LINE 0 OPEN:15", .line 0 { openTime := some 15 }),
      (txt "LINE 0 DESK:ON", .line 0 { desk := some true }), (txt "LINE 0 BEGIN:AZ", .line 0 { opening := some (txt "AZ") }),
      (txt "LINE 0 END:ABCDEZ", .line 0 { closing := some (txt "ABCDEZ") }),
      (txt "LINE 0 RELEASE:0", .line 0 { release := some 0 }), (txt "LINE 0 RELEASE:4096", .line 0 { release := some 4096 }),
      (txt "LINE 0 PARK:OFF", .line 0 { park := some false }), (txt "CIRC 0 RATE:50", .circ 0 { rate := some .b50 }),
      (txt "CIRC 0 CODE:FIVE", .circ 0 { code := some .five }), (txt "CIRC 0 WIDTH:32", .circ 0 { width := some 32 }),
      (txt "CIRC 0 MARGIN:16", .circ 0 { margin := some 16 }), (txt "CIRC 0 FILL:7", .circ 0 { fills := some 7 }),
      (txt "CIRC 0 UNSHIFT:ON", .circ 0 { unshift := some true }), (txt "CIRC 0 MODE:ROTATION", .circ 0 { mode := some .rotation }),
      (txt "CIRC 0 PREEMPT:4", .circ 0 { preempt := some 4 }), (txt "CIRC 0 QUANTUM:255", .circ 0 { quantum := some 255 }),
      (txt "CIRC 0 STALL:5", .circ 0 { stall := some 5 }), (txt "CIRC 0 AGE1:255", .circ 0 { age1 := some 255 }),
      (txt "CIRC 0 AGE2:0", .circ 0 { age2 := some 0 }), (txt "CIRC 0 AGE3:1", .circ 0 { age3 := some 1 }),
      (txt "CIRC 0 AGE4:1", .circ 0 { age4 := some 1 }), (txt "CIRC 0 AGE5:1", .circ 0 { age5 := some 1 }),
      (txt "CIRC 0 LOADON:1001", .circ 0 { loadOn := some 1001 }), (txt "CIRC 0 CONGON:6000", .circ 0 { congOn := some 6000 }),
      (txt "CIRC 0 HYST:5999", .circ 0 { hyst := some 5999 }),
      (txt "ROUTE 4 SP 26 CLASS:5 ALT:5 REPEAT:MARK", .route (routeOf (some 4) (some (txt "SP")) [2, 6]
        { cls := some 5, alt := some 5, mode := some .mark })),
      (txt "UNROUTE ANY ANY", .unroute { line := none, category := none }), (txt "PURGE ALL BUDGET", .purge none (some (txt "BUDGET"))),
      (txt "PURGE 7", .purge (some 7) none), (txt "HOLD 3", .hold 3), (txt "FREE 3", .free 3), (txt "SHOW 7", .showCirc 7),
      (txt "SHOW LINE 7", .showLine 7), (txt "TALLY", .tally), (txt "TALLY ZERO", .tallyZero), (txt "ALARM", .alarm),
      (txt "ALARM CLEAR STALL", .alarmClear [.stall]), (txt "ALARM MASK RUN-ON OFF", .alarmMask [.runOn] false),
      (txt "ALARM NOTICE ALL ON", .alarmNotice allFlags true), (txt "REPEAT", .repeatShow), (txt "REPEAT 48", .repeatSet 48),
      (txt "COPYBANK", .copybank), (txt "ENACT", .enact), (txt "DESK 2", .desk 2), (txt "UNIT PA", .unit (txt "PA"))],
    readOrder x.1 base = .ok x.2 := by decide +kernel

/-! A step from a state that has each invariant. -/

theorem witness_StepKeepsCountsWithin : (on queued).part.CountsWithin ∧ ∃ t, step (on queued) = .next t :=
  ⟨⟨by decide +kernel, by unfold LineTally.Within; decide +kernel, by unfold CircTally.Within; decide +kernel,
    by decide +kernel, by decide +kernel⟩, _, rfl⟩

/-- READY at mark, READY at space, OPEN and PARKED. -/
theorem witness_StepKeepsLinesSound : ∃ s, s.part.LinesSound ∧ (s.part.rx 1).pin = .space ∧
    (s.part.rx 2).cond = .opened ∧ (s.part.rx 3).cond = .parked ∧ ∃ t, step s = .next t := by
  refine ⟨on (((base.modRx 1 fun rx => { rx with pin := .space, spaceTimer := some 2, phase := .waitMark }).modRx 2
    fun rx => { rx with pin := .space, cond := .opened }).modRx 3 fun rx => { rx with cond := .parked }),
    fun _ l => ?_, by decide +kernel, by decide +kernel, by decide +kernel, _, rfl⟩
  fin_cases l <;> exact ⟨by decide +kernel, by decide +kernel⟩

theorem witness_StepKeepsQueuesOrdered : (on queued).part.QueuesOrdered ∧ ∃ t, step (on queued) = .next t :=
  ⟨queued_sound.1, _, rfl⟩
theorem witness_StepKeepsBacklogsCounted : (on queued).part.BacklogsCounted ∧ ∃ t, step (on queued) = .next t :=
  ⟨queued_sound.2.1, _, rfl⟩
theorem witness_StepKeepsHoldersCounted : (on queued).part.HoldersCounted ∧ ∃ t, step (on queued) = .next t :=
  ⟨queued_sound.2.2, _, rfl⟩
theorem witness_StepKeepsStoreSound : (on runningOn).part.StoreSound ∧ ∃ t, step (on runningOn) = .next t :=
  ⟨witness_RunOnBreaksTheItem.1, _, rfl⟩
theorem witness_StepKeepsAlarmSound : (on (raise .queueFull 1 base)).part.AlarmSound ∧
    ∃ t, step (on (raise .queueFull 1 base)) = .next t :=
  ⟨⟨fun f => by cases f <;> exact ⟨by decide +kernel, by decide +kernel, by decide +kernel⟩, by decide +kernel⟩, _, rfl⟩

end Sys2Proof.Tests
end

section
/-! The selection in ROTATION mode (R102): the entry that it takes, what it writes in the queue, and the range of the turn
line and its count along every step. -/

namespace Sys2Proof.Machine

variable {p : Part} {c c' : CircNo} {q : Queue} {ready : List Entry} {e : Entry}

/-! ### The cyclic order of the turn lines -/

/-- The steps of the cyclic order 0, 1, …, 8, 0 from line `t` to the turn line of an entry. -/
def turnDistance (t : Nat) (e : Entry) : Nat := (turnOf e.source + 9 - t) % 9

theorem turnOf_le (source : Option LineNo) : turnOf source ≤ 8 := by
  cases source with
  | none => exact Nat.le_refl 8
  | some l => exact Nat.le_of_lt l.isLt

theorem turnDistance_lt (t : Nat) (e : Entry) : turnDistance t e < 9 := Nat.mod_lt _ (by decide)

theorem turnDistance_eq_zero_iff {t : Nat} (ht : t ≤ 8) : turnDistance t e = 0 ↔ turnOf e.source = t := by
  have := turnOf_le e.source
  unfold turnDistance
  omega

theorem turnDistance_eq_succ {t : Nat} (ht : t ≤ 8) (ne : turnOf e.source ≠ t) :
    turnDistance t e = turnDistance (nextTurn t) e + 1 := by
  have := turnOf_le e.source
  unfold turnDistance nextTurn
  split <;> omega

/-! ### The search for the turn -/

/-- The search stops at the line nearest in the cyclic order, with the first entry of that line. -/
theorem findTurn_nearest {fuel t : Nat} (ht : t ≤ 8)
    (first : ready.find? (fun x => turnOf x.source == turnOf e.source) = some e)
    (nearest : ∀ x ∈ ready, turnDistance t e ≤ turnDistance t x) (reach : turnDistance t e < fuel) :
    findTurn ready fuel t = some (turnOf e.source, e) := by
  induction fuel generalizing t with
  | zero => exact absurd reach (Nat.not_lt_zero _)
  | succ fuel ih =>
    by_cases here : turnOf e.source = t
    · simp [findTurn, ← here, first]
    · have away : ∀ x ∈ ready, turnOf x.source ≠ t := fun x hx at_t =>
        here ((turnDistance_eq_zero_iff ht).mp
          (Nat.le_zero.mp ((turnDistance_eq_zero_iff ht).mpr at_t ▸ nearest x hx)))
      have missed : ready.find? (fun x => turnOf x.source == t) = none := by simpa using away
      have step := turnDistance_eq_succ ht here
      have found := ih (nextTurn_le t)
        (fun x hx => by have := nearest x hx; have := turnDistance_eq_succ ht (away x hx); omega) (by omega)
      simpa [findTurn, missed] using found

/-- The search passes over none of the lines within its reach. -/
theorem findTurn_eq_none {fuel t : Nat} (ht : t ≤ 8) (h : findTurn ready fuel t = none) :
    ∀ x ∈ ready, fuel ≤ turnDistance t x := by
  induction fuel generalizing t with
  | zero => exact fun _ _ => Nat.zero_le _
  | succ fuel ih =>
    unfold findTurn at h
    split at h
    · cases h
    · next missed =>
      intro x hx
      have away : turnOf x.source ≠ t := by simpa using List.find?_eq_none.mp missed x hx
      have := ih (nextTurn_le t) h x hx
      have := turnDistance_eq_succ ht away
      omega

theorem findTurn_all_eq_none_iff {t : Nat} (ht : t ≤ 8) : findTurn ready 9 t = none ↔ ready = [] := by
  constructor
  · intro h
    refine List.eq_nil_iff_forall_not_mem.mpr fun x hx => ?_
    exact absurd (findTurn_eq_none ht h x hx) (Nat.not_le.mpr (turnDistance_lt t x))
  · rintro rfl
    exact Option.eq_none_iff_forall_ne_some.mpr fun ⟨t', e⟩ h => by simpa using findTurn_mem h

/-! ### The two steps of R102 -/

/-- What step 1 of R102 takes. -/
def Queue.urgentChoice (q : Queue) (e : Entry) : Choice :=
  { entry := e, byTurn := false, turn := q.turn, turnLines := q.turnLines }

/-- What step 2 of R102 takes when the search ends at line `t` with entry `e`. -/
def Queue.turnChoice (q : Queue) (t : Nat) (e : Entry) : Choice :=
  { entry := e, byTurn := true, turn := t, turnLines := if t = q.turn then q.turnLines else 0 }

theorem chooseFrom_urgent (mode : q.force.mode = .rotation)
    (first : ready.find? (fun x => x.cls ≤ q.force.preempt) = some e) :
    chooseFrom q ready = some (q.urgentChoice e) := by
  simp [chooseFrom, mode, first, Queue.urgentChoice]

theorem chooseFrom_byTurn (mode : q.force.mode = .rotation) (calm : ∀ x ∈ ready, q.force.preempt < x.cls) :
    chooseFrom q ready = (findTurn ready 9 q.turn).map fun x => q.turnChoice x.1 x.2 := by
  have none_urgent : ready.find? (fun x => x.cls ≤ q.force.preempt) = none := by simpa using calm
  simp [chooseFrom, mode, none_urgent, Queue.turnChoice]

/-- A selection in ROTATION mode takes the first urgent entry, or serves the turn where no entry is urgent, or has no
entry to take. -/
theorem chooseFrom_rotation_cases (mode : q.force.mode = .rotation) (turn : q.turn ≤ 8) (ready : List Entry) :
    (∃ e ∈ ready, e.cls ≤ q.force.preempt ∧ chooseFrom q ready = some (q.urgentChoice e)) ∨
    (∃ t, ∃ e ∈ ready, q.force.preempt < e.cls ∧ chooseFrom q ready = some (q.turnChoice t e)) ∨
    (ready = [] ∧ chooseFrom q ready = none) := by
  cases urgent : ready.find? (fun x => x.cls ≤ q.force.preempt) with
  | some e =>
    exact .inl ⟨e, List.mem_of_find?_eq_some urgent, by simpa using List.find?_some urgent,
      chooseFrom_urgent mode urgent⟩
  | none =>
    have calm : ∀ x ∈ ready, q.force.preempt < x.cls := by simpa using urgent
    have served := chooseFrom_byTurn mode calm
    cases found : findTurn ready 9 q.turn with
    | some x =>
      obtain ⟨t, e⟩ := x
      exact .inr (.inl ⟨t, e, findTurn_mem found, calm e (findTurn_mem found), by simp [served, found]⟩)
    | none => exact .inr (.inr ⟨(findTurn_all_eq_none_iff turn).mp found, by simp [served, found]⟩)

/-! ### The selection of a circuit -/

theorem choose_of_empty_slot (empty : (p.q c).current = none) :
    p.choose c = chooseFrom (p.q c) ((p.q c).entries.filter p.eligible) := by
  simp [Part.choose, empty]

/-- The first eligible entry with a property is first among the eligible ones. -/
theorem find?_eligible_of_split {P : Entry → Bool} {es before after : List Entry} (split : es = before ++ e :: after)
    (eligible : p.eligible e = true) (has : P e = true) (first : ∀ x ∈ before, p.eligible x = true → P x = false) :
    (es.filter p.eligible).find? P = some e := by
  rw [List.find?_filter, List.find?_eq_some_iff_append]
  refine ⟨by simp [eligible, has], before, after, split, fun x hx => ?_⟩
  cases ready : p.eligible x with
  | false => simp
  | true => simp [first x hx ready]

section
variable (mode : (p.q c).force.mode = .rotation) (empty : (p.q c).current = none) (turn : (p.q c).turn ≤ 8)
include mode empty

theorem choose_rotation_urgent {before after : List Entry} (split : (p.q c).entries = before ++ e :: after)
    (eligible : p.eligible e = true) (urgent : e.cls ≤ (p.q c).force.preempt)
    (first : ∀ x ∈ before, p.eligible x = true → (p.q c).force.preempt < x.cls) :
    p.choose c = some ((p.q c).urgentChoice e) := by
  rw [choose_of_empty_slot empty]
  exact chooseFrom_urgent mode (find?_eligible_of_split split eligible (by simpa using urgent) (by simpa using first))

include turn

theorem choose_rotation_eq_none_iff : p.choose c = none ↔ ∀ e ∈ (p.q c).entries, p.eligible e = false := by
  have no_ready : (p.q c).entries.filter p.eligible = [] ↔ ∀ e ∈ (p.q c).entries, p.eligible e = false := by
    simp [List.filter_eq_nil_iff]
  rw [← no_ready, choose_of_empty_slot empty]
  obtain ⟨e, mem, -, taken⟩ | ⟨t, e, mem, -, taken⟩ | ⟨none_ready, nothing⟩ :=
    chooseFrom_rotation_cases mode turn ((p.q c).entries.filter p.eligible)
  · simp [taken, List.ne_nil_of_mem mem]
  · simp [taken, List.ne_nil_of_mem mem]
  · exact iff_of_true nothing none_ready

theorem choose_rotation_nearest {before after : List Entry} (split : (p.q c).entries = before ++ e :: after)
    (eligible : p.eligible e = true)
    (nearest : ∀ x ∈ (p.q c).entries, p.eligible x = true →
      (p.q c).force.preempt < x.cls ∧ turnDistance (p.q c).turn e ≤ turnDistance (p.q c).turn x)
    (first : ∀ x ∈ before, p.eligible x = true → turnOf x.source ≠ turnOf e.source) :
    p.choose c = some ((p.q c).turnChoice (turnOf e.source) e) := by
  have among : ∀ x ∈ (p.q c).entries.filter p.eligible,
      (p.q c).force.preempt < x.cls ∧ turnDistance (p.q c).turn e ≤ turnDistance (p.q c).turn x := fun x hx =>
    nearest x (List.mem_filter.mp hx).1 (List.mem_filter.mp hx).2
  have found := findTurn_nearest turn (find?_eligible_of_split split eligible (beq_self_eq_true _) (by simpa using first))
    (fun x hx => (among x hx).2) (turnDistance_lt _ _)
  rw [choose_of_empty_slot empty, chooseFrom_byTurn mode fun x hx => (among x hx).1, found]
  rfl

theorem byTurn_choose_rotation_iff {ch : Choice} (h : p.choose c = some ch) :
    ch.byTurn = true ↔ (p.q c).force.preempt < ch.entry.cls := by
  rw [choose_of_empty_slot empty] at h
  obtain ⟨e, -, urgent, taken⟩ | ⟨t, e, -, calm, taken⟩ | ⟨-, nothing⟩ :=
    chooseFrom_rotation_cases mode turn ((p.q c).entries.filter p.eligible)
  · cases taken.symm.trans h
    simpa [Queue.urgentChoice] using urgent
  · cases taken.symm.trans h
    simpa [Queue.turnChoice] using calm
  · cases nothing.symm.trans h

end

/-! ### What a selection writes in the queue -/

@[simp] theorem q_beginLine (kind : LineKind) : (beginLine c kind p).q c' = p.q c' := by
  unfold beginLine sendStartEnd
  split <;> simp

theorem q_select_of_none (h : p.choose c = none) : (select c p).q c = p.q c := by
  simp [select, h, enterIdle]

theorem q_select_of_some {ch : Choice} (h : p.choose c = some ch) :
    (select c p).q c = { p.q c with
      entries := without ch.entry.item (p.q c).entries
      current := some { ch.entry with cseq := some (ch.entry.cseq.getD (p.tx c).nextCseq) }
      byTurn := ch.byTurn, turn := ch.turn, turnLines := ch.turnLines } := by
  simp [select, h, becomeCurrent, takeEntry]

theorem without_eq_filter (n : Nat) (es : List Entry) : without n es = es.filter (fun x => x.item ≠ n) := by
  simp [without, bne, Bool.beq_eq_decide_eq]

/-! ### The turn within its range (R102) -/

/-- Every circuit's turn line and turn line count are within their ranges. -/
def Part.TurnsWithin (p : Part) : Prop := ∀ c, (p.q c).TurnWithin

theorem Part.TurnsWithin.of_q {p' : Part} (h : p.TurnsWithin) (same : ∀ c, p'.q c = p.q c) : p'.TurnsWithin :=
  fun c => same c ▸ h c

theorem Part.TurnsWithin.modQ {f : Queue → Queue} (h : p.TurnsWithin)
    (hf : (p.q c).TurnWithin → (f (p.q c)).TurnWithin) : (p.modQ c f).TurnsWithin := fun c' => by
  by_cases n : c' = c
  · subst n
    rw [Part.q_modQ]
    exact hf (h c')
  · rw [Part.q_modQ_ne _ n]
    exact h c'

theorem Part.TurnsWithin.recompute (h : p.TurnsWithin) : (recompute c p).TurnsWithin :=
  h.of_q fun _ => q_recompute ..

@[simp] theorem q_examineFree (n : Nat) : (examineFree n p).q c = p.q c := by
  unfold examineFree
  split
  · rfl
  · split <;> rfl

@[simp] theorem q_released (n : Nat) : (released c n p).q c' = p.q c' := by
  simp [released]

theorem Part.TurnsWithin.removeQueued (n : Nat) (h : p.TurnsWithin) : (removeQueued c n p).TurnsWithin := by
  unfold Machine.removeQueued
  split
  · exact (h.modQ (c := c) (f := fun q => { q with entries := without n q.entries }) id).of_q fun _ => q_released _
  · exact h

theorem Part.TurnsWithin.putEntry (r : Request) (h : p.TurnsWithin) : (putEntry c r p).TurnsWithin := by
  have placed : (p.modQ c fun q => { q with entries := placeLast (p.newEntry c r) q.entries }).TurnsWithin := h.modQ id
  exact Part.TurnsWithin.recompute (placed.of_q fun _ => rfl)

/-- Every act of the circuit side keeps the turns within their ranges. -/
theorem OutMove.keeps_turnsWithin {p' : Part} (m : OutMove p p') (h : p.TurnsWithin) : p'.TurnsWithin := by
  cases m with
  | raise | alarm | addUnit => exact h.of_q fun _ => rfl
  | queue c f _ _ _ _ _ turn => exact h.modQ turn
  | tx | tally => exact h.of_q fun _ => by simp
  | interrupt | giveBack => exact h.modQ id
  | take _ _ _ _ _ _ turn => exact h.modQ turn
  | removeQueued => exact h.removeQueued _
  | removeCurrent c =>
    unfold Machine.removeCurrent
    split
    · exact (h.modQ (c := c) (f := fun q => { q with current := none }) id).of_q fun _ => q_released _
    · exact h
  | put => exact h.putEntry _
  | replace c e =>
    refine Part.TurnsWithin.putEntry _ ((h.removeQueued (c := c) e.item).of_q fun _ => ?_)
    simp [displaceEntry]
  | reestimate | spend => exact (h.modQ id).recompute
  | free => exact h.of_q fun _ => q_examineFree _

/-- Every act of a framer keeps the turns within their ranges; its own side touches no queue. -/
theorem Move.keeps_turnsWithin {l : LineNo} {p' : Part} (m : Move l p p') (h : p.TurnsWithin) : p'.TurnsWithin := by
  cases m with
  | out m => exact m.keeps_turnsWithin h
  | append =>
    unfold appendChr
    split <;> exact h.of_q fun _ => rfl
  | fr | tally | grant | endItem | commit | kill | verdict | history | buffer | unrouted => exact h.of_q fun _ => rfl

/-- At a power-up every dispatch queue is the same (R117). -/
theorem q_coldPart (straps : Straps) (pins : Vector Level 8) (c : CircNo) : (coldPart straps pins).q c = coldQueue := by
  fin_cases c <;> rfl

theorem turnsWithin_coldPart (straps : Straps) (pins : Vector Level 8) : (coldPart straps pins).TurnsWithin :=
  fun c => q_coldPart straps pins c ▸ ⟨Nat.zero_le _, Nat.zero_le _⟩

/-- The turn line and count of every circuit at RESTART WARM are 0 (R117). -/
theorem turnsWithin_warmPart (p : Part) : (warmPart p).TurnsWithin := fun c => by
  have : (warmPart p).q c = warmQueue (p.q c) := by simp [warmPart, Part.q, Part.circ, warmCirc]
  rw [this]
  exact ⟨Nat.zero_le _, Nat.zero_le _⟩

/-- Every act of a step keeps the turns within their ranges. -/
theorem Act.keeps_turnsWithin {p' : Part} (m : Act p p') (h : p.TurnsWithin) : p'.TurnsWithin := by
  cases m with
  | move _ m => exact m.keeps_turnsWithin h
  | sender => exact h.of_q fun _ => by simp
  | reestimate => exact (h.modQ id).recompute
  | queue c f _ _ turn turnLines => exact h.modQ fun ⟨line, count⟩ => ⟨turn ▸ line, turnLines ▸ count⟩
  | thresholds c k =>
    obtain ⟨a, evaluated, -⟩ := evaluate_eq c (p.modLoad c (thresholdsAfter k))
    exact h.of_q fun _ => by simp [evaluated]
  | zero => exact h.of_q fun _ => by simp [zeroTallies, Part.q, Part.circ]
  | low => exact h.of_q fun _ => by simp [resetLow, Part.q, Part.circ]
  | warm => exact turnsWithin_warmPart p
  | cold straps => exact turnsWithin_coldPart straps _
  | rx | tally | framer | clock | banks | orders | threshold | clear | mask => exact h.of_q fun _ => rfl

/-- A step keeps the turns within their ranges. -/
theorem step_keeps_turnsWithin {s t : State} (h : s.part.TurnsWithin) (taken : step s = .next t) :
    t.part.TurnsWithin := by
  obtain ⟨t', stepped, acts⟩ := step_acts s
  cases stepped.symm.trans taken
  exact acts.keeps Act.keeps_turnsWithin h

/-! ### The statement -/

/-- Settles O26.  The selection by the two steps of R102, what it writes in the queue, and the range of the turn along
every step are the parts above. -/
theorem rotationServesTheTurn : Obligations.RotationServesTheTurn := by
  refine ⟨fun p c mode empty turn => ?_, fun _ => rfl, fun _ _ _ _ _ => ⟨rfl, rfl⟩, turnsWithin_coldPart _ _,
    fun _ _ within taken => step_keeps_turnsWithin within taken⟩
  refine ⟨choose_rotation_eq_none_iff mode empty turn, fun before after e split eligible => ⟨?_, ?_⟩,
    fun ch taken => byTurn_choose_rotation_iff mode empty turn taken, ?_, q_select_of_none, ?_⟩
  · exact choose_rotation_urgent mode empty split eligible
  · exact choose_rotation_nearest mode empty turn split eligible
  · intro no_preempt classes ch taken
    have : 1 ≤ ch.entry.cls := classes _ (choose_spec taken).2.1
    rw [byTurn_choose_rotation_iff mode empty turn taken]
    omega
  · intro ch taken
    rw [q_select_of_some taken]
    exact ⟨without_eq_filter _ _, rfl, rfl, rfl, rfl⟩

end Sys2Proof.Machine
end

section
/-! The length of the circuit heading (R145), field by field, and the estimate of an entry by the terms of Table 8-1. -/

namespace Sys2Proof.Machine

variable {e : Entry} {it : Item}

/-! ### The length of a sentence -/

/-- The characters that words add to a sentence they are put at the end of, each with the space before it. -/
def addedLength (ws : List Text) : Nat := (ws.map fun w => w.length + 1).sum

@[simp] theorem addedLength_nil : addedLength [] = 0 := rfl

@[simp] theorem addedLength_cons (w : Text) (ws : List Text) :
    addedLength (w :: ws) = w.length + 1 + addedLength ws := by
  simp [addedLength]

@[simp] theorem addedLength_append (vs ws : List Text) : addedLength (vs ++ ws) = addedLength vs + addedLength ws := by
  simp [addedLength]

theorem length_sentence_cons (w : Text) (ws : List Text) :
    (sentence (w :: ws)).length = w.length + addedLength ws := by
  induction ws generalizing w with
  | nil => rfl
  | cons v vs ih =>
    have split : sentence (w :: v :: vs) = w ++ spaceChr :: sentence (v :: vs) := rfl
    rw [split, List.length_append, List.length_cons, ih, addedLength_cons]
    omega

/-! ### The fields of the circuit heading (R127) -/

@[simp] theorem length_dec4 (n : Nat) : (dec4 n).length = 4 := rfl

@[simp] theorem length_sourceSerial : (sourceSerial it).length = 5 := rfl

theorem dec_of_le_nine {n : Nat} (h : n ≤ 9) : dec n = [28 + n] := by
  have one_digit : n < 10 := by omega
  simp [dec, decAux, one_digit]

theorem length_tagged_digits {letter : Text} (one : letter.length = 1) (n : Nat) :
    (letter ++ dec n).length = 1 + digitsOf n := by
  simp [digitsOf, one]

theorem addedLength_kindMark (k : Kind) :
    addedLength (kindMark k) = if k = .rewrite ∨ k = .correction ∨ k = .kill then 3 else 0 := by
  cases k <;> rfl

theorem addedLength_repeatMark :
    addedLength (repeatMark e it) = if e.mode = .mark ∧ it.verdict = some .nearRepeat then 4 else 0 := by
  by_cases marked : e.mode = .mark ∧ it.verdict = some .nearRepeat
  · obtain ⟨mode, verdict⟩ := marked
    simp only [repeatMark, mode, verdict]
    rfl
  · simp [repeatMark, marked]

theorem addedLength_resumedMark_none (h : e.resume = none) : addedLength (resumedMark e) = 0 := by
  simp [resumedMark, h]

theorem addedLength_resumedMark_some {r : Resume} (h : e.resume = some r) :
    addedLength (resumedMark e) = 10 + digitsOf r.line := by
  have word : (txt "RESUMED").length = 7 := rfl
  have number := length_tagged_digits (letter := txt "L") rfl r.line
  simp only [resumedMark, h, addedLength_cons, addedLength_nil, word, number]
  omega

/-- The fixed fields give 18 characters plus the slug and the digits of the take (R145). -/
theorem length_headingText (category : it.category.length = 2) (cls : e.cls ≤ 9) :
    (headingText e it).length = 18 + it.slug.length + digitsOf it.take
      + addedLength (kindMark it.kind) + addedLength (repeatMark e it) + addedLength (resumedMark e) := by
  have take := length_tagged_digits (letter := txt "T") rfl it.take
  simp only [headingText, List.cons_append, List.nil_append, length_sentence_cons, addedLength_cons,
    addedLength_append, length_dec4, length_sourceSerial, dec_of_le_nine cls, List.length_singleton, category, take]
  omega

/-! ### The terms of the estimate (R144, Table 8-1) -/

/-- The folds expected are the printable characters divided by W − M, a remainder counting as one more. -/
theorem foldsExpected_eq_div_add (l : Nat) {width margin : Nat} (h : margin < width) :
    foldsExpected l width margin = l / (width - margin) + if l % (width - margin) = 0 then 0 else 1 := by
  have pos : 0 < width - margin := Nat.sub_pos_of_lt h
  unfold foldsExpected
  generalize width - margin = d at *
  have whole : (d - 1) / d = 0 := Nat.div_eq_of_lt (by omega)
  have rest : (d - 1) % d = d - 1 := Nat.mod_eq_of_lt (by omega)
  rw [Nat.add_div pos, whole, rest]
  split <;> split <;> omega

/-- S′: the case changes of the item on a FIVE circuit, 0 on a SEVEN circuit. -/
theorem estimateOf_eq_min_sum (e : Entry) (it : Item) {tx : TxParams} (h : tx.margin < tx.width) :
    estimateOf e it tx = min 65535 (headingLength e it tx.width + 9 + it.stats.printable
      + (if tx.code = .five then it.stats.caseChanges else 0)
      + (it.stats.lineEnds + (it.stats.printable / (tx.width - tx.margin)
        + (if it.stats.printable % (tx.width - tx.margin) = 0 then 0 else 1)) + 3) * (2 + tx.fills)) := by
  rw [← foldsExpected_eq_div_add _ h]
  unfold estimateOf
  cases tx.code <;> rfl

/-! ### The statement -/

/-- Settles O35.  HL is the sum of the heading's fields, and the estimate the sum of the five terms with that HL. -/
theorem estimateFollowsTheFormula : Obligations.EstimateFollowsTheFormula := by
  intro e it tx category cls margin hl folds
  have heading : (headingText e it).length = hl := by
    rw [length_headingText category cls, addedLength_kindMark, addedLength_repeatMark]
    cases resume : e.resume with
    | none => simp only [hl, addedLength_resumedMark_none resume, resume]
    | some r => simp only [hl, addedLength_resumedMark_some resume, resume]
  have cut : headingLength e it tx.width = min tx.width hl := congrArg (min tx.width) heading
  refine ⟨heading, cut, ?_⟩
  rw [estimateOf_eq_min_sum e it margin, cut]

end Sys2Proof.Machine
end

section
/-! The verdict on an item whose key the slug history does not hold (R168), and the history after it. -/

namespace Sys2Proof.Machine

variable {l : LineNo} {it : Item} {h : History}

/-! ### The key (R164, R167) -/

theorem keyOf_iff {x : HistEntry} :
    keyOf l it x ↔ x.line = l ∧ x.category = it.category ∧ x.slug = it.slug ∧ x.take = it.take := by
  simp [keyOf, and_assoc]

/-- The key of an item is that of the entry its verdict leaves. -/
theorem keyOf_historyEntry {k : LineNo} {it' : Item} :
    keyOf l it (historyEntry k it') ↔
      k = l ∧ it'.category = it.category ∧ it'.slug = it.slug ∧ it'.take = it.take := keyOf_iff

/-- The history holds an entry with the key of item `it`, of line `l`. -/
def History.Holds (h : History) (l : LineNo) (it : Item) : Prop := ∃ x ∈ h.entries, keyOf l it x

theorem History.not_holds_iff : ¬ h.Holds l it ↔
    ∀ x ∈ h.entries, ¬ (x.line = l ∧ x.category = it.category ∧ x.slug = it.slug ∧ x.take = it.take) := by
  simp only [Holds, keyOf_iff, not_exists, not_and]

/-! ### The comparison with a history that does not hold the key (R168) -/

theorem compareWith_of_not_holds (new : ¬ h.Holds l it) : compareWith l it h =
    (.fresh, { h with entries :=
      (if 64 ≤ h.entries.length then h.entries.tail else h.entries) ++ [historyEntry l it] }) := by
  have absent : h.entries.find? (keyOf l it) = none :=
    List.find?_eq_none.2 fun x hx key => new ⟨x, hx, key⟩
  simp only [compareWith, absent, Config.historySize]

/-- The eviction of the head takes its key out of the history, if no other entry and not the new one has that key. -/
theorem not_holds_compareWith_of_evicted {k : LineNo} {it' : Item} (new : ¬ h.Holds l it)
    (full : 64 ≤ h.entries.length) (others : ∀ y ∈ h.entries.tail, ¬ keyOf k it' y)
    (differs : ¬ keyOf k it' (historyEntry l it)) : ¬ (compareWith l it h).2.Holds k it' := by
  rw [compareWith_of_not_holds new, if_pos full]
  rintro ⟨y, hy, key⟩
  rcases List.mem_append.1 hy with old | tail
  · exact others y old key
  · exact differs (List.mem_singleton.1 tail ▸ key)

/-! ### The verdict (R166) -/

/-- FRESH from the comparison is written into the descriptor and the history kept; no entry of a queue is touched. -/
theorem verdict_of_compared_fresh {p : Part} {n : Nat} (item : p.item? n = some it) (source : it.source = some l)
    (kind : it.kind ≠ .kill) (killed : it.killed = false) (fresh : (compareWith l it p.history).1 = .fresh) :
    verdict n p = (p.setHistory (compareWith l it p.history).2).modItem n fun it =>
      { it with verdict := some .fresh } := by
  simp only [verdict, Part.item_of_item? item, source, if_neg kind, killed, fresh, Bool.false_eq_true, if_false]

/-! ### The statement -/

/-- Settles O38.  The next edition of the evicted take meets a history that no longer holds its key. -/
theorem newKeyIsFresh : Obligations.NewKeyIsFresh := by
  intro l it h absent
  have new : ¬ h.Holds l it := History.not_holds_iff.2 absent
  have compared := compareWith_of_not_holds new
  have fresh : (compareWith l it h).1 = .fresh := congrArg Prod.fst compared
  refine ⟨fresh, by rw [compared], by rw [compared, List.drop_one]; rfl, ?descriptor, ?evicted⟩
  case descriptor =>
    rintro p n rfl item source kind killed
    exact verdict_of_compared_fresh item source kind killed fresh
  case evicted =>
    intro full x it' _ others differs category slug take
    have gone : ¬ (compareWith l it h).2.Holds x.line it' := by
      refine not_holds_compareWith_of_evicted new full (fun y hy key => ?_) fun key => ?_
      · rw [keyOf_iff, category, slug, take] at key
        exact others y (List.drop_one ▸ hy) key
      · obtain ⟨line, category', slug', take'⟩ := keyOf_historyEntry.1 key
        exact differs ⟨line.symm, (category'.trans category).symm, (slug'.trans slug).symm, (take'.trans take).symm⟩
    rw [compareWith_of_not_holds gone]

end Sys2Proof.Machine
end

section
/-! The frame of every operation: what the work of one sender, the circuit side and a framer leave as it is. -/

namespace Sys2Proof.Machine

variable {p p₀ q r : Part} {c c' : CircNo} {l l' : LineNo}

/-- What both branches have, the choice between them has. -/
theorem ite_cases {α : Sort*} {P : α → Prop} {b : Prop} [Decidable b] {x y : α} (hx : b → P x) (hy : ¬ b → P y) :
    P (if b then x else y) := by
  split
  · exact hx ‹_›
  · exact hy ‹_›

/-! ### The work of one sender -/

/-- From `p` to `q` nothing but circuit `c` has changed. -/
def OnCirc (c : CircNo) (p q : Part) : Prop := q = p.setCirc c (q.circ c)

theorem OnCirc.refl (c : CircNo) (p : Part) : OnCirc c p p := (Part.setCirc_self _ rfl).symm

theorem OnCirc.setCirc (h : OnCirc c p₀ p) (x : Circ) : OnCirc c p₀ (p.setCirc c x) := by
  unfold OnCirc at *
  rw [h, Part.setCirc_setCirc, Part.circ_setCirc]

theorem OnCirc.modQ (h : OnCirc c p₀ p) (f : Queue → Queue) : OnCirc c p₀ (p.modQ c f) := h.setCirc _
theorem OnCirc.modTx (h : OnCirc c p₀ p) (f : Sender → Sender) : OnCirc c p₀ (p.modTx c f) := h.setCirc _
theorem OnCirc.modLoad (h : OnCirc c p₀ p) (f : Load → Load) : OnCirc c p₀ (p.modLoad c f) := h.setCirc _
theorem OnCirc.modTally (h : OnCirc c p₀ p) (f : CircTally → CircTally) : OnCirc c p₀ (p.modTally c f) := h.setCirc _

theorem OnCirc.circ_ne (h : OnCirc c p q) (n : c' ≠ c) : q.circ c' = p.circ c' := by
  rw [h]; exact Part.circ_setCirc_ne _ n
theorem OnCirc.lines (h : OnCirc c p q) : q.lines = p.lines := by rw [h]; rfl
theorem OnCirc.items (h : OnCirc c p q) : q.items = p.items := by rw [h]; rfl
theorem OnCirc.store (h : OnCirc c p q) : q.store = p.store := by rw [h]; rfl
theorem OnCirc.banks (h : OnCirc c p q) : q.banks = p.banks := by rw [h]; rfl
theorem OnCirc.history (h : OnCirc c p q) : q.history = p.history := by rw [h]; rfl
theorem OnCirc.orders (h : OnCirc c p q) : q.orders = p.orders := by rw [h]; rfl
theorem OnCirc.alarm (h : OnCirc c p q) : q.alarm = p.alarm := by rw [h]; rfl
theorem OnCirc.unrouted (h : OnCirc c p q) : q.unrouted = p.unrouted := by rw [h]; rfl
theorem OnCirc.clock (h : OnCirc c p q) : q.clock = p.clock := by rw [h]; rfl
theorem OnCirc.inReset (h : OnCirc c p q) : q.inReset = p.inReset := by rw [h]; rfl
theorem OnCirc.circs (h : OnCirc c p q) : { q with circs := p.circs } = p := by rw [h]; rfl
theorem OnCirc.item (h : OnCirc c p q) (n : Nat) : q.item n = p.item n := by
  simp [Part.item, Part.item?_eq q p h.items]
theorem OnCirc.eligible (h : OnCirc c p q) (e : Entry) : q.eligible e = p.eligible e := by
  simp [Part.eligible, h.item]

theorem OnCirc.clearBreak (h : OnCirc c p₀ p) : OnCirc c p₀ (clearBreak c p) := h.modQ _
theorem OnCirc.stopStall (h : OnCirc c p₀ p) : OnCirc c p₀ (stopStall c p) := h.modQ _
theorem OnCirc.owe (n : Nat) (h : OnCirc c p₀ p) : OnCirc c p₀ (owe c n p) := h.modTx _
theorem OnCirc.enterIdle (h : OnCirc c p₀ p) : OnCirc c p₀ (enterIdle c p) := h.modTx _
theorem OnCirc.enterHeld (pos : HeldPos) (h : OnCirc c p₀ p) : OnCirc c p₀ (enterHeld c pos p) := by
  unfold Machine.enterHeld; exact (h.modQ _).modTx _
theorem OnCirc.sendStartEnd (kind : LineKind) (h : OnCirc c p₀ p) : OnCirc c p₀ (sendStartEnd c kind p) := h.modTx _
theorem OnCirc.addReasons (e : Entry) (h : OnCirc c p₀ p) : OnCirc c p₀ (addReasons c e p) := by
  unfold Machine.addReasons; exact h.modQ _

theorem OnCirc.beginLine (kind : LineKind) (h : OnCirc c p₀ p) : OnCirc c p₀ (beginLine c kind p) := by
  unfold Machine.beginLine; split
  · exact h.sendStartEnd _
  · exact (h.modTx _).modTx _

theorem OnCirc.beginNotice (kind : LineKind) (h : OnCirc c p₀ p) : OnCirc c p₀ (beginNotice c kind p) :=
  OnCirc.beginLine kind (h.modTx _).stopStall

theorem OnCirc.takeBreak (quantum : Bool) (h : OnCirc c p₀ p) : OnCirc c p₀ (takeBreak c quantum p) := by
  have broken := OnCirc.clearBreak ((h.modQ fun q => { q with current := q.current.map fun e => { e with
    resume := some { offset := (p.tx c).offset, line := (p.tx c).lineNo } } }).modTally
      fun t => { t with breaks := bump t.breaks })
  unfold Machine.takeBreak
  simp only
  split
  · exact OnCirc.beginNotice _ (broken.modQ endTurn)
  · exact OnCirc.beginNotice _ broken

theorem OnCirc.checkBreak {cont : Part → Part} (h : OnCirc c p₀ p)
    (go : ∀ p, OnCirc c p₀ p → OnCirc c p₀ (cont p)) : OnCirc c p₀ (checkBreak c cont p) := by
  unfold Machine.checkBreak; split
  · exact h.takeBreak _
  · exact go _ h.clearBreak

theorem OnCirc.becomeCurrent (ch : Choice) (h : OnCirc c p₀ p) : OnCirc c p₀ (becomeCurrent c ch p) :=
  OnCirc.beginLine _ ((h.modTx _).modQ _)

theorem OnCirc.select (h : OnCirc c p₀ p) : OnCirc c p₀ (select c p) := by
  unfold Machine.select; split
  · exact h.becomeCurrent _
  · exact h.enterIdle

theorem OnCirc.selectionPoint (h : OnCirc c p₀ p) : OnCirc c p₀ (selectionPoint c p) := by
  have fresh := (h.modQ fun q => { q with force := q.ordered }).clearBreak
  unfold Machine.selectionPoint
  simp only
  split
  · exact fresh.select
  · exact fresh.beginNotice _

theorem OnCirc.enterTrailer (next : Nat) (h : OnCirc c p₀ p) : OnCirc c p₀ (enterTrailer c next p) := by
  have entered (state : SenderState) := (h.modTx fun tx => { tx with state := state }).stopStall
  unfold Machine.enterTrailer
  refine (ite_cases (P := OnCirc c p₀) (fun _ => (entered _).beginLine _) fun _ => (entered _).modTx _)

theorem OnCirc.sendBody (ln : BodyLine) (h : OnCirc c p₀ p) : OnCirc c p₀ (sendBody c ln p) := (h.modTx _).stopStall

theorem OnCirc.enterWaiting (h : OnCirc c p₀ p) : OnCirc c p₀ (enterWaiting c p) :=
  OnCirc.checkBreak ((h.modTx _).modQ _) fun _ h => h

theorem OnCirc.startBody (h : OnCirc c p₀ p) : OnCirc c p₀ (startBody c p) := by
  unfold Machine.startBody; split
  · exact h.sendStartEnd _
  · simp only
    split
    · exact (h.modTx _).enterTrailer _
    · exact (h.modTx _).sendBody _
    · exact (h.modTx _).enterWaiting

theorem OnCirc.examineWaiting (h : OnCirc c p₀ p) : OnCirc c p₀ (examineWaiting c p) := by
  unfold Machine.examineWaiting
  simp only
  split
  · exact (h.modTx _).enterTrailer _
  · exact (h.modTx _).sendBody _
  · exact h.modTx _

theorem OnCirc.endBodyLine (next : Nat) (h : OnCirc c p₀ p) : OnCirc c p₀ (endBodyLine c next p) := by
  unfold Machine.endBodyLine countTurnLine
  simp only
  split
  · exact (h.modTx _).modQ _
  · exact h.modTx _

theorem OnCirc.setStart (h : OnCirc c p₀ p) : OnCirc c p₀ (setStart c p) := by
  unfold Machine.setStart; exact h.modTx _

theorem OnCirc.holdOrSelect (h : OnCirc c p₀ p) : OnCirc c p₀ (holdOrSelect c p) := by
  unfold Machine.holdOrSelect; split
  · exact h.enterHeld _
  · exact h.selectionPoint

theorem OnCirc.headingDone (h : OnCirc c p₀ p) : OnCirc c p₀ (headingDone c p) := by
  unfold Machine.headingDone; split
  · exact h.beginNotice _
  · split
    · exact h.setStart.enterHeld _
    · exact h.setStart.startBody

theorem OnCirc.bodyDone (next : Nat) (h : OnCirc c p₀ p) : OnCirc c p₀ (bodyDone c next p) := by
  have ended := h.endBodyLine next
  unfold Machine.bodyDone
  simp only
  split
  · exact ended.beginNotice _
  · split
    · exact ended.enterHeld _
    · split
      · exact ended.startBody
      · exact ended.checkBreak fun _ h => h.startBody

theorem OnCirc.owedDone (h : OnCirc c p₀ p) : OnCirc c p₀ (owedDone c p) := by
  have paid := h.modTx fun tx => { tx with owed := tx.owed.tail }
  unfold Machine.owedDone
  simp only
  split
  · exact paid.enterHeld _
  · split
    · exact paid.select
    · exact paid.beginLine _

theorem OnCirc.warmDone (h : OnCirc c p₀ p) : OnCirc c p₀ (warmDone c p) := by
  unfold Machine.warmDone
  simp only
  split
  · exact (h.modTx _).selectionPoint
  · exact h.modTx _

theorem OnCirc.review (e : Entry) (h : OnCirc c p₀ p) : OnCirc c p₀ (review c e p) := by
  unfold Machine.review; split
  · exact h.selectionPoint
  · simp only
    split
    · exact (h.addReasons e).checkBreak fun _ h => h
    · exact h.addReasons e

theorem OnCirc.commitOn (n : Nat) (old : Item) (h : OnCirc c p₀ p) : OnCirc c p₀ (commitOn n old c p) := by
  unfold Machine.commitOn; split
  · exact h
  · split
    · split
      · exact h.examineWaiting
      · exact h
    · split
      · exact h.review _
      · exact h

/-! ### Tallies, and the lines and circuits of a power-up start -/

section
variable (l l' : LineNo) (c c' : CircNo) (p : Part)
@[simp] theorem tally_modRx (f : Receiver → Receiver) : ((p.modRx l f).line l').tally = (p.line l').tally := by
  by_cases n : l' = l
  · subst n; simp
  · rw [Part.line_modRx_ne _ n]
@[simp] theorem tally_modFr (f : Framer → Framer) : ((p.modFr l f).line l').tally = (p.line l').tally := by
  by_cases n : l' = l
  · subst n; simp
  · rw [Part.line_modFr_ne _ n]
@[simp] theorem tally_modQ (f : Queue → Queue) : ((p.modQ c f).circ c').tally = (p.circ c').tally := by
  by_cases n : c' = c
  · subst n; simp
  · rw [Part.circ_modQ_ne _ n]
@[simp] theorem tally_modTx (f : Sender → Sender) : ((p.modTx c f).circ c').tally = (p.circ c').tally := by
  by_cases n : c' = c
  · subst n; simp
  · rw [Part.circ_modTx_ne _ n]
@[simp] theorem tally_modLoad (f : Load → Load) : ((p.modLoad c f).circ c').tally = (p.circ c').tally := by
  by_cases n : c' = c
  · subst n; simp
  · rw [Part.circ_modLoad_ne _ n]
end

theorem line_coldPart (straps : Straps) (pins : Vector Level 8) (l : LineNo) :
    (coldPart straps pins).line l = coldLine straps l (pins.get l) := by fin_cases l <;> rfl

theorem circ_coldPart (straps : Straps) (pins : Vector Level 8) (c : CircNo) :
    (coldPart straps pins).circ c = coldCirc straps c := by fin_cases c <;> rfl

/-! ### Removal and insertion -/

section
variable (n : Nat) (p : Part)
@[simp] theorem circs_examineFree : (examineFree n p).circs = p.circs := by
  unfold examineFree; split; rfl; split <;> rfl
@[simp] theorem circ_examineFree : (examineFree n p).circ c = p.circ c := by simp [Part.circ]
@[simp] theorem lines_examineFree : (examineFree n p).lines = p.lines := by
  unfold examineFree; split; rfl; split <;> rfl
@[simp] theorem alarm_examineFree : (examineFree n p).alarm = p.alarm := by
  unfold examineFree; split; rfl; split <;> rfl
@[simp] theorem banks_examineFree : (examineFree n p).banks = p.banks := by
  unfold examineFree; split; rfl; split <;> rfl
@[simp] theorem history_examineFree : (examineFree n p).history = p.history := by
  unfold examineFree; split; rfl; split <;> rfl
@[simp] theorem orders_examineFree : (examineFree n p).orders = p.orders := by
  unfold examineFree; split; rfl; split <;> rfl
@[simp] theorem unrouted_examineFree : (examineFree n p).unrouted = p.unrouted := by
  unfold examineFree; split; rfl; split <;> rfl
@[simp] theorem clock_examineFree : (examineFree n p).clock = p.clock := by
  unfold examineFree; split; rfl; split <;> rfl
@[simp] theorem straps_examineFree : (examineFree n p).straps = p.straps := by
  unfold examineFree; split; rfl; split <;> rfl
@[simp] theorem inReset_examineFree : (examineFree n p).inReset = p.inReset := by
  unfold examineFree; split; rfl; split <;> rfl
end

section
variable (c c' : CircNo) (p : Part) (k : Nat)

@[simp] theorem q_removeQueued : (removeQueued c k p).q c = { p.q c with entries := without k (p.q c).entries } := by
  unfold removeQueued
  split
  · simp
  · next none =>
    have all : without k (p.q c).entries = (p.q c).entries := by
      simp only [List.any_eq_true, not_exists, not_and, beq_iff_eq] at none
      simpa [without, List.filter_eq_self] using none
    rw [all]
@[simp] theorem q_removeCurrent : (removeCurrent c p).q c = { p.q c with current := none } := by
  unfold removeCurrent
  split
  · simp
  · next none => rw [← none]
@[simp] theorem q_putEntry (r : Request) : (putEntry c r p).q c =
    { p.q c with entries := placeLast (p.newEntry c r) (p.q c).entries } := by simp [putEntry]
@[simp] theorem q_displaceEntry (e : Entry) : (displaceEntry c e p).q c =
    { p.q c with entries := without e.item (p.q c).entries } := by simp [displaceEntry]
@[simp] theorem tx_examineFree : (examineFree k p).tx c = p.tx c := by simp [Part.tx]
@[simp] theorem tx_released : (released c k p).tx c' = p.tx c' := by simp [released]
@[simp] theorem tx_removeQueued : (removeQueued c k p).tx c' = p.tx c' := by unfold removeQueued; split <;> simp
@[simp] theorem tx_removeCurrent : (removeCurrent c p).tx c' = p.tx c' := by unfold removeCurrent; split <;> simp
@[simp] theorem tx_putEntry (r : Request) : (putEntry c r p).tx c' = p.tx c' := by simp [putEntry]
@[simp] theorem tx_displaceEntry (e : Entry) : (displaceEntry c e p).tx c' = p.tx c' := by simp [displaceEntry]
end

theorem circ_recompute_ne (n : c' ≠ c) : (recompute c p).circ c' = p.circ c' := by
  obtain ⟨a, st, h, -⟩ := recompute_eq c p
  simp [h, Part.circ_modLoad_ne _ n]

theorem circ_released_ne (k : Nat) (n : c' ≠ c) : (released c k p).circ c' = p.circ c' := by
  simp [released, circ_recompute_ne n]

theorem circ_removeQueued_ne (k : Nat) (n : c' ≠ c) : (removeQueued c k p).circ c' = p.circ c' := by
  unfold removeQueued
  split
  · rw [circ_released_ne _ n, Part.circ_modQ_ne _ n]
  · rfl

theorem circ_removeCurrent_ne (n : c' ≠ c) : (removeCurrent c p).circ c' = p.circ c' := by
  unfold removeCurrent
  split
  · rw [circ_released_ne _ n, Part.circ_modQ_ne _ n]
  · rfl

theorem circ_putEntry_ne (r : Request) (n : c' ≠ c) : (putEntry c r p).circ c' = p.circ c' := by
  unfold putEntry
  simp only
  rw [circ_recompute_ne n, Part.circ_modItem, Part.circ_modQ_ne _ n]

theorem circ_displaceEntry_ne (e : Entry) (n : c' ≠ c) : (displaceEntry c e p).circ c' = p.circ c' := by
  unfold displaceEntry
  simp only
  rw [Part.circ_raise, Part.circ_modTally_ne _ n, circ_removeQueued_ne _ n]

/-! ### The circuit side -/

/-- What the circuit side of the part leaves as it is: the lines, the banks, the history, the order unit, the count of
unrouted items, the clock, the straps and the level of RESETn. -/
structure OutFrame (p q : Part) : Prop where
  lines : q.lines = p.lines
  banks : q.banks = p.banks
  history : q.history = p.history
  orders : q.orders = p.orders
  unrouted : q.unrouted = p.unrouted
  clock : q.clock = p.clock
  straps : q.straps = p.straps
  inReset : q.inReset = p.inReset

theorem OutFrame.refl (p : Part) : OutFrame p p := ⟨rfl, rfl, rfl, rfl, rfl, rfl, rfl, rfl⟩

theorem OutFrame.trans (h : OutFrame p q) (k : OutFrame q r) : OutFrame p r :=
  ⟨k.1.trans h.1, k.2.trans h.2, k.3.trans h.3, k.4.trans h.4, k.5.trans h.5, k.6.trans h.6, k.7.trans h.7,
    k.8.trans h.8⟩

theorem OutFrame.recompute (h : OutFrame p q) : OutFrame p (recompute c q) :=
  h.trans ⟨lines_recompute .., banks_recompute .., history_recompute .., orders_recompute .., unrouted_recompute ..,
    clock_recompute .., straps_recompute .., inReset_recompute ..⟩

theorem OutFrame.examineFree (n : Nat) (h : OutFrame p q) : OutFrame p (examineFree n q) :=
  h.trans ⟨lines_examineFree .., banks_examineFree .., history_examineFree .., orders_examineFree ..,
    unrouted_examineFree .., clock_examineFree .., straps_examineFree .., inReset_examineFree ..⟩

theorem OutFrame.released (n : Nat) (h : OutFrame p q) : OutFrame p (released c n q) :=
  OutFrame.examineFree n (OutFrame.recompute (h.trans ⟨rfl, rfl, rfl, rfl, rfl, rfl, rfl, rfl⟩))

theorem OutFrame.removeQueued (n : Nat) (h : OutFrame p q) : OutFrame p (removeQueued c n q) := by
  unfold Machine.removeQueued; split
  · exact OutFrame.released n (h.trans ⟨rfl, rfl, rfl, rfl, rfl, rfl, rfl, rfl⟩)
  · exact h

theorem OutFrame.putEntry (rq : Request) (h : OutFrame p q) : OutFrame p (putEntry c rq q) :=
  OutFrame.recompute (h.trans ⟨rfl, rfl, rfl, rfl, rfl, rfl, rfl, rfl⟩)

theorem OutMove.frame (m : OutMove p q) : OutFrame p q := by
  cases m with
  | raise | alarm | queue | tx | tally | interrupt | take | giveBack | addUnit =>
    exact ⟨rfl, rfl, rfl, rfl, rfl, rfl, rfl, rfl⟩
  | removeQueued => exact (OutFrame.refl p).removeQueued _
  | removeCurrent c =>
    unfold Machine.removeCurrent; split
    · exact OutFrame.released _ ⟨rfl, rfl, rfl, rfl, rfl, rfl, rfl, rfl⟩
    · exact OutFrame.refl p
  | put => exact (OutFrame.refl p).putEntry _
  | replace c e =>
    exact OutFrame.putEntry _ (((OutFrame.refl p).removeQueued (c := c) e.item).trans
      ⟨rfl, rfl, rfl, rfl, rfl, rfl, rfl, rfl⟩)
  | reestimate => exact OutFrame.recompute ⟨rfl, rfl, rfl, rfl, rfl, rfl, rfl, rfl⟩
  | spend => exact OutFrame.recompute ⟨rfl, rfl, rfl, rfl, rfl, rfl, rfl, rfl⟩
  | free => exact (OutFrame.refl p).examineFree _

theorem OutMoves.frame (m : OutMoves p q) : OutFrame p q := by
  induction m with
  | refl => exact OutFrame.refl p
  | tail _ m ih => exact ih.trans m.frame

theorem OutFrame.line (h : OutFrame p q) (l : LineNo) : q.line l = p.line l := by simp [Part.line, h.lines]
theorem OutFrame.rx (h : OutFrame p q) (l : LineNo) : q.rx l = p.rx l := by simp [Part.rx, h.line]
theorem OutFrame.fr (h : OutFrame p q) (l : LineNo) : q.fr l = p.fr l := by simp [Part.fr, h.line]

/-! ### The framer of one line -/

/-- What the framer of line `l` leaves as it is, with what it brings about on the circuit side: every other line, its own
receiver and the tallies of its receiver, the banks, the threshold of the history, the address and the desk circuit, the
clock, the straps and the level of RESETn. -/
structure LineFrame (l : LineNo) (p q : Part) : Prop where
  others : ∀ l', l' ≠ l → q.line l' = p.line l'
  rx : q.rx l = p.rx l
  received : (q.line l).tally.received = (p.line l).tally.received
  substitutions : (q.line l).tally.substitutions = (p.line l).tally.substitutions
  opens : (q.line l).tally.opens = (p.line l).tally.opens
  opening : (q.fr l).opening = (p.fr l).opening
  closing : (q.fr l).closing = (p.fr l).closing
  release : (q.fr l).release = (p.fr l).release
  banks : q.banks = p.banks
  threshold : q.history.threshold = p.history.threshold
  address : q.orders.address = p.orders.address
  desk : q.orders.desk = p.orders.desk
  clock : q.clock = p.clock
  straps : q.straps = p.straps
  inReset : q.inReset = p.inReset

theorem LineFrame.refl (l : LineNo) (p : Part) : LineFrame l p p :=
  ⟨fun _ _ => rfl, rfl, rfl, rfl, rfl, rfl, rfl, rfl, rfl, rfl, rfl, rfl, rfl, rfl, rfl⟩

theorem LineFrame.trans (h : LineFrame l p q) (k : LineFrame l q r) : LineFrame l p r :=
  ⟨fun l' n => (k.1 l' n).trans (h.1 l' n), k.2.trans h.2, k.3.trans h.3, k.4.trans h.4, k.5.trans h.5, k.6.trans h.6,
    k.7.trans h.7, k.8.trans h.8, k.9.trans h.9, k.10.trans h.10, k.11.trans h.11, k.12.trans h.12, k.13.trans h.13,
    k.14.trans h.14, k.15.trans h.15⟩

theorem OutFrame.lineFrame (h : OutFrame p q) (l : LineNo) : LineFrame l p q :=
  ⟨fun l' _ => h.line l', h.rx l, by rw [h.line], by rw [h.line], by rw [h.line], by rw [h.fr], by rw [h.fr],
    by rw [h.fr], h.banks, by rw [h.history], by rw [h.orders], by rw [h.orders], h.clock, h.straps, h.inReset⟩

theorem LineFrame.of_modFr (f : Framer → Framer) (opening : (f (p.fr l)).opening = (p.fr l).opening)
    (closing : (f (p.fr l)).closing = (p.fr l).closing) (release : (f (p.fr l)).release = (p.fr l).release) :
    LineFrame l p (p.modFr l f) :=
  ⟨fun _ n => Part.line_modFr_ne _ n, by simp, by simp, by simp, by simp, by simpa, by simpa, by simpa, rfl, rfl, rfl,
    rfl, rfl, rfl, rfl⟩

theorem LineFrame.of_lines (h : q.lines = p.lines) (banks : q.banks = p.banks)
    (threshold : q.history.threshold = p.history.threshold) (address : q.orders.address = p.orders.address)
    (desk : q.orders.desk = p.orders.desk) (clock : q.clock = p.clock) (straps : q.straps = p.straps)
    (inReset : q.inReset = p.inReset) : LineFrame l p q := by
  have line : ∀ l, q.line l = p.line l := fun l => by simp [Part.line, h]
  exact ⟨fun l' _ => line l', by simp [Part.rx, line], by rw [line], by rw [line], by rw [line], by simp [Part.fr, line],
    by simp [Part.fr, line], by simp [Part.fr, line], banks, threshold, address, desk, clock, straps, inReset⟩

theorem Move.frame (m : Move l p q) : LineFrame l p q := by
  cases m with
  | out m => exact m.frame.lineFrame l
  | fr f opening closing release _ => exact .of_modFr f opening closing release
  | tally f _ keeps =>
    exact ⟨fun _ n => Part.line_modLineTally_ne _ n, by simp, by simp [keeps], by simp [keeps], by simp [keeps], by simp,
      by simp, by simp, rfl, rfl, rfl, rfl, rfl, rfl, rfl⟩
  | grant n h _ _ =>
    unfold grantItem
    simp only
    refine LineFrame.trans ?_ (.of_modFr _ rfl rfl rfl)
    exact .of_lines rfl rfl rfl rfl rfl rfl rfl rfl
  | endItem n st v _ _ =>
    unfold Machine.endItem
    exact LineFrame.trans (.of_modFr (fun fr => { fr with item := none }) rfl rfl rfl)
      (.of_lines rfl rfl rfl rfl rfl rfl rfl rfl)
  | append n c _ _ =>
    unfold appendChr storeChr
    refine LineFrame.trans ?_ (.of_modFr _ rfl rfl rfl)
    split <;> exact .of_lines rfl rfl rfl rfl rfl rfl rfl rfl
  | history h threshold => exact .of_lines rfl rfl threshold rfl rfl rfl rfl rfl
  | commit | kill | verdict | buffer | unrouted => exact .of_lines rfl rfl rfl rfl rfl rfl rfl rfl

theorem Moves.frame (m : Moves l p q) : LineFrame l p q := by
  induction m with
  | refl => exact LineFrame.refl l p
  | tail _ m ih => exact ih.trans m.frame

theorem LineFrame.rx_any (h : LineFrame l p q) (k : LineNo) : q.rx k = p.rx k := by
  by_cases n : k = l
  · exact n ▸ h.rx
  · simp [Part.rx, h.others k n]

end Sys2Proof.Machine
end

section
/-! No step takes a tally or the part clock past its limit. -/

namespace Sys2Proof.Machine

variable {p q : Part} {c c' : CircNo} {l : LineNo}

/-! ### The tallies through each operation -/

section
variable (c c' : CircNo) (p : Part)
@[simp] theorem tally_released (n : Nat) : ((released c n p).circ c').tally = (p.circ c').tally := by
  simp [released]
@[simp] theorem tally_removeQueued (n : Nat) : ((removeQueued c n p).circ c').tally = (p.circ c').tally := by
  unfold removeQueued; split <;> simp
@[simp] theorem tally_removeCurrent : ((removeCurrent c p).circ c').tally = (p.circ c').tally := by
  unfold removeCurrent; split <;> simp
@[simp] theorem tally_putEntry (r : Request) : ((putEntry c r p).circ c').tally = (p.circ c').tally := by
  simp [putEntry]
@[simp] theorem lost_released (n : Nat) : (released c n p).alarm.lost = p.alarm.lost := by
  simp only [released, alarm_examineFree, lost_recompute]; rfl
@[simp] theorem lost_removeQueued (n : Nat) : (removeQueued c n p).alarm.lost = p.alarm.lost := by
  unfold removeQueued
  split
  · rw [lost_released]; rfl
  · rfl
@[simp] theorem lost_removeCurrent : (removeCurrent c p).alarm.lost = p.alarm.lost := by
  unfold removeCurrent
  split
  · rw [lost_released]; rfl
  · rfl
@[simp] theorem lost_putEntry (r : Request) : (putEntry c r p).alarm.lost = p.alarm.lost := by
  simp only [putEntry, lost_recompute]; rfl
end

/-! ### Every act keeps the limits -/

/-- The limits hold where the clock and the tallies stand as they stood. -/
theorem Part.CountsWithin.of_same (h : p.CountsWithin) (clock : q.clock = p.clock)
    (lines : ∀ l, (q.line l).tally = (p.line l).tally) (circs : ∀ c, (q.circ c).tally = (p.circ c).tally)
    (unrouted : q.unrouted = p.unrouted) (lost : q.alarm.lost = p.alarm.lost) : q.CountsWithin :=
  ⟨clock ▸ h.clock, fun l => lines l ▸ h.lines l, fun c => circs c ▸ h.circs c, unrouted ▸ h.unrouted, lost ▸ h.lost⟩

/-- On the circuit side only the tallies of the circuits and the count of lost unit items can change. -/
theorem Part.CountsWithin.of_outFrame (h : p.CountsWithin) (f : OutFrame p q)
    (circs : ∀ c, (q.circ c).tally.Within) (lost : q.alarm.lost ≤ Config.tallyMax) : q.CountsWithin :=
  ⟨f.clock ▸ h.clock, fun l => f.line l ▸ h.lines l, circs, f.unrouted ▸ h.unrouted, lost⟩

theorem Part.CountsWithin.modTally (h : p.CountsWithin) (f : CircTally → CircTally) (hf : ∀ t, t.Within → (f t).Within)
    (c' : CircNo) : ((p.modTally c f).circ c').tally.Within := by
  by_cases n : c' = c
  · subst n
    simpa using hf _ (h.circs c')
  · simpa [Part.circ_modTally_ne _ n] using h.circs c'

theorem Part.CountsWithin.removeQueued (h : p.CountsWithin) (n : Nat) : (removeQueued c n p).CountsWithin :=
  h.of_outFrame ((OutFrame.refl p).removeQueued n) (fun c' => by simpa using h.circs c') (by simpa using h.lost)

theorem OutMove.keeps_countsWithin (m : OutMove p q) (h : p.CountsWithin) : q.CountsWithin := by
  have frame := m.frame
  have same (circs : ∀ c, (q.circ c).tally = (p.circ c).tally) (lost : q.alarm.lost = p.alarm.lost) : q.CountsWithin :=
    h.of_outFrame frame (fun c => circs c ▸ h.circs c) (lost ▸ h.lost)
  cases m with
  | raise => exact same (fun _ => rfl) (Alarm.lost_raise ..)
  | addUnit => exact same (fun _ => rfl) rfl
  | alarm a _ lost => exact h.of_outFrame frame h.circs (lost h.lost)
  | queue | interrupt | take | giveBack => exact same (fun _ => tally_modQ ..) rfl
  | tx => exact same (fun _ => tally_modTx ..) rfl
  | tally c f within =>
    exact h.of_outFrame frame (h.modTally f within) h.lost
  | removeQueued => exact same (by simp) (by simp)
  | removeCurrent => exact same (by simp) (by simp)
  | put => exact same (by simp) (by simp)
  | replace c e r =>
    have removed : (Machine.removeQueued c e.item p).CountsWithin := h.removeQueued e.item
    have counted := removed.modTally (c := c) _ fun _ w => w.bump_displaced
    refine h.of_outFrame frame (fun c' => by simpa [displaceEntry] using counted c') ?_
    have : (displaceEntry c e p).alarm.lost = p.alarm.lost :=
      (Alarm.lost_raise ..).trans (lost_removeQueued ..)
    simpa [this] using h.lost
  | reestimate => exact same (by simp [reestimateOn, Part.modEntries]) (lost_recompute ..)
  | spend => exact same (by simp [spendOne]) (lost_recompute ..)
  | free => exact same (by simp) (by simp)

theorem Move.keeps_countsWithin (m : Move l p q) (h : p.CountsWithin) : q.CountsWithin := by
  cases m with
  | out m => exact m.keeps_countsWithin h
  | fr | grant => exact h.of_same rfl (fun _ => tally_modFr ..) (fun _ => rfl) rfl rfl
  | endItem => exact h.of_same rfl (fun l' => tally_modFr l l' p fun fr => { fr with item := none }) (fun _ => rfl) rfl rfl
  | tally f within =>
    refine ⟨h.clock, fun l' => ?_, h.circs, h.unrouted, h.lost⟩
    by_cases n : l' = l
    · subst n; simpa using within _ (h.lines l')
    · simpa [Part.line_modLineTally_ne _ n] using h.lines l'
  | append n c =>
    unfold appendChr
    split <;> exact h.of_same rfl (fun _ => tally_modFr ..) (fun _ => rfl) rfl rfl
  | commit | kill | verdict | history | buffer => exact h.of_same rfl (fun _ => rfl) (fun _ => rfl) rfl rfl
  | unrouted => exact ⟨h.clock, h.lines, h.circs, bump_le h.unrouted, h.lost⟩

theorem countsWithin_coldPart (straps : Straps) (pins : Vector Level 8) : (coldPart straps pins).CountsWithin := by
  refine ⟨Nat.zero_le _, fun l => ?_, fun c => ?_, Nat.zero_le _, Nat.zero_le _⟩
  · simp [line_coldPart, coldLine, coldLineTally, LineTally.Within]
  · simp [circ_coldPart, coldCirc, coldCircTally, CircTally.Within]

theorem Act.keeps_countsWithin (m : Act p q) (h : p.CountsWithin) : q.CountsWithin := by
  cases m with
  | move _ m => exact m.keeps_countsWithin h
  | rx | framer => exact h.of_same rfl (by simp) (fun _ => rfl) rfl rfl
  | tally l f within =>
    refine ⟨h.clock, fun l' => ?_, h.circs, h.unrouted, h.lost⟩
    by_cases n : l' = l
    · subst n; simpa using within _ (h.lines l')
    · simpa [Part.line_modLineTally_ne _ n] using h.lines l'
  | clock =>
    refine ⟨?_, h.lines, h.circs, h.unrouted, h.lost⟩
    have := h.clock
    dsimp only
    split <;> omega
  | sender => exact h.of_same rfl (fun _ => rfl) (by simp) rfl rfl
  | queue => exact h.of_same rfl (fun _ => rfl) (by simp) rfl rfl
  | reestimate c =>
    exact h.of_same (clock_recompute ..) (fun _ => by rw [reestimateCirc, line_recompute]; rfl)
      (by simp [reestimateCirc, Part.modEntries]) (unrouted_recompute ..) (lost_recompute ..)
  | thresholds c k =>
    obtain ⟨a, evaluated, alarm⟩ := evaluate_eq c (p.modLoad c (thresholdsAfter k))
    rw [evaluated]
    refine h.of_same rfl (fun _ => rfl) (by simp) rfl ?_
    rcases alarm with rfl | rfl <;> simp <;> rfl
  | zero =>
    refine ⟨h.clock, fun l => ?_, fun c => ?_, Nat.zero_le _, Nat.zero_le _⟩
    · simp [zeroTallies, Part.line, coldLineTally, LineTally.Within]
    · simp [zeroTallies, Part.circ, coldCircTally, CircTally.Within]
  | warm =>
    exact h.of_same rfl (fun l => by simp [warmPart, Part.line, warmLine]) (fun c => by simp [warmPart, Part.circ, warmCirc])
      rfl rfl
  | low =>
    exact h.of_same rfl (fun l => by simp [resetLow, Part.line]) (fun c => by simp [resetLow, Part.circ]) rfl rfl
  | cold straps => exact countsWithin_coldPart straps _
  | banks | orders | threshold | clear | mask => exact h.of_same rfl (fun _ => rfl) (fun _ => rfl) rfl rfl

/-! ### The statement -/

/-- What every act keeps, every step keeps. -/
theorem step_keeps {I : Part → Prop} (act : ∀ {p q : Part}, Act p q → I p → I q) {s t : State} (h : I s.part)
    (taken : step s = .next t) : I t.part := by
  obtain ⟨t', stepped, acts⟩ := step_acts s
  cases stepped.symm.trans taken
  exact acts.keeps act h

/-- Settles O54, act by act: every count goes up through `bump` alone, and the clock stays at its limit. -/
theorem stepKeepsCountsWithin : Obligations.StepKeepsCountsWithin :=
  fun _ _ h taken => step_keeps Act.keeps_countsWithin h taken

end Sys2Proof.Machine
end

section
/-! The entries of a circuit through every act: an item has one entry on a circuit, and the queue stands in its order. -/

namespace Sys2Proof.Machine

variable {p q : Part} {c c' : CircNo} {l : LineNo} {e : Entry} {es : List Entry}

/-! ### Placing and dropping an entry -/

theorem placeLast_perm (e : Entry) (es : List Entry) : (placeLast e es).Perm (e :: es) := by
  induction es with
  | nil => exact .refl _
  | cons x xs ih =>
    unfold placeLast; split
    · exact (ih.cons x).trans (.swap e x xs)
    · exact .refl _

theorem placeFirst_perm (e : Entry) (es : List Entry) : (placeFirst e es).Perm (e :: es) := by
  induction es with
  | nil => exact .refl _
  | cons x xs ih =>
    unfold placeFirst; split
    · exact (ih.cons x).trans (.swap e x xs)
    · exact .refl _

theorem without_sublist (n : Nat) (es : List Entry) : (without n es).Sublist es := List.filter_sublist

theorem mem_without {n : Nat} : e ∈ without n es ↔ e ∈ es ∧ e.item ≠ n := by simp [without]

/-- Where no other element has its key, an element and the elements without its key are all of them. -/
theorem perm_cons_filter_ne {α : Type} {key : α → Nat} {xs : List α} {a : α} (single : (xs.map key).Nodup) (h : a ∈ xs) :
    xs.Perm (a :: xs.filter fun x => key x != key a) := by
  induction xs with
  | nil => cases h
  | cons x xs ih =>
    simp only [List.map_cons, List.nodup_cons, List.mem_map, not_exists, not_and] at single
    obtain ⟨fresh, single⟩ := single
    rcases List.mem_cons.mp h with rfl | h
    · have all : xs.filter (fun x => key x != key a) = xs := by
        simpa [List.filter_eq_self] using fun y hy => fresh y hy
      rw [List.filter_cons_of_neg (by simp), all]
    · have other : key x ≠ key a := fun same => fresh a h same.symm
      rw [List.filter_cons_of_pos (by simpa using other)]
      exact ((ih single h).cons x).trans (.swap a x _)

/-- Where no other entry has its item, an entry and the entries without its item are the entries. -/
theorem perm_without (single : (es.map (·.item)).Nodup) (h : e ∈ es) : es.Perm (e :: without e.item es) :=
  perm_cons_filter_ne single h

theorem held_some (q : Queue) {e : Entry} (h : q.current = some e) : q.held = e :: q.entries := by simp [Queue.held, h]
theorem held_none (q : Queue) (h : q.current = none) : q.held = q.entries := by simp [Queue.held, h]

/-- Every entry of a queue changed by `f`. -/
theorem held_map (q : Queue) (f : Entry → Entry) :
    ({ q with entries := q.entries.map f, current := q.current.map f } : Queue).held = q.held.map f := by
  cases h : q.current <;> simp [Queue.held, h]

/-- The current entry of a queue changed by `f`. -/
theorem held_map_current (q : Queue) (f : Entry → Entry) :
    ({ q with current := q.current.map f } : Queue).held = q.current.toList.map f ++ q.entries := by
  simp only [Queue.held]; cases q.current <;> rfl

theorem held_reestimateOn (n : Nat) : ((reestimateOn n c p).q c).held =
    (p.q c).held.map fun e => if e.item = n then reestimated p c e else e := by
  simp only [reestimateOn, Part.modEntries, q_recompute, Part.q_modQ, held_map]

theorem held_reestimateCirc : ((reestimateCirc c p).q c).held = (p.q c).held.map (reestimated p c) := by
  simp only [reestimateCirc, Part.modEntries, q_recompute, Part.q_modQ, held_map]

theorem held_spendOne : ((spendOne c p).q c).held =
    (p.q c).current.toList.map (fun e => { e with spent := e.spent + 1 }) ++ (p.q c).entries := by
  simp only [spendOne, q_recompute, Part.q_modQ, held_map_current]

theorem held_interruptAt (r : Resume) : ((interruptAt c r p).q c).held =
    (p.q c).current.toList.map (fun e => { e with resume := some r }) ++ (p.q c).entries := by
  simp only [interruptAt, Part.q_modQ, held_map_current]

theorem circ_reestimateOn_ne (n : Nat) (ne : c' ≠ c) : (reestimateOn n c p).circ c' = p.circ c' := by
  rw [reestimateOn, circ_recompute_ne ne]; exact Part.circ_modQ_ne _ ne

theorem circ_reestimateCirc_ne (ne : c' ≠ c) : (reestimateCirc c p).circ c' = p.circ c' := by
  rw [reestimateCirc, circ_recompute_ne ne]; exact Part.circ_modQ_ne _ ne

theorem circ_spendOne_ne (ne : c' ≠ c) : (spendOne c p).circ c' = p.circ c' := by
  rw [spendOne, circ_recompute_ne ne]; exact Part.circ_modQ_ne _ ne

/-- What a change of entries keeps of each, it keeps of all. -/
theorem map_map_of_keeps {α : Type} {f : Entry → Entry} {g : Entry → α} (keeps : ∀ e, g (f e) = g e) (xs : List Entry) :
    (xs.map f).map g = xs.map g := by simp [keeps]

theorem item_reestimateOn (n : Nat) (e : Entry) : (if e.item = n then reestimated p c e else e).item = e.item := by
  split <;> rfl

/-! ### One entry for an item -/

/-- No item has two entries on a circuit. -/
def Part.Single (p : Part) : Prop := ∀ c, ((p.q c).held.map (·.item)).Nodup

theorem Part.Single.of_circ (h : p.Single) (c : CircNo) (mine : ((q.q c).held.map (·.item)).Nodup)
    (others : ∀ c', c' ≠ c → q.circ c' = p.circ c') : q.Single := fun c' => by
  by_cases n : c' = c
  · exact n ▸ mine
  · simpa [Part.q, others c' n] using h c'

theorem Part.Single.of_q (h : p.Single) (same : ∀ c, (q.q c).entries = (p.q c).entries ∧ (q.q c).current = (p.q c).current) :
    q.Single := fun c => by simpa [Queue.held, same c] using h c

/-- The entries after a selection are those before it, the one taken with its cseq. -/
theorem held_takeEntry {ch : Choice} {n : Nat} :
    ((takeEntry c ch n p).q c).held = { ch.entry with cseq := some n } :: without ch.entry.item (p.q c).entries := by
  simp [takeEntry, Queue.held]

theorem held_giveBack (current : (p.q c).current = some e) : ((giveBack c e p).q c).held.Perm (p.q c).held := by
  simpa [giveBack, Queue.held, current] using placeFirst_perm e _

theorem held_putEntry (r : Request) : ((putEntry c r p).q c).held.Perm (p.newEntry c r :: (p.q c).held) := by
  simp only [Queue.held, q_putEntry]
  exact ((placeLast_perm _ _).append_left _).trans List.perm_middle

theorem held_removeQueued_sublist (n : Nat) : ((removeQueued c n p).q c).held.Sublist (p.q c).held := by
  simp only [Queue.held, q_removeQueued]
  exact (without_sublist _ _).append_left _

theorem held_removeCurrent_sublist : ((removeCurrent c p).q c).held.Sublist (p.q c).held := by
  simp [Queue.held]

theorem held_displaceEntry_sublist (e : Entry) : ((displaceEntry c e p).q c).held.Sublist (p.q c).held := by
  simp only [Queue.held, q_displaceEntry]
  exact (without_sublist _ _).append_left _

theorem nodup_of_sublist {xs ys : List Entry} (h : xs.Sublist ys) (single : (ys.map (·.item)).Nodup) :
    (xs.map (·.item)).Nodup := (h.map _).nodup single

theorem nodup_of_perm {xs ys : List Entry} (h : xs.Perm ys) (single : (ys.map (·.item)).Nodup) :
    (xs.map (·.item)).Nodup := (h.map _).nodup_iff.mpr single

theorem nodup_putEntry {r : Request} (single : ((p.q c).held.map (·.item)).Nodup)
    (fresh : ((p.q c).held.any fun e => e.item == r.item) = false) :
    (((putEntry c r p).q c).held.map (·.item)).Nodup := by
  refine nodup_of_perm (held_putEntry r) (List.nodup_cons.mpr ⟨?_, single⟩)
  have : (p.newEntry c r).item = r.item := rfl
  simpa [this] using fresh

/-- The entry that leaves the queue and those that stay are the entries, and the current slot was empty (R104). -/
theorem held_of_take {ch : Choice} (single : ((p.q c).held.map (·.item)).Nodup) (empty : (p.q c).current = none)
    (queued : ch.entry ∈ (p.q c).entries) :
    (p.q c).held.Perm (ch.entry :: without ch.entry.item (p.q c).entries) := by
  rw [held_none _ empty] at single ⊢
  exact perm_without single queued

theorem OutMove.keeps_single (m : OutMove p q) (h : p.Single) : q.Single := by
  cases m with
  | raise | alarm | addUnit => exact h.of_q fun _ => ⟨rfl, rfl⟩
  | queue c f entries current =>
    exact h.of_circ c (by simpa [Queue.held, entries, current] using h c) fun _ n => Part.circ_modQ_ne _ n
  | tx | tally => exact h.of_q fun _ => by simp
  | interrupt c r =>
    refine h.of_circ c ?_ fun _ n => Part.circ_modQ_ne _ n
    rw [held_interruptAt]
    simpa [Function.comp_def, Queue.held] using h c
  | take c ch n empty queued =>
    refine h.of_circ c ?_ fun _ n => Part.circ_modQ_ne _ n
    rw [held_takeEntry]
    exact (((held_of_take (h c) empty queued).map (·.item)).nodup_iff).mp (h c)
  | giveBack c e current =>
    exact h.of_circ c (nodup_of_perm (held_giveBack current) (h c)) fun _ n => Part.circ_modQ_ne _ n
  | removeQueued c k =>
    exact h.of_circ c (nodup_of_sublist (held_removeQueued_sublist k) (h c)) fun _ n => circ_removeQueued_ne k n
  | removeCurrent c =>
    exact h.of_circ c (nodup_of_sublist held_removeCurrent_sublist (h c)) fun _ n => circ_removeCurrent_ne n
  | put c r single => exact h.of_circ c (nodup_putEntry (h c) single) fun _ n => circ_putEntry_ne r n
  | replace c e r _ single =>
    have less := held_displaceEntry_sublist (p := p) (c := c) e
    refine h.of_circ c (nodup_putEntry (nodup_of_sublist less (h c)) ?_) fun c' n => by
      rw [circ_putEntry_ne r n, circ_displaceEntry_ne e n]
    simp only [List.any_eq_false] at single ⊢
    exact fun x hx => single x (less.subset hx)
  | reestimate n c =>
    refine h.of_circ c ?_ fun _ => circ_reestimateOn_ne n
    rw [held_reestimateOn, map_map_of_keeps (item_reestimateOn n)]
    exact h c
  | spend c =>
    refine h.of_circ c ?_ fun _ => circ_spendOne_ne
    rw [held_spendOne]
    simpa [Function.comp_def, Queue.held] using h c
  | free => exact h.of_q fun _ => by simp

theorem Move.keeps_single (m : Move l p q) (h : p.Single) : q.Single := by
  cases m with
  | out m => exact m.keeps_single h
  | append => unfold appendChr; split <;> exact h.of_q fun _ => ⟨rfl, rfl⟩
  | fr | tally | grant | endItem | commit | kill | verdict | history | buffer | unrouted =>
    exact h.of_q fun _ => ⟨rfl, rfl⟩

/-- The entries of a circuit without any. -/
theorem held_coldPart (straps : Straps) (pins : Vector Level 8) (c : CircNo) : ((coldPart straps pins).q c).held = [] := by
  simp [q_coldPart, coldQueue, Queue.held]

theorem circ_warmPart (c : CircNo) : (warmPart p).circ c = warmCirc (p.circ c) := by simp [warmPart, Part.circ]

theorem held_warmPart (c : CircNo) : ((warmPart p).q c).held = [] := by
  simp [Part.q, circ_warmPart, warmCirc, warmQueue, Queue.held]

theorem Act.keeps_single (m : Act p q) (h : p.Single) : q.Single := by
  cases m with
  | move _ m => exact m.keeps_single h
  | sender => exact h.of_q fun _ => by simp
  | reestimate c =>
    refine h.of_circ c ?_ fun _ => circ_reestimateCirc_ne
    rw [held_reestimateCirc, map_map_of_keeps (f := reestimated p c) fun _ => rfl]
    exact h c
  | queue c f entries current =>
    exact h.of_circ c (by simpa [Queue.held, entries, current] using h c) fun _ n => Part.circ_modQ_ne _ n
  | thresholds c k =>
    obtain ⟨a, evaluated, -⟩ := evaluate_eq c (p.modLoad c (thresholdsAfter k))
    exact h.of_q fun _ => by simp [evaluated]
  | zero => exact h.of_q fun _ => by simp [zeroTallies, Part.q, Part.circ]
  | low => exact h.of_q fun _ => by simp [resetLow, Part.q, Part.circ]
  | warm => exact fun c => by simp [held_warmPart]
  | cold straps => exact fun c => by simp [powerUp, held_coldPart]
  | rx | tally | framer | clock | banks | orders | threshold | clear | mask => exact h.of_q fun _ => ⟨rfl, rfl⟩

/-! ### The queue in its order (R96) -/

theorem pairwise_placeLast (h : es.Pairwise Entry.ahead) (fresh : e.resume = none) :
    (placeLast e es).Pairwise Entry.ahead := by
  induction es with
  | nil => simp [placeLast]
  | cons x xs ih =>
    obtain ⟨first, rest⟩ := List.pairwise_cons.mp h
    unfold placeLast; split
    · next le =>
      refine List.pairwise_cons.mpr ⟨fun y hy => ?_, ih rest⟩
      rcases List.mem_cons.mp ((placeLast_perm e xs).subset hy) with rfl | hy
      · rcases Nat.lt_or_eq_of_le le with lt | eq
        · exact .inl lt
        · exact .inr ⟨eq, by simp [fresh]⟩
      · exact first y hy
    · next gt =>
      refine List.pairwise_cons.mpr ⟨fun y hy => .inl ?_, h⟩
      rcases List.mem_cons.mp hy with rfl | hy
      · omega
      · rcases first y hy with lt | ⟨eq, -⟩ <;> omega

theorem pairwise_placeFirst (h : es.Pairwise Entry.ahead) (broken : e.resume.isSome) :
    (placeFirst e es).Pairwise Entry.ahead := by
  induction es with
  | nil => simp [placeFirst]
  | cons x xs ih =>
    obtain ⟨first, rest⟩ := List.pairwise_cons.mp h
    unfold placeFirst; split
    · next lt =>
      refine List.pairwise_cons.mpr ⟨fun y hy => ?_, ih rest⟩
      rcases List.mem_cons.mp ((placeFirst_perm e xs).subset hy) with rfl | hy
      · exact .inl lt
      · exact first y hy
    · next ge =>
      refine List.pairwise_cons.mpr ⟨fun y hy => ?_, h⟩
      have : e.cls ≤ y.cls := by
        rcases List.mem_cons.mp hy with rfl | hy
        · omega
        · rcases first y hy with lt | ⟨eq, -⟩ <;> omega
      rcases Nat.lt_or_eq_of_le this with lt | eq
      · exact .inl lt
      · exact .inr ⟨eq, fun _ => broken⟩

/-- The order of a queue with its count, and the resume point of an entry whose break line is sent: what `Circ.Ordered`
says besides that an item has one entry. -/
structure Part.Placed (p : Part) (c : CircNo) : Prop where
  order : (p.q c).entries.Pairwise Entry.ahead
  count : (p.q c).held.length ≤ 33
  broken : (p.tx c).job.isBreak = true → ∀ e, (p.q c).current = some e → e.resume.isSome

theorem queuesOrdered_iff : p.QueuesOrdered ↔ p.Single ∧ ∀ c, p.Placed c :=
  ⟨fun h => ⟨fun c => (h c).single, fun c => ⟨(h c).order, (h c).count, (h c).broken⟩⟩,
    fun h c => ⟨(h.2 c).order, h.1 c, (h.2 c).count, (h.2 c).broken⟩⟩

theorem Part.Placed.of_same (h : p.Placed c) (entries : (q.q c).entries = (p.q c).entries)
    (current : (q.q c).current = (p.q c).current) (tx : q.tx c = p.tx c) : q.Placed c :=
  ⟨entries ▸ h.order, by simpa [Queue.held, entries, current] using h.count, by rw [tx, current]; exact h.broken⟩

theorem placed_of_circ (h : ∀ c, p.Placed c) (c : CircNo) (mine : q.Placed c)
    (others : ∀ c', c' ≠ c → q.circ c' = p.circ c') : ∀ c, q.Placed c := fun c' => by
  by_cases n : c' = c
  · exact n ▸ mine
  · exact (h c').of_same (by simp [Part.q, others c' n]) (by simp [Part.q, others c' n]) (by simp [Part.tx, others c' n])

theorem OutMove.keeps_placed (m : OutMove p q) (single : p.Single) (h : ∀ c, p.Placed c) : ∀ c, q.Placed c := by
  cases m with
  | raise | alarm | addUnit => exact fun c => (h c).of_same rfl rfl rfl
  | queue c f entries current =>
    exact placed_of_circ h c ((h c).of_same (by simp [entries]) (by simp [current]) (by simp)) fun _ n =>
      Part.circ_modQ_ne _ n
  | tx c f _ broken =>
    refine placed_of_circ h c ⟨by simpa using (h c).order, by simpa using (h c).count, ?_⟩ fun _ n =>
      Part.circ_modTx_ne _ n
    simp only [Part.tx_modTx, Part.q_modTx]
    exact fun job => (broken job).elim (h c).broken id
  | tally => exact fun c => (h c).of_same (by simp) (by simp) (by simp)
  | interrupt c r =>
    refine placed_of_circ h c ⟨by simpa [interruptAt] using (h c).order, ?_, ?_⟩ fun _ n => Part.circ_modQ_ne _ n
    · rw [held_interruptAt]
      simpa [Queue.held] using (h c).count
    · simp [interruptAt]
  | take c ch n empty queued unbroken =>
    refine placed_of_circ h c ⟨?_, ?_, ?_⟩ fun _ n => Part.circ_modQ_ne _ n
    · simpa [takeEntry] using (h c).order.sublist (without_sublist _ _)
    · rw [held_takeEntry]
      exact (held_of_take (single c) empty queued).length_eq ▸ (h c).count
    · simp [takeEntry, unbroken]
  | giveBack c e current broken =>
    refine placed_of_circ h c ⟨?_, ?_, ?_⟩ fun _ n => Part.circ_modQ_ne _ n
    · simpa [Machine.giveBack] using pairwise_placeFirst (h c).order ((h c).broken broken e current)
    · exact (held_giveBack current).length_eq ▸ (h c).count
    · simp [Machine.giveBack]
  | removeQueued c k =>
    refine placed_of_circ h c ⟨?_, ?_, ?_⟩ fun _ n => circ_removeQueued_ne k n
    · simpa using (h c).order.sublist (without_sublist _ _)
    · exact (held_removeQueued_sublist k).length_le.trans (h c).count
    · simpa using (h c).broken
  | removeCurrent c =>
    refine placed_of_circ h c ⟨by simpa using (h c).order, ?_, by simp⟩ fun _ n => circ_removeCurrent_ne n
    exact held_removeCurrent_sublist.length_le.trans (h c).count
  | put c r _ room =>
    refine placed_of_circ h c ⟨?_, ?_, by simpa using (h c).broken⟩ fun _ n => circ_putEntry_ne r n
    · simpa using pairwise_placeLast (h c).order rfl
    · rw [(held_putEntry r).length_eq, List.length_cons]
      omega
  | replace c e r queued =>
    refine placed_of_circ h c ⟨?_, ?_, by simpa using (h c).broken⟩ fun _ n => by
      rw [circ_putEntry_ne r n, circ_displaceEntry_ne e n]
    · simpa using pairwise_placeLast ((h c).order.sublist (without_sublist e.item _)) rfl
    · have less : (without e.item (p.q c).entries).length < (p.q c).entries.length :=
        List.length_filter_lt_length_iff_exists.mpr ⟨e, queued, by simp⟩
      have := (h c).count
      rw [(held_putEntry r).length_eq, List.length_cons]
      simp only [Queue.held, q_displaceEntry, List.length_append] at *
      omega
  | reestimate n c =>
    refine placed_of_circ h c ⟨?_, ?_, ?_⟩ fun _ => circ_reestimateOn_ne n
    · have := (h c).order
      simp only [reestimateOn, Part.modEntries, q_recompute, Part.q_modQ, List.pairwise_map]
      refine this.imp fun {a b} ab => ?_
      unfold Entry.ahead at *
      split <;> split <;> exact ab
    · simpa [held_reestimateOn] using (h c).count
    · intro job e current
      simp only [reestimateOn, Part.modEntries, q_recompute, tx_recompute, Part.q_modQ, Part.tx_modQ,
        Option.map_eq_some_iff] at job current
      obtain ⟨x, current, rfl⟩ := current
      have := (h c).broken job x current
      split <;> exact this
  | spend c =>
    refine placed_of_circ h c ⟨?_, ?_, ?_⟩ fun _ => circ_spendOne_ne
    · simpa [spendOne] using (h c).order
    · rw [held_spendOne]
      simpa [Queue.held] using (h c).count
    · intro job e current
      simp only [spendOne, q_recompute, tx_recompute, Part.q_modQ, Part.tx_modQ, Option.map_eq_some_iff] at job current
      obtain ⟨x, current, rfl⟩ := current
      exact (h c).broken job x current
  | free => exact fun c => (h c).of_same (by simp) (by simp) (by simp)

theorem Move.keeps_placed (m : Move l p q) (single : p.Single) (h : ∀ c, p.Placed c) : ∀ c, q.Placed c := by
  cases m with
  | out m => exact m.keeps_placed single h
  | append => unfold appendChr; split <;> exact fun c => (h c).of_same rfl rfl rfl
  | fr | tally | grant | endItem | commit | kill | verdict | history | buffer | unrouted =>
    exact fun c => (h c).of_same rfl rfl rfl

/-- No break line is sent where the frames in progress have ended, or where no entry is current. -/
theorem placed_of_empty (entries : (q.q c).held = []) : q.Placed c := by
  obtain ⟨current, entries⟩ := List.append_eq_nil_iff.mp entries
  have none : (q.q c).current = none := by simpa using current
  exact ⟨by simp [entries], by simp [Queue.held, none, entries], by simp [none]⟩

theorem Act.keeps_placed (m : Act p q) (single : p.Single) (h : ∀ c, p.Placed c) : ∀ c, q.Placed c := by
  cases m with
  | move _ m => exact m.keeps_placed single h
  | sender c f job =>
    refine placed_of_circ h c ⟨by simpa using (h c).order, by simpa using (h c).count, ?_⟩ fun _ n =>
      Part.circ_modTx_ne _ n
    simp only [Part.tx_modTx, Part.q_modTx]
    exact fun broken => (h c).broken (job broken)
  | reestimate c =>
    refine placed_of_circ h c ⟨?_, ?_, ?_⟩ fun _ => circ_reestimateCirc_ne
    · simp only [reestimateCirc, Part.modEntries, q_recompute, Part.q_modQ, List.pairwise_map]
      exact (h c).order
    · simpa [held_reestimateCirc] using (h c).count
    · intro job e current
      simp only [reestimateCirc, Part.modEntries, q_recompute, tx_recompute, Part.q_modQ, Part.tx_modQ,
        Option.map_eq_some_iff] at job current
      obtain ⟨x, current, rfl⟩ := current
      exact (h c).broken job x current
  | queue c f entries current =>
    exact placed_of_circ h c ((h c).of_same (by simp [entries]) (by simp [current]) (by simp)) fun _ n =>
      Part.circ_modQ_ne _ n
  | thresholds c k =>
    obtain ⟨a, evaluated, -⟩ := evaluate_eq c (p.modLoad c (thresholdsAfter k))
    exact fun c => (h c).of_same (by simp [evaluated]) (by simp [evaluated]) (by simp [evaluated])
  | zero =>
    exact fun c => (h c).of_same (by simp [zeroTallies, Part.q, Part.circ]) (by simp [zeroTallies, Part.q, Part.circ])
      (by simp [zeroTallies, Part.tx, Part.circ])
  | low =>
    refine fun c => ⟨?_, ?_, ?_⟩
    · simpa [resetLow, Part.q, Part.circ] using (h c).order
    · simpa [resetLow, Part.q, Part.circ] using (h c).count
    · simp [resetLow, Part.tx, Part.circ, Job.isBreak]
  | warm => exact fun c => placed_of_empty (held_warmPart c)
  | cold straps => exact fun c => placed_of_empty (held_coldPart ..)
  | rx | tally | framer | clock | banks | orders | threshold | clear | mask => exact fun c => (h c).of_same rfl rfl rfl

/-! ### The statement -/

theorem Act.keeps_queuesOrdered (m : Act p q) (h : p.QueuesOrdered) : q.QueuesOrdered := by
  rw [queuesOrdered_iff] at *
  exact ⟨m.keeps_single h.1, m.keeps_placed h.1 h.2⟩

/-- Settles O56, act by act: an arrival goes to the tail of its class group, a broken-off entry to its head. -/
theorem stepKeepsQueuesOrdered : Obligations.StepKeepsQueuesOrdered :=
  fun _ _ h taken => step_keeps Act.keeps_queuesOrdered h taken

end Sys2Proof.Machine
end

section
/-! Every act keeps each backlog equal to what its entries still owe, and each overload state in agreement with it. -/

namespace Sys2Proof.Machine

variable {p q : Part} {c c' : CircNo} {l : LineNo} {e : Entry}

/-- The estimates of a circuit are within their cap, its thresholds keep their relation, and its overload state agrees with
the backlog that it holds: what a recomputation starts from. -/
structure Part.Fit (p : Part) (c : CircNo) : Prop where
  estimates : ∀ e ∈ (p.q c).held, e.estimate ≤ Config.estimateMax
  relation : (p.load c).hyst < (p.load c).loadOn ∧ (p.load c).loadOn ≤ (p.load c).congOn
  agrees : (p.load c).Agrees

/-- The backlog of a circuit is the sum over its entries, besides. -/
structure Part.Balanced (p : Part) (c : CircNo) : Prop extends p.Fit c where
  backlog : (p.load c).backlog = backlogOf (p.q c)

theorem backlogsCounted_iff : p.BacklogsCounted ↔ p.Single ∧ ∀ c, p.Balanced c :=
  ⟨fun h => ⟨fun c => (h c).single, fun c => ⟨⟨(h c).estimates, (h c).relation, (h c).agrees⟩, (h c).backlog⟩⟩,
    fun h c => ⟨h.1 c, (h.2 c).backlog, (h.2 c).estimates, (h.2 c).relation, (h.2 c).agrees⟩⟩

/-- A recomputation balances a circuit (R149, R151). -/
theorem Part.Fit.recompute (h : p.Fit c) : (recompute c p).Balanced c := by
  obtain ⟨st, load, state⟩ := load_recompute c p
  refine ⟨⟨by simpa using h.estimates, by simpa [load] using h.relation, ?_⟩, by simp [load]⟩
  rw [load]
  rcases state with ⟨same, rfl⟩ | rfl
  · rw [same]; exact h.agrees
  · exact agrees_evaluated _ h.relation

/-- What a recomputation starts from holds where the entries are some of those before and the load figures stand. -/
theorem Part.Fit.of_subset (h : p.Fit c) (held : ∀ e ∈ (q.q c).held, e.estimate ≤ Config.estimateMax)
    (load : q.load c = p.load c) : q.Fit c := ⟨held, load ▸ h.relation, load ▸ h.agrees⟩

/-- A balanced circuit stays so where its entries owe what they owed. -/
theorem Part.Balanced.of_owed (h : p.Balanced c) (held : ∀ e ∈ (q.q c).held, e.estimate ≤ Config.estimateMax)
    (owed : backlogOf (q.q c) = backlogOf (p.q c)) (load : q.load c = p.load c) : q.Balanced c :=
  ⟨h.toFit.of_subset held load, by rw [load, owed]; exact h.backlog⟩

theorem Part.Balanced.of_same (h : p.Balanced c) (entries : (q.q c).entries = (p.q c).entries)
    (current : (q.q c).current = (p.q c).current) (load : q.load c = p.load c) : q.Balanced c := by
  have held : (q.q c).held = (p.q c).held := by simp [Queue.held, entries, current]
  exact h.of_owed (held ▸ h.estimates) (by simp [backlogOf, held]) load

theorem Part.Balanced.of_circ (h : p.Balanced c) (same : q.circ c = p.circ c) : q.Balanced c :=
  h.of_same (by simp [Part.q, same]) (by simp [Part.q, same]) (by simp [Part.load, same])

theorem balanced_of_circ (h : ∀ c, p.Balanced c) (c : CircNo) (mine : q.Balanced c)
    (others : ∀ c', c' ≠ c → q.circ c' = p.circ c') : ∀ c, q.Balanced c := fun c' => by
  by_cases n : c' = c
  · exact n ▸ mine
  · exact (h c').of_circ (others c' n)

theorem backlogOf_of_perm {q r : Queue} (h : q.held.Perm r.held) : backlogOf q = backlogOf r :=
  (h.map contribution).sum_nat

/-- An entry that has its contribution from another, with any entries beside it. -/
theorem sum_contribution_cons {a b : Entry} (xs : List Entry) (h : contribution a = contribution b) :
    ((a :: xs).map contribution).sum = ((b :: xs).map contribution).sum := by simp [h]

theorem estimateOf_le (e : Entry) (it : Item) (tx : TxParams) : estimateOf e it tx ≤ Config.estimateMax :=
  Nat.min_le_left _ _

/-! ### Removal and insertion -/

theorem Part.Fit.released (h : p.Fit c) (n : Nat) : (released c n p).Balanced c := by
  have counted : (p.modItem n fun it => { it with holders := it.holders - 1 }).Fit c := h.of_subset h.estimates rfl
  exact counted.recompute.of_circ (circ_examineFree ..)

theorem Part.Balanced.removeQueued (h : p.Balanced c) (n : Nat) : (removeQueued c n p).Balanced c := by
  unfold Machine.removeQueued
  split
  · refine Part.Fit.released (h.toFit.of_subset ?_ (by simp)) n
    intro e he
    refine h.estimates e ?_
    simp only [Part.q_modQ, Queue.held] at he ⊢
    exact ((without_sublist n _).append_left _).subset he
  · exact h

theorem Part.Balanced.removeCurrent (h : p.Balanced c) : (removeCurrent c p).Balanced c := by
  unfold Machine.removeCurrent
  split
  · refine Part.Fit.released (h.toFit.of_subset ?_ (by simp)) _
    intro e he
    simp only [Part.q_modQ, Queue.held, Option.toList_none, List.nil_append] at he
    exact h.estimates e (by simp [Queue.held, he])
  · exact h

theorem Part.Fit.putEntry (h : p.Fit c) (r : Request) : (putEntry c r p).Balanced c := by
  unfold Machine.putEntry
  simp only
  refine Part.Fit.recompute (h.of_subset ?_ (by simp))
  intro e he
  simp only [Part.q_modItem, Part.q_modQ, Queue.held, List.mem_append, (placeLast_perm _ _).mem_iff, List.mem_cons] at he
  rcases he with he | rfl | he
  · exact h.estimates e (by simp only [Queue.held, List.mem_append]; exact .inl he)
  · exact estimateOf_le ..
  · exact h.estimates e (by simp [Queue.held, he])

theorem Part.Balanced.displaceEntry (h : p.Balanced c) (e : Entry) : (displaceEntry c e p).Balanced c :=
  (h.removeQueued e.item).of_same (by simp [Machine.displaceEntry]) (by simp [Machine.displaceEntry])
    (by simp [Machine.displaceEntry])

/-! ### Every act -/

theorem OutMove.keeps_balanced (m : OutMove p q) (single : p.Single) (h : ∀ c, p.Balanced c) : ∀ c, q.Balanced c := by
  cases m with
  | raise | alarm | addUnit => exact fun c => (h c).of_same rfl rfl rfl
  | queue c f entries current =>
    exact balanced_of_circ h c ((h c).of_same (by simp [entries]) (by simp [current]) (by simp)) fun _ n =>
      Part.circ_modQ_ne _ n
  | tx | tally => exact fun c => (h c).of_same (by simp) (by simp) (by simp)
  | interrupt c r =>
    refine balanced_of_circ h c ((h c).of_owed ?_ ?_ (by simp [interruptAt])) fun _ n => Part.circ_modQ_ne _ n
    · have := (h c).estimates
      rw [held_interruptAt]
      cases current : (p.q c).current <;> simpa [Queue.held, current] using this
    · rw [backlogOf, held_interruptAt]
      cases current : (p.q c).current <;> simp [backlogOf, Queue.held, current, contribution]
  | take c ch n empty queued =>
    have perm := held_of_take (single c) empty queued
    refine balanced_of_circ h c ((h c).of_owed ?_ ?_ (by simp [takeEntry])) fun _ n => Part.circ_modQ_ne _ n
    · rw [held_takeEntry]
      intro e he
      rcases List.mem_cons.mp he with rfl | he
      · exact (h c).estimates ch.entry (perm.mem_iff.mpr (.head _))
      · exact (h c).estimates e (perm.mem_iff.mpr (.tail _ he))
    · rw [backlogOf, held_takeEntry, backlogOf, (perm.map contribution).sum_nat]
      exact sum_contribution_cons _ rfl
  | giveBack c e current =>
    have perm := held_giveBack current
    exact balanced_of_circ h c ((h c).of_owed (fun e he => (h c).estimates e (perm.mem_iff.mp he)) (backlogOf_of_perm perm)
      (by simp [Machine.giveBack])) fun _ n => Part.circ_modQ_ne _ n
  | removeQueued c k => exact balanced_of_circ h c ((h c).removeQueued k) fun _ n => circ_removeQueued_ne k n
  | removeCurrent c => exact balanced_of_circ h c (h c).removeCurrent fun _ n => circ_removeCurrent_ne n
  | put c r => exact balanced_of_circ h c ((h c).toFit.putEntry r) fun _ n => circ_putEntry_ne r n
  | replace c e r =>
    exact balanced_of_circ h c (((h c).displaceEntry e).toFit.putEntry r) fun _ n => by
      rw [circ_putEntry_ne r n, circ_displaceEntry_ne e n]
  | reestimate n c =>
    refine balanced_of_circ h c ?_ fun _ => circ_reestimateOn_ne n
    refine Part.Fit.recompute ((h c).toFit.of_subset ?_ (by simp [Part.modEntries]))
    simp only [Part.modEntries, Part.q_modQ, held_map, List.forall_mem_map]
    intro e he
    split
    · exact estimateOf_le ..
    · exact (h c).estimates e he
  | spend c =>
    refine balanced_of_circ h c ?_ fun _ => circ_spendOne_ne
    refine Part.Fit.recompute ((h c).toFit.of_subset ?_ (by simp))
    have := (h c).estimates
    rw [Part.q_modQ, held_map_current]
    cases current : (p.q c).current <;> simpa [Queue.held, current] using this
  | free => exact fun c => (h c).of_circ (circ_examineFree ..)

theorem Move.keeps_balanced (m : Move l p q) (single : p.Single) (h : ∀ c, p.Balanced c) : ∀ c, q.Balanced c := by
  cases m with
  | out m => exact m.keeps_balanced single h
  | append => unfold appendChr; split <;> exact fun c => (h c).of_same rfl rfl rfl
  | fr | tally | grant | endItem | commit | kill | verdict | history | buffer | unrouted =>
    exact fun c => (h c).of_same rfl rfl rfl

theorem balanced_coldPart (straps : Straps) (pins : Vector Level 8) (c : CircNo) : (coldPart straps pins).Balanced c := by
  have load : (coldPart straps pins).load c = coldLoad := by simp [Part.load, circ_coldPart, coldCirc]
  refine ⟨⟨by simp [held_coldPart], by rw [load]; decide, by rw [load]; exact (by decide : (0 : Nat) < 6000)⟩, ?_⟩
  rw [load, backlogOf, held_coldPart]
  rfl

theorem Part.Balanced.warm (h : p.Balanced c) : (warmPart p).Balanced c := by
  have load : (warmPart p).load c = { p.load c with backlog := 0, state := .normal } := by
    simp [Part.load, circ_warmPart, warmCirc]
  refine ⟨⟨by simp [held_warmPart], by rw [load]; exact h.relation, ?_⟩, by rw [load, backlogOf, held_warmPart]; rfl⟩
  rw [load]
  exact Nat.zero_lt_of_lt h.relation.1

theorem Act.keeps_balanced (m : Act p q) (single : p.Single) (h : ∀ c, p.Balanced c) : ∀ c, q.Balanced c := by
  cases m with
  | move _ m => exact m.keeps_balanced single h
  | sender => exact fun c => (h c).of_same (by simp) (by simp) (by simp)
  | reestimate c =>
    refine balanced_of_circ h c ?_ fun _ => circ_reestimateCirc_ne
    refine Part.Fit.recompute ((h c).toFit.of_subset ?_ (by simp [Part.modEntries]))
    simp only [Part.modEntries, Part.q_modQ, held_map, List.forall_mem_map]
    exact fun e _ => estimateOf_le ..
  | queue c f entries current =>
    exact balanced_of_circ h c ((h c).of_same (by simp [entries]) (by simp [current]) (by simp)) fun _ n =>
      Part.circ_modQ_ne _ n
  | thresholds c k relation =>
    obtain ⟨a, evaluated, -⟩ := evaluate_eq c (p.modLoad c (thresholdsAfter k))
    rw [evaluated, Part.modLoad_modLoad]
    refine balanced_of_circ h c ⟨⟨by simpa using (h c).estimates, by simpa using relation, ?_⟩, ?_⟩ fun _ n =>
      (Part.circ_setAlarm a).trans (Part.circ_modLoad_ne _ n)
    · simpa using agrees_evaluated _ relation
    · simpa [thresholdsAfter] using (h c).backlog
  | zero =>
    exact fun c => (h c).of_same (by simp [zeroTallies, Part.q, Part.circ]) (by simp [zeroTallies, Part.q, Part.circ])
      (by simp [zeroTallies, Part.load, Part.circ])
  | low =>
    exact fun c => (h c).of_same (by simp [resetLow, Part.q, Part.circ]) (by simp [resetLow, Part.q, Part.circ])
      (by simp [resetLow, Part.load, Part.circ])
  | warm => exact fun c => (h c).warm
  | cold straps => exact fun c => balanced_coldPart ..
  | rx | tally | framer | clock | banks | orders | threshold | clear | mask => exact fun c => (h c).of_same rfl rfl rfl

/-! ### The statement -/

theorem Act.keeps_backlogsCounted (m : Act p q) (h : p.BacklogsCounted) : q.BacklogsCounted := by
  rw [backlogsCounted_iff] at *
  exact ⟨m.keeps_single h.1, m.keeps_balanced h.1 h.2⟩

/-- Settles O57, act by act: what changes the entries of a circuit ends in a recomputation, or moves an entry with all
that it owes. -/
theorem stepKeepsBacklogsCounted : Obligations.StepKeepsBacklogsCounted :=
  fun _ _ h taken => step_keeps Act.keeps_backlogsCounted h taken

end Sys2Proof.Machine
end

section
/-! Every act keeps each block of the store in the free pool or in one chain, the counts exact, and the agency limits. -/

namespace Sys2Proof.Machine

variable {p q : Part} {c c' : CircNo} {l l' : LineNo} {n : Nat} {it : Item}

/-! ### The item table without one of its descriptors -/

/-- A descriptor in use and the others in use are the descriptors in use. -/
theorem items_perm (numbers : (p.items.map (·.num)).Nodup) (h : p.item? n = some it) :
    p.items.Perm (it :: p.items.filter fun x => x.num != n) := by
  have := perm_cons_filter_ne numbers (Part.mem_of_item? h)
  rwa [Part.num_of_item? h] at this

theorem items_modItem_perm (numbers : (p.items.map (·.num)).Nodup) (h : p.item? n = some it) (f : Item → Item) :
    (p.modItem n f).items.Perm (f it :: p.items.filter fun x => x.num != n) := by
  have kept : (p.items.filter fun x => x.num != n).map (fun x => if x.num == n then f x else x) =
      p.items.filter fun x => x.num != n :=
    (List.map_congr_left fun x hx => if_neg (by simpa using (List.mem_filter.mp hx).2)).trans (List.map_id _)
  have := (items_perm numbers h).map fun x => if x.num == n then f x else x
  rwa [List.map_cons, kept, if_pos (by simp [Part.num_of_item? h])] at this

theorem Part.unique_num (numbers : (p.items.map (·.num)).Nodup) {a b : Item} (ha : a ∈ p.items) (hb : b ∈ p.items)
    (same : a.num = b.num) : a = b := by
  have left := Part.item?_of_mem numbers ha
  rw [same, Part.item?_of_mem numbers hb] at left
  exact (Option.some.inj left).symm

/-! ### The store and the descriptors -/

/-- What `Part.StoreSound` says of the descriptors in use and the counts of the store. -/
structure Stored (items : List Item) (st : Store) : Prop where
  numbers : (items.map (·.num)).Nodup
  range : ∀ it ∈ items, it.num < Config.tableSize
  chained : ∀ it ∈ items, it.Chained
  blocks : st.freeBlocks + (items.map (·.blocks)).sum = Config.storeBlocks
  agencyBlocks : st.agencyBlocks = ((items.filter Item.agency).map (·.blocks)).sum
  agencyItems : st.agencyItems = (items.filter Item.agency).length
  blockLimit : st.agencyBlocks ≤ Config.agencyBlockLimit
  itemLimit : st.agencyItems ≤ Config.agencyItemLimit

/-- A framer that is receiving an item refers to a FILLING descriptor of its own line. -/
def Part.Receiving (p : Part) : Prop :=
  ∀ l n, (p.fr l).item = some n → ∃ it ∈ p.items, it.num = n ∧ it.state = .filling ∧ it.source = some l

theorem storeSound_iff : p.StoreSound ↔ Stored p.items p.store ∧ p.Receiving :=
  ⟨fun h => ⟨⟨h.numbers, h.range, h.chained, h.blocks, h.agencyBlocks, h.agencyItems, h.blockLimit, h.itemLimit⟩,
      h.receiving⟩,
    fun ⟨h, r⟩ => ⟨h.numbers, h.range, h.chained, h.blocks, h.agencyBlocks, h.agencyItems, h.blockLimit, h.itemLimit, r⟩⟩

theorem Part.StoreSound.of_same (h : p.StoreSound) (items : q.items = p.items) (store : q.store = p.store)
    (receiving : ∀ l, (q.fr l).item = (p.fr l).item) : q.StoreSound := by
  rw [storeSound_iff] at *
  refine ⟨by rw [items, store]; exact h.1, fun l n hn => ?_⟩
  rw [items]
  exact h.2 l n (receiving l ▸ hn)

/-- What a change of descriptors leaves of each: its number, its source, its chain, and its being FILLING. -/
structure KeepsChain (f : Item → Item) : Prop where
  num : ∀ it, (f it).num = it.num
  source : ∀ it, (f it).source = it.source
  blocks : ∀ it, (f it).blocks = it.blocks
  body : ∀ it, (f it).body = it.body
  committed : ∀ it, it.committed ≤ it.body.length → (f it).committed ≤ it.body.length

theorem KeepsChain.at_num {f : Item → Item} (h : KeepsChain f) (n : Nat) :
    KeepsChain fun it => if it.num == n then f it else it :=
  ⟨fun it => by split <;> simp [h.num], fun it => by split <;> simp [h.source], fun it => by split <;> simp [h.blocks],
    fun it => by split <;> simp [h.body], fun it le => by split <;> simp [h.committed, le]⟩

theorem Stored.map {items : List Item} {st : Store} (h : Stored items st) {f : Item → Item} (k : KeepsChain f) :
    Stored (items.map f) st := by
  have agency : (items.map f).filter Item.agency = (items.filter Item.agency).map f := by
    rw [List.filter_map]
    exact congrArg _ (List.filter_congr fun it _ => by simp [Item.agency, k.source])
  have blocks : ∀ xs : List Item, (xs.map f).map (·.blocks) = xs.map (·.blocks) := fun xs => by simp [k.blocks]
  refine ⟨?_, ?_, ?_, ?_, ?_, ?_, h.blockLimit, h.itemLimit⟩
  · simpa [k.num, Function.comp_def] using h.numbers
  · simpa [k.num] using h.range
  · simp only [List.forall_mem_map]
    intro it hit
    have := h.chained it hit
    exact ⟨by rw [k.blocks, k.body]; exact this.1, by rw [k.body]; exact k.committed it this.2⟩
  · rw [blocks]; exact h.blocks
  · rw [agency, blocks]; exact h.agencyBlocks
  · rw [agency, List.length_map]; exact h.agencyItems

theorem Part.Receiving.map (h : p.Receiving) {f : Item → Item} (nums : ∀ it, (f it).num = it.num)
    (sources : ∀ it, (f it).source = it.source) (states : ∀ it, (f it).state = it.state) (items : q.items = p.items.map f)
    (receiving : ∀ l, (q.fr l).item = (p.fr l).item) : q.Receiving := fun l n hn => by
  obtain ⟨it, hit, num, filling, source⟩ := h l n (receiving l ▸ hn)
  exact ⟨f it, items ▸ List.mem_map_of_mem hit, by rw [nums, num], by rw [states, filling],
    by rw [sources, source]⟩

/-- A change of descriptors that leaves their chains and states keeps the store sound. -/
theorem Part.StoreSound.map (h : p.StoreSound) {f : Item → Item} (k : KeepsChain f)
    (state : ∀ it, (f it).state = it.state) (items : q.items = p.items.map f) (store : q.store = p.store)
    (receiving : ∀ l, (q.fr l).item = (p.fr l).item) : q.StoreSound := by
  rw [storeSound_iff] at *
  exact ⟨by rw [items, store]; exact h.1.map k, h.2.map k.num k.source state items receiving⟩

theorem Part.StoreSound.modItem (h : p.StoreSound) (n : Nat) {f : Item → Item} (k : KeepsChain f)
    (state : ∀ it, (f it).state = it.state) : (p.modItem n f).StoreSound :=
  h.map (k.at_num n) (fun it => by split <;> simp [state]) rfl rfl fun _ => rfl

theorem keepsChain_holders (g : Nat → Nat) : KeepsChain fun it => { it with holders := g it.holders } :=
  ⟨fun _ => rfl, fun _ => rfl, fun _ => rfl, fun _ => rfl, fun _ => id⟩

/-- The counts of the store do not depend on the order of the descriptors. -/
theorem Stored.perm {xs ys : List Item} {st : Store} (h : Stored xs st) (perm : xs.Perm ys) : Stored ys st :=
  ⟨(perm.map _).nodup_iff.mp h.numbers, fun it hit => h.range it (perm.mem_iff.mpr hit),
    fun it hit => h.chained it (perm.mem_iff.mpr hit), by rw [← (perm.map _).sum_nat]; exact h.blocks,
    by rw [← ((perm.filter _).map _).sum_nat]; exact h.agencyBlocks, by rw [← (perm.filter _).length_eq]; exact h.agencyItems,
    h.blockLimit, h.itemLimit⟩

/-- Only the numbers of the store count, not how it is written. -/
theorem Stored.of_eq {xs ys : List Item} {st st' : Store} (h : Stored xs st) (items : ys = xs) (store : st' = st) :
    Stored ys st' := by
  rw [items, store]; exact h

/-! ### Freeing and granting -/

/-- The store after an item has given back its blocks and its descriptor (R66). -/
def storeWithout (it : Item) (st : Store) : Store :=
  { freeBlocks := st.freeBlocks + it.blocks
    agencyBlocks := if it.agency then st.agencyBlocks - it.blocks else st.agencyBlocks
    agencyItems := if it.agency then st.agencyItems - 1 else st.agencyItems }

theorem Stored.drop {items : List Item} {st : Store} (h : Stored (it :: items) st) :
    Stored items (storeWithout it st) := by
  obtain ⟨numbers, range, chained, blocks, agencyBlocks, agencyItems, blockLimit, itemLimit⟩ := h
  refine ⟨(List.nodup_cons.mp numbers).2, fun x hx => range x (.tail _ hx), fun x hx => chained x (.tail _ hx),
    ?_, ?_, ?_, ?_, ?_⟩
  all_goals
    rw [List.map_cons, List.sum_cons] at blocks
    cases agency : it.agency <;> simp [agency] at agencyBlocks agencyItems
    all_goals simp only [storeWithout, agency, if_true, Bool.false_eq_true, if_false]; omega

/-- An item enters the table with a number that was FREE. -/
theorem Stored.add {items : List Item} {st st' : Store} (h : Stored items st) (fresh : it.num ∉ items.map (·.num))
    (range : it.num < Config.tableSize) (chained : it.Chained)
    (blocks : st'.freeBlocks + it.blocks = st.freeBlocks)
    (agencyBlocks : st'.agencyBlocks = st.agencyBlocks + if it.agency then it.blocks else 0)
    (agencyItems : st'.agencyItems = st.agencyItems + if it.agency then 1 else 0)
    (blockLimit : st'.agencyBlocks ≤ Config.agencyBlockLimit) (itemLimit : st'.agencyItems ≤ Config.agencyItemLimit) :
    Stored (items ++ [it]) st' := by
  refine ⟨?_, ?_, ?_, ?_, ?_, ?_, blockLimit, itemLimit⟩
  · simpa [List.nodup_append] using ⟨h.numbers, by simpa using fresh⟩
  · simpa [or_imp, forall_and] using ⟨h.range, range⟩
  · simpa [or_imp, forall_and] using ⟨h.chained, chained⟩
  · have := h.blocks
    simp only [List.map_append, List.sum_append, List.map_cons, List.sum_cons, List.map_nil, List.sum_nil]
    omega
  · rw [agencyBlocks, h.agencyBlocks]
    cases agency : it.agency <;> simp [agency]
  · rw [agencyItems, h.agencyItems]
    cases agency : it.agency <;> simp [agency]

theorem Part.StoreSound.dropped (h : p.StoreSound) (hit : p.item? n = some it) (ended : it.state ≠ .filling)
    (items : q.items = p.items.filter fun x => x.num != n) (store : q.store = storeWithout it p.store)
    (receiving : ∀ l, (q.fr l).item = (p.fr l).item) : q.StoreSound := by
  rw [storeSound_iff] at *
  refine ⟨((h.1.perm (items_perm h.1.numbers hit)).drop).of_eq items store, fun l k hk => ?_⟩
  obtain ⟨x, hx, num, filling, source⟩ := h.2 l k (receiving l ▸ hk)
  refine ⟨x, items ▸ List.mem_filter.mpr ⟨hx, ?_⟩, num, filling, source⟩
  have : x.num ≠ n := fun same => ended <| by
    rw [← Part.num_of_item? hit] at same
    exact Part.unique_num h.1.numbers hx (Part.mem_of_item? hit) same ▸ filling
  simpa using this

theorem Part.StoreSound.added (h : p.StoreSound) (stored : Stored (p.items ++ [it]) q.store)
    (items : q.items = p.items ++ [it]) (receiving : ∀ l, (q.fr l).item = (p.fr l).item) : q.StoreSound := by
  rw [storeSound_iff] at *
  refine ⟨stored.of_eq items rfl, fun l k hk => ?_⟩
  obtain ⟨x, hx, rest⟩ := h.2 l k (receiving l ▸ hk)
  exact ⟨x, items ▸ List.mem_append_left _ hx, rest⟩

theorem Part.StoreSound.examineFree (h : p.StoreSound) (n : Nat) : (examineFree n p).StoreSound := by
  unfold Machine.examineFree
  split
  · exact h
  · next it hit =>
    dsimp only
    split
    · next free =>
      have ended : it.state ≠ .filling := by simpa [Item.ended] using (Bool.and_eq_true_iff.mp free).1
      exact h.dropped hit ended rfl rfl fun _ => rfl
    · exact h

theorem Part.StoreSound.recompute (h : p.StoreSound) : (recompute c p).StoreSound :=
  h.of_same (items_recompute ..) (store_recompute ..) fun l => by simp [Part.fr]

theorem Part.StoreSound.released (h : p.StoreSound) (n : Nat) : (released c n p).StoreSound :=
  (h.modItem n (keepsChain_holders (· - 1)) fun _ => rfl).recompute.examineFree n

theorem Part.StoreSound.removeQueued (h : p.StoreSound) (n : Nat) : (removeQueued c n p).StoreSound := by
  unfold Machine.removeQueued
  split
  · refine Part.StoreSound.released ?_ n
    exact h.of_same rfl rfl fun _ => rfl
  · exact h

theorem Part.StoreSound.removeCurrent (h : p.StoreSound) : (removeCurrent c p).StoreSound := by
  unfold Machine.removeCurrent
  split
  · refine Part.StoreSound.released ?_ _
    exact h.of_same rfl rfl fun _ => rfl
  · exact h

theorem Part.StoreSound.putEntry (h : p.StoreSound) (r : Request) : (putEntry c r p).StoreSound := by
  have placed : (p.modQ c fun q => { q with entries := placeLast (p.newEntry c r) q.entries }).StoreSound :=
    h.of_same rfl rfl fun _ => rfl
  exact (placed.modItem r.item (keepsChain_holders (· + 1)) fun _ => rfl).recompute

theorem Part.StoreSound.addUnit (h : p.StoreSound) {serial : Nat} {slug body : Text} (lowest : p.lowestFree = some n)
    (room : blocksFor body.length ≤ p.store.freeBlocks) : (addUnit n serial slug body p).StoreSound := by
  obtain ⟨fresh, range, -⟩ := Part.lowestFree_spec lowest
  obtain ⟨stored, -⟩ := storeSound_iff.mp h
  exact h.added (it := unitItem n serial slug body p.clock)
    (stored.add fresh range ⟨rfl, Nat.le_refl _⟩ (Nat.sub_add_cancel room) rfl rfl stored.blockLimit stored.itemLimit)
    rfl fun _ => rfl

theorem OutMove.keeps_storeSound (m : OutMove p q) (h : p.StoreSound) : q.StoreSound := by
  cases m with
  | raise | alarm | queue | tx | tally | interrupt | take | giveBack => exact h.of_same rfl rfl fun _ => rfl
  | removeQueued c k => exact h.removeQueued k
  | removeCurrent c => exact h.removeCurrent
  | put c r => exact h.putEntry r
  | replace c e r =>
    refine Part.StoreSound.putEntry ?_ r
    unfold displaceEntry
    exact (h.removeQueued (c := c) e.item).of_same rfl rfl fun _ => rfl
  | reestimate n c =>
    refine Part.StoreSound.recompute ?_
    exact h.of_same rfl rfl fun _ => rfl
  | spend c =>
    refine Part.StoreSound.recompute ?_
    exact h.of_same rfl rfl fun _ => rfl
  | free k => exact h.examineFree k
  | addUnit n serial slug body lowest room => exact h.addUnit lowest room

/-! ### The framer of one line -/

theorem Part.StoreSound.grantItem (h : p.StoreSound) {hd : Heading} (lowest : p.lowestFree = some n)
    (room : p.store.agencyItems < Config.agencyItemLimit) : (grantItem l n hd p).StoreSound := by
  obtain ⟨fresh, range, -⟩ := Part.lowestFree_spec lowest
  rw [storeSound_iff] at *
  obtain ⟨stored, receiving⟩ := h
  refine ⟨stored.add (it := agencyItem n l hd p.clock) fresh range
    ⟨(by decide : 0 = blocksFor 0), Nat.le_refl _⟩ rfl rfl rfl stored.blockLimit room, fun k m hm => ?_⟩
  by_cases e : k = l
  · subst e
    have : n = m := by simpa [Machine.grantItem] using hm
    exact ⟨agencyItem n k hd p.clock, List.mem_append_right _ (.head _), this, rfl, rfl⟩
  · rw [Machine.grantItem, Part.fr_modFr_ne _ e] at hm
    obtain ⟨x, hx, rest⟩ := receiving k m hm
    exact ⟨x, List.mem_append_left _ hx, rest⟩

theorem signLast_chain (sum : Nat) (it : Item) : (signLast sum it).num = it.num ∧ (signLast sum it).source = it.source ∧
    (signLast sum it).blocks = it.blocks ∧ (signLast sum it).body = it.body ∧
    (signLast sum it).committed = it.committed := by
  unfold signLast
  split <;> exact ⟨rfl, rfl, rfl, rfl, rfl⟩

theorem keepsChain_ended (sum : Nat) (st : ItemState) (v : Option Verdict) :
    KeepsChain fun it => { signLast sum it with state := st, verdict := v } :=
  ⟨fun it => (signLast_chain sum it).1, fun it => (signLast_chain sum it).2.1, fun it => (signLast_chain sum it).2.2.1,
    fun it => (signLast_chain sum it).2.2.2.1, fun it le => (signLast_chain sum it).2.2.2.2 ▸ le⟩

theorem fr_endItem_self (st : ItemState) (v : Option Verdict) :
    (endItem l n st v p).fr l = { p.fr l with item := none } :=
  (Part.fr_modFr (p := p) (l := l) (fun fr => { fr with item := none }) :)

theorem fr_endItem_ne (ne : l' ≠ l) (st : ItemState) (v : Option Verdict) : (endItem l n st v p).fr l' = p.fr l' :=
  (Part.fr_modFr_ne (p := p) (fun fr => { fr with item := none }) ne :)

/-- The item that ends is its own framer's, and no other framer is receiving it. -/
theorem Part.StoreSound.endItem (h : p.StoreSound) {st : ItemState} {v : Option Verdict}
    (mine : (p.fr l).item = some n) : (endItem l n st v p).StoreSound := by
  rw [storeSound_iff] at *
  obtain ⟨stored, receiving⟩ := h
  refine ⟨stored.map ((keepsChain_ended _ st v).at_num n), fun k m hm => ?_⟩
  obtain ⟨own, ownIn, ownNum, -, ownSource⟩ := receiving l n mine
  have ne : k ≠ l := by
    rintro rfl
    rw [fr_endItem_self] at hm
    cases hm
  rw [fr_endItem_ne ne] at hm
  obtain ⟨x, hx, num, rest⟩ := receiving k m hm
  have other : x.num ≠ n := fun same => ne <| by
    have source := rest.2
    rw [Part.unique_num stored.numbers hx ownIn (same.trans ownNum.symm), ownSource] at source
    exact (Option.some.inj source).symm
  exact ⟨x, List.mem_map.mpr ⟨x, hx, if_neg (by simpa using other)⟩, num, rest⟩

/-- One item of the table changes its chain, with the pool. -/
theorem Stored.replace {a b : Item} {rest : List Item} {st st' : Store} (h : Stored (a :: rest) st)
    (num : b.num = a.num) (chained : b.Chained) (agency : a.agency = true) (agency' : b.agency = true)
    (blocks : st'.freeBlocks + b.blocks = st.freeBlocks + a.blocks)
    (agencyBlocks : st'.agencyBlocks + a.blocks = st.agencyBlocks + b.blocks)
    (agencyItems : st'.agencyItems = st.agencyItems) (limit : st'.agencyBlocks ≤ Config.agencyBlockLimit) :
    Stored (b :: rest) st' := by
  refine ⟨?_, ?_, ?_, ?_, ?_, ?_, limit, agencyItems ▸ h.itemLimit⟩
  · simpa [num] using h.numbers
  · simpa [num] using h.range
  · exact List.forall_mem_cons.mpr ⟨chained, (List.forall_mem_cons.mp h.chained).2⟩
  · have := h.blocks
    rw [List.map_cons, List.sum_cons] at this ⊢
    omega
  · have := h.agencyBlocks
    rw [List.filter_cons_of_pos agency, List.map_cons, List.sum_cons] at this
    rw [List.filter_cons_of_pos agency', List.map_cons, List.sum_cons]
    omega
  · have := h.agencyItems
    rw [List.filter_cons_of_pos agency, List.length_cons] at this
    rw [List.filter_cons_of_pos agency', List.length_cons]
    omega

/-- The blocks of a body of one more character: another one exactly where the last one is full (R59). -/
theorem blocksFor_succ (k : Nat) : blocksFor (k + 1) = blocksFor k + if k = 32 * blocksFor k then 1 else 0 := by
  show (k + 1 + 31) / 32 = (k + 31) / 32 + if k = 32 * ((k + 31) / 32) then 1 else 0
  by_cases full : k = 32 * ((k + 31) / 32)
  · rw [if_pos full]; omega
  · rw [if_neg full]; omega

/-- An item with one more character in its body, and one more block where its chain was full (R47, R59). -/
def withChr (fr : Framer) (c : Chr) (it : Item) : Item :=
  { it with
    blocks := if it.chainFull then it.blocks + 1 else it.blocks
    body := it.body ++ [c]
    stats := countChr fr.ref (beginsLine it.body) c it.stats
    signatures := if c = lineEndChr then addSignature fr.sum it.signatures else it.signatures }

/-- The store after an agency item has taken a block (R59). -/
def storeTaken (st : Store) : Store :=
  { st with freeBlocks := st.freeBlocks - 1, agencyBlocks := st.agencyBlocks + 1 }

theorem store_appendChr (c : Chr) :
    (appendChr l n c p).store = if (p.item n).chainFull then storeTaken p.store else p.store := by
  unfold Machine.appendChr
  split <;> rfl

theorem Item.Chained.withChr (h : it.Chained) (fr : Framer) (c : Chr) : (withChr fr c it).Chained := by
  obtain ⟨blocks, committed⟩ := h
  have len : (it.body ++ [c]).length = it.body.length + 1 := by simp
  refine ⟨?_, ?_⟩
  · show (if it.chainFull then it.blocks + 1 else it.blocks) = blocksFor (it.body ++ [c]).length
    rw [len, blocksFor_succ, ← blocks]
    by_cases full : it.body.length = 32 * it.blocks
    · rw [if_pos full, if_pos (show it.chainFull = true from beq_iff_eq.mpr full)]
    · rw [if_neg full, if_neg (show ¬ it.chainFull = true from fun h => full (beq_iff_eq.mp h)), Nat.add_zero]
  · show it.committed ≤ (it.body ++ [c]).length
    omega

theorem items_appendChr (numbers : (p.items.map (·.num)).Nodup) (hit : p.item? n = some it) (c : Chr) :
    (appendChr l n c p).items = (p.modItem n (withChr (p.fr l) c)).items := by
  have same : ∀ x ∈ p.items, x.num = n → x = it := fun x hx num =>
    Part.unique_num numbers hx (Part.mem_of_item? hit) (num.trans (Part.num_of_item? hit).symm)
  have own := Part.item_of_item? hit
  cases full : it.chainFull
  · have : (Machine.appendChr l n c p).items = p.items.map fun it => if it.num == n then
        { withChr (p.fr l) c it with blocks := it.blocks } else it := by
      rw [Machine.appendChr, own, full]; rfl
    rw [this]
    refine List.map_congr_left fun x hx => ?_
    by_cases e : x.num = n
    · obtain rfl := same x hx e
      simp [withChr, full]
    · simp [e]
  · have : (Machine.appendChr l n c p).items = (p.items.map fun it => if it.num == n then
        { it with blocks := it.blocks + 1 } else it).map fun it => if it.num == n then
        { withChr (p.fr l) c it with blocks := it.blocks } else it := by
      rw [Machine.appendChr, own, full]; rfl
    rw [this, List.map_map]
    refine List.map_congr_left fun x hx => ?_
    by_cases e : x.num = n
    · have here := beq_iff_eq.mpr e
      obtain rfl := same x hx e
      simp only [Function.comp_apply, here, if_true, withChr, full]
    · simp [e]

/-- A change of one framer that keeps the item it is receiving keeps what every framer is receiving. -/
theorem receiving_modFr {f : Framer → Framer} (item : (f (p.fr l)).item = (p.fr l).item) (k : LineNo) :
    ((p.modFr l f).fr k).item = (p.fr k).item := by
  by_cases e : k = l
  · subst e; rw [Part.fr_modFr, item]
  · rw [Part.fr_modFr_ne _ e]

theorem receiving_appendChr (c : Chr) (k : LineNo) : ((appendChr l n c p).fr k).item = (p.fr k).item := by
  unfold Machine.appendChr storeChr
  refine (receiving_modFr (by rfl) k).trans ?_
  split <;> rfl

theorem Part.StoreSound.appendChr (h : p.StoreSound) {c : Chr} (mine : (p.fr l).item = some n)
    (granted : (p.item n).chainFull = true → p.blockGranted = true) : (appendChr l n c p).StoreSound := by
  rw [storeSound_iff] at *
  obtain ⟨stored, receiving⟩ := h
  obtain ⟨it, inUse, num, filling, source⟩ := receiving l n mine
  have hit : p.item? n = some it := num ▸ Part.item?_of_mem stored.numbers inUse
  have own : p.item n = it := Part.item_of_item? hit
  have agency : it.agency = true := by simp [Item.agency, source]
  have perm := items_modItem_perm stored.numbers hit (withChr (p.fr l) c)
  rw [← items_appendChr stored.numbers hit] at perm
  refine ⟨Stored.perm ?_ perm.symm, ?_⟩
  · refine (stored.perm (items_perm stored.numbers hit)).replace rfl ?_ agency agency ?_ ?_ ?_ ?_
    · exact (stored.chained it inUse).withChr ..
    all_goals
      rw [store_appendChr, own]
      cases full : it.chainFull
      case' true =>
        obtain ⟨free, few⟩ : 0 < p.store.freeBlocks ∧ p.store.agencyBlocks < Config.agencyBlockLimit := by
          simpa [Part.blockGranted] using granted (own ▸ full)
      all_goals simp only [withChr, full, if_true, Bool.false_eq_true, if_false, storeTaken]
    all_goals first
      | exact stored.blockLimit
      | omega
  · refine receiving.map (f := fun it => if it.num == n then withChr (p.fr l) c it else it) ?_ ?_ ?_
      (items_appendChr stored.numbers hit c) (receiving_appendChr c)
    all_goals exact fun it => by split <;> rfl

/-- A kill marks items and leaves their chains (R160). -/
theorem Part.StoreSound.markKilled (h : p.StoreSound) (f : Item → Bool) : (markKilled f p).StoreSound :=
  h.map (f := fun it => if f it then { it with killed := true } else it)
    ⟨fun it => by split <;> rfl, fun it => by split <;> rfl, fun it => by split <;> rfl, fun it => by split <;> rfl,
      fun it le => by split <;> exact le⟩ (fun it => by split <;> rfl) rfl rfl fun _ => rfl

theorem Move.keeps_storeSound (m : Move l p q) (h : p.StoreSound) : q.StoreSound := by
  cases m with
  | out m => exact m.keeps_storeSound h
  | fr f opening closing release item => exact h.of_same rfl rfl (receiving_modFr item)
  | tally l f => exact h.of_same rfl rfl fun k => by rw [Part.fr_modLineTally]
  | history | buffer | unrouted => exact h.of_same rfl rfl fun _ => rfl
  | grant n hd lowest room => exact h.grantItem lowest room
  | endItem n st v receiving => exact h.endItem receiving
  | commit n =>
    exact h.modItem n ⟨fun _ => rfl, fun _ => rfl, fun _ => rfl, fun _ => rfl, fun _ _ => Nat.le_refl _⟩ fun _ => rfl
  | append n c receiving granted => exact h.appendChr receiving granted
  | kill f => exact h.markKilled f
  | verdict n v =>
    exact h.modItem n ⟨fun _ => rfl, fun _ => rfl, fun _ => rfl, fun _ => rfl, fun _ => id⟩ fun _ => rfl

theorem storeSound_of_empty (items : p.items = []) (store : p.store = coldStore) (receiving : ∀ l, (p.fr l).item = none) :
    p.StoreSound :=
  storeSound_iff.mpr ⟨by rw [items, store]; exact ⟨by simp, by simp, by simp, rfl, rfl, rfl, Nat.zero_le _, Nat.zero_le _⟩,
    fun l n h => by rw [receiving l] at h; cases h⟩

theorem Act.keeps_storeSound (m : Act p q) (h : p.StoreSound) : q.StoreSound := by
  cases m with
  | move _ m => exact m.keeps_storeSound h
  | framer l f item => exact h.of_same rfl rfl (receiving_modFr item)
  | rx => exact h.of_same rfl rfl fun _ => by rw [Part.fr_modRx]
  | tally => exact h.of_same rfl rfl fun _ => by rw [Part.fr_modLineTally]
  | clock | sender | queue | banks | orders | threshold | clear | mask => exact h.of_same rfl rfl fun _ => rfl
  | reestimate c =>
    refine Part.StoreSound.recompute ?_
    exact h.of_same rfl rfl fun _ => rfl
  | thresholds c k =>
    obtain ⟨a, evaluated, -⟩ := evaluate_eq c (p.modLoad c (thresholdsAfter k))
    rw [evaluated]
    exact h.of_same rfl rfl fun _ => rfl
  | zero => exact h.of_same rfl rfl fun l => by simp [zeroTallies, Part.fr, Part.line]
  | low => exact h.of_same rfl rfl fun l => by simp [resetLow, Part.fr, Part.line]
  | warm => exact storeSound_of_empty rfl rfl fun l => by simp [warmPart, Part.fr, Part.line, warmLine]
  | cold straps => exact storeSound_of_empty rfl rfl fun l => by simp [powerUp, Part.fr, line_coldPart, coldLine, coldFramer]

/-- Settles O58, act by act: blocks move between the pool and one chain, and an item leaves with all of its own. -/
theorem stepKeepsStoreSound : Obligations.StepKeepsStoreSound :=
  fun _ _ h taken => step_keeps Act.keeps_storeSound h taken

end Sys2Proof.Machine
end

section
/-! Every act keeps each holders count equal to the number of entries that refer to the descriptor. -/

namespace Sys2Proof.Machine

variable {p q : Part} {c c' : CircNo} {l : LineNo} {n : Nat} {it : Item}

/-! ### Descriptors and the entries that refer to them -/

/-- The descriptors in use, each by its number and its holders count. -/
def Part.keys (p : Part) : List (Nat × Nat) := p.items.map fun it => (it.num, it.holders)

/-- The descriptors that the entries of a circuit refer to. -/
def Part.refs (p : Part) (c : CircNo) : List Nat := (p.q c).held.map (·.item)

/-- Each descriptor counts the entries that refer to it, and no entry refers to a FREE one. -/
structure Tallied (keys : List (Nat × Nat)) (refs : CircNo → List Nat) : Prop where
  numbers : (keys.map (·.1)).Nodup
  holders : ∀ x ∈ keys, x.2 = ∑ c, (refs c).count x.1
  refers : ∀ c, ∀ n ∈ refs c, n ∈ keys.map (·.1)

theorem sum_allEight (f : Fin 8 → Nat) : (allEight.map f).sum = ∑ c, f c := by
  simp [allEight, Fin.sum_univ_eight, add_assoc]

theorem entriesOf_eq (n : Nat) : (p.circ c).entriesOf n = (p.refs c).count n := by
  simp [Circ.entriesOf, Part.refs, List.count, List.countP_map, Function.comp_def, Part.q]

theorem holdersCounted_iff : p.HoldersCounted ↔ p.Single ∧ Tallied p.keys p.refs := by
  have nums : p.keys.map (·.1) = p.items.map (·.num) := by simp [Part.keys]
  constructor
  · refine fun h => ⟨h.single, nums ▸ h.numbers, fun x hx => ?_, fun c n hn => ?_⟩
    · obtain ⟨it, hit, rfl⟩ := List.mem_map.mp hx
      simpa only [sum_allEight, entriesOf_eq] using h.holders it hit
    · obtain ⟨e, he, rfl⟩ := List.mem_map.mp hn
      obtain ⟨it, hit, num⟩ := h.refers c e he
      exact nums ▸ List.mem_map.mpr ⟨it, hit, num⟩
  · refine fun ⟨single, h⟩ => ⟨nums ▸ h.numbers, single, fun it hit => ?_, fun c e he => ?_⟩
    · simpa only [sum_allEight, entriesOf_eq] using h.holders _ (List.mem_map_of_mem hit)
    · obtain ⟨it, hit, num⟩ := List.mem_map.mp (nums ▸ h.refers c e.item (List.mem_map_of_mem he))
      exact ⟨it, hit, num⟩

variable {keys : List (Nat × Nat)} {refs refs' : CircNo → List Nat}

theorem Tallied.perm (h : Tallied keys refs) (perm : ∀ c, (refs' c).Perm (refs c)) : Tallied keys refs' :=
  ⟨h.numbers, fun x hx => (h.holders x hx).trans (Finset.sum_congr rfl fun c _ => ((perm c).count_eq _).symm),
    fun c n hn => h.refers c n ((perm c).mem_iff.mp hn)⟩

/-- Where one circuit refers to `n` once more, and every other circuit as it did, `n` is referred to once more. -/
theorem sum_count_cons (more : (refs' c).Perm (n :: refs c)) (others : ∀ k, k ≠ c → refs' k = refs k) (m : Nat) :
    ∑ k, (refs' k).count m = ∑ k, (refs k).count m + if m = n then 1 else 0 := by
  rw [← Finset.add_sum_erase _ (fun k => (refs' k).count m) (Finset.mem_univ c),
    ← Finset.add_sum_erase _ (fun k => (refs k).count m) (Finset.mem_univ c),
    Finset.sum_congr rfl fun k hk => by rw [others k (Finset.ne_of_mem_erase hk)], more.count_eq, List.count_cons]
  by_cases e : m = n
  · subst e; simp; omega
  · simp [e, Ne.symm e]

/-- The descriptors with the holders count of one of them changed. -/
def atKey (n : Nat) (f : Nat → Nat) (keys : List (Nat × Nat)) : List (Nat × Nat) :=
  keys.map fun x => (x.1, if x.1 = n then f x.2 else x.2)

@[simp] theorem numbers_atKey (f : Nat → Nat) : (atKey n f keys).map (·.1) = keys.map (·.1) := by
  simp [atKey]

/-- An entry for a descriptor in use is created on a circuit. -/
theorem Tallied.refer (h : Tallied keys refs) (inUse : n ∈ keys.map (·.1)) (more : (refs' c).Perm (n :: refs c))
    (others : ∀ k, k ≠ c → refs' k = refs k) : Tallied (atKey n (· + 1) keys) refs' := by
  refine ⟨by rw [numbers_atKey]; exact h.numbers, fun x hx => ?_, fun k m hm => ?_⟩
  · obtain ⟨y, hy, rfl⟩ := List.mem_map.mp hx
    rw [sum_count_cons more others, ← h.holders y hy]
    dsimp only
    split <;> omega
  · rw [numbers_atKey]
    by_cases e : k = c
    · subst e
      rcases List.mem_cons.mp (more.mem_iff.mp hm) with rfl | hm
      · exact inUse
      · exact h.refers _ _ hm
    · exact h.refers k m (others k e ▸ hm)

/-- An entry of a circuit goes. -/
theorem Tallied.unrefer (h : Tallied keys refs) (fewer : (refs c).Perm (n :: refs' c))
    (others : ∀ k, k ≠ c → refs' k = refs k) : Tallied (atKey n (· - 1) keys) refs' := by
  refine ⟨by rw [numbers_atKey]; exact h.numbers, fun x hx => ?_, fun k m hm => ?_⟩
  · obtain ⟨y, hy, rfl⟩ := List.mem_map.mp hx
    have := h.holders y hy
    rw [sum_count_cons fewer fun k ne => (others k ne).symm] at this
    dsimp only
    split <;> simp_all
  · rw [numbers_atKey]
    by_cases e : k = c
    · subst e
      exact h.refers _ _ (fewer.mem_iff.mpr (.tail _ hm))
    · exact h.refers k m (others k e ▸ hm)

/-- A descriptor that no entry refers to becomes FREE. -/
theorem Tallied.free (h : Tallied keys refs) (none : (n, 0) ∈ keys) :
    Tallied (keys.filter fun x => x.1 != n) refs := by
  have away : ∀ c, n ∉ refs c := fun c hc => by
    have zero := Finset.sum_eq_zero_iff.mp (h.holders _ none).symm c (Finset.mem_univ c)
    exact List.count_eq_zero.mp zero hc
  refine ⟨(List.filter_sublist.map _).nodup h.numbers, fun x hx => h.holders x (List.mem_filter.mp hx).1, fun c m hm => ?_⟩
  obtain ⟨x, hx, rfl⟩ := List.mem_map.mp (h.refers c m hm)
  exact List.mem_map_of_mem (List.mem_filter.mpr ⟨hx, by simpa using fun e : x.1 = n => away c (e ▸ hm)⟩)

/-- A FREE descriptor is granted. -/
theorem Tallied.grant (h : Tallied keys refs) (fresh : n ∉ keys.map (·.1)) : Tallied (keys ++ [(n, 0)]) refs := by
  refine ⟨?_, fun x hx => ?_, fun c m hm => ?_⟩
  · rw [List.map_append, List.nodup_append]
    exact ⟨h.numbers, List.nodup_singleton _, fun m hm k hk => by
      rintro rfl
      obtain rfl : m = n := List.mem_singleton.mp hk
      exact fresh hm⟩
  · rcases List.mem_append.mp hx with hx | hx
    · exact h.holders x hx
    · obtain rfl := List.mem_singleton.mp hx
      exact (Finset.sum_eq_zero fun c _ => List.count_eq_zero.mpr fun hn => fresh (h.refers c n hn)).symm
  · rw [List.map_append]
    exact List.mem_append_left _ (h.refers c m hm)

/-! ### Entries and items through the acts of the circuit side -/

/-- Each descriptor of the part counts the entries that refer to it. -/
def Part.Referred (p : Part) : Prop := Tallied p.keys p.refs

theorem Part.Referred.of_same (h : p.Referred) (items : q.items = p.items)
    (refs : ∀ c, (q.refs c).Perm (p.refs c)) : q.Referred := by
  have := Tallied.perm h refs
  rwa [Part.keys, ← items] at this

/-- A change of descriptors that leaves number and holders count of each. -/
theorem Part.Referred.map (h : p.Referred) {f : Item → Item} (num : ∀ it, (f it).num = it.num)
    (holders : ∀ it, (f it).holders = it.holders) (items : q.items = p.items.map f) (refs : q.refs = p.refs) :
    q.Referred := by
  have keys : q.keys = p.keys := by simp [Part.keys, items, num, holders]
  rw [Part.Referred, keys, refs]
  exact h

theorem Part.Referred.modItem (h : p.Referred) (n : Nat) {f : Item → Item} (num : ∀ it, (f it).num = it.num)
    (holders : ∀ it, (f it).holders = it.holders) : (p.modItem n f).Referred :=
  h.map (f := fun it => if it.num == n then f it else it) (fun it => by split <;> simp [num])
    (fun it => by split <;> simp [holders]) rfl rfl

theorem keys_holders (f : Nat → Nat) :
    (p.modItem n fun it => { it with holders := f it.holders }).keys = atKey n f p.keys := by
  simp only [Part.keys, Part.modItem, atKey, List.map_map]
  refine List.map_congr_left fun it _ => ?_
  by_cases e : it.num = n <;> simp [e]

theorem refs_recompute : (recompute c p).refs = p.refs := by
  funext k; simp [Part.refs]

theorem Part.Referred.recompute (h : p.Referred) : (recompute c p).Referred := by
  rwa [Part.Referred, Part.keys, items_recompute, refs_recompute]

theorem refs_of_circ (same : q.circ c = p.circ c) : q.refs c = p.refs c := by simp [Part.refs, Part.q, same]

theorem Part.Referred.examineFree (h : p.Referred) (n : Nat) : (examineFree n p).Referred := by
  have refs : (Machine.examineFree n p).refs = p.refs := by funext k; simp [Part.refs]
  rw [Part.Referred, refs]
  unfold Machine.examineFree
  split
  · exact h
  · next it hit =>
    dsimp only
    split
    · next free =>
      have none : it.holders = 0 := by simpa using (Bool.and_eq_true_iff.mp free).2
      have dropped := Tallied.free h (n := n) <|
        List.mem_map.mpr ⟨it, Part.mem_of_item? hit, by rw [Part.num_of_item? hit, none]⟩
      simpa [Part.keys, List.filter_map, Function.comp_def] using dropped
    · exact h

theorem Part.Referred.released (h : p.Referred) (fewer : (p.refs c).Perm (n :: q.refs c))
    (others : ∀ k, k ≠ c → q.circ k = p.circ k) (items : q.items = p.items) : (released c n q).Referred := by
  have := Tallied.unrefer h fewer fun k ne => refs_of_circ (others k ne)
  refine Part.Referred.examineFree (Part.Referred.recompute ?_) n
  rw [Part.Referred, keys_holders (· - 1), Part.keys, items]
  exact this

theorem Part.Referred.removeQueued (h : p.Referred) (single : p.Single) (n : Nat) : (removeQueued c n p).Referred := by
  unfold Machine.removeQueued
  split
  · next there =>
    obtain ⟨e, he, rfl⟩ : ∃ e ∈ (p.q c).entries, e.item = n := by simpa using there
    refine h.released ?_ (fun _ => Part.circ_modQ_ne _) rfl
    have perm := perm_without (nodup_of_sublist (List.sublist_append_right ..) (single c)) he
    have := (perm.map (·.item)).append_left ((p.q c).current.toList.map (·.item))
    simpa [Part.refs, Queue.held] using this.trans List.perm_middle
  · exact h

theorem Part.Referred.removeCurrent (h : p.Referred) : (removeCurrent c p).Referred := by
  unfold Machine.removeCurrent
  split
  · next e current =>
    exact h.released (by simp [Part.refs, Queue.held, current]) (fun _ => Part.circ_modQ_ne _) rfl
  · exact h

theorem inUse_of_item? (h : (p.item? n).isSome) : n ∈ p.keys.map (·.1) := by
  obtain ⟨it, hit⟩ := Option.isSome_iff_exists.mp h
  simpa [Part.keys] using ⟨it, Part.mem_of_item? hit, Part.num_of_item? hit⟩

theorem Part.Referred.putEntry (h : p.Referred) (r : Request) (inUse : (p.item? r.item).isSome) :
    (putEntry c r p).Referred := by
  refine Part.Referred.recompute ?_
  rw [Part.Referred, keys_holders (· + 1)]
  refine Tallied.refer h (c := c) (inUse_of_item? inUse) ?_ fun k ne => refs_of_circ ?_
  · have := (placeLast_perm (p.newEntry c r) (p.q c).entries).append_left (p.q c).current.toList
    have item : (p.newEntry c r).item = r.item := rfl
    simpa [Part.refs, Queue.held, item] using (this.trans List.perm_middle).map (·.item)
  · exact (Part.circ_modItem ..).trans (Part.circ_modQ_ne _ ne)

/-- Removing an entry of another item frees no descriptor that is asked for. -/
theorem inUse_displaceEntry {e : Entry} (ne : n ≠ e.item) (h : (p.item? n).isSome) :
    ((displaceEntry c e p).item? n).isSome := by
  have removed : (displaceEntry c e p).item? n = (removeQueued c e.item p).item? n := rfl
  rw [removed, removeQueued]
  split
  · have same : ∀ q : Part, (recompute c q).item? n = q.item? n := fun q => Part.item?_eq _ _ (items_recompute ..)
    rw [released, Part.item?_examineFree ne, same, Part.item?_modItem (fun it => { it with holders := it.holders - 1 }) fun _ => rfl]
    simpa [Part.item?] using h
  · exact h

/-- A FREE descriptor is granted, with no holders. -/
theorem Part.Referred.granted (h : p.Referred) (lowest : p.lowestFree = some n) (it : Item) (num : it.num = n)
    (none : it.holders = 0) (items : q.items = p.items ++ [it]) (refs : q.refs = p.refs) : q.Referred := by
  have keys : q.keys = p.keys ++ [(n, 0)] := by simp [Part.keys, items, num, none]
  rw [Part.Referred, keys, refs]
  refine Tallied.grant h fun inUse => (Part.lowestFree_spec lowest).1 ?_
  simpa [Part.keys] using inUse

theorem signLast_holders (sum : Nat) (it : Item) : (signLast sum it).holders = it.holders := by
  unfold signLast
  split <;> rfl

/-- A change of the entries of one circuit that keeps the items of its queue and current slot. -/
theorem Part.Referred.of_circ (h : p.Referred) (c : CircNo) (items : q.items = p.items)
    (mine : ((q.q c).held.map (·.item)).Perm ((p.q c).held.map (·.item)))
    (others : ∀ k, k ≠ c → q.circ k = p.circ k) : q.Referred :=
  h.of_same items fun k => by
    by_cases e : k = c
    · subst e; exact mine
    · rw [refs_of_circ (others k e)]

theorem OutMove.keeps_referred (m : OutMove p q) (single : p.Single) (h : p.Referred) : q.Referred := by
  cases m with
  | raise | alarm => exact h.of_same rfl fun _ => .refl _
  | tx | tally => exact h.of_same rfl fun _ => by simp [Part.refs]
  | queue c f entries current =>
    exact h.of_circ c rfl (by simp [Queue.held, entries, current]) fun _ n => Part.circ_modQ_ne _ n
  | interrupt c r =>
    refine h.of_circ c rfl ?_ fun _ n => Part.circ_modQ_ne _ n
    rw [held_interruptAt]
    simp [Function.comp_def, Queue.held]
  | take c ch n empty queued =>
    refine h.of_circ c rfl ?_ fun _ n => Part.circ_modQ_ne _ n
    rw [held_takeEntry]
    exact ((held_of_take (single c) empty queued).map (·.item)).symm
  | giveBack c e current =>
    exact h.of_circ c rfl ((held_giveBack current).map _) fun _ n => Part.circ_modQ_ne _ n
  | removeQueued c k => exact h.removeQueued single k
  | removeCurrent c => exact h.removeCurrent
  | put c r _ _ inUse => exact h.putEntry r inUse
  | replace c e r queued fresh inUse =>
    have ne : r.item ≠ e.item := fun same => by
      simpa [same] using List.any_eq_false.mp fresh e (List.mem_append_right _ queued)
    refine Part.Referred.putEntry ?_ r (inUse_displaceEntry ne inUse)
    exact (h.removeQueued (c := c) single e.item).of_same rfl fun k => by simp [displaceEntry, Part.refs]
  | reestimate n c =>
    refine h.of_circ c (items_recompute ..) ?_ fun _ => circ_reestimateOn_ne n
    rw [held_reestimateOn, map_map_of_keeps (item_reestimateOn n)]
  | spend c =>
    refine h.of_circ c (items_recompute ..) ?_ fun _ => circ_spendOne_ne
    rw [held_spendOne]
    simp [Function.comp_def, Queue.held]
  | free k => exact h.examineFree k
  | addUnit n serial slug body lowest => exact h.granted lowest (unitItem n serial slug body p.clock) rfl rfl rfl rfl

theorem Part.Referred.storeChr (h : p.Referred) (c : Chr) : (storeChr l n c p).Referred :=
  h.map (f := fun it => if it.num == n then { withChr (p.fr l) c it with blocks := it.blocks } else it)
    (fun it => by split <;> rfl) (fun it => by split <;> rfl) rfl rfl

theorem Move.keeps_referred (m : Move l p q) (single : p.Single) (h : p.Referred) : q.Referred := by
  cases m with
  | out m => exact m.keeps_referred single h
  | fr | tally | history | buffer | unrouted => exact h.of_same rfl fun _ => .refl _
  | grant n hd lowest => exact h.granted lowest (agencyItem n l hd p.clock) rfl rfl rfl rfl
  | endItem n => exact h.modItem n (fun it => (signLast_chain _ it).1) fun it => signLast_holders _ it
  | commit n => exact h.modItem n (fun _ => rfl) fun _ => rfl
  | verdict n => exact h.modItem n (fun _ => rfl) fun _ => rfl
  | kill f =>
    exact h.map (f := fun it => if f it then { it with killed := true } else it) (fun it => by split <;> rfl)
      (fun it => by split <;> rfl) rfl rfl
  | append n c =>
    unfold appendChr
    split
    · have taken : (takeBlock n p).Referred :=
        h.map (f := fun it => if it.num == n then { it with blocks := it.blocks + 1 } else it)
          (fun it => by split <;> rfl) (fun it => by split <;> rfl) rfl rfl
      exact taken.storeChr c
    · exact h.storeChr c

theorem referred_of_empty (items : p.items = []) (held : ∀ c, (p.q c).held = []) : p.Referred := by
  have keys : p.keys = [] := by simp [Part.keys, items]
  have refs : p.refs = fun _ => [] := by funext c; simp [Part.refs, held]
  rw [Part.Referred, keys, refs]
  exact ⟨by simp, by simp, by simp⟩

theorem Act.keeps_referred (m : Act p q) (single : p.Single) (h : p.Referred) : q.Referred := by
  cases m with
  | move _ m => exact m.keeps_referred single h
  | sender => exact h.of_same rfl fun _ => by simp [Part.refs]
  | queue c f entries current =>
    exact h.of_circ c rfl (by simp [Queue.held, entries, current]) fun _ n => Part.circ_modQ_ne _ n
  | reestimate c =>
    refine h.of_circ c (items_recompute ..) ?_ fun _ => circ_reestimateCirc_ne
    rw [held_reestimateCirc, map_map_of_keeps (f := reestimated p c) fun _ => rfl]
  | thresholds c k =>
    obtain ⟨a, evaluated, -⟩ := evaluate_eq c (p.modLoad c (thresholdsAfter k))
    rw [evaluated]
    exact h.of_same rfl fun _ => by simp [Part.refs]
  | zero => exact h.of_same rfl fun _ => by simp [zeroTallies, Part.refs, Part.q, Part.circ]
  | low => exact h.of_same rfl fun _ => by simp [resetLow, Part.refs, Part.q, Part.circ, Queue.held]
  | warm => exact referred_of_empty rfl held_warmPart
  | cold straps => exact referred_of_empty rfl fun c => held_coldPart ..
  | rx | tally | framer | clock | banks | orders | threshold | clear | mask => exact h.of_same rfl fun _ => .refl _

/-! ### The statement -/

theorem Act.keeps_holdersCounted (m : Act p q) (h : p.HoldersCounted) : q.HoldersCounted := by
  rw [holdersCounted_iff] at *
  exact ⟨m.keeps_single h.1, m.keeps_referred h.1 h.2⟩

/-- Settles O59, act by act: an entry comes and goes with one holder of its item. -/
theorem stepKeepsHoldersCounted : Obligations.StepKeepsHoldersCounted :=
  fun _ _ h taken => step_keeps Act.keeps_holdersCounted h taken

end Sys2Proof.Machine
end

section
/-! The alarm flags through every act, and the notices owed: each act of a block that can raise a flag ends with its
notices made. -/

namespace Sys2Proof.Machine

variable {p q : Part} {c : CircNo} {l : LineNo} {n : Nat} {a b : Alarm} {f g : Flag}

/-! ### The flags (R188) -/

theorem addMember_spec (m : Fin 8) {xs : List (Fin 8)} (h : xs.Pairwise (· < ·)) :
    (addMember m xs).Pairwise (· < ·) ∧ ∀ k, k ∈ addMember m xs ↔ k = m ∨ k ∈ xs := by
  induction xs with
  | nil => simp [addMember]
  | cons x xs ih =>
    obtain ⟨below, h'⟩ := List.pairwise_cons.mp h
    obtain ⟨ordered, members⟩ := ih h'
    unfold addMember
    split
    · next same => exact ⟨h, by simp [same]⟩
    · next other =>
      split
      · next less =>
        refine ⟨List.pairwise_cons.mpr ⟨fun k hk => ?_, h⟩, by simp⟩
        rcases List.mem_cons.mp hk with rfl | hk
        · exact less
        · exact less.trans (below k hk)
      · next notLess =>
        refine ⟨List.pairwise_cons.mpr ⟨fun k hk => ?_, ordered⟩, fun k => ?_⟩
        · rcases (members k).mp hk with rfl | hk
          · omega
          · exact below k hk
        · simp only [List.mem_cons, members]; tauto

theorem FlagState.Sound.raised {x : FlagState} (h : x.Sound f) (m : Fin 8) :
    FlagState.Sound f { x with raised := true, members := membersAfter f m x } := by
  obtain ⟨clear, none, ordered⟩ := h
  refine ⟨by simp, fun noMembers => ?_, ?_⟩
  · cases up : x.raised <;> simp [membersAfter, noMembers, up, none]
  · simp only [membersAfter]
    split
    · exact (addMember_spec m ordered).1
    · exact List.pairwise_singleton ..
    · exact ordered
    · exact .nil

/-- Every flag of the alarm unit is sound. -/
def Alarm.Sound (a : Alarm) : Prop := ∀ f, (a.flag f).Sound f

theorem Alarm.Sound.raise (h : a.Sound) (f : Flag) (m : Fin 8) : (a.raise f m).Sound := fun g => by
  rw [Alarm.flag_raise]
  split
  · next e => exact e ▸ (h f).raised m
  · exact h g

theorem Alarm.Sound.of_flags (h : a.Sound) (flags : b.flags = a.flags) : b.Sound := fun f => by
  simpa [Alarm.flag, flags] using h f

theorem Alarm.Sound.modFlag (h : a.Sound) {g : FlagState → FlagState} (sound : (g (a.flag f)).Sound f) :
    (a.modFlag f g).Sound := fun k => by
  by_cases e : k = f
  · subst e; rwa [Alarm.flag_modFlag]
  · rw [Alarm.flag_modFlag_ne _ _ e]; exact h k

/-! ### What raises flags -/

/-- The alarm unit after flags have been raised, one after another, with its lost tally and notice serial changed besides. -/
inductive Raises (a : Alarm) : Alarm → Prop
  | refl : Raises a a
  | raise {x : Alarm} (h : Raises a x) (f : Flag) (m : Fin 8) : Raises a (x.raise f m)
  | count {x y : Alarm} (h : Raises a x) (flags : y.flags = x.flags) (owing : y.owing = x.owing) : Raises a y

theorem Raises.trans {d : Alarm} (h : Raises a b) (h' : Raises b d) : Raises a d := by
  induction h' with
  | refl => exact h
  | raise _ f m ih => exact ih.raise f m
  | count _ flags owing ih => exact ih.count flags owing

theorem Raises.of_eq (e : b = a) : Raises a b := e ▸ .refl

theorem Raises.sound (h : Raises a b) (sound : a.Sound) : b.Sound := by
  induction h with
  | refl => exact sound
  | raise _ f m ih => exact ih.raise f m
  | count _ flags _ ih => exact ih.of_flags flags

theorem raises_evaluate : Raises p.alarm (evaluate c p).alarm := by
  obtain ⟨a, evaluated, rfl | rfl⟩ := evaluate_eq c p
  · rw [evaluated]; exact .refl
  · rw [evaluated]; exact Raises.refl.raise ..

theorem raises_recompute : Raises p.alarm (recompute c p).alarm := by
  obtain ⟨a, st, recomputed, rfl | rfl, -⟩ := recompute_eq c p
  · rw [recomputed]; exact .refl
  · rw [recomputed]; exact Raises.refl.raise ..

theorem raises_released : Raises p.alarm (released c n p).alarm := by
  rw [released, alarm_examineFree]
  exact raises_recompute (p := p.modItem n _)

theorem raises_removeQueued : Raises p.alarm (removeQueued c n p).alarm := by
  unfold removeQueued
  split
  · exact raises_released (p := p.modQ c _)
  · exact .refl

theorem raises_removeCurrent : Raises p.alarm (removeCurrent c p).alarm := by
  unfold removeCurrent
  split
  · exact raises_released (p := p.modQ c _)
  · exact .refl

theorem raises_putEntry (r : Request) : Raises p.alarm (putEntry c r p).alarm :=
  raises_recompute (p := (p.modQ c _).modItem _ _)

theorem raises_displaceEntry (e : Entry) : Raises p.alarm (displaceEntry c e p).alarm :=
  raises_removeQueued.raise ..

theorem raises_insert (r : Request) : Raises p.alarm (insert c r p).2.alarm := by
  have place : ∀ q : Part, Raises q.alarm (placeEntry c r q).alarm := fun q =>
    (raises_putEntry r).trans (.of_eq ((OnCirc.refl c (putEntry c r q)).review _).alarm)
  unfold insert
  split
  · exact .refl
  · split
    · show Raises p.alarm (placeEntry c r p).alarm
      exact place p
    · split
      · next e _ =>
        show Raises p.alarm (placeEntry c r (displaceEntry c e p)).alarm
        exact (raises_displaceEntry e).trans (place _)
      · exact Raises.refl.raise ..

theorem raises_makeUnit {serial : Nat} {slug body : Text} (made : makeUnit serial slug body p = some q) :
    Raises p.alarm q.alarm := by
  unfold makeUnit at made
  split at made
  · cases made
  · next n _ =>
    split at made
    · have inserted := raises_insert (p := addUnit n serial slug body p) (c := p.orders.desk)
        { item := n, cls := 2, mode := .send, diverted := false }
      split at made
      · next done => cases made; rwa [done] at inserted
      · next refused => cases made; rw [alarm_examineFree]; rwa [refused] at inserted
    · cases made

theorem raises_loseUnit : Raises p.alarm (loseUnit p).alarm := by
  have counted : Raises p.alarm { p.alarm with lost := bump p.alarm.lost } := Raises.refl.count rfl rfl
  exact counted.raise ..

theorem raises_makeNotice (line : Text) : Raises p.alarm (makeNotice line p).alarm := by
  unfold makeNotice
  split
  · next made => exact (raises_makeUnit made).count rfl rfl
  · exact raises_loseUnit

/-! ### The notices owed (R75, R191) -/

/-- The most notices that can still be made: those owed, and one for each flag that can yet be raised. -/
def Alarm.due (a : Alarm) : Nat := a.owing.length + allFlags.countP fun f => !(a.flag f).raised

theorem Alarm.due_raise_le (a : Alarm) (f : Flag) (m : Fin 8) : (a.raise f m).due ≤ a.due := by
  have perm : allFlags.Perm (f :: allFlags.erase f) := List.perm_cons_erase (by cases f <;> decide)
  have others : (allFlags.erase f).countP (fun g => !((a.raise f m).flag g).raised) =
      (allFlags.erase f).countP fun g => !(a.flag g).raised := by
    refine List.countP_congr fun g hg => ?_
    have ne : g ≠ f := (List.Nodup.mem_erase_iff (by decide)).mp hg |>.1
    rw [Alarm.flag_raise, if_neg ne]
  have up : ((a.raise f m).flag f).raised = true := by rw [Alarm.flag_raise, if_pos rfl]
  have owing : (a.raise f m).owing.length ≤ a.owing.length + if (a.flag f).raised then 0 else 1 := by
    unfold Alarm.raise
    simp only
    split
    · next edge =>
      have clear : (a.flag f).raised = false := by simpa using (Bool.and_eq_true_iff.mp edge).1
      simp [clear, Alarm.modFlag]
    · simp [Alarm.modFlag]
  unfold Alarm.due
  rw [perm.countP_eq, perm.countP_eq, List.countP_cons, List.countP_cons, others, up]
  cases clear : (a.flag f).raised <;> simp [clear] at owing ⊢ <;> omega

theorem Raises.due_le (h : Raises a b) : b.due ≤ a.due := by
  induction h with
  | refl => exact Nat.le_refl _
  | raise _ f m ih => exact (Alarm.due_raise_le ..).trans ih
  | count _ flags owing ih =>
    refine Nat.le_trans (Nat.le_of_eq ?_) ih
    simp [Alarm.due, Alarm.flag, flags, owing]

theorem settleAux_settled (fuel : Nat) (enough : p.alarm.due ≤ fuel) : (settleAux fuel p).alarm.owing = [] := by
  induction fuel generalizing p with
  | zero =>
    have : p.alarm.owing.length = 0 := Nat.le_zero.mp ((Nat.le_add_right ..).trans enough)
    exact List.eq_nil_of_length_eq_zero this
  | succ fuel ih =>
    unfold settleAux
    split
    · assumption
    · next line rest owing =>
      refine ih ?_
      have made := (raises_makeNotice (p := p.setAlarm { p.alarm with owing := rest }) line).due_le
      have fewer : ({ p.alarm with owing := rest } : Alarm).due + 1 = p.alarm.due := by
        simp [Alarm.due, Alarm.flag, owing]; omega
      exact Nat.le_of_succ_le_succ ((Nat.succ_le_succ made).trans (fewer.trans_le enough))

theorem settle_settled (p : Part) : (settle p).alarm.owing = [] :=
  settleAux_settled _ (Nat.add_le_add_left List.countP_le_length _)

/-! ### The flags through every act -/

theorem OutMove.keeps_flags (m : OutMove p q) (h : p.alarm.Sound) : q.alarm.Sound := by
  cases m with
  | raise f m => exact h.raise f m
  | alarm a flags => exact h.of_flags flags
  | queue | tx | tally | interrupt | take | giveBack | addUnit => exact h
  | removeQueued => exact raises_removeQueued.sound h
  | removeCurrent => exact raises_removeCurrent.sound h
  | put c r => exact (raises_putEntry r).sound h
  | replace c e r => exact (raises_putEntry r).sound ((raises_displaceEntry e).sound h)
  | reestimate n c => exact (raises_recompute (p := p.modEntries c _)).sound h
  | spend c => exact (raises_recompute (p := p.modQ c _)).sound h
  | free => rwa [alarm_examineFree]

theorem Move.keeps_flags (m : Move l p q) (h : p.alarm.Sound) : q.alarm.Sound := by
  cases m with
  | out m => exact m.keeps_flags h
  | append => unfold appendChr; split <;> exact h
  | fr | tally | grant | endItem | commit | kill | verdict | history | buffer | unrouted => exact h

theorem Act.keeps_flags (m : Act p q) (h : p.alarm.Sound) : q.alarm.Sound := by
  cases m with
  | move _ m => exact m.keeps_flags h
  | rx | tally | framer | clock | sender | queue | banks | orders | threshold | low => exact h
  | reestimate c => exact (raises_recompute (p := p.modEntries c _)).sound h
  | thresholds c k => exact (raises_evaluate (p := p.modLoad c _)).sound h
  | zero => exact h.of_flags rfl
  | clear f => exact h.modFlag ⟨fun _ => rfl, fun _ => rfl, .nil⟩
  | mask f g same =>
    refine h.modFlag ?_
    simpa [FlagState.Sound, same] using h f
  | warm => exact fun f => by simp [warmPart, Alarm.flag, warmFlag, FlagState.Sound]
  | cold => exact fun f => by cases f <;> exact ⟨fun _ => rfl, fun _ => rfl, .nil⟩

/-! ### No notice is owed after what can raise a flag -/

/-- No notice is owed. -/
def Part.Settled (p : Part) : Prop := p.alarm.owing = []

theorem settled_settle : (settle p).Settled := settle_settled p

theorem settled_raiseNow (m : Fin 8) : (raiseNow f m p).Settled := settled_settle

theorem settled_makeAnswer (serial : Nat) (lines : List Text) : (makeAnswer serial lines p).Settled := settled_settle

theorem Part.Settled.foldl {α : Type} {f : Part → α → Part} (step : ∀ p a, p.Settled → (f p a).Settled) (h : p.Settled)
    (xs : List α) : (xs.foldl f p).Settled := by
  induction xs generalizing p with
  | nil => exact h
  | cons x xs ih => exact ih (step p x h)

theorem Part.Settled.routeItem (h : p.Settled) : (routeItem l n p).Settled := by
  unfold Machine.routeItem
  split
  · exact h
  · exact h.foldl (fun _ _ _ => settled_settle) _

theorem Part.Settled.purgeFor (h : p.Settled) (kind : Kind) : (purgeFor kind n p).Settled := by
  cases kind
  case kill | rewrite => exact settled_settle
  all_goals exact h

theorem Part.Settled.copyHeading (h : p.Settled) (hd : Heading) : (copyHeading l hd p).Settled := by
  unfold Machine.copyHeading
  split
  · exact settled_raiseNow _
  · next n _ =>
    have granted : (grantItem l n hd p).Settled := h
    exact (granted.purgeFor hd.kind).routeItem (l := l) (n := n)

theorem Part.Settled.orderHeading (h : p.Settled) (hd : Heading) : (orderHeading l hd p).Settled := by
  unfold Machine.orderHeading
  split
  · exact settled_raiseNow _
  · split
    · exact h
    · exact settled_makeAnswer ..

theorem Part.Settled.endHeading (h : p.Settled) : (endHeading l p).Settled := by
  unfold Machine.endHeading
  split
  · exact settled_raiseNow _
  · split
    · exact h.orderHeading _
    · exact h.copyHeading _

theorem Part.Settled.headingChr (h : p.Settled) (c : Chr) : (headingChr l c p).Settled := by
  unfold Machine.headingChr
  simp only
  split
  · exact h
  · split
    · exact h.endHeading
    · split
      · exact h
      · exact settled_raiseNow (p := countRefused l (toState l .discard p)) _

theorem Part.Settled.breakItem (h : p.Settled) : (breakItem l p).Settled := by
  unfold Machine.breakItem
  split
  · exact h
  · exact settled_settle

theorem Part.Settled.closeItem (h : p.Settled) : (closeItem l p).Settled := by
  unfold Machine.closeItem
  split
  · exact h
  · exact settled_settle

theorem Part.Settled.appendChr (h : p.Settled) (c : Chr) : (appendChr l n c p).Settled := by
  unfold Machine.appendChr
  split <;> exact h

theorem Part.Settled.bodyChr (h : p.Settled) (c : Chr) : (bodyChr l c p).Settled := by
  unfold Machine.bodyChr
  split
  · exact h
  · split
    · exact settled_raiseNow (p := toState l .discard (Machine.breakItem l p)) _
    · simp only
      split
      · exact settled_settle
      · exact h.appendChr c

theorem Part.Settled.abandonOrder (h : p.Settled) (word : String) : (abandonOrder l word p).Settled := by
  unfold Machine.abandonOrder
  split
  · split
    · exact settled_makeAnswer ..
    · exact h
  · exact h

theorem Part.Settled.orderChr (h : p.Settled) (c : Chr) : (orderChr l c p).Settled := by
  unfold Machine.orderChr
  split
  · split
    · split <;> exact h
    · split
      · exact h.abandonOrder (l := l) "LONG"
      · exact h
  · exact h

theorem Part.Settled.closeOrder (h : p.Settled) : (closeOrder l p).Settled := by
  unfold Machine.closeOrder
  split
  · simp only
    split
    · split
      · exact settled_makeAnswer (p := p) ..
      · exact h
    · exact settled_makeAnswer (p := Machine.raiseNow .orderFault l p) ..
  · exact h

theorem Part.Settled.releaseChr (h : p.Settled) (c : Chr) : (releaseChr l c p).Settled := by
  unfold Machine.releaseChr
  split
  · exact h
  · exact h
  · exact h.headingChr c
  · exact h.bodyChr c
  · exact h.orderChr c

theorem Part.Settled.matchOpening (h : p.Settled) : (matchOpening l p).Settled := by
  unfold Machine.matchOpening
  split
  · exact h
  · exact h
  · exact settled_raiseNow _
  · exact settled_raiseNow (p := Machine.breakItem l p) _
  · exact h.abandonOrder (l := l) "INCOMPLETE"

theorem Part.Settled.matchClosing (h : p.Settled) : (matchClosing l p).Settled := by
  unfold Machine.matchClosing
  split
  · exact h
  · exact settled_raiseNow _
  · exact h.closeItem (l := l)
  · exact Part.Settled.closeOrder (p := toState l .hunt p) h
  · exact h

theorem Part.Settled.examine (h : p.Settled) (cs : Text) : (examine l cs p).Settled := by
  induction cs generalizing p with
  | nil => exact h
  | cons c cs ih =>
    unfold Machine.examine
    simp only
    split
    · exact h.matchOpening
    · split
      · exact h.matchClosing
      · split
        · exact h
        · exact ih (h.releaseChr c)

theorem Part.Settled.deliver (h : p.Settled) (c : Chr) : (deliver l c p).Settled :=
  Part.Settled.examine (p := p.modFr l _) h _

theorem Part.Settled.releaseHeld (h : p.Settled) : (releaseHeld l p).Settled :=
  Part.Settled.foldl (p := p.modFr l _) (fun _ c h => h.releaseChr c) h _

theorem Part.Settled.interrupt (h : p.Settled) : (interrupt l p).Settled := by
  unfold Machine.interrupt
  have released := h.releaseHeld (l := l)
  simp only
  split
  · exact released
  · exact released
  · exact released
  · exact released.breakItem (l := l)
  · exact released.abandonOrder (l := l) "INCOMPLETE"

/-! ### Receivers and circuits -/

theorem settled_enterOpen : (enterOpen l p).Settled := Part.Settled.interrupt (settled_raiseNow _)

theorem Part.Settled.parkLine (h : p.Settled) : (parkLine l p).Settled := by
  unfold Machine.parkLine
  split
  · exact h
  · exact Part.Settled.interrupt (p := p.modRx l _) h

theorem Part.Settled.receiveChr (h : p.Settled) (c : Chr) : (receiveChr l c p).Settled := by
  unfold Machine.receiveChr
  split
  · exact (Part.Settled.deliver (p := p.modRx l _) h _).deliver c
  · exact h.deliver c

theorem Part.Settled.receiveResult (h : p.Settled) (r : RxResult) : (receiveResult l r p).Settled := by
  unfold Machine.receiveResult
  split
  · exact h
  · exact Part.Settled.deliver (p := p.modRx l _) h _
  · exact h
  · exact h
  · exact h
  · split
    · exact Part.Settled.receiveChr (p := p.modLineTally l _) h _
    · exact h.receiveChr _

theorem Part.Settled.frameReceived (h : p.Settled) (data : Nat) (parity stop : Level) :
    (frameReceived l data parity stop p).Settled := by
  unfold Machine.frameReceived
  split
  · exact h
  · simp only
    split
    · exact Part.Settled.receiveResult (p := (p.modRx l _).modLineTally l _) h _
    · exact Part.Settled.receiveResult (p := ((p.modRx l _).modLineTally l _).modRx l _) h _

/-! ### Orders -/

theorem settled_execute (h : p.Settled) (checked : Checked Order) : (execute checked p).part.Settled := by
  unfold execute
  split
  · exact settled_settle
  · exact h

theorem Part.Settled.nextOrder (h : p.Settled) : (nextOrder p).Settled := by
  unfold Machine.nextOrder
  split
  · next line serial t rest done answers _ =>
    simp only
    unfold afterOrder
    have executed := settled_execute h (readOrder t p)
    split
    · exact settled_makeAnswer ..
    · split
      · exact settled_makeAnswer (p := (execute (readOrder t p) p).part) ..
      · exact executed
  · exact h

theorem Part.Settled.orderCommand (h : p.Settled) (check : Part → Checked Order) : (orderCommand check p).Settled := by
  have apart : (orderApart (check p) p).Settled := settled_execute h (check p)
  unfold Machine.orderCommand
  split
  · exact h
  · split
    · split
      · exact h.nextOrder
      · exact apart
    · exact apart

/-! ### Commands -/

/-- The commands that are orders. -/
def isOrder : Instr → Bool
  | .powerUp .. | .resetnLow | .frameReceived .. | .spaceTimerExpiry _ | .returnToMark _ | .frameSent _
  | .stallTimerExpiry _ | .lapse _ | .leadingEdge _ | .noiseCheck _ | .changeBackToMark _ | .partClockTick => false
  | _ => true

/-- An order command is checked, and executed by its outcome. -/
theorem exec_order {i : Instr} (h : isOrder i = true) :
    ∃ check, ∀ s, exec i s = s.after (Machine.orderCommand check) := by
  cases i <;> first | (exact ⟨_, fun _ => rfl⟩) | cases h

theorem exec_settled {i : Instr} {s t : State} (h : s.part.Settled) (taken : exec i s = .next t) : t.part.Settled := by
  by_cases order : isOrder i = true
  · obtain ⟨check, means⟩ := exec_order order
    rw [means] at taken
    cases taken
    exact h.orderCommand check
  · cases i with
    | powerUp ua dr => cases taken; rfl
    | resetnLow => cases taken; exact h
    | frameReceived l data parity stop => cases taken; exact h.frameReceived ..
    | spaceTimerExpiry l =>
      cases taken
      show (spaceTimerExpiry l s.part).Settled
      unfold spaceTimerExpiry
      split
      · exact settled_enterOpen
      · exact h
    | leadingEdge l =>
      cases taken
      show (pinToSpace l s.part).Settled
      unfold pinToSpace
      split
      · exact h
      · split <;> exact h
    | noiseCheck l =>
      cases taken
      show (checkNoise l s.part).Settled
      unfold checkNoise
      split <;> exact h
    | returnToMark l | changeBackToMark l =>
      cases taken
      show (pinToMark l s.part).Settled
      unfold pinToMark
      split
      · exact h
      · split
        · exact h
        · split <;> exact h
    | frameSent c =>
      cases taken
      show Part.Settled (if s.part.inReset then s.part else settle (frameSent c s.part))
      split
      · exact h
      · exact settled_settle
    | stallTimerExpiry c =>
      cases taken
      show Part.Settled (if s.part.inReset then s.part else stallTimerExpiry c s.part)
      split
      · exact h
      · unfold stallTimerExpiry
        split
        · exact h
        · split
          · unfold Part.Settled
            rw [((OnCirc.refl c s.part).takeBreak false).alarm]
            exact h
          · exact settled_raiseNow _
    | lapse c =>
      cases taken
      show Part.Settled (if s.part.inReset then s.part else lapseFirst c s.part)
      split
      · exact h
      · unfold lapseFirst
        split
        · exact settled_settle
        · exact h
    | partClockTick =>
      cases taken
      show (clockTick s.part).Settled
      unfold clockTick
      split
      · exact h
      · unfold Part.eachLine
        refine Part.Settled.foldl ?_ ?_ _
        · exact fun _ _ h => h
        · exact h
    | _ => exact absurd rfl order

theorem alarmSound_iff : p.AlarmSound ↔ p.alarm.Sound ∧ p.Settled :=
  ⟨fun h => ⟨h.flags, h.settled⟩, fun h => ⟨h.1, h.2⟩⟩

/-- Settles O60: the flags act by act; no notice is owed after an act that can raise a flag, as eleven notices more than
stand owing are enough. -/
theorem stepKeepsAlarmSound : Obligations.StepKeepsAlarmSound := by
  intro s t h taken
  rw [alarmSound_iff] at *
  refine ⟨step_keeps (I := fun p => p.alarm.Sound) Act.keeps_flags h.1 taken, ?_⟩
  unfold step at taken
  split at taken
  · next c rest _ => exact exec_settled (s := { s with pending := rest }) h.2 taken
  · cases taken
    show (idle s.part).Settled
    unfold idle
    split
    · exact h.2
    · exact h.2.nextOrder

end Sys2Proof.Machine
end

section
/-! Every step keeps each receiver in agreement with its line's condition and pin. -/

namespace Sys2Proof.Machine

variable {p q : Part} {c : CircNo} {l : LineNo} {rx : Receiver}

/-! ### Receivers (R16, R19, R21–R24) -/

/-- A READY receiver whose shift and pending carriage return alone have changed. -/
theorem Receiver.Sound.of_ready {rx' : Receiver} (h : rx.Sound) (ready : rx.cond = .ready) (cond : rx'.cond = rx.cond)
    (pin : rx'.pin = rx.pin) (phase : rx'.phase = rx.phase) (timer : rx'.spaceTimer = rx.spaceTimer) : rx'.Sound := by
  simp only [Receiver.Sound, cond, ready, pin, phase, timer] at h ⊢
  exact h

/-- A receiver begins to hunt (R16), with its space timer running exactly at a space. -/
theorem Receiver.Sound.of_hunting (ready : rx.cond = .ready) (phase : rx.phase = huntPhase rx.pin)
    (timer : rx.spaceTimer.isSome ↔ rx.pin = .space) : rx.Sound := by
  simp only [Receiver.Sound, ready, phase, huntPhase]
  refine ⟨timer, fun wait => ?_⟩
  split at wait
  · assumption
  · cases wait

theorem Part.LinesSound.of_same (h : p.LinesSound) (rx : ∀ l, q.rx l = p.rx l) (inReset : q.inReset = p.inReset) :
    q.LinesSound := fun high l => by
  rw [rx l]; exact h (inReset ▸ high) l

theorem Part.LinesSound.modRx (h : p.LinesSound) {f : Receiver → Receiver}
    (sound : p.inReset = false → (p.rx l).Sound → (f (p.rx l)).Sound) : (p.modRx l f).LinesSound := fun high k => by
  by_cases e : k = l
  · subst e; rw [Part.rx_modRx]; exact sound high (h high k)
  · rw [Part.rx_modRx_ne _ e]; exact h high k

theorem Part.LinesSound.of_lines (h : p.LinesSound) (lines : q.lines = p.lines) (inReset : q.inReset = p.inReset) :
    q.LinesSound := h.of_same (fun l => by simp [Part.rx, Part.line, lines]) inReset

theorem Part.LinesSound.moves (h : p.LinesSound) (m : Moves l p q) : q.LinesSound :=
  h.of_same m.frame.rx_any m.frame.inReset

theorem Part.LinesSound.interrupt (h : p.LinesSound) : (interrupt l p).LinesSound := h.moves (Moves.interrupt .refl)

/-- A line whose pin is at space may open. -/
theorem Part.LinesSound.enterOpen (h : p.LinesSound) (space : p.inReset = false → (p.rx l).pin = .space) :
    (enterOpen l p).LinesSound := by
  unfold Machine.enterOpen
  refine Part.LinesSound.interrupt (Part.LinesSound.moves (l := l) ?_ (Moves.raiseNow _ _ .refl))
  have opened : (p.modRx l fun rx =>
      { dropFrame rx with cond := .opened, phase := .hunting, spaceTimer := none }).LinesSound :=
    h.modRx fun high _ => ⟨space high, rfl, rfl, rfl, rfl⟩
  exact opened.of_same (fun k => Part.rx_modLineTally ..) rfl

/-- The space timer of a READY line runs at a space only. -/
theorem Part.LinesSound.space (h : p.LinesSound) (high : p.inReset = false) (ready : (p.rx l).cond = .ready)
    (running : (p.rx l).spaceTimer.isSome) : (p.rx l).pin = .space := by
  have := h high l
  simp only [Receiver.Sound, ready] at this
  exact this.1.mp running

theorem Part.LinesSound.parkLine (h : p.LinesSound) : (parkLine l p).LinesSound := by
  unfold Machine.parkLine
  split
  · exact h
  · exact Part.LinesSound.interrupt (h.modRx fun _ _ => ⟨rfl, rfl, rfl, rfl⟩)

theorem Part.LinesSound.unparkLine (h : p.LinesSound) : (unparkLine l p).LinesSound := by
  unfold Machine.unparkLine
  split
  · refine h.modRx fun _ _ => .of_hunting rfl rfl ?_
    dsimp only
    split <;> simp_all
  · exact h

theorem Part.LinesSound.restartLine (h : p.LinesSound) : (restartLine l p).LinesSound := by
  refine Part.LinesSound.interrupt (h.modRx fun _ sound => ?_)
  cases cond : (p.rx l).cond
  · refine .of_hunting cond (by simp [dropFrame]) ?_
    simp only [Receiver.Sound, cond] at sound
    exact sound.1
  · simp only [Receiver.Sound, cond] at sound
    simp [Receiver.Sound, dropFrame, cond, sound]
  · simp only [Receiver.Sound, cond] at sound
    simp [Receiver.Sound, dropFrame, cond, sound]

theorem Part.LinesSound.setOpenTime (h : p.LinesSound) (seconds : Nat) : (setOpenTime l seconds p).LinesSound := by
  have stored : (p.modRx l fun rx => { rx with openTime := seconds }).LinesSound := h.modRx fun _ sound => sound
  unfold Machine.setOpenTime
  simp only
  split
  · next ready timer =>
    split
    · exact stored.enterOpen fun high => stored.space high ready (Option.isSome_of_eq_some timer)
    · exact stored
  · exact stored

theorem Part.LinesSound.actLine (h : p.LinesSound) (k : LineKeys) : (actLine l k p).LinesSound := by
  have h1 : (setLineCode l k.rate k.code p).LinesSound := by
    unfold setLineCode
    split
    · exact (h.modRx fun _ sound => sound).restartLine
    · exact h
  have h2 : (setOpen l k.openTime (setLineCode l k.rate k.code p)).LinesSound := by
    unfold setOpen
    split
    · exact h1.setOpenTime _
    · exact h1
  have h3 := h2.modRx (l := l) (f := fun rx => { rx with unshift := k.shift.getD rx.unshift, desk := k.desk.getD rx.desk })
    fun _ sound => sound
  unfold Machine.actLine
  simp only
  generalize setOpen l k.openTime (setLineCode l k.rate k.code p) = p2 at *
  have h4 : (setSequences l k.opening k.closing (setShiftDesk l k.shift k.desk p2)).LinesSound := by
    unfold setSequences
    split
    · refine (h3.moves (Moves.releaseHeld (l := l) .refl)).of_same (fun k => ?_) rfl
      simp [setShiftDesk]
    · exact h3
  generalize setSequences l k.opening k.closing (setShiftDesk l k.shift k.desk p2) = p4 at *
  have h5 : (setRelease l k.release p4).LinesSound := h4.of_same (fun k => by simp [setRelease]) rfl
  unfold setPark
  split
  · exact h5.parkLine
  · exact h5.unparkLine
  · exact h5

/-! ### Levels, samples and frames -/

theorem Part.LinesSound.pinToSpace (h : p.LinesSound) : (pinToSpace l p).LinesSound := by
  unfold Machine.pinToSpace
  split
  · exact h
  · next mark =>
    split
    · next ready =>
      obtain ⟨-, ready⟩ := Bool.and_eq_true_iff.mp ready
      refine h.modRx fun _ _ => ?_
      simp [Receiver.Sound, of_decide_eq_true ready]
    · next other =>
      refine h.modRx fun high sound => ?_
      cases cond : (p.rx l).cond
      · exact absurd (by simp [high, cond]) other
      · simp only [Receiver.Sound, cond] at sound
        exact absurd sound.1 mark
      · simp only [Receiver.Sound, cond] at sound ⊢
        exact sound

theorem Part.LinesSound.pinToMark (h : p.LinesSound) : (pinToMark l p).LinesSound := by
  unfold Machine.pinToMark
  split
  · exact h
  · split
    · next low => exact h.modRx fun high => by rw [low] at high; cases high
    · split
      · next ready =>
        refine h.modRx fun _ _ => ?_
        simp only [Receiver.Sound, ready]
        refine ⟨by simp, fun wait => ?_⟩
        split at wait
        · cases wait
        · contradiction
      · exact h.modRx fun _ _ => .of_hunting rfl rfl (by simp)
      · next parked =>
        refine h.modRx fun _ sound => ?_
        simp only [Receiver.Sound, parked] at sound ⊢
        exact sound

theorem Part.LinesSound.checkNoise (h : p.LinesSound) : (checkNoise l p).LinesSound := by
  unfold Machine.checkNoise
  split
  · next due =>
    obtain ⟨⟨-, ready⟩, -⟩ : (_ ∧ (p.rx l).cond = .ready) ∧ _ := by simpa using due
    refine h.modRx fun _ sound => ?_
    simp only [Receiver.Sound, ready] at sound ⊢
    refine ⟨sound.1, fun wait => ?_⟩
    split at wait <;> cases wait
  · exact h

/-- A READY receiver's shift and pending carriage return change. -/
theorem Part.LinesSound.modShift (h : p.LinesSound) (ready : (p.rx l).cond = .ready) {f : Receiver → Receiver}
    (cond : (f (p.rx l)).cond = (p.rx l).cond) (pin : (f (p.rx l)).pin = (p.rx l).pin)
    (phase : (f (p.rx l)).phase = (p.rx l).phase) (timer : (f (p.rx l)).spaceTimer = (p.rx l).spaceTimer) :
    (p.modRx l f).LinesSound :=
  h.modRx fun _ sound => sound.of_ready ready cond pin phase timer

theorem Part.LinesSound.receiveChr (h : p.LinesSound) (ready : (p.rx l).cond = .ready) (c : Chr) :
    (receiveChr l c p).LinesSound := by
  unfold Machine.receiveChr
  split
  · exact Part.LinesSound.moves (h.modShift ready rfl rfl rfl rfl) (Moves.deliver _ (Moves.deliver _ .refl))
  · exact h.moves (Moves.deliver _ .refl)

theorem Part.LinesSound.receiveResult (h : p.LinesSound) (ready : (p.rx l).cond = .ready) (r : RxResult) :
    (receiveResult l r p).LinesSound := by
  cases r with
  | cr | figs | ltrs => exact h.modShift ready rfl rfl rfl rfl
  | lf => exact Part.LinesSound.moves (h.modShift ready rfl rfl rfl rfl) (Moves.deliver _ .refl)
  | nothing => exact h
  | chr c substitution =>
    cases substitution with
    | false => exact h.receiveChr ready c
    | true =>
      have counted : (p.modLineTally l fun t => { t with substitutions := bump t.substitutions }).LinesSound :=
        h.of_same (fun k => Part.rx_modLineTally ..) rfl
      exact counted.receiveChr ((congrArg Receiver.cond (Part.rx_modLineTally ..)).trans ready) c

theorem unshifted_same (rx : Receiver) (data : Nat) : (unshifted rx data).cond = rx.cond ∧
    (unshifted rx data).pin = rx.pin ∧ (unshifted rx data).phase = rx.phase ∧
    (unshifted rx data).spaceTimer = rx.spaceTimer := by
  unfold unshifted
  split <;> exact ⟨rfl, rfl, rfl, rfl⟩

/-- The part when a frame in progress has been sampled to its end and counted, before what it gives is delivered (R17). -/
def frameTaken (l : LineNo) (stop : Level) (p : Part) : Part :=
  (p.modRx l fun rx => { rx with
      pin := stop, phase := huntPhase stop
      spaceTimer := if stop = .mark then none else some (rx.spaceTimer.getD 0) }).modLineTally l fun t =>
    { t with received := bump t.received }

theorem frameReceived_eq (data : Nat) (parity stop : Level) : frameReceived l data parity stop p =
    if p.inReset || (p.rx l).cond != .ready || (p.rx l).phase != .frame then p
    else if frameFaulty (p.rx l) data parity stop then receiveResult l (.chr subChr true) (frameTaken l stop p)
    else receiveResult l (decoded (p.rx l) data) ((frameTaken l stop p).modRx l fun rx => unshifted rx data) := rfl

theorem rx_frameTaken (stop : Level) : (frameTaken l stop p).rx l = { p.rx l with
    pin := stop, phase := huntPhase stop
    spaceTimer := if stop = .mark then none else some ((p.rx l).spaceTimer.getD 0) } := by
  rw [frameTaken, Part.rx_modLineTally, Part.rx_modRx]

theorem Part.LinesSound.frameTaken (h : p.LinesSound) (ready : (p.rx l).cond = .ready) (stop : Level) :
    (frameTaken l stop p).LinesSound := by
  refine Part.LinesSound.of_same (p := p.modRx l _) (h.modRx fun _ _ => .of_hunting ready rfl ?_)
    (fun k => Part.rx_modLineTally ..) rfl
  cases stop <;> simp

theorem Part.LinesSound.frameReceived (h : p.LinesSound) (data : Nat) (parity stop : Level) :
    (frameReceived l data parity stop p).LinesSound := by
  rw [frameReceived_eq]
  split
  · exact h
  · next due =>
    have ready : (p.rx l).cond = .ready := by
      by_contra other
      exact due (by simp [other])
    have taken := h.frameTaken ready stop
    have still : ((Machine.frameTaken l stop p).rx l).cond = .ready := by rw [rx_frameTaken]; exact ready
    split
    · exact taken.receiveResult still _
    · obtain ⟨cond, pin, phase, timer⟩ := unshifted_same ((Machine.frameTaken l stop p).rx l) data
      refine Part.LinesSound.receiveResult (taken.modShift still cond pin phase timer) ?_ _
      exact (congrArg Receiver.cond (Part.rx_modRx ..)).trans (cond.trans still)

theorem Part.LinesSound.foldl {α : Type} {f : Part → α → Part} (step : ∀ p a, p.LinesSound → (f p a).LinesSound)
    (h : p.LinesSound) (xs : List α) : (xs.foldl f p).LinesSound := by
  induction xs generalizing p with
  | nil => exact h
  | cons x xs ih => exact ih (step p x h)

theorem Part.LinesSound.clockTick (h : p.LinesSound) : (clockTick p).LinesSound := by
  unfold Machine.clockTick
  split
  · exact h
  · unfold Part.eachLine
    refine Part.LinesSound.foldl (fun q l h => h.modRx fun _ sound => ?_) ?_ _
    · simp only [Receiver.Sound, Option.isSome_map, Option.map_eq_none_iff] at sound ⊢
      exact sound
    · exact h

/-! ### Orders -/

theorem OutFrame.of_rfl (h : OutFrame p q) {r : Part} (same : r = { q with circs := r.circs, alarm := r.alarm }) :
    OutFrame p r := by
  rw [same]
  exact h.trans ⟨rfl, rfl, rfl, rfl, rfl, rfl, rfl, rfl⟩

theorem actCirc_frame (k : CircKeys) : OutFrame p (actCirc c k p) := by
  have h1 : OutFrame p (setSender c k p) := ⟨rfl, rfl, rfl, rfl, rfl, rfl, rfl, rfl⟩
  have h2 : OutFrame p (reestimateFor c k (setSender c k p)) := by
    unfold reestimateFor
    split
    · exact OutFrame.recompute (h1.of_rfl rfl)
    · exact h1
  have h3 : OutFrame p (setQueue c k (reestimateFor c k (setSender c k p))) := h2.of_rfl rfl
  have h4 := h3.trans (OutMoves.frame (OutMoves.foldl (f := lapseClass c)
    (fun p cls hp => hp.foldl (fun p e hp => hp.lapseEntry e) _) (agedClasses k) .refl))
  unfold actCirc setThresholds
  simp only
  split
  · obtain ⟨a, evaluated, -⟩ := evaluate_eq c (((agedClasses k).foldl (lapseClass c)
      (setQueue c k (reestimateFor c k (setSender c k p)))).modLoad c (thresholdsAfter k))
    rw [evaluated]
    exact h4.of_rfl rfl
  · exact h4

theorem Part.LinesSound.frame (h : p.LinesSound) (f : OutFrame p q) : q.LinesSound := h.of_lines f.lines f.inReset

theorem Part.LinesSound.warm (h : p.LinesSound) : (warmPart p).LinesSound := fun high l => by
  have sound := h high l
  have warm : (warmPart p).rx l = (warmLine (p.line l)).rx := by simp [warmPart, Part.rx, Part.line]
  rw [warm]
  cases cond : (p.rx l).cond
  · refine .of_hunting cond ?_ ?_
    · exact if_pos cond
    · simp only [Receiver.Sound, cond] at sound
      exact sound.1
  all_goals
    simp only [Receiver.Sound, cond] at sound
    have cond : (p.line l).rx.cond = _ := cond
    simp only [Receiver.Sound, warmLine, cond]
    simp_all [Part.rx]

theorem linesSound_coldPart (straps : Straps) (pins : Vector Level 8) : (coldPart straps pins).LinesSound := fun _ l => by
  have cold : (coldPart straps pins).rx l = (coldLine straps l (pins.get l)).rx := by simp [Part.rx, line_coldPart]
  rw [cold]
  refine .of_hunting rfl rfl ?_
  cases pin : pins.get l <;> simp [coldLine, coldReceiver]

theorem Part.LinesSound.act (h : p.LinesSound) (o : Order) : (act o p).part.LinesSound := by
  cases o with
  | line l k => exact h.actLine k
  | circ c k => exact h.frame (actCirc_frame k)
  | route rt =>
    show (actRoute rt p).part.LinesSound
    unfold actRoute
    simp only
    split
    · exact h.of_lines rfl rfl
    · split <;> exact h.of_lines rfl rfl
  | unroute key =>
    show (actUnroute key p).part.LinesSound
    unfold actUnroute
    simp only
    split <;> exact h.of_lines rfl rfl
  | hold c => exact h.frame (OutMoves.holdCirc .refl).frame
  | free c => exact h.frame (OutMoves.freeCirc .refl).frame
  | purge c slug => exact h.frame (purgeCircs_outs _ _ 0 .refl).frame
  | alarmClear fs => exact h.foldl (f := fun p f => clearFlag f p) (fun _ _ h => h) fs
  | alarmMask fs on => exact h.foldl (f := fun p f => p.modFlag f fun x => { x with enabled := on }) (fun _ _ h => h) fs
  | alarmNotice fs on => exact h.foldl (f := fun p f => p.modFlag f fun x => { x with notice := on }) (fun _ _ h => h) fs
  | tallyZero => exact h.of_same (q := zeroTallies p) (fun l => by simp [zeroTallies, Part.rx, Part.line]) rfl
  | restartWarm => exact h.warm
  | restartCold => exact linesSound_coldPart p.straps p.pins
  | copybank | enact | showCirc | showLine | tally | alarm | repeatShow | repeatSet | desk | unit =>
    exact h.of_lines rfl rfl

theorem Part.LinesSound.execute (h : p.LinesSound) (checked : Checked Order) : (execute checked p).part.LinesSound := by
  unfold Machine.execute
  split
  · next o => exact (h.act o).frame (OutMoves.settle .refl).frame
  · exact h

theorem Part.LinesSound.nextOrder (h : p.LinesSound) : (nextOrder p).LinesSound := by
  unfold Machine.nextOrder
  split
  · next line serial t rest done answers _ =>
    simp only
    have executed := h.execute (readOrder t p)
    have answered : ∀ lines, (makeAnswer serial lines (Machine.execute (readOrder t p) p).part).LinesSound := fun lines =>
      executed.frame (OutMoves.makeAnswer _ _ .refl).frame
    unfold afterOrder
    split
    · exact answered _
    · split
      · exact (answered _).of_lines rfl rfl
      · exact executed.of_lines rfl rfl
  · exact h

theorem Part.LinesSound.orderCommand (h : p.LinesSound) (check : Part → Checked Order) :
    (orderCommand check p).LinesSound := by
  have apart : (orderApart (check p) p).LinesSound := (h.execute (check p)).of_lines rfl rfl
  unfold Machine.orderCommand
  split
  · exact h
  · split
    · split
      · exact h.nextOrder
      · exact apart
    · exact apart

/-! ### Commands -/

theorem exec_linesSound {i : Instr} {s t : State} (h : s.part.LinesSound) (taken : exec i s = .next t) :
    t.part.LinesSound := by
  by_cases order : isOrder i = true
  · obtain ⟨check, means⟩ := exec_order order
    rw [means] at taken
    cases taken
    exact h.orderCommand check
  · cases i with
    | powerUp ua dr => cases taken; exact linesSound_coldPart { ua := ua, dr := dr } s.part.pins
    | resetnLow => cases taken; intro high; cases high
    | frameReceived l data parity stop => cases taken; exact h.frameReceived data.toNat parity stop
    | spaceTimerExpiry l =>
      cases taken
      show (spaceTimerExpiry l s.part).LinesSound
      unfold spaceTimerExpiry
      split
      · next due =>
        obtain ⟨⟨-, ready⟩, running⟩ : (_ ∧ (s.part.rx l).cond = .ready) ∧ (s.part.rx l).spaceTimer.isSome = true := by
          simpa using due
        exact h.enterOpen fun high => h.space high ready running
      · exact h
    | leadingEdge l => cases taken; exact h.pinToSpace
    | noiseCheck l => cases taken; exact h.checkNoise
    | returnToMark l | changeBackToMark l => cases taken; exact h.pinToMark
    | frameSent c =>
      cases taken
      show Part.LinesSound (if s.part.inReset then s.part else settle (frameSent c s.part))
      split
      · exact h
      · exact h.frame (OutMoves.settle (OutMoves.frameSent .refl)).frame
    | stallTimerExpiry c =>
      cases taken
      show Part.LinesSound (if s.part.inReset then s.part else stallTimerExpiry c s.part)
      split
      · exact h
      · unfold stallTimerExpiry
        split
        · exact h
        · split
          · exact h.frame (OutMoves.takeBreak _ .refl).frame
          · exact Part.LinesSound.frame (p := s.part.modQ c _) (h.of_lines rfl rfl) (OutMoves.raiseNow _ _ .refl).frame
    | lapse c =>
      cases taken
      show Part.LinesSound (if s.part.inReset then s.part else lapseFirst c s.part)
      split
      · exact h
      · unfold lapseFirst
        split
        · exact h.frame (OutMoves.settle (OutMoves.lapseEntry _ .refl)).frame
        · exact h
    | partClockTick => cases taken; exact h.clockTick
    | _ => exact absurd rfl order

/-- Settles O55, command by command: framers, circuits and most orders leave the receivers alone, and each operation of a
receiver leaves it in agreement with its condition and pin. -/
theorem stepKeepsLinesSound : Obligations.StepKeepsLinesSound := by
  intro s t h taken
  unfold step at taken
  split at taken
  · next c rest _ => exact exec_linesSound (s := { s with pending := rest }) h taken
  · cases taken
    show (idle s.part).LinesSound
    unfold idle
    split
    · exact h
    · exact h.nextOrder

end Sys2Proof.Machine
end

section
/-! The machine, starts and restarts: O1 to O6, O53. -/

namespace Sys2Proof.Machine

variable {p : Part} {c : CircNo} {l : LineNo}

/-- Settles O1. -/
theorem stepRunsFrontCommand : Obligations.StepRunsFrontCommand := fun s c rest front => by
  rw [step, front]

/-- Settles O2: what a command does to the part is a sequence of acts, and `exec_acts` says that it is all. -/
theorem everyCommandAnswersNextState : Obligations.EveryCommandAnswersNextState := fun i s => by
  obtain ⟨t, taken, pending, -⟩ := exec_acts i s
  exact ⟨t.part, by rw [taken, ← pending]⟩

/-! ### Starts (R76, R95, R140, R187, R193) -/

theorem pin_pins (l : LineNo) : p.pins.get l = (p.rx l).pin := by simp [Part.pins, Part.rx, Part.line]

theorem flag_coldAlarm (f : Flag) : coldAlarm.flag f = { raised := false, members := [], enabled := true, notice :=
    [Flag.lineOpen, .storeFull, .tableFull, .congested, .stall].contains f } := by
  cases f <;> rfl

/-- Each line has its own route at a power-up start, for every category (R80). -/
theorem lookup_coldBanks (l : LineNo) (category : Text) : lookup coldBanks.active l category = some
    { key := { line := some l, category := none }, circuits := [l], cls := none, alt := none, mode := .send } := by
  fin_cases l <;> rfl

/-- RESTART COLD is a power-up start with the straps of the last one. -/
theorem exec_restartCold {s : State} (h : s.TakesOrder) : exec .restartCold s =
    .next (s.answered (powerUp s.part.straps s.part) [sentence [txt "OK", txt "RESTARTED", txt "COLD"]]) :=
  after_quiet h (check := fun _ => .ok .restartCold) rfl rfl

/-- Settles O3. -/
theorem powerUpGivesResetValues : Obligations.PowerUpGivesResetValues := by
  refine ⟨fun ua dr s => ⟨powerUp { ua := ua, dr := dr } s.part, rfl, ?_⟩, fun s h => ⟨_, rfl, exec_restartCold h⟩⟩
  refine ⟨rfl, rfl, rfl, rfl, rfl, rfl, rfl, rfl, rfl, rfl, rfl, rfl, ?_, flag_coldAlarm, rfl, rfl, lookup_coldBanks,
    fun l => ?_, fun c => ⟨_, rfl, ?_⟩⟩
  · rfl
  · rw [powerUp, line_coldPart, pin_pins]; rfl
  · rw [powerUp, circ_coldPart]; rfl

/-- Settles O4. -/
theorem resetIsAPowerUpStart : Obligations.ResetIsAPowerUpStart :=
  ⟨rfl, fun l => by fin_cases l <;> rfl, rfl⟩

/-- Settles O53. -/
theorem resetHasEveryInvariant : Obligations.ResetHasEveryInvariant := by
  have held := held_coldPart { ua := 15, dr := 3 } (Vector.replicate 8 .mark)
  have single : State.reset.part.Single := fun c => by
    show (((coldPart _ _).q c).held.map (·.item)).Nodup
    rw [held]; exact List.nodup_nil
  refine ⟨countsWithin_coldPart .., linesSound_coldPart _ _, ?_, ?_, ?_, ?_, ?_⟩
  · exact queuesOrdered_iff.mpr ⟨single, fun c => placed_of_empty (held c)⟩
  · exact backlogsCounted_iff.mpr ⟨single, fun c => balanced_coldPart ..⟩
  · exact storeSound_of_empty rfl rfl fun l => by fin_cases l <;> rfl
  · exact holdersCounted_iff.mpr ⟨single, referred_of_empty rfl held⟩
  · exact ⟨fun f => by cases f <;> exact ⟨fun _ => rfl, fun _ => rfl, .nil⟩, rfl⟩

/-! ### RESETn low (R6, R28, R76, R140, R187, R190) -/

/-- A command that leaves the part as it stands leaves the state. -/
theorem after_self {s : State} {f : Part → Part} (same : f s.part = s.part) : s.after f = .next s := by
  rw [State.after_eq, same]

/-- Settles O5. -/
theorem resetnLowHoldsThePart : Obligations.ResetnLowHoldsThePart := by
  refine ⟨fun s => ⟨resetLow s.part, rfl, rfl, rfl, fun l => ?_, fun c => ?_, rfl⟩, fun i s low start lows edges => ?_⟩
  · simp only [resetLow, Part.line, get_mapAll]; rfl
  · simp [resetLow, Part.circ, Part.tx]
  · by_cases order : isOrder i = true
    · obtain ⟨check, means⟩ := exec_order order
      rw [means]
      exact after_self (if_pos low)
    · cases i with
      | powerUp ua dr => exact absurd rfl (start ua dr)
      | resetnLow => exact absurd rfl lows
      | leadingEdge l => exact absurd rfl (edges l).1
      | returnToMark l => exact absurd rfl (edges l).2.1
      | changeBackToMark l => exact absurd rfl (edges l).2.2
      | frameReceived l data parity stop => exact after_self (by rw [frameReceived_eq, low]; rfl)
      | spaceTimerExpiry l => exact after_self (by rw [spaceTimerExpiry, low]; rfl)
      | noiseCheck l => exact after_self (by rw [checkNoise, low]; rfl)
      | frameSent c | stallTimerExpiry c | lapse c | partClockTick => exact after_self (if_pos low)
      | _ => exact absurd rfl order

/-! ### RESTART WARM (R28, R57, R95, R117, R141, R157, R186, R193) -/

theorem line_warmPart (l : LineNo) : (warmPart p).line l = warmLine (p.line l) := by simp [warmPart, Part.line]

theorem flag_warmPart (f : Flag) : (warmPart p).flag f = warmFlag (p.flag f) := by
  simp [warmPart, Part.flag, Alarm.flag]

theorem tx_warmPart (c : CircNo) : (warmPart p).tx c = warmSender (p.tx c) := by
  rw [Part.tx, circ_warmPart]; rfl

/-- The sender after a RESTART WARM, its frame completed, if it had one. -/
theorem warmIdle_eq (tx : Sender) : warmIdle tx = { tx with
    state := .idle, column := 0, shift := .letters, owed := [], holdPending := false, heldPos := .nothingDue
    startMark := true, job := .none, out := []
    force := { tx.force with rate := tx.ordered.rate, code := tx.ordered.code } } := by
  simp [warmIdle, bringCode]

/-- A sender that was completing a frame is IDLE at its end, with nothing in its queue to select. -/
theorem tx_warmFrame_sent {f : Frame} (job : (p.tx c).job = .warmFrame) (out : (p.tx c).out = [f])
    (empty : (p.q c).entries = []) : (frameSent c p).tx c = warmIdle { frameEnded f true (p.tx c) with out := [] } := by
  simp [frameSent, out, job, Job.ofEntry, jobDone, warmDone, empty]

theorem alarm_warmFrame_sent {f : Frame} (job : (p.tx c).job = .warmFrame) (out : (p.tx c).out = [f])
    (empty : (p.q c).entries = []) : (frameSent c p).alarm = p.alarm := by
  simp [frameSent, out, job, Job.ofEntry, jobDone, warmDone, empty]
  rfl

/-- Settles O6. -/
theorem restartWarmClearsTheWork : Obligations.RestartWarmClearsTheWork := by
  intro s h
  refine ⟨warmPart s.part, after_quiet h (check := fun _ => .ok .restartWarm) rfl rfl, rfl, rfl, rfl, rfl, h.running,
    rfl, rfl, rfl, rfl, rfl, rfl, rfl, flag_warmPart, fun l => ?_, fun c => ?_⟩
  · have phase : (if (s.part.rx l).cond = .ready then huntPhase (s.part.rx l).pin else .hunting) =
        if (s.part.rx l).cond = .ready ∧ (s.part.rx l).pin = .space then RxPhase.waitMark else .hunting := by
      by_cases ready : (s.part.rx l).cond = .ready <;> simp [ready, huntPhase]
    rw [line_warmPart, ← phase]
    rfl
  · have circ : (warmPart s.part).circ c = warmCirc (s.part.circ c) := circ_warmPart c
    refine ⟨by rw [circ]; rfl, by rw [Part.load, circ]; rfl, by rw [Part.q, circ]; rfl, fun none => ?_,
      fun f rest some => ?_⟩
    · rw [tx_warmPart, warmSender, none, ← warmIdle_eq]
    · have tx : (warmPart s.part).tx c = { s.part.tx c with job := .warmFrame, out := [f] } := by
        rw [tx_warmPart, warmSender, some]
      refine ⟨tx, fun hold => ⟨_, rfl, ?_⟩⟩
      generalize hp : ((warmPart s.part).modTx c fun tx => { tx with holdPending := hold }) = p
      have was : p.tx c = { s.part.tx c with job := .warmFrame, out := [f], holdPending := hold } := by
        rw [← hp, Part.tx_modTx, tx]
      have job : (p.tx c).job = .warmFrame := by rw [was]
      have out : (p.tx c).out = [f] := by rw [was]
      have empty : (p.q c).entries = [] := by
        rw [← hp, Part.q_modTx, Part.q, circ]; rfl
      have quiet : p.alarm.owing = [] := by rw [← hp]; rfl
      have running : p.inReset = false := by rw [← hp]; exact h.running
      show Part.tx (if p.inReset then p else settle (frameSent c p)) c = _
      rw [running, if_neg Bool.false_ne_true, settle_of_settled (by rw [alarm_warmFrame_sent job out empty, quiet]),
        tx_warmFrame_sent job out empty, was, ← warmIdle_eq]
      simp [warmIdle, bringCode, frameEnded]

end Sys2Proof.Machine
end

section
/-! Line receivers: levels, the noise check, frames and the part clock (O7, O8, O10, O11). -/

namespace Sys2Proof.Machine

variable {p : Part} {l l' : LineNo} {c : Chr}

theorem after_of {s : State} {f : Part → Part} {q : Part} (h : f s.part = q) : s.after f = .next { s with part := q } := by
  rw [State.after_eq, h]

/-! ### Levels (R16, R17, R22, R23) -/

theorem pinToSpace_ready (high : p.inReset = false) (ready : (p.rx l).cond = .ready) (mark : (p.rx l).pin = .mark) :
    pinToSpace l p = p.modRx l fun rx => { rx with
      pin := .space, spaceTimer := some 0, phase := if rx.phase = .hunting then .noiseCheck else rx.phase } := by
  simp [pinToSpace, high, ready, mark]

theorem pinToMark_ready (high : p.inReset = false) (ready : (p.rx l).cond = .ready) (space : (p.rx l).pin = .space) :
    pinToMark l p = p.modRx l fun rx => { rx with
      pin := .mark, spaceTimer := none, phase := if rx.phase = .waitMark then .hunting else rx.phase } := by
  simp [pinToMark, high, ready, space]

theorem pinToMark_opened (high : p.inReset = false) (opened : (p.rx l).cond = .opened) (space : (p.rx l).pin = .space) :
    pinToMark l p = p.modRx l fun rx => { rx with pin := .mark, cond := .ready, phase := .hunting, spaceTimer := none } := by
  simp [pinToMark, high, opened, space]

theorem checkNoise_ready (high : p.inReset = false) (ready : (p.rx l).cond = .ready)
    (check : (p.rx l).phase = .noiseCheck) :
    checkNoise l p = p.modRx l fun rx => { rx with phase := if rx.pin = .mark then .hunting else .frame } := by
  simp [checkNoise, high, ready, check]

/-- Settles O7. -/
theorem pinChangesMoveTheReceiver : Obligations.PinChangesMoveTheReceiver := fun _ _ high =>
  ⟨fun ready mark => after_of (pinToSpace_ready high ready mark),
    fun ready space => after_of (pinToMark_ready high ready space),
    fun opened space => after_of (pinToMark_opened high opened space)⟩

/-- Settles O8. -/
theorem noiseCheckDecidesAFrame : Obligations.NoiseCheckDecidesAFrame := by
  refine fun s l high ready => ⟨fun check => ?_, fun hunting mark stopped => ?_⟩
  · exact after_of (checkNoise_ready high ready check)
  · refine ⟨_, _, rfl, rfl, ?_⟩
    have back : checkNoise l (pinToMark l (pinToSpace l s.part)) = s.part := by
      rw [pinToSpace_ready high ready mark,
        pinToMark_ready (p := s.part.modRx l _) high (by simpa using ready) (by simp),
        checkNoise_ready (p := (s.part.modRx l _).modRx l _) high (by simpa using ready) (by simp [hunting]),
        Part.modRx_modRx, Part.modRx_modRx]
      refine Part.modRx_id _ ?_
      cases rx : s.part.rx l
      simp_all
    exact after_of (s := { s with part := pinToMark l (pinToSpace l s.part) }) back

/-! ### The part clock (R22, R63) -/

/-- A change of every line, one after another. -/
theorem line_foldl_modRx {f : Receiver → Receiver} (ls : List LineNo) (distinct : ls.Nodup) (p : Part) :
    (ls.foldl (fun p l => p.modRx l f) p).line l =
      if l ∈ ls then { p.line l with rx := f (p.line l).rx } else p.line l := by
  induction ls generalizing p with
  | nil => rfl
  | cons x xs ih =>
    obtain ⟨fresh, distinct⟩ := List.nodup_cons.mp distinct
    rw [List.foldl_cons, ih distinct]
    by_cases e : l = x
    · subst e
      simp [fresh]
    · simp [e, Part.line_modRx_ne _ e]

theorem foldl_modRx_frame {f : Receiver → Receiver} (ls : List LineNo) (p : Part) (lines : Vector Line 8) :
    { ls.foldl (fun p l => p.modRx l f) p with lines := lines } = { p with lines := lines } := by
  induction ls generalizing p with
  | nil => rfl
  | cons x xs ih => rw [List.foldl_cons, ih]; rfl

/-- Settles O11. -/
theorem clockTickCountsSeconds : Obligations.ClockTickCountsSeconds := by
  intro s high
  refine ⟨clockTick s.part, rfl, ?_⟩
  rw [clockTick, if_neg (by simp [high])]
  have frame := foldl_modRx_frame (f := fun rx => { rx with spaceTimer := rx.spaceTimer.map (· + 1) }) allEight
    { s.part with clock := if s.part.clock < Config.clockMax then s.part.clock + 1 else s.part.clock } s.part.lines
  refine ⟨congrArg Part.clock frame, fun l => ?_, congrArg (fun q : Part => { q with clock := s.part.clock }) frame⟩
  exact (line_foldl_modRx allEight (by decide) _).trans (if_pos (by fin_cases l <;> decide))

/-! ### Frames (R17, R18, R20, R21) -/

/-- The receiver when a frame has been sampled to its end (R17). -/
def sampledRx (rx : Receiver) (stop : Level) : Receiver :=
  { rx with
    pin := stop, phase := if stop = .space then .waitMark else .hunting
    spaceTimer := if stop = .space then some (rx.spaceTimer.getD 0) else none }

/-- The part after a frame that is counted as received, with its receiver so and this many substitutions. -/
def takenWith (l : LineNo) (p : Part) (rx : Receiver) (substitutions : Nat) : Part :=
  p.setLine l { p.line l with
    rx := rx
    tally := { (p.line l).tally with received := bump (p.line l).tally.received, substitutions := substitutions } }

theorem frameTaken_eq (stop : Level) :
    frameTaken l stop p = takenWith l p (sampledRx (p.rx l) stop) (p.line l).tally.substitutions := by
  cases stop <;> simp [frameTaken, takenWith, sampledRx, Part.modRx, Part.modLineTally, Part.setLine_setLine, huntPhase,
    Part.rx]

theorem modRx_takenWith (rx : Receiver) (n : Nat) (f : Receiver → Receiver) :
    (takenWith l p rx n).modRx l f = takenWith l p (f rx) n := by
  simp [takenWith, Part.modRx, Part.setLine_setLine]

theorem countSubstitution_takenWith (rx : Receiver) (n : Nat) :
    ((takenWith l p rx n).modLineTally l fun t => { t with substitutions := bump t.substitutions }) =
      takenWith l p rx (bump n) := by
  simp [takenWith, Part.modLineTally, Part.setLine_setLine]

@[simp] theorem rx_takenWith (rx : Receiver) (n : Nat) : (takenWith l p rx n).rx l = rx := by
  simp [takenWith, Part.rx]

/-- A copy character goes to the framer, after a line end where a carriage return was pending (R21). -/
def handedWith (l : LineNo) (p : Part) (c : Chr) (rx : Receiver) (substitutions : Nat) : Part :=
  if rx.pendingCR = true then
    deliver l c (deliver l lineEndChr (takenWith l p { rx with pendingCR := false } substitutions))
  else deliver l c (takenWith l p rx substitutions)

theorem receiveChr_takenWith (rx : Receiver) (n : Nat) :
    receiveChr l c (takenWith l p rx n) = handedWith l p c rx n := by
  rw [receiveChr, rx_takenWith, modRx_takenWith, handedWith]

/-- What a frame brings: its result to the framer, and the receiver and the tallies changed by it. -/
def frameResult (l : LineNo) (p : Part) (rx : Receiver) (n : Nat) : RxResult → Part
  | .chr c substitution => handedWith l p c rx (if substitution = true then bump n else n)
  | .cr => takenWith l p { rx with pendingCR := true } n
  | .lf => deliver l lineEndChr (takenWith l p { rx with pendingCR := false } n)
  | .figs => takenWith l p { rx with shift := .figures } n
  | .ltrs => takenWith l p { rx with shift := .letters } n
  | .nothing => takenWith l p rx n

theorem receiveResult_takenWith (rx : Receiver) (n : Nat) (r : RxResult) :
    receiveResult l r (takenWith l p rx n) = frameResult l p rx n r := by
  cases r with
  | chr c substitution =>
    cases substitution with
    | false => exact receiveChr_takenWith rx n
    | true => exact (congrArg (receiveChr l c) (countSubstitution_takenWith rx n)).trans (receiveChr_takenWith rx (bump n))
  | cr => exact modRx_takenWith rx n fun rx => { rx with pendingCR := true }
  | figs => exact modRx_takenWith rx n fun rx => { rx with shift := .figures }
  | ltrs => exact modRx_takenWith rx n fun rx => { rx with shift := .letters }
  | lf => exact congrArg (deliver l lineEndChr) (modRx_takenWith rx n fun rx => { rx with pendingCR := false })
  | nothing => rfl

/-- A frame in progress gives SUB where it is faulty, and else what its data units decode to (R17, R18). -/
theorem frameReceived_taken (high : p.inReset = false) (ready : (p.rx l).cond = .ready) (frame : (p.rx l).phase = .frame)
    (data : Nat) (parity stop : Level) : frameReceived l data parity stop p =
      if frameFaulty (p.rx l) data parity stop then
        handedWith l p subChr (sampledRx (p.rx l) stop) (bump (p.line l).tally.substitutions)
      else frameResult l p (unshifted (sampledRx (p.rx l) stop) data) (p.line l).tally.substitutions
        (decoded (p.rx l) data) := by
  rw [frameReceived_eq, if_neg (by simp [high, ready, frame]), frameTaken_eq, modRx_takenWith, receiveResult_takenWith,
    receiveResult_takenWith]
  rfl

theorem frameReceived_none (none : (p.rx l).phase ≠ .frame) (data : Nat) (parity stop : Level) :
    frameReceived l data parity stop p = p := by
  rw [frameReceived_eq, if_pos (by simp [none])]

theorem frameFaulty_iff (rx : Receiver) (data : Nat) (parity stop : Level) : frameFaulty rx data parity stop = true ↔
    stop = .space ∨ (rx.code = .seven ∧ parity ≠ evenParity data) := by
  simp [frameFaulty, parityOdd]

theorem unshifted_eq (rx : Receiver) (data : Nat) : unshifted rx data = { rx with
    shift := if rx.code = .five ∧ rx.unshift = true ∧ data % 32 = 27 then .letters else rx.shift } := by
  unfold unshifted
  split <;> rfl

/-- Only a frame that gives a character puts the shift in letters by unshift-on-space (R20). -/
theorem unshifted_of_not_chr {rx : Receiver} {data : Nat} (rx' : Receiver) (code : rx'.code = rx.code)
    (other : ∀ c substitution, decoded rx data ≠ .chr c substitution) : unshifted rx' data = rx' := by
  refine if_neg fun ⟨five, _, space⟩ => other spaceChr false ?_
  rw [decoded, ← code, five]
  simp [space, decodeFive]

/-- In HUNT with nothing held, a character that does not begin the opening sequence is between items (R35). -/
theorem deliver_between (hunt : (p.fr l).state = .hunt) (held : (p.fr l).held = []) (long : 2 ≤ (p.fr l).opening.length)
    (first : (p.fr l).opening.head? ≠ some c) : deliver l c p = countBetween l p := by
  have same : (p.modFr l fun fr => { fr with held := [] }) = p :=
    Part.modFr_id _ (by cases fr : p.fr l; simp_all)
  obtain ⟨x, y, rest, opening⟩ : ∃ x y rest, (p.fr l).opening = x :: y :: rest := by
    match h : (p.fr l).opening, long with
    | x :: y :: rest, _ => exact ⟨x, y, rest, rfl⟩
  have other : c ≠ x := by
    intro e
    simp [opening, e] at first
  simp [deliver, same, held, examine, opening, hunt, properPrefix, releaseChr, other]

theorem decodeFive_table : ∀ k < 32, ∀ shift, decodeFive k shift = if k = 0 then .nothing
    else if k = 27 then .chr spaceChr false
    else if k = 28 then .cr
    else if k = 29 then .lf
    else if k = 30 then .figs
    else if k = 31 then .ltrs
    else if shift = .letters then .chr (k + 1) false
    else if k ≤ 9 then .chr (k + 28) false
    else if k = 10 then .chr 28 false
    else if k ≤ 20 then .chr (k + 27) false
    else .chr subChr true := by
  intro k small shift
  cases shift <;> interval_cases k <;> rfl

theorem decodeSeven_table : ∀ n < 128, decodeSeven n = if 65 ≤ n ∧ n ≤ 90 then .chr (n - 63) false
    else if 97 ≤ n ∧ n ≤ 122 then .chr (n - 95) false
    else if 48 ≤ n ∧ n ≤ 57 then .chr (n - 20) false
    else if n = 32 then .chr spaceChr false
    else if n = 13 then .cr
    else if n = 10 then .lf
    else if n < 32 ∨ n = 127 then .nothing
    else match [(45, 38), (63, 39), (58, 40), (40, 41), (41, 42), (46, 43), (44, 44), (39, 45), (47, 46),
        (43, 47)].lookup n with
      | some c => .chr c false
      | none => .chr subChr true := by
  intro n small
  interval_cases n <;> rfl

/-- The framer of line `l` is in HUNT with nothing held, and `c` does not begin its opening sequence. -/
theorem handedWith_between {rx : Receiver} {n : Nat} (settled : rx.pendingCR = false) (hunt : (p.fr l).state = .hunt)
    (held : (p.fr l).held = []) (long : 2 ≤ (p.fr l).opening.length) (first : (p.fr l).opening.head? ≠ some c) :
    handedWith l p c rx n = p.setLine l { p.line l with
      rx := rx
      tally := { (p.line l).tally with
        received := bump (p.line l).tally.received, substitutions := n, between := bump (p.line l).tally.between } } := by
  have fr : (takenWith l p rx n).fr l = p.fr l := by simp [takenWith, Part.fr]
  rw [handedWith, if_neg (by simp [settled]), deliver_between (by rwa [fr]) (by rwa [fr]) (by rwa [fr]) (by rwa [fr])]
  simp [countBetween, takenWith, Part.modLineTally, Part.setLine_setLine]

/-- Settles O10. -/
theorem frameBetweenItems : Obligations.FrameBetweenItems := by
  refine ⟨?_, ?_, ?_, ?_, ?_⟩
  · intro s l data parity c high ready frame settled hunt held long first even gives
    refine after_of ?_
    have sound : ¬ frameFaulty (s.part.rx l) data.toNat parity .mark = true := by
      rw [frameFaulty_iff]
      rintro (space | ⟨seven, odd⟩)
      · cases space
      · exact odd (even seven)
    rw [frameReceived_taken high ready frame, if_neg sound, gives, frameResult, unshifted_eq]
    exact (handedWith_between (p := s.part) (rx := { sampledRx (s.part.rx l) .mark with shift := _ }) settled hunt held
      long first :)
  · intro s l data parity stop high ready frame settled hunt held long first faulty
    refine after_of ?_
    rw [frameReceived_taken high ready frame, if_pos ((frameFaulty_iff ..).mpr faulty)]
    exact handedWith_between (rx := sampledRx (s.part.rx l) stop) settled hunt held long first
  · exact fun s l data parity stop none => after_self (frameReceived_none none ..)
  · intro s l data parity stop high ready frame
    refine after_of ?_
    rw [frameReceived_taken high ready frame]
    simp only [frameFaulty_iff]
    split
    · next faulty => exact (if_pos faulty).symm
    · next sound =>
      refine Eq.trans ?_ (if_neg sound).symm
      have stays := unshifted_of_not_chr (rx := s.part.rx l) (data := data.toNat) (sampledRx (s.part.rx l) stop) rfl
      cases gives : decoded (s.part.rx l) data.toNat with
      | chr c substitution =>
        rw [show decoded (s.part.line l).rx data.toNat = _ from gives, unshifted_eq]; rfl
      | cr | lf | figs | ltrs | nothing =>
        rw [show decoded (s.part.line l).rx data.toNat = _ from gives, stays (by simp [gives])]; rfl
  · exact fun rx n => ⟨fun five => by rw [decoded, five]; exact decodeFive_table _ (Nat.mod_lt _ (by decide)) _,
      fun seven small => by rw [decoded, seven]; exact decodeSeven_table n small⟩

end Sys2Proof.Machine
end

section
/-! What a circuit prints, read back and on the wire (O12). -/

namespace Sys2Proof.Machine

variable {p : Part} {c : Chr} {shift : Shift} {rx : Receiver}

/-! ### Reading back (R3, R8, R9, R11, R12, R124) -/

/-- What a receiver that reads a frame is after it, and the copy it has read. -/
def readFrame (rs : Receiver × Text) (f : Frame) : Receiver × Text :=
  match decoded rs.1 f.value with
  | .chr c _ => (unshifted rs.1 f.value, rs.2 ++ [c])
  | .figs => ({ rs.1 with shift := .figures }, rs.2)
  | .ltrs => ({ rs.1 with shift := .letters }, rs.2)
  | _ => rs

/-- A copy character that is printed: any but the line end. -/
def Printed (c : Chr) : Prop := 1 ≤ c ∧ c ≤ 49 ∧ c ≠ lineEndChr

/-- A character as it is printed: SUB as the question mark (R3). -/
def readBack (c : Chr) : Chr := if c = subChr then 39 else c

theorem decodeSeven_sevenValue (h : Printed c) : decodeSeven (sevenValue c) = .chr (readBack c) false := by
  obtain ⟨low, high, text⟩ := h
  interval_cases c <;> first | rfl | exact absurd rfl text

theorem decodeFive_fivePoint (h : Printed c) (case : ∀ need, caseOf c = some need → need = shift) :
    decodeFive (fivePoint c % 32) shift = .chr (readBack c) false := by
  obtain ⟨low, high, text⟩ := h
  cases shift <;> interval_cases c <;> first | rfl | exact absurd rfl text | exact absurd (case _ rfl) (by decide)

theorem fivePoint_space (h : Printed c) (space : fivePoint c % 32 = 27) : c = spaceChr := by
  obtain ⟨low, high, text⟩ := h
  interval_cases c <;> first | rfl | exact absurd rfl text | exact absurd space (by decide)

/-- The value of a frame of the code that a receiver reads. -/
theorem readFrame_print (h : Printed c) (case : rx.code = .five → ∀ need, caseOf c = some need → need = rx.shift)
    (plain : rx.unshift = false ∨ c ≠ spaceChr) (read : Text) :
    readFrame (rx, read) (printFrame rx.code c) = (rx, read ++ [readBack c]) := by
  cases code : rx.code with
  | five =>
    have gives : decoded rx (printFrame .five c).value = .chr (readBack c) false := by
      rw [decoded, code]; exact decodeFive_fivePoint h (case code)
    have stays : unshifted rx (printFrame .five c).value = rx := by
      refine if_neg fun ⟨_, unshift, space⟩ => ?_
      rcases plain with off | other
      · rw [off] at unshift; cases unshift
      · exact other (fivePoint_space h space)
    rw [readFrame, gives]
    exact congrArg (·, _) stays
  | seven =>
    have gives : decoded rx (printFrame .seven c).value = .chr (readBack c) false := by
      rw [decoded, code]; exact decodeSeven_sevenValue h
    have stays : unshifted rx (printFrame .seven c).value = rx := by
      refine if_neg fun ⟨five, _⟩ => ?_
      rw [code] at five; cases five
    rw [readFrame, gives]
    exact congrArg (·, _) stays

theorem readFrame_shift (five : rx.code = .five) (need : Shift) (read : Text) :
    readFrame (rx, read) (shiftFrame need) = ({ rx with shift := need }, read) := by
  cases need <;> simp [readFrame, decoded, five, shiftFrame, decodeFive]

/-- A run of characters is read back character by character, the receiver's shift following the sender's. -/
theorem foldl_readFrame (text : Text) : ∀ (shift : Shift) (rx : Receiver) (read : Text), (∀ c ∈ text, Printed c) →
    (rx.unshift = false ∨ spaceChr ∉ text) → (rx.code = .five → rx.shift = shift) →
    ((textFrames rx.code shift text).foldl readFrame (rx, read)).2 = read ++ text.map readBack := by
  induction text with
  | nil => intros; simp [textFrames]
  | cons c cs ih =>
    intro shift rx read printed plain same
    obtain ⟨first, rest⟩ := List.forall_mem_cons.mp printed
    have plainFirst : rx.unshift = false ∨ c ≠ spaceChr := plain.imp_right fun h e => h (e ▸ .head _)
    have plainRest : rx.unshift = false ∨ spaceChr ∉ cs := plain.imp_right fun h m => h (.tail _ m)
    cases code : rx.code with
    | seven =>
      have next := ih shift rx (read ++ [readBack c]) rest plainRest same
      have one := readFrame_print first (fun five => by rw [code] at five; cases five) plainFirst read
      rw [code] at next one
      simpa [textFrames, one] using next
    | five =>
      /- The character under the right shift, and the rest. -/
      have goesOn : ∀ (rx' : Receiver) (shift' : Shift), rx'.code = .five → rx'.unshift = rx.unshift →
          rx'.shift = shift' → (∀ need, caseOf c = some need → need = shift') →
          ((printFrame .five c :: textFrames .five shift' cs).foldl readFrame (rx', read)).2 =
            read ++ (c :: cs).map readBack := by
        intro rx' shift' code' unshift' same' case
        have one := readFrame_print first (rx := rx') (fun _ => same' ▸ case) (unshift' ▸ plainFirst) read
        have next := ih shift' rx' (read ++ [readBack c]) rest (unshift' ▸ plainRest) fun _ => same'
        rw [code'] at one next
        simpa [one] using next
      cases need : caseOf c with
      | none =>
        simpa [textFrames, need] using goesOn rx shift code rfl (same code) (by simp [need])
      | some case =>
        by_cases stands : case = shift
        · simpa [textFrames, need, stands] using goesOn rx shift code rfl (same code) (by simp [need, stands])
        · have moved := readFrame_shift code case read
          simpa [textFrames, need, stands, moved] using
            goesOn { rx with shift := case } case code rfl rfl (by simp [need])

/-! ### On the wire (R6, R7, R10, R14) -/

/-- The frames that a circuit sends for characters and line ends: their values fit their data units. -/
def Frame.Sent (code : LineCode) (f : Frame) : Prop :=
  f.code = code ∧ f.value < 2 ^ dataUnits code ∧
    f.parity = match code with | .five => none | .seven => some (evenParity f.value)

theorem sent_frameOf (code : LineCode) {five seven : Nat} (sort : FrameSort) (fits5 : five < 32) (fits7 : seven < 128) :
    (frameOf code five seven sort).Sent code := by
  cases code
  · exact ⟨rfl, fits5, rfl⟩
  · exact ⟨rfl, fits7, rfl⟩

theorem isLetter_iff (c : Nat) : isLetter c = true ↔ 2 ≤ c ∧ c ≤ 27 := by simp [isLetter]
theorem isDigit_iff (c : Nat) : isDigit c = true ↔ 28 ≤ c ∧ c ≤ 37 := by simp [isDigit]

theorem fivePoint_lt (c : Nat) : fivePoint c < 32 := by
  have mark : (decide (38 ≤ c) && decide (c ≤ 47)) = true ↔ 38 ≤ c ∧ c ≤ 47 := by simp
  unfold fivePoint
  simp only [isLetter_iff, isDigit_iff, mark]
  split_ifs <;> omega

theorem sevenValue_lt (c : Nat) : sevenValue c < 128 := by
  unfold sevenValue
  simp only [isLetter_iff, isDigit_iff]
  split
  · omega
  · split
    · omega
    · split <;> decide

theorem sent_printFrame (code : LineCode) (c : Chr) : (printFrame code c).Sent code :=
  sent_frameOf code .printing (fivePoint_lt c) (sevenValue_lt c)

theorem sent_textFrames (code : LineCode) (text : Text) : ∀ shift, ∀ f ∈ textFrames code shift text, f.Sent code := by
  induction text with
  | nil => simp [textFrames]
  | cons c cs ih =>
    intro shift
    cases code with
    | seven =>
      simp only [textFrames]
      exact List.forall_mem_cons.mpr ⟨sent_printFrame _ c, ih shift⟩
    | five =>
      cases need : caseOf c with
      | none =>
        simp only [textFrames, need]
        exact List.forall_mem_cons.mpr ⟨sent_printFrame _ c, ih shift⟩
      | some case =>
        simp only [textFrames, need]
        split
        · exact List.forall_mem_cons.mpr ⟨sent_printFrame _ c, ih shift⟩
        · refine List.forall_mem_cons.mpr ⟨?_, List.forall_mem_cons.mpr ⟨sent_printFrame _ c, ih case⟩⟩
          cases case <;> exact ⟨rfl, by decide, rfl⟩

theorem sent_lineEndFrames (code : LineCode) (fills : Nat) : ∀ f ∈ lineEndFrames code fills, f.Sent code := by
  unfold lineEndFrames
  refine List.forall_mem_cons.mpr ⟨sent_frameOf _ _ (by decide) (by decide),
    List.forall_mem_cons.mpr ⟨sent_frameOf _ _ (by decide) (by decide), fun f hf => ?_⟩⟩
  rw [List.eq_of_mem_replicate hf]
  exact sent_frameOf _ _ (by decide) (by decide)

/-- The level within the first of a run of levels, and past it. -/
theorem levelAt_lt {l : Level} {n t : Nat} {rest : List (Level × Nat)} (h : t < n) : levelAt ((l, n) :: rest) t = l :=
  if_pos h

theorem levelAt_ge {l : Level} {n t : Nat} {rest : List (Level × Nat)} (h : n ≤ t) :
    levelAt ((l, n) :: rest) t = levelAt rest (t - n) := if_neg (Nat.not_lt.mpr h)

/-- A run of units of one length each. -/
theorem levelAt_units {α : Type} (f : α → Level) (rest : List (Level × Nat)) (xs : List α) (t : Nat) :
    levelAt (xs.map (fun k => (f k, 10)) ++ rest) (10 * xs.length + t) = levelAt rest t := by
  induction xs with
  | nil => simp
  | cons x xs ih =>
    rw [List.map_cons, List.cons_append, levelAt_ge (by simp; omega), ← ih]
    congr 1
    simp
    omega

theorem levelAt_unit {α : Type} (f : α → Level) (rest : List (Level × Nat)) (xs : List α) {k t : Nat}
    (inside : k < xs.length) (within : t < 10) :
    levelAt (xs.map (fun k => (f k, 10)) ++ rest) (10 * k + t) = f xs[k] := by
  induction xs generalizing k with
  | nil => simp at inside
  | cons x xs ih =>
    cases k with
    | zero => exact levelAt_lt (by omega)
    | succ k =>
      rw [List.map_cons, List.cons_append, levelAt_ge (by omega),
        show 10 * (k + 1) + t - 10 = 10 * k + t by omega, ih (by simpa using inside)]
      rfl

/-- The levels of a frame that is sent: its space unit, its data units, its parity unit, and mark (R6, R7, R10). -/
theorem levels_five {f : Frame} (h : f.Sent .five) : f.levels =
    (.space, 10) :: ((List.range 5).map (fun k => (levelOf (f.value.testBit k), 10)) ++ [(.mark, 15)]) := by
  obtain ⟨code, -, parity⟩ := h
  simp [Frame.levels, code, parity, dataUnits, stopLength]

theorem levels_seven {f : Frame} (h : f.Sent .seven) : f.levels =
    (.space, 10) :: ((List.range 7).map (fun k => (levelOf (f.value.testBit k), 10)) ++
      [(evenParity f.value, 10), (.mark, 10)]) := by
  obtain ⟨code, -, parity⟩ := h
  simp [Frame.levels, code, parity, dataUnits, stopLength]

theorem levelAt_mark (n t : Nat) : levelAt [(.mark, n)] t = .mark := by
  unfold levelAt; split <;> rfl

/-- Settles O12. -/
theorem printedCopyReadsBack : Obligations.PrintedCopyReadsBack := by
  refine ⟨fun text shift rx printed plain same => ?_, fun fills rx => ?_, ?_, fun p c t => ⟨fun rests => ?_, ?_⟩⟩
  · exact (foldl_readFrame text shift rx [] printed plain same).trans (List.nil_append _)
  · cases code : rx.code <;>
      simp [lineEndFrames, frameOf, decoded, code, decodeFive, decodeSeven, markOfSeven]
  · intro code shift text fills f hf
    have sent : f.Sent code := (List.mem_append.mp hf).elim (sent_textFrames code text shift f)
      (sent_lineEndFrames code fills f)
    cases code with
    | five =>
      have levels := levels_five sent
      have start : ∀ t < 10, levelAt f.levels t = .space := fun t h => levels ▸ levelAt_lt h
      refine ⟨sent.2.1, by rw [levels]; rfl, start, fun k hk t ht => ?_, fun no => by (cases no), fun t late => ?_⟩
      · rw [levels, levelAt_ge (by omega), show 10 + 10 * k + t - 10 = 10 * k + t by omega,
          levelAt_unit _ _ _ (by simpa using hk) ht, List.getElem_range]
        rfl
      · have late : 60 ≤ t := late
        rw [levels, levelAt_ge (by omega), show t - 10 = 10 * (List.range 5).length + (t - 60) by simp; omega,
          levelAt_units, levelAt_mark]
    | seven =>
      have levels := levels_seven sent
      have start : ∀ t < 10, levelAt f.levels t = .space := fun t h => levels ▸ levelAt_lt h
      refine ⟨sent.2.1, by rw [levels]; rfl, start, fun k hk t ht => ?_, fun _ t ht => ?_, fun t late => ?_⟩
      · rw [levels, levelAt_ge (by omega), show 10 + 10 * k + t - 10 = 10 * k + t by omega,
          levelAt_unit _ _ _ (by simpa using hk) ht, List.getElem_range]
        rfl
      · rw [levels, levelAt_ge (by omega), show 80 + t - 10 = 10 * (List.range 7).length + t by simp; omega,
          levelAt_units, levelAt_lt ht]
      · have late : 90 ≤ t := late
        rw [levels, levelAt_ge (by omega), show t - 10 = 10 * (List.range 7).length + (t - 80) by simp; omega,
          levelAt_units, levelAt_ge (by omega), levelAt_mark]
  · rcases rests with low | none
    · rw [Part.txLevel, if_pos low]
    · rw [Part.txLevel]
      split
      · rfl
      · rw [Sender.txLevel, none]
  · intro f rest high sending
    rw [Part.txLevel, if_neg (by simp [high]), Sender.txLevel, sending]

end Sys2Proof.Machine
end

section
/-! Orders that store a value or give a report, and orders that are refused. -/

namespace Sys2Proof.Machine

variable {p : Part} {c : CircNo} {l : LineNo}

/-! ### Sequences and evaluations (R34, R38, R151) -/

/-- Settles O13. -/
theorem openingSequenceEntersHeading : Obligations.OpeningSequenceEntersHeading := by
  intro p l c state completes
  have fr : (p.modFr l fun fr => { fr with held := [] }).fr l = { p.fr l with held := [] } :=
    (Part.fr_modFr (p := p) (l := l) (fun fr => { fr with held := [] }) :)
  unfold deliver
  rw [completes]
  cases opening : (p.fr l).opening with
  | nil => rw [opening] at completes; simp at completes
  | cons x xs =>
    unfold examine
    simp only [fr, opening, if_true, matchOpening]
    have enters : toState l .heading (p.modFr l fun fr => { fr with held := [] }) =
        p.modFr l fun fr => { fr with held := [], state := .heading, heading := [], headStart := true } := by
      rw [toState, Part.modFr_modFr]; rfl
    rcases state with hunt | discard
    · rw [hunt]; exact enters
    · rw [discard]; exact enters

/-- Settles O37. -/
theorem evaluationFollowsTheThresholds : Obligations.EvaluationFollowsTheThresholds := by
  intro ld below order
  refine ⟨?_, ?_, ?_, ?_, ?_, ?_, ?_, agrees_evaluated ld ⟨below, order⟩⟩
  all_goals
    intros
    unfold evaluated
    grind

/-! ### Orders given apart (R175, R176) -/

/-- An order that is accepted and answers OK alone. -/
theorem after_plain {s : State} (h : s.TakesOrder) {check : Part → Checked Order} {o : Order} {q : Part}
    (checked : check s.part = .ok o) (acts : act o s.part = .plain q) (quiet : q.alarm.owing = []) :
    s.after (orderCommand check) = .next (s.answered q okReply) := by
  rw [after_quiet h checked (by rw [acts]; exact quiet), acts]
  rfl

/-- An order that is accepted and answers OK alone, with the notices of the flags that it raises made. -/
theorem after_settled {s : State} (h : s.TakesOrder) {check : Part → Checked Order} {o : Order} {q : Part}
    (checked : check s.part = .ok o) (acts : act o s.part = .plain q) :
    s.after (orderCommand check) = .next (s.answered (settle q) okReply) := by
  rw [after_accepted h checked, acts]
  rfl

/-- An order that is accepted and answers words after OK. -/
theorem after_with {s : State} (h : s.TakesOrder) {check : Part → Checked Order} {o : Order} {q : Part} {words : Text}
    (checked : check s.part = .ok o) (acts : act o s.part = .with q words) (quiet : q.alarm.owing = [])
    (some : words ≠ []) : s.after (orderCommand check) = .next (s.answered q [sentence [txt "OK", words]]) := by
  rw [after_quiet h checked (by rw [acts]; exact quiet), acts]
  rw [answerLines, Done.with, answerLine_words [] some]
  rfl

/-- An order that is accepted and answers OK with a report. -/
theorem after_report {s : State} (h : s.TakesOrder) {check : Part → Checked Order} {o : Order} {q : Part}
    {report : List Text} (checked : check s.part = .ok o) (acts : act o s.part = .reporting q report)
    (quiet : q.alarm.owing = []) : s.after (orderCommand check) = .next (s.answered q (txt "OK" :: report)) := by
  rw [after_quiet h checked (by rw [acts]; exact quiet), acts]
  rfl

theorem map_checkEight {α : Type} (c : Fin 8) (f : Fin 8 → α) : (checkEight c.val).map f = .ok (f c) := by
  rw [checkEight_val]; rfl

theorem bind_checkEight {α : Type} (c : Fin 8) (f : Fin 8 → Checked α) : (checkEight c.val).bind f = f c := by
  rw [checkEight_val]; rfl

/-! ### HOLD and FREE (R138, R139) -/

theorem enterHeld_eq (pos : HeldPos) : enterHeld c pos p = p.setCirc c { p.circ c with
    q := { p.q c with stall := none }
    tx := { p.tx c with
      state := .held, heldPos := pos, holdPending := false, job := .none, out := []
      force := { (p.tx c).force with rate := (p.tx c).ordered.rate, code := (p.tx c).ordered.code }
      shift := if (p.tx c).force.code = (p.tx c).ordered.code then (p.tx c).shift else .letters } } := by
  simp only [enterHeld, Part.modQ, Part.modTx, Part.setCirc_setCirc, Part.circ_setCirc, bringCode]
  rfl

/-- Settles O33. -/
theorem holdStopsOrWaits : Obligations.HoldStopsOrWaits := by
  intro s c h
  have held : ∀ q, holdCirc c s.part = q → q.alarm.owing = [] →
      exec (.hold c.val) s = .next (s.answered q okReply) := fun q acts quiet =>
    after_plain h (o := .hold c) (map_checkEight c _) (congrArg Done.plain acts) quiet
  refine ⟨fun pos stands => ?_, fun sends => ?_, fun still => ?_, fun other => ?_⟩
  · refine held _ ?_ h.settled
    rw [← enterHeld_eq, holdCirc]
    rcases stands with ⟨idle, -, rfl⟩ | ⟨waiting, rfl⟩
    · rw [idle]
    · rw [waiting]
  · refine held _ ?_ h.settled
    rw [holdCirc]
    rcases sends with state | state | state | state <;> rw [state]
  · refine held _ ?_ h.settled
    rw [holdCirc, still]
  · exact after_plain h (check := fun _ => (checkEight c.val).map .free) (o := .free c) (map_checkEight c _)
      (congrArg Done.plain (if_neg other)) h.settled

/-! ### Orders that store a value (R120, R165, R184, R185) -/

theorem checkAddress_ok {t : Text} (two : t.length = 2) (letters : ∀ c ∈ t, isLetter c = true) :
    checkAddress t = .ok t := by
  have form : isTwoLetters t = true := by
    simp only [isTwoLetters, two, decide_true, Bool.true_and, List.all_eq_true]
    exact letters
  exact if_pos form

/-- Settles O49. -/
theorem deskAndUnitOrdersStoreTheirValue : Obligations.DeskAndUnitOrdersStoreTheirValue := fun _ h =>
  ⟨fun c => after_plain h (check := fun _ => (checkEight c.val).map .desk) (o := .desk c) (map_checkEight c _) rfl
      h.settled,
    fun t two letters => after_plain h (check := fun _ => (checkAddress t).map .unit) (o := .unit t)
      (by rw [checkAddress_ok two letters]; rfl) rfl h.settled⟩

/-! ### Reports (R180–R183, R192, R194) -/

/-- Settles O47. -/
theorem tallyZeroReportsAndZeroes : Obligations.TallyZeroReportsAndZeroes := by
  intro s h
  refine ⟨zeroTallies s.part, txt "OK" :: tallyReport s.part,
    after_report h (check := fun _ => .ok .tally) rfl rfl h.settled,
    after_report h (check := fun _ => .ok .tallyZero) rfl rfl h.settled, fun l => ?_, fun c => ?_, rfl, rfl, rfl⟩
  · simp [zeroTallies, Part.line, coldLineTally]
  · simp [zeroTallies, Part.circ, coldCircTally]

/-- Words that are a sentence already continue the sentence that they are put in. -/
theorem sentence_sentence (w : Text) {ws : List Text} (some : ws ≠ []) : sentence [w, sentence ws] = sentence (w :: ws) := by
  cases ws with
  | nil => exact absurd rfl some
  | cons x xs => rfl

/-- Settles O46. -/
theorem reportsChangeNothing : Obligations.ReportsChangeNothing := by
  intro s h
  refine ⟨fun l => ?_, fun c => ?_, ?_, ?_, ?_⟩
  · exact after_report h (check := fun _ => (checkEight l.val).map .showLine) (map_checkEight l _) rfl h.settled
  · refine after_report h (check := fun _ => (checkEight c.val).map .showCirc) (map_checkEight c _) ?_ h.settled
    refine congrArg (Done.reporting s.part) ?_
    simp only [showReport]
    cases (s.part.q c).current <;> rfl
  · exact after_report h (check := fun _ => .ok .tally) rfl rfl h.settled
  · refine after_report h (check := fun _ => .ok .alarm) rfl ?_ h.settled
    have line : ∀ f, flagLine s.part f = sentence ([flagName f,
        if (s.part.flag f).raised then txt "RAISED" else txt "CLEAR"] ++
          (if (s.part.flag f).raised = true then memberWords f (s.part.flag f).members else []) ++
          [txt "MASK", onOff (s.part.flag f).enabled, txt "NOTICE", onOff (s.part.flag f).notice]) := fun _ => rfl
    refine congrArg (Done.reporting s.part) ?_
    simp [alarmReport, allFlags, line, flagName, memberWords, memberWord, memberToken]
  · refine (after_with h (check := fun _ => .ok .repeatShow) rfl rfl h.settled ?_).trans ?_
    · simp [repeatWords, sentence]
    · rw [repeatWords, sentence_sentence (txt "OK") (by simp)]
      cases s.part.history.entries <;> rfl

end Sys2Proof.Machine
end

section
/-! What the notices of the desk circuit leave alone: a flag once raised stays raised with its members, no order setting
changes, and no circuit but that of the desk. Then the orders on circuits that store a value. -/

namespace Sys2Proof.Machine

variable {p q r : Part} {c c' : CircNo} {l : LineNo} {n : Nat} {a b d : Alarm} {f g : Flag}

/-! ### Flags that stay raised (R188) -/

/-- Every raised flag stays raised with its members, and the masks stand. -/
structure Alarm.Kept (a b : Alarm) : Prop where
  raised : ∀ f, (a.flag f).raised = true → (b.flag f).raised = true
  members : ∀ f, (a.flag f).raised = true → ∀ m ∈ (a.flag f).members, m ∈ (b.flag f).members
  enabled : ∀ f, (b.flag f).enabled = (a.flag f).enabled
  notice : ∀ f, (b.flag f).notice = (a.flag f).notice

theorem Alarm.Kept.refl (a : Alarm) : a.Kept a := ⟨fun _ h => h, fun _ _ _ h => h, fun _ => rfl, fun _ => rfl⟩

theorem Alarm.Kept.trans (h : a.Kept b) (k : b.Kept d) : a.Kept d :=
  ⟨fun f up => k.raised f (h.raised f up), fun f up m i => k.members f (h.raised f up) m (h.members f up m i),
    fun f => (k.enabled f).trans (h.enabled f), fun f => (k.notice f).trans (h.notice f)⟩

theorem Alarm.Kept.of_flags (flags : b.flags = a.flags) : a.Kept b := by
  have same : ∀ f, b.flag f = a.flag f := fun f => by simp [Alarm.flag, flags]
  exact ⟨fun f up => (same f).symm ▸ up, fun f _ m i => (same f).symm ▸ i, fun f => by rw [same], fun f => by rw [same]⟩

theorem mem_addMember (m k : Fin 8) (xs : List (Fin 8)) : k ∈ addMember m xs ↔ k = m ∨ k ∈ xs := by
  induction xs with
  | nil => simp [addMember]
  | cons x xs ih =>
    unfold addMember
    split
    · next same => simp [same]
    · split
      · simp
      · simp only [List.mem_cons, ih]; tauto

theorem Alarm.kept_raise (a : Alarm) (f : Flag) (m : Fin 8) : a.Kept (a.raise f m) := by
  have cases : ∀ g, (a.raise f m).flag g = a.flag g ∨ g = f ∧
      (a.raise f m).flag g = { a.flag f with raised := true, members := membersAfter f m (a.flag f) } := fun g => by
    rw [Alarm.flag_raise]
    by_cases e : g = f
    · exact .inr ⟨e, if_pos e⟩
    · exact .inl (if_neg e)
  refine ⟨fun g up => ?_, fun g up k member => ?_, fun g => ?_, fun g => ?_⟩ <;>
    rcases cases g with same | ⟨rfl, raised⟩
  · rw [same, up]
  · rw [raised]
  · rwa [same]
  · rw [raised]
    cases has : (memberWord g).isSome
    · simpa [membersAfter, has, up] using member
    · simp [membersAfter, has, up, mem_addMember, member]
  · rw [same]
  · rw [raised]
  · rw [same]
  · rw [raised]

/-- A flag with members is raised for the member named. -/
theorem Alarm.member_raise (a : Alarm) (m : Fin 8) (has : (memberWord f).isSome = true) :
    m ∈ ((a.raise f m).flag f).members := by
  rw [Alarm.flag_raise, if_pos rfl]
  cases up : (a.flag f).raised <;> simp [membersAfter, has, up, mem_addMember]

theorem Alarm.raised_raise (a : Alarm) (m : Fin 8) : ((a.raise f m).flag f).raised = true := by
  rw [Alarm.flag_raise, if_pos rfl]

theorem Raises.kept (h : Raises a b) : a.Kept b := by
  induction h with
  | refl => exact .refl a
  | raise _ f m ih => exact ih.trans (Alarm.kept_raise ..)
  | count _ flags _ ih => exact ih.trans (.of_flags flags)

theorem OutMove.kept (m : OutMove p q) : p.alarm.Kept q.alarm := by
  cases m with
  | raise f m => exact Alarm.kept_raise ..
  | alarm a flags => exact .of_flags flags
  | queue | tx | tally | interrupt | take | giveBack | addUnit => exact .refl _
  | removeQueued => exact raises_removeQueued.kept
  | removeCurrent => exact raises_removeCurrent.kept
  | put c r => exact (raises_putEntry r).kept
  | replace c e r => exact ((raises_displaceEntry e).trans (raises_putEntry r)).kept
  | reestimate n c => exact (raises_recompute (p := p.modEntries c _)).kept
  | spend c => exact (raises_recompute (p := p.modQ c _)).kept
  | free n => rw [alarm_examineFree]; exact .refl _

theorem OutMoves.kept (m : OutMoves p q) : p.alarm.Kept q.alarm :=
  m.keeps (I := fun q => p.alarm.Kept q.alarm) (fun m h => h.trans m.kept) (.refl _)

theorem Move.kept (m : Move l p q) : p.alarm.Kept q.alarm := by
  cases m with
  | out m => exact m.kept
  | append => unfold appendChr; split <;> exact .refl _
  | fr | tally | grant | endItem | commit | kill | verdict | history | buffer | unrouted => exact .refl _

theorem Moves.kept (m : Moves l p q) : p.alarm.Kept q.alarm :=
  m.keeps (I := fun q => p.alarm.Kept q.alarm) (fun m h => h.trans m.kept) (.refl _)

/-! ### Order settings of circuits (R95, R109, R111, R120) -/

/-- The order settings of every circuit stand. -/
def SameOrdered (p q : Part) : Prop :=
  ∀ c, (q.tx c).ordered = (p.tx c).ordered ∧ (q.q c).ordered = (p.q c).ordered ∧
    (q.q c).stallTime = (p.q c).stallTime ∧ (q.q c).ages = (p.q c).ages

theorem SameOrdered.refl (p : Part) : SameOrdered p p := fun _ => ⟨rfl, rfl, rfl, rfl⟩

theorem SameOrdered.trans (h : SameOrdered p q) (k : SameOrdered q r) : SameOrdered p r := fun c =>
  ⟨(k c).1.trans (h c).1, (k c).2.1.trans (h c).2.1, (k c).2.2.1.trans (h c).2.2.1, (k c).2.2.2.trans (h c).2.2.2⟩

/-- A change of one circuit that leaves its order settings. -/
theorem SameOrdered.of_circ (c : CircNo) (others : ∀ c', c' ≠ c → q.circ c' = p.circ c')
    (tx : (q.tx c).ordered = (p.tx c).ordered) (ordered : (q.q c).ordered = (p.q c).ordered)
    (stallTime : (q.q c).stallTime = (p.q c).stallTime) (ages : (q.q c).ages = (p.q c).ages) : SameOrdered p q := by
  intro c'
  by_cases e : c' = c
  · subst e; exact ⟨tx, ordered, stallTime, ages⟩
  · simp [Part.tx, Part.q, others c' e]

theorem SameOrdered.modQ (f : Queue → Queue) (ordered : (f (p.q c)).ordered = (p.q c).ordered)
    (stallTime : (f (p.q c)).stallTime = (p.q c).stallTime) (ages : (f (p.q c)).ages = (p.q c).ages) :
    SameOrdered p (p.modQ c f) :=
  .of_circ c (fun _ n => Part.circ_modQ_ne _ n) (by simp) (by simpa) (by simpa) (by simpa)

theorem SameOrdered.of_circs (same : q.circs = p.circs) : SameOrdered p q := fun c => by
  simp [Part.tx, Part.q, Part.circ, same]

theorem OutMove.sameOrdered (m : OutMove p q) : SameOrdered p q := by
  cases m with
  | raise | alarm => exact .refl p
  | addUnit => exact .of_circs rfl
  | free n => exact .of_circs (circs_examineFree ..)
  | queue c f _ _ ordered stallTime ages =>
    exact .modQ f ordered stallTime ages
  | tx c f ordered => exact .of_circ c (fun _ n => Part.circ_modTx_ne _ n) (by simpa) (by simp) (by simp) (by simp)
  | tally c f => exact .of_circ c (fun _ n => Part.circ_modTally_ne _ n) (by simp) (by simp) (by simp) (by simp)
  | interrupt c | take c | giveBack c =>
    exact .modQ _ rfl rfl rfl
  | removeQueued c k => exact .of_circ c (fun _ n => circ_removeQueued_ne k n) (by simp) (by simp) (by simp) (by simp)
  | removeCurrent c => exact .of_circ c (fun _ n => circ_removeCurrent_ne n) (by simp) (by simp) (by simp) (by simp)
  | put c r => exact .of_circ c (fun _ n => circ_putEntry_ne r n) (by simp) (by simp) (by simp) (by simp)
  | replace c e r =>
    exact .of_circ c (fun _ n => (circ_putEntry_ne r n).trans (circ_displaceEntry_ne e n)) (by simp) (by simp) (by simp)
      (by simp)
  | reestimate k c =>
    refine .of_circ c (fun _ n => circ_reestimateOn_ne k n) ?_ ?_ ?_ ?_ <;> simp [reestimateOn, Part.modEntries]
  | spend c => refine .of_circ c (fun _ n => circ_spendOne_ne n) ?_ ?_ ?_ ?_ <;> simp [spendOne]

theorem OutMoves.sameOrdered (m : OutMoves p q) : SameOrdered p q :=
  m.keeps (I := fun q => SameOrdered p q) (fun m h => h.trans m.sameOrdered) (.refl _)

/-! ### The notices of the desk circuit (R69–R75, R191) -/

theorem circ_insert_ne (rq : Request) (ne : c' ≠ c) : (insert c rq p).2.circ c' = p.circ c' := by
  have place : ∀ q : Part, (placeEntry c rq q).circ c' = q.circ c' := fun q =>
    (((OnCirc.refl c (putEntry c rq q)).review _).circ_ne ne).trans (circ_putEntry_ne rq ne)
  unfold insert
  split
  · rfl
  · split
    · dsimp only
      exact place p
    · split
      · next e _ =>
        dsimp only
        rw [place, circ_displaceEntry_ne e ne]
      · exact Part.circ_raise ..

theorem circ_makeUnit_ne {serial : Nat} {slug body : Text} (made : makeUnit serial slug body p = some q)
    (ne : c ≠ p.orders.desk) : q.circ c = p.circ c := by
  unfold makeUnit at made
  split at made
  · cases made
  · next n _ =>
    split at made
    · have inserted := circ_insert_ne (p := addUnit n serial slug body p)
        { item := n, cls := 2, mode := .send, diverted := false } ne
      split at made
      · next gives => cases made; rw [gives] at inserted; exact inserted
      · next gives => cases made; rw [gives] at inserted; rw [circ_examineFree]; exact inserted
    · cases made

theorem circ_makeNotice_ne (line : Text) (ne : c ≠ p.orders.desk) : (makeNotice line p).circ c = p.circ c := by
  unfold makeNotice
  split
  · next made => rw [Part.circ_setAlarm]; exact circ_makeUnit_ne made ne
  · rfl

theorem circ_settleAux_ne (fuel : Nat) (ne : c ≠ p.orders.desk) : (settleAux fuel p).circ c = p.circ c := by
  induction fuel generalizing p with
  | zero => rfl
  | succ fuel ih =>
    unfold settleAux
    split
    · rfl
    · next line rest _ =>
      have frame := (OutMoves.makeNotice line (.refl (a := p.setAlarm { p.alarm with owing := rest }))).frame
      rw [ih (by rw [frame.orders]; exact ne)]
      exact circ_makeNotice_ne (p := p.setAlarm { p.alarm with owing := rest }) line ne

theorem circ_settle_ne (ne : c ≠ p.orders.desk) : (settle p).circ c = p.circ c := circ_settleAux_ne _ ne


theorem settle_frame (p : Part) : OutFrame p (settle p) := (OutMoves.settle .refl).frame

theorem settle_kept (p : Part) : p.alarm.Kept (settle p).alarm := (OutMoves.settle .refl).kept

theorem settle_sameOrdered (p : Part) : SameOrdered p (settle p) := (OutMoves.settle .refl).sameOrdered

end Sys2Proof.Machine
end

section
/-! Orders on circuits (R120, R121, R147, R150, R177, R178). -/

namespace Sys2Proof.Machine

variable {p q : Part} {c c' : CircNo} {s : State}

/-! ### Checks and acts of an order with one key -/

theorem checkRange_of {lo hi n : Nat} (low : lo ≤ n) (high : n ≤ hi) : checkRange lo hi n = .ok n := if_pos ⟨low, high⟩

theorem checkCirc_eq (c : CircNo) (k : CircKeys) : checkCirc p c.val (.ok k) = checkThresholds p c k :=
  bind_checkEight c _

/-- A CIRC order without a threshold is accepted. -/
theorem checkCirc_ok {keys : Checked CircKeys} {k : CircKeys} (given : keys = .ok k) (loadOn : k.loadOn = none)
    (congOn : k.congOn = none) (hyst : k.hyst = none) : checkCirc p c.val keys = .ok (.circ c k) := by
  rw [given, checkCirc_eq]
  exact if_neg (by simp [loadOn, congOn, hyst])

theorem ages_eta (v : Vector Nat 5) : #v[v[0], v[1], v[2], v[3], v[4]] = v := by
  ext i hi
  match i, hi with
  | 0, _ | 1, _ | 2, _ | 3, _ | 4, _ => rfl

theorem Part.modTx_congr {f g : Sender → Sender} (h : f (p.tx c) = g (p.tx c)) : p.modTx c f = p.modTx c g := by
  simp only [Part.modTx]; exact congrArg (fun tx => p.setCirc c { p.circ c with tx := tx }) h

theorem Part.modQ_congr {f g : Queue → Queue} (h : f (p.q c) = g (p.q c)) : p.modQ c f = p.modQ c g := by
  simp only [Part.modQ]; exact congrArg (fun q => p.setCirc c { p.circ c with q := q }) h

/-- An order of the sender's keys alone: its settings, and one re-estimate. -/
theorem actCirc_sender (rate : Option Rate) (code : Option LineCode) (width margin fills : Option Nat)
    (unshift : Option Bool) (p : Part) :
    let k : CircKeys :=
      { rate := rate, code := code, width := width, margin := margin, fills := fills, unshift := unshift }
    actCirc c k p = reestimateFor c k (setSender c k p) := by
  intro k
  have queue : ∀ q, setQueue c k q = q := fun q => Part.modQ_id _ (by simp [k, ages_eta])
  exact queue _

/-- An order of the queue's keys alone, without an age limit. -/
theorem actCirc_queue (mode : Option QueueMode) (preempt quantum stall : Option Nat) (p : Part) :
    actCirc c { mode := mode, preempt := preempt, quantum := quantum, stall := stall } p =
      p.modQ c fun q => { q with
        ordered :=
          { mode := mode.getD q.ordered.mode, preempt := preempt.getD q.ordered.preempt
            quantum := quantum.getD q.ordered.quantum }
        stallTime := stall.getD q.stallTime } := by
  have sender : setSender c { mode := mode, preempt := preempt, quantum := quantum, stall := stall } p = p :=
    Part.modTx_id _ (by simp)
  have queue : setQueue c { mode := mode, preempt := preempt, quantum := quantum, stall := stall } p = _ :=
    Part.modQ_congr (g := fun q => { q with
        ordered :=
          { mode := mode.getD q.ordered.mode, preempt := preempt.getD q.ordered.preempt
            quantum := quantum.getD q.ordered.quantum }
        stallTime := stall.getD q.stallTime }) (by simp [ages_eta])
  simp only [actCirc, sender]
  exact queue

/-- An order of thresholds alone: the thresholds, and one evaluation. -/
theorem actCirc_thresholds (k : CircKeys) (loadOn congOn hyst : Option Nat)
    (keys : k = { loadOn := loadOn, congOn := congOn, hyst := hyst }) (p : Part) :
    actCirc c k p = setThresholds c k p := by
  subst keys
  have sender : ∀ p, setSender c { loadOn := loadOn, congOn := congOn, hyst := hyst } p = p := fun p =>
    Part.modTx_id _ (by simp)
  have queue : ∀ p, setQueue c { loadOn := loadOn, congOn := congOn, hyst := hyst } p = p := fun p =>
    Part.modQ_id _ (by simp [ages_eta])
  simp only [actCirc, sender]
  exact congrArg (setThresholds c _) (queue p)

/-! ### Settings stored as ordered (R95, R109, R120) -/

theorem setSender_rate (r : Rate) : setSender c { rate := some r } p = p.modTx c fun tx =>
    let inForce := (p.tx c).state = .idle ∨ (p.tx c).state = .held
    { tx with
      ordered := { tx.ordered with rate := r }
      force := if inForce then { tx.force with rate := r, code := tx.ordered.code } else tx.force
      shift := if inForce ∧ tx.force.code ≠ tx.ordered.code then .letters else tx.shift } := by
  refine Part.modTx_congr ?_
  by_cases rests : (p.tx c).state = .idle ∨ (p.tx c).state = .held
  · by_cases same : (p.tx c).force.code = (p.tx c).ordered.code <;> simp [rests, same, bringCode]
  · simp [rests]

theorem setSender_code (code : LineCode) : setSender c { code := some code } p = p.modTx c fun tx =>
    let inForce := (p.tx c).state = .idle ∨ (p.tx c).state = .held
    { tx with
      ordered := { tx.ordered with code := code }
      force := if inForce then { tx.force with rate := tx.ordered.rate, code := code } else tx.force
      shift := if inForce ∧ tx.force.code ≠ code then .letters else tx.shift } := by
  refine Part.modTx_congr ?_
  by_cases rests : (p.tx c).state = .idle ∨ (p.tx c).state = .held
  · by_cases same : (p.tx c).force.code = code <;> simp [rests, same, bringCode]
  · simp [rests]

/-- Settles O42. -/
theorem circSettingOrdersStoreTheirValue : Obligations.CircSettingOrdersStoreTheirValue := by
  intro s c h inForce
  have accepted : ∀ {keys : Checked CircKeys} {k : CircKeys} {q : Part}, keys = .ok k →
      k.loadOn = none → k.congOn = none → k.hyst = none → actCirc c k s.part = q → q.alarm = s.part.alarm →
      s.after (orderCommand fun p => checkCirc p c.val keys) = .next (s.answered q okReply) :=
    fun given loadOn congOn hyst acts alarm =>
      after_plain h (check := fun p => checkCirc p c.val _) (checkCirc_ok given loadOn congOn hyst)
        (congrArg Done.plain acts) (alarm ▸ h.settled)
  refine ⟨fun n r baud => ?_, fun code => ?_, fun on => ?_, fun m => ?_, fun k most => ?_, fun k most => ?_,
    fun k least most => ?_⟩
  · refine accepted (k := { rate := some r }) (by simp [checkRate, baud]; rfl) rfl rfl rfl ?_ rfl
    exact (actCirc_sender (some r) none none none none none s.part).trans (setSender_rate r)
  · refine accepted (k := { code := some code }) rfl rfl rfl rfl ?_ rfl
    exact (actCirc_sender none (some code) none none none none s.part).trans (setSender_code code)
  · refine accepted (k := { unshift := some on }) rfl rfl rfl rfl ?_ rfl
    exact actCirc_sender none none none none none (some on) s.part
  · refine accepted (k := { mode := some m }) rfl rfl rfl rfl ?_ rfl
    exact actCirc_queue (some m) none none none s.part
  · refine accepted (k := { preempt := some k }) (by rw [checkRange_of (by omega) most]; rfl) rfl rfl rfl ?_ rfl
    exact actCirc_queue none (some k) none none s.part
  · refine accepted (k := { quantum := some k }) (by rw [checkRange_of (by omega) most]; rfl) rfl rfl rfl ?_ rfl
    exact actCirc_queue none none (some k) none s.part
  · refine accepted (k := { stall := some k }) (by rw [checkRange_of least most]; rfl) rfl rfl rfl ?_ rfl
    exact actCirc_queue none none none (some k) s.part

/-! ### Paper settings (R121, R147) -/

theorem load_recompute_self : (recompute c p).load c = { p.load c with
    backlog := backlogOf (p.q c)
    state := if backlogOf (p.q c) = (p.load c).backlog then (p.load c).state
      else evaluated { p.load c with backlog := backlogOf (p.q c) } } := by
  unfold recompute
  simp only
  split
  · next same => rw [same]
  · obtain ⟨a, evaluates, -⟩ := evaluate_eq c (p.modLoad c fun ld => { ld with backlog := backlogOf (p.q c) })
    rw [evaluates]
    simp

theorem setSender_paper (width margin fills : Option Nat) :
    setSender c { width := width, margin := margin, fills := fills } p = p.modTx c fun tx => { tx with
      ordered := { tx.ordered with
        width := width.getD tx.ordered.width, margin := margin.getD tx.ordered.margin
        fills := fills.getD tx.ordered.fills } } := rfl

/-- A paper order: the settings, and one re-estimate with its notices. -/
theorem after_paper (h : s.TakesOrder) (f : TxParams → TxParams) {keys : Checked CircKeys} (width margin fills : Option Nat)
    (given : keys = .ok { width := width, margin := margin, fills := fills })
    (some : (width.isSome || margin.isSome || fills.isSome) = true)
    (stores : ∀ o : TxParams, { o with
      width := width.getD o.width, margin := margin.getD o.margin, fills := fills.getD o.fills } = f o) :
    s.after (orderCommand fun p => checkCirc p c.val keys) = .next (s.answered
      (settle (reestimateCirc c (s.part.modTx c fun tx => { tx with ordered := f tx.ordered }))) okReply) := by
  refine after_settled h (check := fun p => checkCirc p c.val keys) (checkCirc_ok given rfl rfl rfl) ?_
  refine congrArg Done.plain ((actCirc_sender none none width margin fills none s.part).trans ?_)
  have paper : reestimateFor c { width := width, margin := margin, fills := fills } =
      reestimateCirc c := funext fun q => if_pos some
  rw [paper]
  refine congrArg (reestimateCirc c) ((setSender_paper width margin fills).trans ?_)
  exact Part.modTx_congr (by rw [stores])

/-- Settles O43. -/
theorem circPaperOrdersReestimate : Obligations.CircPaperOrdersReestimate := by
  intro s c i f h given
  have order : exec i s = .next (s.answered
      (settle (reestimateCirc c (s.part.modTx c fun tx => { tx with ordered := f tx.ordered }))) okReply) := by
    obtain ⟨k, ⟨least, most, rfl, rfl⟩ | ⟨most, rfl, rfl⟩ | ⟨most, rfl, rfl⟩⟩ := given
    · exact after_paper h (fun o => { o with width := k }) (some k) none none
        (by rw [checkRange_of least most]; rfl) rfl fun _ => rfl
    · exact after_paper h (fun o => { o with margin := k }) none (some k) none
        (by rw [checkRange_of (by omega) most]; rfl) rfl fun _ => rfl
    · exact after_paper h (fun o => { o with fills := k }) none none (some k)
        (by rw [checkRange_of (by omega) most]; rfl) rfl fun _ => rfl
  let q := s.part.modTx c fun tx => { tx with ordered := f tx.ordered }
  have frame : OutFrame (q.modEntries c (reestimated q c)) (settle (reestimateCirc c q)) :=
    (OutFrame.refl (q.modEntries c (reestimated q c))).recompute.trans (settle_frame _)
  have desk : (reestimateCirc c q).orders.desk = s.part.orders.desk := by
    simp only [reestimateCirc, orders_recompute]; rfl
  refine ⟨settle (reestimateCirc c q), order, frame.lines, frame.banks, frame.history, fun c' ne notDesk => ?_, ?_,
    fun notDesk => ?_⟩
  · rw [circ_settle_ne (by rwa [desk]), circ_reestimateCirc_ne ne]
    exact Part.circ_modTx_ne _ ne
  · rw [(settle_sameOrdered _ c).1]
    simp [reestimateCirc, Part.modEntries, q]
  · intro again
    have circ : (settle (reestimateCirc c q)).circ c = (reestimateCirc c q).circ c := circ_settle_ne (by rwa [desk])
    have queue : (q.modEntries c (reestimated q c)).q c = { s.part.q c with
        entries := (s.part.q c).entries.map again, current := (s.part.q c).current.map again } := by
      have same : reestimated q c = again := funext fun e => by simp [reestimated, q, again, Part.item, Part.item?]
      rw [same]
      simp [Part.modEntries, q]
    have load := load_recompute_self (c := c) (p := q.modEntries c (reestimated q c))
    have old : (q.modEntries c (reestimated q c)).load c = s.part.load c := by simp [Part.modEntries, q]
    rw [old, queue] at load
    refine ⟨?_, ?_, ?_, ?_, ?_⟩
    · rw [Part.tx, circ, ← Part.tx]; simp [reestimateCirc, Part.modEntries, q]
    · rw [Part.q, circ, ← Part.q, reestimateCirc, q_recompute, queue]
    · rw [Part.load, Part.q, circ, ← Part.load, ← Part.q, reestimateCirc, load, q_recompute, queue]
    · rw [circ, reestimateCirc, tally_recompute]; simp [Part.modEntries, q]
    · rw [Part.load, circ, ← Part.load, reestimateCirc, load]

/-! ### Thresholds (R150, R151) -/

theorem evaluate_quiet (stays : ¬ (evaluated (p.load c) = .congested ∧ (p.load c).state ≠ .congested)) :
    evaluate c p = p.modLoad c fun ld => { ld with state := evaluated (p.load c) } := if_neg stays

theorem evaluate_enters (enters : evaluated (p.load c) = .congested ∧ (p.load c).state ≠ .congested) :
    evaluate c p = raise .congested c (p.modLoad c fun ld => { ld with state := evaluated (p.load c) }) := if_pos enters

/-- An order of thresholds, with `ld` the load monitor as it would stand. -/
theorem after_thresholds (h : s.TakesOrder) {keys : Checked CircKeys} {k : CircKeys} (loadOn congOn hyst : Option Nat)
    (shape : k = { loadOn := loadOn, congOn := congOn, hyst := hyst }) (given : keys = .ok k)
    (some : (loadOn.isSome || congOn.isSome || hyst.isSome) = true) :
    let ld := thresholdsAfter k (s.part.load c)
    (¬ (ld.hyst < ld.loadOn ∧ ld.loadOn ≤ ld.congOn) →
      s.after (orderCommand fun p => checkCirc p c.val keys) = .next (s.answered s.part (noReply "RANGE"))) ∧
    (ld.hyst < ld.loadOn ∧ ld.loadOn ≤ ld.congOn → s.after (orderCommand fun p => checkCirc p c.val keys) =
      .next (s.answered (settle (evaluate c (s.part.modLoad c (thresholdsAfter k)))) okReply)) := by
  intro ld
  have keyed : (k.loadOn.isSome || k.congOn.isSome || k.hyst.isSome) = true := by rw [shape]; exact some
  have checks : checkCirc s.part c.val keys = checkThresholds s.part c k := by rw [given, checkCirc_eq]
  have test : checkThresholds s.part c k = if ¬ (ld.hyst < ld.loadOn ∧ ld.loadOn ≤ ld.congOn) then .no .range
      else .ok (.circ c k) := by
    simp only [checkThresholds, keyed, ld]
    by_cases below : (thresholdsAfter k (s.part.load c)).hyst < (thresholdsAfter k (s.part.load c)).loadOn <;>
      simp [below]
  refine ⟨fun wrong => ?_, fun right => ?_⟩
  · exact after_refused h (check := fun p => checkCirc p c.val keys) (checks.trans (test.trans (if_pos wrong)))
  · refine after_settled h (check := fun p => checkCirc p c.val keys)
      (checks.trans (test.trans (if_neg (not_not_intro right)))) (congrArg Done.plain ?_)
    exact (actCirc_thresholds k loadOn congOn hyst shape s.part).trans (if_pos keyed)

/-- Settles O45. -/
theorem circThresholdOrdersEvaluate : Obligations.CircThresholdOrdersEvaluate := by
  intro s c k i ld h most given
  have range : checkRange 0 999999 k = .ok k := checkRange_of (Nat.zero_le k) most
  obtain ⟨keys, after, refused, accepted⟩ : ∃ keys : CircKeys, thresholdsAfter keys (s.part.load c) = ld ∧
      (¬ (ld.hyst < ld.loadOn ∧ ld.loadOn ≤ ld.congOn) → exec i s = .next (s.answered s.part (noReply "RANGE"))) ∧
      (ld.hyst < ld.loadOn ∧ ld.loadOn ≤ ld.congOn → exec i s =
        .next (s.answered (settle (evaluate c (s.part.modLoad c (thresholdsAfter keys)))) okReply)) := by
    rcases given with ⟨rfl, rfl⟩ | ⟨rfl, rfl⟩ | ⟨rfl, rfl⟩
    · exact ⟨_, rfl, after_thresholds h (some k) none none rfl (by rw [range]; rfl) rfl⟩
    · exact ⟨_, rfl, after_thresholds h none (some k) none rfl (by rw [range]; rfl) rfl⟩
    · exact ⟨_, rfl, after_thresholds h none none (some k) rfl (by rw [range]; rfl) rfl⟩
  refine ⟨refused, fun below order => ?_⟩
  let q := s.part.modLoad c (thresholdsAfter keys)
  have load : q.load c = ld := by simp [q, after]
  have old : ld.state = (s.part.load c).state := by rw [← after]; rfl
  obtain ⟨a, evaluates, alarm⟩ := evaluate_eq c q
  have circ : (evaluate c q).circ c = { s.part.circ c with load := { ld with state := evaluated ld } } := by
    rw [evaluates]
    simp only [Part.circ_setAlarm, Part.modLoad, Part.circ_setCirc, q]
    rw [← after]; rfl
  have others : ∀ c', c' ≠ c → (evaluate c q).circ c' = s.part.circ c' := fun c' ne => by
    rw [evaluates]
    rw [Part.circ_setAlarm, Part.circ_modLoad_ne _ ne]
    exact Part.circ_modLoad_ne _ ne
  have desk : (evaluate c q).orders.desk = s.part.orders.desk := by rw [evaluates]; rfl
  have frame := settle_frame (evaluate c q)
  refine ⟨settle (evaluate c q), accepted ⟨below, order⟩, fun notDesk => ?_, fun c' ne notDesk => ?_, ?_, ?_, ?_,
    fun enters before => ?_, fun stays => ?_⟩
  · rw [circ_settle_ne (by rwa [desk]), circ]
  · rw [circ_settle_ne (by rwa [desk]), others c' ne]
  · rw [frame.lines, evaluates]; rfl
  · rw [frame.banks, evaluates]; rfl
  · rw [frame.history, evaluates]; rfl
  · have raised : (evaluate c q).alarm = q.alarm.raise .congested c := by
      rw [evaluate_enters (by rw [load, old]; exact ⟨enters, before⟩)]; rfl
    have kept := settle_kept (evaluate c q)
    have up : ((evaluate c q).alarm.flag .congested).raised = true := by rw [raised]; exact Alarm.raised_raise ..
    refine ⟨kept.raised _ up, kept.members _ up c ?_⟩
    rw [raised]; exact Alarm.member_raise _ c rfl
  · have quiet : evaluate c q = q.modLoad c fun ld' => { ld' with state := evaluated (q.load c) } :=
      evaluate_quiet (by rw [load, old]; exact stays)
    have settled : (evaluate c q).alarm.owing = [] := by rw [quiet]; exact h.settled
    rw [settle_of_settled settled, quiet, Part.modLoad_modLoad]
    simp only [Part.modLoad, load]
    rw [← after]
    rfl

end Sys2Proof.Machine
end

section
/-! The threshold of the repeat detector, and the orders on the flags. -/

namespace Sys2Proof.Machine

variable {p q : Part} {l : LineNo} {s : State} {f g : Flag}

/-! ### The threshold (R165, R168) -/

/-- The threshold of the repeat detector is at most 48. -/
def Part.ThresholdWithin (p : Part) : Prop := p.history.threshold ≤ 48

theorem Act.keeps_threshold (m : Act p q) (h : p.ThresholdWithin) : q.ThresholdWithin := by
  have line : ∀ l, LineFrame l p q → q.ThresholdWithin := fun _ frame =>
    (frame.threshold ▸ h : q.history.threshold ≤ 48)
  cases m with
  | move l m => exact line l m.frame
  | rx | tally | framer | clock | sender | queue | banks | orders | zero | clear | mask | warm | low => exact h
  | reestimate c =>
    have same : (reestimateCirc c p).history = p.history := history_recompute c _
    exact (congrArg History.threshold same).trans_le h
  | thresholds c k =>
    obtain ⟨a, evaluates, -⟩ := evaluate_eq c (p.modLoad c (thresholdsAfter k))
    rw [evaluates]; exact h
  | threshold t range => exact range
  | cold => exact Nat.le_of_ble_eq_true rfl

theorem changedLines_eq (old new : List Nat) : changedLines old new =
    ((List.range (max old.length new.length)).filter fun i => old[i]? ≠ new[i]?).length := by
  induction old generalizing new with
  | nil =>
    have all : (List.range new.length).filter (fun i => decide (([] : List Nat)[i]? ≠ new[i]?)) =
        List.range new.length := List.filter_eq_self.mpr fun i hi => by simpa using hi
    simp only [changedLines, List.length_nil, Nat.zero_max]
    rw [all, List.length_range]
  | cons a old ih =>
    cases new with
    | nil =>
      have all : (List.range (a :: old).length).filter (fun i => decide ((a :: old)[i]? ≠ ([] : List Nat)[i]?)) =
          List.range (a :: old).length := List.filter_eq_self.mpr fun i hi => by simpa using hi
      simp only [changedLines, List.length_nil, Nat.max_zero]
      rw [all, List.length_range]
    | cons b new =>
      rw [changedLines, ih new]
      simp only [List.length_cons, Nat.succ_max_succ, List.range_succ_eq_map, List.filter_cons, List.filter_map,
        List.getElem?_cons_zero]
      have tail : ((fun i => decide ((a :: old)[i]? ≠ (b :: new)[i]?)) ∘ Nat.succ) =
          fun i => decide (old[i]? ≠ new[i]?) := funext fun i => by simp
      rw [tail]
      by_cases same : a = b <;> simp [same, Nat.add_comm]

/-- Settles O39. -/
theorem thresholdIsSetByRepeat : Obligations.ThresholdIsSetByRepeat := by
  refine ⟨⟨by decide, fun s t h taken => step_keeps (I := Part.ThresholdWithin) Act.keeps_threshold h taken⟩,
    fun s t h most => ?_, fun s t h above => ?_, fun l it h old found => ?_, changedLines_eq, fun s ua dr => ⟨_, rfl, rfl⟩,
    fun s h => ⟨⟨_, exec_restartCold h, rfl⟩, _,
      after_quiet h (check := fun _ => .ok .restartWarm) rfl rfl, rfl⟩⟩
  · refine ⟨repeatWords { s.part with history := { s.part.history with threshold := t } }, ?_⟩
    refine after_with h (check := fun _ => (checkRange 0 48 t).map .repeatSet) (o := .repeatSet t) ?_ rfl h.settled ?_
    · rw [checkRange_of (Nat.zero_le t) most]; rfl
    · simp [repeatWords, sentence]
  · refine after_refused h (check := fun _ => (checkRange 0 48 t).map .repeatSet) (r := .range) ?_
    rw [checkRange, if_neg (by omega)]; rfl
  · unfold compareWith
    rw [found]
    exact ⟨fun few => if_pos few, fun many => if_neg (by omega)⟩

/-! ### The flags (R188–R193) -/

theorem mem_allFlags (f : Flag) : f ∈ allFlags := by cases f <;> decide

theorem alarmLow_iff : p.alarmLow = true ↔
    p.inReset = false ∧ ∃ f, (p.flag f).raised = true ∧ (p.flag f).enabled = true := by
  simp [Part.alarmLow, mem_allFlags]

theorem alarmLow_raise (m : Fin 8) (running : p.inReset = false) :
    (raise f m p).alarmLow = (p.alarmLow || (p.flag f).enabled) := by
  have flag : ∀ g, (raise f m p).flag g = if g = f then { p.flag f with
      raised := true, members := membersAfter f m (p.flag f) } else p.flag g := fun g => Alarm.flag_raise ..
  have reset : (raise f m p).inReset = false := running
  rw [Bool.eq_iff_iff, Bool.or_eq_true, alarmLow_iff, alarmLow_iff]
  simp only [flag, running, reset, true_and]
  constructor
  · rintro ⟨g, up, enabled⟩
    by_cases same : g = f
    · exact .inr (by simpa [same] using enabled)
    · exact .inl ⟨g, by simpa [same] using up, by simpa [same] using enabled⟩
  · rintro (⟨g, up, enabled⟩ | enabled)
    · by_cases same : g = f
      · exact ⟨f, by simp, by simpa [same] using enabled⟩
      · exact ⟨g, by simpa [same] using up, by simpa [same] using enabled⟩
    · exact ⟨f, by simp, by simpa using enabled⟩

/-- What an order on flags does: the named ones change, and nothing else of the part does. -/
theorem modFlags_spec {fs : List Flag} (single : fs.Nodup) (x : FlagState → FlagState) (p : Part) :
    (∀ f ∈ fs, (modFlags fs x p).flag f = x (p.flag f)) ∧ (∀ f, f ∉ fs → (modFlags fs x p).flag f = p.flag f) ∧
      (modFlags fs x p).alarm.serial = p.alarm.serial ∧ (modFlags fs x p).alarm.lost = p.alarm.lost ∧
      (modFlags fs x p).alarm.owing = p.alarm.owing ∧ { modFlags fs x p with alarm := p.alarm } = p := by
  induction fs generalizing p with
  | nil => exact ⟨fun f h => absurd h List.not_mem_nil, fun _ _ => rfl, rfl, rfl, rfl, rfl⟩
  | cons k fs ih =>
    obtain ⟨new, single⟩ := List.nodup_cons.mp single
    obtain ⟨named, others, serial, lost, owing, rest⟩ := ih single (p.modFlag k x)
    refine ⟨fun f member => ?_, fun f out => ?_, serial, lost, owing, ?_⟩
    · rcases List.mem_cons.mp member with rfl | member
      · exact (others f new).trans (Part.flag_modFlag ..)
      · exact (named f member).trans (congrArg x (Part.flag_modFlag_ne _ fun same => new (same ▸ member)))
    · obtain ⟨ne, out⟩ : f ≠ k ∧ f ∉ fs := by simpa using out
      exact (others f out).trans (Part.flag_modFlag_ne _ ne)
    · exact congrArg (fun q : Part => { q with alarm := p.alarm }) rest

theorem checkFlags_ok {pick : FlagPick} {fs : List Flag} (picks : pickFlags pick = some fs) :
    checkFlags pick = .ok fs := by simp [checkFlags, picks]

/-- Settles O48. -/
theorem alarmOrdersActOnNamedFlags : Obligations.AlarmOrdersActOnNamedFlags := by
  refine ⟨fun p => alarmLow_iff, fun p f m running => alarmLow_raise m running, ?_⟩
  intro s pick on h named set
  refine ⟨?_, ?_⟩
  · intro right
    obtain ⟨fs, picks, single, names⟩ : ∃ fs, pickFlags pick = some fs ∧ fs.Nodup ∧ ∀ f, named f ↔ f ∈ fs := by
      rcases right with rfl | ⟨fs, rfl, some, single⟩
      · exact ⟨allFlags, rfl, by decide, fun f => ⟨fun _ => mem_allFlags f, fun _ => trivial⟩⟩
      · exact ⟨fs, by simp [pickFlags, some, single], single, fun _ => .rfl⟩
    have sets : ∀ x : FlagState → FlagState, set (modFlags fs x s.part) x := fun x => by
      obtain ⟨inside, outside, serial, lost, owing, rest⟩ := modFlags_spec single x s.part
      exact ⟨fun f n => inside f ((names f).mp n), fun f n => outside f fun m => n ((names f).mpr m), serial, lost,
        owing.trans h.settled, rest⟩
    have checked : ∀ o : List Flag → Order, (checkFlags pick).map o = .ok (o fs) := fun o => by
      rw [checkFlags_ok picks]; rfl
    refine ⟨⟨_, ?_, sets fun x => { x with raised := false, members := [] }⟩,
      ⟨_, ?_, sets fun x => { x with enabled := on }⟩, ⟨_, ?_, sets fun x => { x with notice := on }⟩⟩
    · exact after_plain h (check := fun _ => (checkFlags pick).map .alarmClear) (checked _) rfl (sets _).2.2.2.2.1
    · exact after_plain h (check := fun _ => (checkFlags pick).map fun fs => .alarmMask fs on) (checked _) rfl
        (sets _).2.2.2.2.1
    · exact after_plain h (check := fun _ => (checkFlags pick).map fun fs => .alarmNotice fs on) (checked _) rfl
        (sets _).2.2.2.2.1
  · rintro fs rfl wrong
    have faulty : checkFlags (.names fs) = .no .argument := by
      simp only [checkFlags, pickFlags]
      rw [if_neg (by rcases wrong with rfl | again <;> simp_all)]
    have refused : ∀ o : List Flag → Order, (checkFlags (.names fs)).map o = .no .argument := fun o => by
      rw [faulty]; rfl
    exact ⟨after_refused h (check := fun _ => (checkFlags (.names fs)).map .alarmClear) (refused _),
      after_refused h (check := fun _ => (checkFlags (.names fs)).map fun fs => .alarmMask fs on) (refused _),
      after_refused h (check := fun _ => (checkFlags (.names fs)).map fun fs => .alarmNotice fs on) (refused _)⟩

end Sys2Proof.Machine
end

section
/-! The distribution table and its banks, and the orders that are refused. -/

namespace Sys2Proof.Machine

variable {p q : Part} {l : LineNo} {s : State}

/-! ### The lookup (R81) -/

theorem lookup_of_found {bank : List Route} {category : Text} {rt : Route} (found : lookup bank l category = some rt) :
    ∃ before after k, lookupKeys l category = before ++ k :: after ∧ rt ∈ bank ∧ rt.key = k ∧
      ∀ k' ∈ before, ∀ x ∈ bank, x.key ≠ k' := by
  obtain ⟨before, k, after, keys, hit, miss⟩ := List.findSome?_eq_some_iff.mp found
  refine ⟨before, after, k, keys, List.mem_of_find?_eq_some hit, by simpa using List.find?_some hit,
    fun k' member x inBank => ?_⟩
  have none := List.find?_eq_none.mp (miss k' member) x inBank
  simpa using none

theorem lookup_none_iff {bank : List Route} {category : Text} : lookup bank l category = none ↔
    ∀ k ∈ lookupKeys l category, ∀ x ∈ bank, x.key ≠ k := by
  simp [lookup, List.findSome?_eq_none_iff]

theorem mem_lookupKeys {category : Text} {k : RouteKey} : k ∈ lookupKeys l category ↔
    (k.line = none ∨ k.line = some l) ∧ (k.category = none ∨ k.category = some category) := by
  obtain ⟨line, cat⟩ := k
  simp only [lookupKeys, List.mem_cons, RouteKey.mk.injEq, List.not_mem_nil, or_false]
  tauto

/-- Settles O20. -/
theorem lookupFollowsPrecedence : Obligations.LookupFollowsPrecedence := by
  intro bank l category matching
  refine ⟨?_, fun rt found => ?_⟩
  · rw [lookup_none_iff]
    exact ⟨fun none rt inBank fits => none rt.key (mem_lookupKeys.mpr fits) rt inBank rfl,
      fun none k key x inBank same => none x inBank (mem_lookupKeys.mp (same ▸ key))⟩
  · obtain ⟨before, after, k, keys, inBank, rfl, missed⟩ := lookup_of_found found
    have fits : rt.key ∈ lookupKeys l category := by rw [keys]; simp
    refine ⟨inBank, mem_lookupKeys.mp fits, fun other inBank' fits' => ?_⟩
    have later : other.key ∉ before := fun early => missed _ early other inBank' rfl
    have key : other.key ∈ lookupKeys l category := mem_lookupKeys.mpr fits'
    rcases before with _ | ⟨k₁, _ | ⟨k₂, _ | ⟨k₃, _ | ⟨k₄, rest⟩⟩⟩⟩ <;>
      simp only [lookupKeys, List.nil_append, List.cons_append, List.cons.injEq] at keys
    · obtain ⟨same, -⟩ := keys
      rw [← same]; simp
    · obtain ⟨rfl, same, -⟩ := keys
      rw [← same]
      simp only [lookupKeys, List.mem_cons, List.not_mem_nil, or_false] at key later
      rcases key with k | k | k | k <;> rw [k] at later ⊢ <;> simp at later ⊢
    · obtain ⟨rfl, rfl, same, -⟩ := keys
      rw [← same]
      simp only [lookupKeys, List.mem_cons, List.not_mem_nil, or_false] at key later
      rcases key with k | k | k | k <;> rw [k] at later ⊢ <;> simp at later ⊢
    · obtain ⟨rfl, rfl, rfl, same, -⟩ := keys
      rw [← same]
      simp only [lookupKeys, List.mem_cons, List.not_mem_nil, or_false] at key later
      rcases key with k | k | k | k <;> rw [k] at later ⊢ <;> simp at later ⊢
    · simp at keys

/-! ### Refusals -/

/-- An order that is refused answers NO and the reason word. -/
theorem after_no (h : s.TakesOrder) {check : Part → Checked Order} {r : Reason} {word : String}
    (refused : check s.part = .no r) (spoken : reasonWord r = txt word) :
    s.after (orderCommand check) = .next (s.answered s.part (noReply word)) := by
  rw [after_refused h refused, spoken]
  rfl

theorem checkEight_no {k : Nat} (above : 8 ≤ k) : checkEight k = .no (if k ≤ 9 then .range else .argument) := by
  unfold checkEight
  rw [dif_neg (by omega)]
  split <;> rfl

theorem word_eight (k : Nat) : reasonWord (if k ≤ 9 then .range else .argument) =
    txt (if k ≤ 9 then "RANGE" else "ARGUMENT") := by split <;> rfl

theorem checkRange_no {lo hi n : Nat} (out : n < lo ∨ hi < n) : checkRange lo hi n = .no .range :=
  if_neg (by omega)

theorem checkCategory_no {t : Text} (wrong : ¬ (t.length = 2 ∧ ∀ c ∈ t, isLetter c = true)) :
    checkCategory (some t) = .no .argument := by
  have form : isTwoLetters t = false := by
    rw [Bool.eq_false_iff]
    simpa [isTwoLetters] using wrong
  simp [checkCategory, form]

theorem checkCategory_ok {category : Option Text}
    (letters : ∀ t, category = some t → t.length = 2 ∧ ∀ c ∈ t, isLetter c = true) :
    checkCategory category = .ok category := by
  cases category with
  | none => rfl
  | some t =>
    obtain ⟨two, all⟩ := letters t rfl
    have form : isTwoLetters t = true := by simpa [isTwoLetters, two] using all
    simp [checkCategory, form]

theorem checkRouteLine_val (line : Option (Fin 8)) : checkRouteLine (line.map (·.val)) = .ok line := by
  cases line with
  | none => rfl
  | some n => exact map_checkEight n _

theorem checkRouteLine_no {k : Nat} (above : 8 ≤ k) :
    checkRouteLine (some k) = .no (if k ≤ 9 then .range else .argument) := by
  simp only [checkRouteLine, checkEight_no above]; rfl

theorem checkSequence_no {t other : Text} (bad : t.length < 2 ∨ 6 < t.length ∨ (∃ c ∈ t, isLetter c = false) ∨ t = other) :
    checkSequence other t = .no .range := by
  refine if_neg ?_
  rintro ⟨least, most, letters, differs⟩
  rcases bad with short | long | ⟨c, member, wrong⟩ | same
  · omega
  · omega
  · have letter := List.all_eq_true.mp letters c member
    rw [wrong] at letter
    cases letter
  · exact differs same

theorem checkAddress_no {t : Text} (wrong : ¬ (t.length = 2 ∧ ∀ c ∈ t, isLetter c = true)) :
    checkAddress t = .no .argument := by
  have form : isTwoLetters t = false := by
    rw [Bool.eq_false_iff]
    simpa [isTwoLetters] using wrong
  simp [checkAddress, form]

theorem checkSlug_no {t : Text} (wrong : ¬ ∃ first more, t = first :: more ∧ isLetter first = true ∧
    ∀ c ∈ more, isLetter c = true ∨ isDigit c = true ∨ c = 38) : checkSlug (some t) = .no .argument := by
  have form : isSlug t = false := by
    rw [Bool.eq_false_iff]
    intro slug
    cases t with
    | nil => cases slug
    | cons x xs =>
      simp only [isSlug, Bool.and_eq_true, List.all_eq_true, Bool.or_eq_true, decide_eq_true_eq] at slug
      exact wrong ⟨x, xs, rfl, slug.1, fun c member => (or_assoc.mp (slug.2 c member))⟩
  simp [checkSlug, form]

theorem readOrder_unknown {t : Text} (unknown : isUnknownLine t = true) : readOrder t p = .no .unknown := by
  have verb : ∀ v vs, tokens t = v :: vs → v ∉ verbs := fun v vs split => by
    simp only [isUnknownLine, split] at unknown
    simpa using (Bool.and_eq_true_iff.mp unknown).2
  unfold readOrder
  split
  · rfl
  · next v vs split =>
    have known := verb v vs split
    simp only [verbs, List.mem_cons, not_or] at known
    simp only [known, if_false]

/-- Settles O51. -/
theorem refusedOrdersChangeNothing : Obligations.RefusedOrdersChangeNothing := by
  intro s line n h l refused bad
  have onLine : ∀ {k : Nat} (key : Part → LineNo → Checked LineKeys), 8 ≤ k →
      s.after (orderCommand fun p => checkLine k (key p)) =
        .next (s.answered s.part (noReply (if k ≤ 9 then "RANGE" else "ARGUMENT"))) := fun {k} key above =>
    after_no h (check := fun p => checkLine k (key p)) (by rw [checkLine, checkEight_no above]; rfl) (word_eight k)
  have onCirc : ∀ {k : Nat} (keys : Checked CircKeys), 8 ≤ k →
      s.after (orderCommand fun p => checkCirc p k keys) =
        .next (s.answered s.part (noReply (if k ≤ 9 then "RANGE" else "ARGUMENT"))) := fun {k} keys above =>
    after_no h (check := fun p => checkCirc p k keys) (by rw [checkCirc, checkEight_no above]; rfl) (word_eight k)
  have onEight : ∀ {k : Nat} (o : Fin 8 → Order), 8 ≤ k → s.after (orderCommand fun _ => (checkEight k).map o) =
      .next (s.answered s.part (noReply (if k ≤ 9 then "RANGE" else "ARGUMENT"))) := fun {k} o above =>
    after_no h (check := fun _ => (checkEight k).map o) (by rw [checkEight_no above]; rfl) (word_eight k)
  have lineKey : ∀ (key : Part → LineNo → Checked LineKeys), key s.part line = .no .range →
      s.after (orderCommand fun p => checkLine l (key p)) = .next (s.answered s.part (noReply "RANGE")) :=
    fun key wrong => after_no h (check := fun p => checkLine l (key p)) (r := .range)
      (by rw [checkLine, bind_checkEight, wrong]; rfl) rfl
  have circKey : ∀ (keys : Checked CircKeys), keys = .no .range →
      s.after (orderCommand fun p => checkCirc p l keys) = .next (s.answered s.part (noReply "RANGE")) :=
    fun keys wrong => after_no h (check := fun p => checkCirc p l keys) (r := .range)
      (by rw [checkCirc, bind_checkEight, wrong]; rfl) rfl
  have range : ∀ {lo hi : Nat} (f : Nat → CircKeys), n < lo ∨ hi < n → (checkRange lo hi n).map f = .no .range :=
    fun f out => by rw [checkRange_no out]; rfl
  refine ⟨fun k code on mode t slug age above => ?_, fun wrong => ⟨?_, ?_⟩, fun out => ?_, fun out => ?_,
    fun t wrong => ?_, fun t wrong => ?_, fun out => circKey _ (range _ out), fun out => circKey _ (range _ (.inr out)),
    fun out => circKey _ (range _ (.inr out)), fun out => circKey _ (range _ (.inr out)),
    fun out => ⟨circKey _ (range _ (.inr out)), fun k => circKey _ (range _ (.inr out))⟩,
    fun out => circKey _ (range _ out), fun out => ⟨circKey _ (range _ (.inr out)), circKey _ (range _ (.inr out)),
      circKey _ (range _ (.inr out))⟩, fun out => ?_, fun t wrong => ?_, fun t wrong => ⟨?_, ?_⟩, fun t unknown => ?_⟩
  · simp only [List.forall_mem_cons, List.not_mem_nil, false_imp_iff, implies_true, and_true]
    refine ⟨onLine _ above, onLine _ above, onLine _ above, onLine _ above, onLine _ above,
      onLine (fun p l => (checkSequence (p.fr l).closing t).map _) above,
      onLine (fun p l => (checkSequence (p.fr l).opening t).map _) above, onLine _ above, onLine _ above,
      onCirc _ above, onCirc _ above, onCirc _ above, onCirc _ above, onCirc _ above, onCirc _ above, onCirc _ above,
      onCirc _ above, onCirc _ above, onCirc _ above, onCirc _ above, onCirc _ above, onCirc _ above, onCirc _ above,
      onEight _ above, onEight _ above, onEight _ above, onEight _ above, onEight _ above, ?_⟩
    exact after_no h (check := fun _ => (checkRouteLine (some k)).bind fun c => (checkSlug slug).map fun t => .purge c t)
      (by rw [checkRouteLine_no above]; rfl) (word_eight k)
  · exact lineKey (fun _ _ => (checkRate n).map fun x => { rate := some x }) (by simp [checkRate, wrong]; rfl)
  · exact circKey ((checkRate n).map fun x => { rate := some x }) (by simp [checkRate, wrong]; rfl)
  · exact lineKey (fun _ _ => (checkRange 1 15 n).map fun x => { openTime := some x })
      (by rw [checkRange_no (by omega)]; rfl)
  · exact lineKey (fun _ _ => (checkRelease n).map fun x => { release := some x })
      (by rw [checkRelease, if_neg (by omega)]; rfl)
  · exact lineKey (fun p l => (checkSequence (p.fr l).closing t).map fun x => { opening := some x })
      (by rw [checkSequence_no wrong]; rfl)
  · exact lineKey (fun p l => (checkSequence (p.fr l).opening t).map fun x => { closing := some x })
      (by rw [checkSequence_no wrong]; rfl)
  · exact after_no h (check := fun _ => (checkRange 0 48 n).map .repeatSet) (by rw [checkRange_no (.inr out)]; rfl) rfl
  · exact after_no h (check := fun _ => (checkAddress t).map .unit) (by rw [checkAddress_no wrong]; rfl) rfl
  · exact after_no h (check := fun _ => (checkRouteLine none).bind fun c => (checkSlug (some t)).map fun t => .purge c t)
      (by rw [checkSlug_no wrong]; rfl) rfl
  · refine after_no h (check := fun _ => (checkRouteLine (some l)).bind fun c => (checkSlug (some t)).map fun t =>
      .purge c t) (r := .argument) ?_ rfl
    have known : checkRouteLine (some l) = .ok (some line) := checkRouteLine_val (some line)
    rw [known, checkSlug_no wrong]; rfl
  · exact after_no h (check := readOrder t) (readOrder_unknown unknown) rfl

end Sys2Proof.Machine
end

section
/-! The orders on the banks (R87–R90), given apart and read from an order line. -/

namespace Sys2Proof.Machine

variable {p q : Part} {l : LineNo} {s : State}

/-! ### Keys of a bank -/

theorem any_key_iff {bank : List Route} {key : RouteKey} :
    (bank.any fun x => x.key == key) = true ↔ (bank.filter fun x => x.key != key).length ≠ bank.length := by
  rw [ne_eq, List.length_filter_eq_length_iff]
  simp

theorem sentence_three (a b d : Text) : sentence [a, b, d] = sentence [a, b ++ spaceChr :: d] := by
  simp [sentence]

/-- Settles O22. -/
theorem unrouteRemovesOneKey : Obligations.UnrouteRemovesOneKey := by
  refine ⟨?_, fun s n category h above => ?_, fun s line t h wrong => ?_, fun p order l c x more reads good => ?_⟩
  · intro s line category h letters bank rest
    let key : RouteKey := { line := line, category := category }
    have sought : rest = bank.filter fun x => x.key != key := by
      refine congrArg (bank.filter ·) (funext fun x => ?_)
      rw [Bool.eq_iff_iff]
      obtain ⟨⟨xl, xc⟩, _⟩ := x
      simp [key, imp_iff_not_or]
    have checked : ((checkRouteLine (line.map (·.val))).bind fun l => (checkCategory category).map fun c =>
        Order.unroute { line := l, category := c }) = .ok (.unroute key) := by
      rw [checkRouteLine_val, checkCategory_ok letters]; rfl
    by_cases known : (bank.any fun x => x.key == key) = true
    · rw [if_neg (by rw [sought]; exact any_key_iff.mp known)]
      refine (after_with h (check := fun _ => _) checked
        (q := { s.part with banks := { s.part.banks with pending := rest } }) (words := dec rest.length) ?_ h.settled
        (dec_ne_nil _)).trans rfl
      rw [sought]
      exact if_pos known
    · rw [if_pos (by rw [sought]; exact not_not.mp fun differs => known (any_key_iff.mpr differs))]
      have gone : act (.unroute key) s.part = .refused s.part .absent := if_neg known
      refine (after_quiet h (check := fun _ => _) checked (by rw [gone]; exact h.settled)).trans ?_
      rw [gone]; rfl
  · exact after_no h (check := fun _ => (checkRouteLine (some n)).bind fun l => (checkCategory category).map fun c =>
      Order.unroute { line := l, category := c }) (by rw [checkRouteLine_no above]; rfl) (word_eight n)
  · refine after_no h (check := fun _ => (checkRouteLine (line.map (·.val))).bind fun l =>
      (checkCategory (some t)).map fun c => Order.unroute { line := l, category := c }) (r := .argument) ?_ rfl
    rw [checkRouteLine_val, checkCategory_no wrong]; rfl
  · obtain ⟨key, read⟩ := good
    have verb : readOrder order p = readUnroute (l :: c :: x :: more) := by
      unfold readOrder
      rw [reads]
      rfl
    rw [verb]
    simp only [readUnroute] at read ⊢
    obtain ⟨line, lineRead, read⟩ := Checked.bind_ok.mp read
    obtain ⟨category, categoryRead, -⟩ := Checked.bind_ok.mp read
    rw [lineRead, categoryRead]
    rfl

/-! ### ENACT (R90) -/

/-- A route of two circuits for every item, which keeps the item's own class. -/
def wideRoute : Route :=
  { key := { line := none, category := none }, circuits := [1, 2], cls := none, alt := none, mode := .send }

/-- A part with the wide route in its pending bank. -/
def wideState : State :=
  { State.reset with part := { State.reset.part with banks := { State.reset.part.banks with pending := [wideRoute] } } }

/-- A part after the exchange, with a notice owed and no descriptor in use. -/
def owingPart : Part :=
  { State.reset.part with
    banks := { active := [wideRoute], pending := State.reset.part.banks.active }
    alarm := { State.reset.part.alarm with owing := [[]] } }

/-- Refutes O23.  The statement reads the class of the item again after each request, where routing takes it once: with no
descriptor 0 in use and a notice owed, the notice made at the first request takes descriptor 0 at class 2, and the second
request has class 2 in the statement and class 1 in the model. -/
theorem not_copybankAndEnactMoveWholeBanks : ¬ Obligations.CopybankAndEnactMoveWholeBanks := by
  rintro ⟨-, -, -, enact, -⟩
  obtain ⟨t, -, rfl, routes⟩ := enact wideState ⟨rfl, rfl, rfl⟩
  have found : lookup wideState.part.banks.pending 0 (owingPart.item 0).category = some wideRoute := by decide +kernel
  have routed := (routes owingPart 0 0 rfl).1 wideRoute found
  have classes := congrArg (fun q : Part => (q.q 2).held.map (·.cls)) routed
  revert classes
  decide +kernel

end Sys2Proof.Machine
end

section
/-! The ROUTE order (R87), given apart and read from an order line from left to right. -/

namespace Sys2Proof.Machine

variable {p q : Part} {l : LineNo} {s : State}

/-! ### ROUTE given apart -/

theorem checkSet_ok {set : List Nat} (single : set.Nodup) (known : ∀ d ∈ set, d ≤ 7) :
    checkSet set = .ok (circuitsOf set) := by
  have few : set.length ≤ 8 := by
    have sub : set ⊆ List.range 8 := fun d member => List.mem_range.mpr (Nat.lt_succ_of_le (known d member))
    simpa using (single.subperm sub).length_le
  unfold checkSet
  rw [if_neg, if_neg]
  · simpa using known
  · rintro (long | again | large)
    · omega
    · exact again single
    · obtain ⟨d, member, above⟩ := List.any_eq_true.mp large
      have := known d member
      simp at above
      omega

theorem checkSet_unformed {set : List Nat} (wrong : ¬ (set.length ≤ 8 ∧ set.Nodup ∧ ∀ d ∈ set, d ≤ 9)) :
    checkSet set = .no .argument := by
  refine if_pos ?_
  by_contra right
  refine wrong ⟨Nat.le_of_not_lt fun long => right (.inl long), ?_, fun d member => ?_⟩
  · exact not_not.mp fun again => right (.inr (.inl again))
  · refine Nat.le_of_not_lt fun large => right (.inr (.inr (List.any_eq_true.mpr ⟨d, member, ?_⟩)))
    simpa using large

theorem checkSet_large {set : List Nat} (formed : set.length ≤ 8 ∧ set.Nodup ∧ ∀ d ∈ set, d ≤ 9)
    (wrong : ¬ ∀ d ∈ set, d ≤ 7) : checkSet set = .no .range := by
  obtain ⟨few, single, digits⟩ := formed
  unfold checkSet
  rw [if_neg, if_pos]
  · push Not at wrong
    obtain ⟨d, member, large⟩ := wrong
    exact List.any_eq_true.mpr ⟨d, member, by simpa using large⟩
  · rintro (long | again | large)
    · omega
    · exact again single
    · obtain ⟨d, member, above⟩ := List.any_eq_true.mp large
      have := digits d member
      simp at above
      omega

theorem checkClass_ok {cls : Option Nat} (range : ∀ k, cls = some k → 1 ≤ k ∧ k ≤ 5) : checkClass cls = .ok cls := by
  cases cls with
  | none => rfl
  | some k =>
    obtain ⟨least, most⟩ := range k rfl
    simp only [checkClass]
    rw [if_neg (by omega), if_pos ⟨least, most⟩]

theorem checkClass_no {k : Nat} (wrong : ¬ (1 ≤ k ∧ k ≤ 5)) :
    checkClass (some k) = .no (if k ≤ 9 then .range else .argument) := by
  simp only [checkClass]
  by_cases digit : k ≤ 9
  · rw [if_neg (by omega), if_neg wrong, if_pos digit]
  · rw [if_pos (by omega), if_neg digit]

/-- A value of a key within eight is a number of the eight. -/
theorem exists_val {line : Option Nat} (known : ∀ k, line = some k → k ≤ 7) :
    ∃ n : Option (Fin 8), line = n.map (·.val) := by
  cases line with
  | none => exact ⟨none, rfl⟩
  | some k => exact ⟨some ⟨k, Nat.lt_succ_of_le (known k rfl)⟩, rfl⟩

/-- The answer of a ROUTE order that has passed its checks. -/
theorem after_route (h : s.TakesOrder) {check : Part → Checked Order} (rt : Route) (checked : check s.part = .ok (.route rt)) :
    let bank := s.part.banks.pending
    s.after (orderCommand check) = .next (
      if bank.any fun x => x.key == rt.key then
        s.answered { s.part with banks := { s.part.banks with
          pending := bank.map fun x => if x.key == rt.key then rt else x } }
          [sentence [txt "OK", txt "REPLACED", dec bank.length]]
      else if bank.length < 64 then
        s.answered { s.part with banks := { s.part.banks with pending := bank ++ [rt] } }
          [sentence [txt "OK", txt "ADDED", dec (bank.length + 1)]]
      else s.answered s.part (noReply "FULL")) := by
  intro bank
  by_cases known : (bank.any fun x => x.key == rt.key) = true
  · rw [if_pos known, sentence_three]
    let changed := bank.map fun x => if x.key == rt.key then rt else x
    refine (after_with h checked (q := setPending changed s.part)
      (words := txt "REPLACED " ++ dec changed.length) (if_pos known) h.settled (by simp [dec_ne_nil])).trans ?_
    have length : changed.length = bank.length := by simp [changed]
    rw [length]; rfl
  · rw [if_neg known]
    by_cases room : bank.length < 64
    · rw [if_pos room, sentence_three]
      refine (after_with h checked (q := setPending (bank ++ [rt]) s.part)
        (words := txt "ADDED " ++ dec (bank ++ [rt]).length) ((if_neg known).trans (if_pos room)) h.settled
        (by simp [dec_ne_nil])).trans ?_
      rw [List.length_append]; rfl
    · rw [if_neg room]
      have full : act (.route rt) s.part = .refused s.part .full := (if_neg known).trans (if_neg room)
      refine (after_quiet h checked (by rw [full]; exact h.settled)).trans ?_
      rw [full]; rfl

/-! ### Tokens of a ROUTE order -/

theorem digit_cases {c : Nat} : isDigit c = true ↔ ∃ k : Nat, k ≤ 9 ∧ c = 28 + k := by
  rw [isDigit_iff]
  exact ⟨fun ⟨low, high⟩ => ⟨c - 28, by omega, by omega⟩, fun ⟨k, few, e⟩ => by omega⟩

/-- A digit reads as its value, and nothing else reads as one. -/
theorem readDigit_digit {k : Nat} (few : k ≤ 9) : readDigit [28 + k] = .ok k := by
  have digit : isDigit (28 + k) = true := digit_cases.mpr ⟨k, few, rfl⟩
  simp [readDigit, digit]

theorem readDigit_no {t : Text} (wrong : ∀ k : Nat, k ≤ 9 → t ≠ [28 + k]) : readDigit t = .no .argument := by
  match t with
  | [] => rfl
  | [c] =>
    have notDigit : ¬ isDigit c = true := fun digit => by
      obtain ⟨k, few, rfl⟩ := digit_cases.mp digit
      exact wrong k few rfl
    exact if_neg notDigit
  | _ :: _ :: _ => rfl

/-- A token that is no single digit within eight. -/
theorem readEight_no {t : Text} (wrong : ∀ k : Nat, k ≤ 7 → t ≠ [28 + k]) :
    readEight t = .no (if t ∈ [[36], [37]] then .range else .argument) := by
  by_cases digit : ∃ k : Nat, k ≤ 9 ∧ t = [28 + k]
  · obtain ⟨k, few, rfl⟩ := digit
    have above : 8 ≤ k := Nat.lt_of_not_le fun known => wrong k known rfl
    have value : k = 8 ∨ k = 9 := by omega
    rw [readEight, readDigit_digit few]
    rcases value with rfl | rfl <;> rfl
  · rw [readEight, readDigit_no fun k few e => digit ⟨k, few, e⟩, if_neg]
    · rfl
    · simp only [List.mem_cons, List.not_mem_nil, or_false]
      rintro (rfl | rfl)
      · exact digit ⟨8, by omega, rfl⟩
      · exact digit ⟨9, by omega, rfl⟩

theorem readEight_ok {k : Nat} (known : k ≤ 7) : readEight [28 + k] = .ok ⟨k, Nat.lt_succ_of_le known⟩ := by
  rw [readEight, readDigit_digit (by omega)]
  exact checkEight_val ⟨k, Nat.lt_succ_of_le known⟩

theorem readRouteLine_ok {t : Text} (right : t = txt "ANY" ∨ ∃ k, k ≤ 7 ∧ t = [28 + k]) :
    ∃ line, readRouteLine t = .ok line := by
  rcases right with rfl | ⟨k, known, rfl⟩
  · exact ⟨none, if_pos rfl⟩
  · refine ⟨some ⟨k, Nat.lt_succ_of_le known⟩, ?_⟩
    rw [readRouteLine, if_neg (by simp [txt]), readEight_ok known]
    rfl

theorem readRouteLine_no {t : Text} (wrong : ¬ (t = txt "ANY" ∨ ∃ k, k ≤ 7 ∧ t = [28 + k])) :
    readRouteLine t = .no (if t ∈ [[36], [37]] then .range else .argument) := by
  obtain ⟨notAny, notEight⟩ := not_or.mp wrong
  rw [readRouteLine, if_neg notAny, readEight_no fun k known e => notEight ⟨k, known, e⟩]
  rfl

theorem readCategory_ok {t : Text} (right : t = txt "ANY" ∨ t.length = 2 ∧ ∀ c ∈ t, isLetter c = true) :
    ∃ category, readCategory t = .ok category := by
  unfold readCategory
  split
  · exact ⟨none, rfl⟩
  · next notAny =>
    refine ⟨some t, checkCategory_ok fun t' same => ?_⟩
    cases same
    exact right.resolve_left notAny

theorem readCategory_no {t : Text} (wrong : ¬ (t = txt "ANY" ∨ t.length = 2 ∧ ∀ c ∈ t, isLetter c = true)) :
    readCategory t = .no .argument := by
  obtain ⟨notAny, notLetters⟩ := not_or.mp wrong
  rw [readCategory, if_neg notAny, checkCategory_no notLetters]

theorem nodup_map_digits {t : Text} (digits : ∀ c ∈ t, 28 ≤ c) : (t.map fun c => c - 28).Nodup ↔ t.Nodup := by
  refine ⟨List.Nodup.of_map _, fun single => (List.nodup_map_iff_inj_on single).mpr fun a ha b hb same => ?_⟩
  have value : ∀ x y : Nat, 28 ≤ x → 28 ≤ y → x - 28 = y - 28 → x = y := by omega
  exact value a b (digits a ha) (digits b hb) same

theorem readSet_no {t : Text} (wrong : ¬ (t = txt "NONE" ∨ (t.length ≤ 8 ∧ t.Nodup ∧ ∀ d ∈ t, 28 ≤ d ∧ d ≤ 35))) :
    readSet t = .no (if t.length ≤ 8 ∧ t.Nodup ∧ ∀ d ∈ t, 28 ≤ d ∧ d ≤ 37 then .range else .argument) := by
  obtain ⟨notNone, notSet⟩ := not_or.mp wrong
  rw [readSet, if_neg notNone]
  have digits_iff : t.all isDigit = true ↔ ∀ d ∈ t, 28 ≤ d ∧ d ≤ 37 := by
    rw [List.all_eq_true]
    exact forall₂_congr fun d _ => isDigit_iff d
  by_cases digits : t.all isDigit = true
  · have range := digits_iff.mp digits
    have nodup := nodup_map_digits fun c member => (range c member).1
    rw [if_pos digits]
    have values : (∀ d ∈ t.map fun c => c - 28, d ≤ 9) := by
      simp only [List.forall_mem_map]
      have value : ∀ x : Nat, x ≤ 37 → x - 28 ≤ 9 := by omega
      exact fun c member => value c (range c member).2
    by_cases formed : t.length ≤ 8 ∧ t.Nodup
    · rw [if_pos ⟨formed.1, formed.2, range⟩]
      refine checkSet_large ⟨by simpa using formed.1, nodup.mpr formed.2, values⟩ fun small => ?_
      refine notSet ⟨formed.1, formed.2, fun d member => ⟨(range d member).1, ?_⟩⟩
      have value : ∀ x : Nat, x - 28 ≤ 7 → x ≤ 35 := by omega
      exact value d (small _ (List.mem_map_of_mem member))
    · rw [if_neg fun right => formed ⟨right.1, right.2.1⟩]
      exact checkSet_unformed fun right => formed ⟨by simpa using right.1, nodup.mp right.2.1⟩
  · rw [if_neg digits, if_neg fun right => digits (digits_iff.mpr right.2.2)]

/-! ### Options of a ROUTE order -/

/-- The token is a key, a joining character, and a value of any form. -/
def Joined (key v t : Text) : Prop := ∃ j, (j = 40 ∨ j = subChr) ∧ t = key ++ j :: v

/-- The keys of the options. -/
def routeKeys : List Text := [txt "CLASS", txt "ALT", txt "REPEAT"]

/-- The option with this key is given already. -/
def RouteOptions.given (o : RouteOptions) (key : Text) : Bool :=
  if key = txt "CLASS" then o.cls.isSome else if key = txt "ALT" then o.alt.isSome else o.mode.isSome

/-- The value is none that a keyed argument can have: it is empty, or holds a joining character. -/
def Unfit (v : Text) : Prop := v = [] ∨ 40 ∈ v ∨ subChr ∈ v

theorem unfit_iff {v : Text} : Unfit v ↔ ¬ ((v ≠ [] && v.all fun c => !isJoiner c) = true) := by
  unfold Unfit
  constructor
  · rintro (rfl | colon | sub) fit
    · cases fit
    · have := List.all_eq_true.mp (Bool.and_eq_true_iff.mp fit).2 _ colon
      cases this
    · have := List.all_eq_true.mp (Bool.and_eq_true_iff.mp fit).2 _ sub
      cases this
  · intro unfit
    by_contra none
    obtain ⟨some, noColon, noSub⟩ := not_or.mp none |>.imp_right not_or.mp
    refine unfit (Bool.and_eq_true_iff.mpr ⟨by simpa using some, List.all_eq_true.mpr fun c member => ?_⟩)
    have colon : c ≠ 40 := fun e => noColon (e ▸ member)
    have sub : c ≠ subChr := fun e => noSub (e ▸ member)
    simp [isJoiner, colon, sub]

theorem keyed_joined {key v t : Text} (known : key ∈ routeKeys) (joined : Joined key v t) :
    (Unfit v → keyed t = none) ∧ (¬ Unfit v → keyed t = some (key, v)) := by
  obtain ⟨j, joiner, rfl⟩ := joined
  have plain : ∀ c ∈ key, (!isJoiner c) = true := by
    simp only [routeKeys, List.mem_cons, List.not_mem_nil, or_false] at known
    rcases known with rfl | rfl | rfl <;> decide
  have notNil : key ≠ [] := by
    simp only [routeKeys, List.mem_cons, List.not_mem_nil, or_false] at known
    rcases known with rfl | rfl | rfl <;> decide
  have joins : (!isJoiner j) = false := by rcases joiner with rfl | rfl <;> rfl
  have front : (key ++ j :: v).takeWhile (fun c => !isJoiner c) = key := by
    rw [List.takeWhile_append_of_pos plain, List.takeWhile_cons, joins]
    simp
  have back : (key ++ j :: v).drop (key.length + 1) = v := by simp
  have means : keyed (key ++ j :: v) = if (v ≠ [] && v.all fun c => !isJoiner c) = true then some (key, v) else none := by
    simp only [keyed, front, back]
    simp [notNil]
  rw [means, unfit_iff]
  exact ⟨fun unfit => if_neg unfit, fun fit => if_pos (not_not.mp fit)⟩

theorem joined_of_keyed {k v t : Text} (reads : keyed t = some (k, v)) : Joined k v t := by
  simp only [keyed] at reads
  split at reads
  · next form =>
    cases reads
    simp only [Bool.and_eq_true, decide_eq_true_eq] at form
    obtain ⟨⟨-, some⟩, -⟩ := form
    have parts := List.takeWhile_append_dropWhile (p := fun c => !isJoiner c) (l := t)
    cases rest : t.dropWhile fun c => !isJoiner c with
    | nil =>
      rw [rest, List.append_nil] at parts
      rw [parts] at some
      simp at some
    | cons j v =>
      have joins : isJoiner j = true := by
        have head := List.head?_dropWhile_not (fun c => !isJoiner c) t
        rw [rest] at head
        simpa using head
      refine ⟨j, by simpa [isJoiner] using joins, ?_⟩
      rw [rest] at parts
      generalize t.takeWhile (fun c => !isJoiner c) = key at parts ⊢
      subst parts
      simp
  · cases reads

theorem joined_iff_of_keyed {key k v t : Text} (known : key ∈ routeKeys) (reads : keyed t = some (k, v)) :
    (∃ w, Joined key w t) ↔ key = k := by
  constructor
  · rintro ⟨w, joined⟩
    obtain ⟨unfit, fit⟩ := keyed_joined known joined
    by_cases bad : Unfit w
    · rw [unfit bad] at reads; cases reads
    · rw [fit bad] at reads; cases reads; rfl
  · rintro rfl
    exact ⟨v, joined_of_keyed reads⟩

theorem once_ok {α K : Type} {given : Option α} {value : Checked α} {put : α → K} {k : K}
    (reads : once given value put = .ok k) : given = none ∧ ∃ x, value = .ok x ∧ put x = k := by
  cases given with
  | none => exact ⟨rfl, Checked.map_ok.mp reads⟩
  | some _ => cases reads

/-- An option that is read counts as given, and no other does besides. -/
theorem given_readRouteOption {o o' : RouteOptions} {t key : Text} (known : key ∈ routeKeys)
    (reads : readRouteOption o t = .ok o') : o'.given key = true ↔ o.given key = true ∨ ∃ w, Joined key w t := by
  unfold readRouteOption at reads
  split at reads
  · cases reads
  · next k v keyed =>
    rw [joined_iff_of_keyed known keyed]
    simp only [routeKeys, List.mem_cons, List.not_mem_nil, or_false] at known
    split at reads
    · next isClass =>
      obtain ⟨-, x, -, rfl⟩ := once_ok reads
      subst isClass
      rcases known with rfl | rfl | rfl <;> simp [RouteOptions.given, txt]
    · split at reads
      · next isAlt =>
        obtain ⟨-, x, -, rfl⟩ := once_ok reads
        subst isAlt
        rcases known with rfl | rfl | rfl <;> simp [RouteOptions.given, txt]
      · split at reads
        · next isRepeat =>
          obtain ⟨-, x, -, rfl⟩ := once_ok reads
          subst isRepeat
          rcases known with rfl | rfl | rfl <;> simp [RouteOptions.given, txt]
        · cases reads

theorem given_readAll {o o' : RouteOptions} {ts : List Text} {key : Text} (known : key ∈ routeKeys)
    (reads : readAll readRouteOption o ts = .ok o') :
    o'.given key = true ↔ o.given key = true ∨ ∃ g ∈ ts, ∃ w, Joined key w g := by
  induction ts generalizing o with
  | nil => cases reads; simp
  | cons t ts ih =>
    obtain ⟨o₁, first, rest⟩ := Checked.bind_ok.mp reads
    rw [ih rest, given_readRouteOption known first]
    simp only [List.exists_mem_cons_iff, or_assoc]

theorem readAll_append {K : Type} (f : K → Text → Checked K) (k : K) (xs ys : List Text) :
    readAll f k (xs ++ ys) = (readAll f k xs).bind fun k => readAll f k ys := by
  induction xs generalizing k with
  | nil => rfl
  | cons x xs ih =>
    simp only [List.cons_append, readAll]
    cases f k x with
    | ok k' => exact ih k'
    | no r => rfl

/-- A token that is no option. -/
theorem readRouteOption_unknown {o : RouteOptions} {tok : Text} (unknown : ∀ key ∈ routeKeys, ∀ v, ¬ Joined key v tok) :
    readRouteOption o tok = .no .argument := by
  unfold readRouteOption
  split
  · rfl
  · next k v keyed =>
    have joined := joined_of_keyed keyed
    have other : ∀ key ∈ routeKeys, k ≠ key := fun key known e => unknown key known v (e ▸ joined)
    rw [if_neg (other _ (by simp [routeKeys])), if_neg (other _ (by simp [routeKeys])),
      if_neg (other _ (by simp [routeKeys]))]

/-- An option given already, or with an unfit value. -/
theorem readRouteOption_again {o : RouteOptions} {key v tok : Text} (known : key ∈ routeKeys) (joined : Joined key v tok)
    (wrong : o.given key = true ∨ Unfit v) : readRouteOption o tok = .no .argument := by
  obtain ⟨unfit, fit⟩ := keyed_joined known joined
  unfold readRouteOption
  by_cases bad : Unfit v
  · rw [unfit bad]
  · have again : o.given key = true := wrong.resolve_right bad
    rw [fit bad]
    simp only [routeKeys, List.mem_cons, List.not_mem_nil, or_false] at known
    rcases known with rfl | rfl | rfl
    · exact if_pos again
    · exact if_pos again
    · exact if_pos again

theorem readClass_no {o : RouteOptions} {v tok : Text} (joined : Joined (txt "CLASS") v tok)
    (fresh : o.given (txt "CLASS") = false) (wrong : ∀ k : Nat, 1 ≤ k → k ≤ 5 → v ≠ [28 + k]) :
    readRouteOption o tok = .no (if v ∈ [[28], [34], [35], [36], [37]] then .range else .argument) := by
  by_cases bad : Unfit v
  · rw [readRouteOption_again (by simp [routeKeys]) joined (.inr bad), if_neg]
    intro digit
    simp only [List.mem_cons, List.not_mem_nil, or_false] at digit
    rcases digit with rfl | rfl | rfl | rfl | rfl <;> simp [Unfit] at bad
  · have value : readRouteOption o tok = ((readDigit v).bind fun k => (checkClass (some k)).map fun _ => k).map fun x =>
        { o with cls := some x } := by
      rw [readRouteOption, (keyed_joined (by simp [routeKeys]) joined).2 bad]
      have absent : o.cls.isSome = false := fresh
      simp [once, absent]
    rw [value]
    by_cases digit : ∃ k : Nat, k ≤ 9 ∧ v = [28 + k]
    · obtain ⟨k, few, rfl⟩ := digit
      have out : ¬ (1 ≤ k ∧ k ≤ 5) := fun range => wrong k range.1 range.2 rfl
      have cases : k = 0 ∨ k = 6 ∨ k = 7 ∨ k = 8 ∨ k = 9 := by omega
      rw [readDigit_digit few]
      rcases cases with rfl | rfl | rfl | rfl | rfl <;> rfl
    · rw [readDigit_no fun k few e => digit ⟨k, few, e⟩, if_neg]
      · rfl
      · simp only [List.mem_cons, List.not_mem_nil, or_false]
        have digits : ∀ k : Nat, k ≤ 9 → v ≠ [28 + k] := fun k few e => digit ⟨k, few, e⟩
        rintro (rfl | rfl | rfl | rfl | rfl)
        · exact digits 0 (by omega) rfl
        · exact digits 6 (by omega) rfl
        · exact digits 7 (by omega) rfl
        · exact digits 8 (by omega) rfl
        · exact digits 9 (by omega) rfl

theorem readAlt_no {o : RouteOptions} {v tok : Text} (joined : Joined (txt "ALT") v tok)
    (fresh : o.given (txt "ALT") = false) (wrong : ∀ k : Nat, k ≤ 7 → v ≠ [28 + k]) :
    readRouteOption o tok = .no (if v ∈ [[36], [37]] then .range else .argument) := by
  by_cases bad : Unfit v
  · rw [readRouteOption_again (by simp [routeKeys]) joined (.inr bad), if_neg]
    intro digit
    simp only [List.mem_cons, List.not_mem_nil, or_false] at digit
    rcases digit with rfl | rfl <;> simp [Unfit] at bad
  · rw [readRouteOption, (keyed_joined (by simp [routeKeys]) joined).2 bad]
    have absent : o.alt.isSome = false := fresh
    have alt : txt "ALT" ≠ txt "CLASS" := by decide
    simp only [alt, if_false, if_true, once, absent, readEight_no wrong]
    rfl

theorem readRepeat_no {o : RouteOptions} {v tok : Text} (joined : Joined (txt "REPEAT") v tok)
    (fresh : o.given (txt "REPEAT") = false) (wrong : v ∉ [txt "SEND", txt "MARK", txt "SUPPRESS"]) :
    readRouteOption o tok = .no .argument := by
  by_cases bad : Unfit v
  · exact readRouteOption_again (by simp [routeKeys]) joined (.inr bad)
  · rw [readRouteOption, (keyed_joined (by simp [routeKeys]) joined).2 bad]
    have absent : o.mode.isSome = false := fresh
    have mode : txt "REPEAT" ≠ txt "CLASS" ∧ txt "REPEAT" ≠ txt "ALT" := by decide
    have value : readRepeat v = .no .argument := by
      simp only [List.mem_cons, List.not_mem_nil, or_false, not_or] at wrong
      simp only [readRepeat, wrong, if_false]
    simp only [mode, if_false, if_true, once, absent, value]
    rfl

theorem readOrder_route {order : Text} {ts : List Text} (verb : tokens order = txt "ROUTE" :: ts) :
    readOrder order p = readRoute ts := by
  unfold readOrder
  rw [verb]
  rfl

/-- Settles O21. -/
theorem routeEditsThePendingBank : Obligations.RouteEditsThePendingBank := by
  unfold Obligations.RouteEditsThePendingBank
  intro letters
  refine ⟨?_, ?_, ?_⟩
  · intro s line category set cls alt mode h categoryRight single known clsRight rt bank stands
    have checked : checkRoute (line.map (·.val)) category set cls (alt.map (·.val)) mode = .ok (.route rt) := by
      rw [checkRoute, checkRouteLine_val, checkCategory_ok categoryRight, checkSet_ok single known,
        checkClass_ok clsRight, checkRouteLine_val]
      rfl
    exact after_route h (check := fun _ => checkRoute (line.map (·.val)) category set cls (alt.map (·.val)) mode) rt
      checked
  · intro s line category set cls alt mode h refused keyRight formed setRight
    have refuse : ∀ {r word}, checkRoute line category set cls alt mode = .no r → reasonWord r = txt word →
        refused word := fun no spoken =>
      after_no h (check := fun _ => checkRoute line category set cls alt mode) no spoken
    have lineOk : (∀ k, line = some k → k ≤ 7) → ∃ n : Option (Fin 8), checkRouteLine line = .ok n := fun known => by
      obtain ⟨n, rfl⟩ := exists_val known
      exact ⟨n, checkRouteLine_val n⟩
    refine ⟨fun k given above => ?_, fun known wrong => ?_, fun key wrong => ?_, fun key right wrong => ?_,
      fun key right k given wrong => ?_, fun key right clsRight a given above => ?_⟩
    · refine refuse ?_ (word_eight k)
      rw [checkRoute, given, checkRouteLine_no above]; rfl
    · obtain ⟨n, lineOk⟩ := lineOk known
      obtain ⟨t, rfl, wrong⟩ := wrong
      refine refuse (r := .argument) ?_ rfl
      rw [checkRoute, lineOk, checkCategory_no wrong]; rfl
    all_goals
      obtain ⟨n, lineOk⟩ := lineOk key.1
      have categoryOk := checkCategory_ok key.2
    · refine refuse (r := .argument) ?_ rfl
      rw [checkRoute, lineOk, categoryOk, checkSet_unformed wrong]; rfl
    · refine refuse (r := .range) ?_ rfl
      rw [checkRoute, lineOk, categoryOk, checkSet_large right fun small => wrong ⟨right, small⟩]; rfl
    · refine refuse ?_ (word_eight k)
      rw [checkRoute, lineOk, categoryOk, checkSet_ok right.1.2.1 right.2, given, checkClass_no wrong]; rfl
    · refine refuse ?_ (word_eight a)
      rw [checkRoute, lineOk, categoryOk, checkSet_ok right.1.2.1 right.2, checkClass_ok clsRight, given,
        checkRouteLine_no above]
      rfl
  · intro reads lineRight categoryRight setRight
    refine ⟨fun p order verb => readOrder_route verb, fun l rest wrong p order verb => ?_, fun l right => ?_⟩
    · rw [readOrder_route verb, readRoute, readRouteLine_no wrong]; rfl
    obtain ⟨line, lineOk⟩ := readRouteLine_ok right
    refine ⟨fun p order verb => ?_, fun c rest wrong p order verb => ?_, fun c right => ?_⟩
    · rw [readOrder_route verb, readRoute, lineOk]; rfl
    · rw [readOrder_route verb, readRoute, lineOk]
      simp only [Checked.bind, readCategory_no wrong]
    obtain ⟨category, categoryOk⟩ := readCategory_ok right
    refine ⟨fun p order verb => ?_, fun x rest wrong p order verb => ?_, fun x tok good rest read => ?_⟩
    · rw [readOrder_route verb, readRoute, lineOk]
      simp only [Checked.bind, categoryOk]
    · rw [readOrder_route verb, readRoute, lineOk]
      simp only [Checked.bind, categoryOk, readSet_no wrong]
    obtain ⟨o, read⟩ := read
    simp only [readRoute, lineOk, categoryOk, Checked.bind] at read
    obtain ⟨set, setOk, read⟩ := Checked.bind_ok.mp read
    obtain ⟨options, optionsOk, -⟩ := Checked.map_ok.mp read
    intro bad joined keys
    have faulty : ∀ {r}, readRouteOption options tok = .no r → bad r := fun no p order verb => by
      rw [readOrder_route verb]
      simp only [readRoute, lineOk, categoryOk, setOk, readAll_append, optionsOk, Checked.bind, Checked.map, readAll, no]
    have given : ∀ key ∈ routeKeys, options.given key = true ↔ ∃ g ∈ good, ∃ w, Joined key w g := fun key known => by
      rw [given_readAll known optionsOk]
      simp [RouteOptions.given]
    have fresh : ∀ key ∈ routeKeys, ¬ (∃ g ∈ good, ∃ w, Joined key w g) → options.given key = false :=
      fun key known none => by rw [Bool.eq_false_iff]; exact fun again => none ((given key known).mp again)
    refine ⟨fun unknown => faulty (readRouteOption_unknown unknown), fun key known v joins => ⟨fun wrong => ?_,
      fun first => ⟨?_, ?_, ?_⟩⟩⟩
    · refine faulty (readRouteOption_again known joins ?_)
      rcases wrong with again | unfit
      · exact .inl ((given key known).mpr again)
      · exact .inr unfit
    · rintro rfl wrong
      exact faulty (readClass_no joins (fresh _ known first) wrong)
    · rintro rfl wrong
      exact faulty (readAlt_no joins (fresh _ known first) wrong)
    · rintro rfl wrong
      exact faulty (readRepeat_no joins (fresh _ known first) wrong)

end Sys2Proof.Machine
end

section
/-! Output lines begun, and entries removed: breaks at the stall timer, lapses, and the selection in PRIORITY mode. -/

namespace Sys2Proof.Machine

variable {p q r : Part} {c c' : CircNo} {l : LineNo} {n : Nat} {s : State} {e : Entry} {es xs : List Entry}

/-! ### Selection in PRIORITY mode (R101) -/

/-- Settles O25. -/
theorem prioritySelectsTheFirstEligible : Obligations.PrioritySelectsTheFirstEligible := by
  intro p c mode empty
  have choose : p.choose c = ((p.q c).entries.filter p.eligible).head?.map fun e =>
      { entry := e, byTurn := false, turn := (p.q c).turn, turnLines := (p.q c).turnLines } := by
    simp [Part.choose, empty, chooseFrom, mode]
  rw [choose, List.head?_filter]
  refine ⟨fun e => ?_, ?_⟩
  · rw [Option.map_eq_some_iff]
    constructor
    · rintro ⟨e', found, same⟩
      cases (congrArg Choice.entry same : e' = e)
      obtain ⟨eligible, before, after, split, missed⟩ := List.find?_eq_some_iff_append.mp found
      exact ⟨before, after, split, eligible, fun x member => by simpa using missed x member⟩
    · rintro ⟨before, after, split, eligible, missed⟩
      exact ⟨e, List.find?_eq_some_iff_append.mpr ⟨eligible, before, after, split, fun x member => by
        simpa using missed x member⟩, rfl⟩
  · rw [Option.map_eq_none_iff, List.find?_eq_none]
    simp

/-! ### Beginning an output line (R121, R142) -/

/-- A sender that has begun an output line. -/
def lineBegun (p : Part) (c : CircNo) (kind : LineKind) (tx : Sender) : Sender :=
  if tx.startMark then
    { tx with job := .startEnd kind, out := lineEndFrames tx.force.code (max 1 tx.force.fills) }
  else { bringLine tx with
    job := lineJob kind, out := lineFrames (bringLine tx) ((p.modTx c bringLine).lineText c kind) }

theorem beginLine_eq (kind : LineKind) (p : Part) :
    beginLine c kind p = p.modTx c fun _ => lineBegun p c kind (p.tx c) := by
  by_cases mark : (p.tx c).startMark = true
  · rw [beginLine, if_pos mark]
    exact Part.modTx_congr (by simp [lineBegun, mark])
  · rw [beginLine, if_neg mark]
    simp only [Part.modTx_modTx]
    exact Part.modTx_congr (by simp [lineBegun, mark])

theorem lineBegun_job (kind : LineKind) (tx : Sender) :
    (lineBegun p c kind tx).job = .startEnd kind ∨ (lineBegun p c kind tx).job = lineJob kind := by
  unfold lineBegun
  split
  · exact .inl rfl
  · exact .inr rfl

theorem lineBegun_out (kind : LineKind) (tx : Sender) : (lineBegun p c kind tx).out ≠ [] := by
  unfold lineBegun
  split
  · simp [lineEndFrames]
  · simp [lineFrames, lineEndFrames]

/-- What the beginning of a line leaves of the sender. -/
theorem lineBegun_keeps (kind : LineKind) (tx : Sender) : lineBegun p c kind tx =
    { tx with
      job := (lineBegun p c kind tx).job, out := (lineBegun p c kind tx).out, force := (lineBegun p c kind tx).force } := by
  unfold lineBegun
  split <;> rfl

@[simp] theorem state_lineBegun (kind : LineKind) (tx : Sender) : (lineBegun p c kind tx).state = tx.state := by
  rw [lineBegun_keeps]

@[simp] theorem tx_beginLine (kind : LineKind) : (beginLine c kind p).tx c = lineBegun p c kind (p.tx c) := by
  rw [beginLine_eq]; simp

@[simp] theorem tally_beginLine (kind : LineKind) : ((beginLine c kind p).circ c').tally = (p.circ c').tally := by
  rw [beginLine_eq]; simp

/-! ### A break taken (R107) -/

/-- The queue of a circuit once a break is taken. -/
def brokenQueue (tx : Sender) (quantum : Bool) (q : Queue) : Queue :=
  let q := { q with
    current := q.current.map fun e => { e with resume := some { offset := tx.offset, line := tx.lineNo } }
    breakClass := false, breakQuantum := false }
  { if quantum then endTurn q else q with stall := none }

theorem q_takeBreak (quantum : Bool) : (takeBreak c quantum p).q c = brokenQueue (p.tx c) quantum (p.q c) := by
  unfold takeBreak beginNotice stopStall clearBreak interruptAt
  cases quantum <;> simp [brokenQueue]

theorem tally_takeBreak (quantum : Bool) : ((takeBreak c quantum p).circ c).tally =
    { (p.circ c).tally with breaks := bump (p.circ c).tally.breaks } := by
  unfold takeBreak beginNotice stopStall clearBreak interruptAt
  cases quantum <;> simp

/-- After a break is taken the sender is in NOTICE and sends the break line. -/
theorem tx_takeBreak (quantum : Bool) : ∃ q : Part, (takeBreak c quantum p).tx c =
    lineBegun q c .breakLine { p.tx c with state := .notice } := by
  unfold takeBreak beginNotice stopStall clearBreak interruptAt
  refine ⟨_, (tx_beginLine (c := c) .breakLine).trans (congrArg (lineBegun _ c .breakLine) ?_)⟩
  cases quantum <;> simp

theorem isBreak_of_begun {tx : Sender} : (lineBegun p c .breakLine tx).job.isBreak = true := by
  rcases lineBegun_job (p := p) (c := c) .breakLine tx with job | job <;> rw [job] <;> rfl

theorem raised_settle {f : Flag} (m : Fin 8) (has : (memberWord f).isSome = true) (up : q.alarm = p.alarm.raise f m) :
    ((settle q).flag f).raised = true ∧ m ∈ ((settle q).flag f).members := by
  have kept := settle_kept q
  have raised : (q.alarm.flag f).raised = true := by rw [up]; exact Alarm.raised_raise ..
  refine ⟨kept.raised f raised, kept.members f raised m ?_⟩
  rw [up]
  exact Alarm.member_raise _ m has

/-- Settles O27. -/
theorem stallExpiryBreaksOrRaises : Obligations.StallExpiryBreaksOrRaises := by
  intro s c running waits
  have stall : (s.part.q c).stall.isNone = false := by simpa [Option.isSome_iff_ne_none] using waits
  cases some : (s.part.q c).entries.any s.part.eligible with
  | true =>
    refine ⟨takeBreak c false s.part, after_of ?_, fun _ => ?_, nofun⟩
    · simp [running, stallTimerExpiry, stall, some]
    · obtain ⟨q, tx⟩ := tx_takeBreak (c := c) (p := s.part) false
      have frame : OnCirc c s.part (takeBreak c false s.part) := (OnCirc.refl c s.part).takeBreak false
      refine ⟨by rw [q_takeBreak]; rfl, by rw [q_takeBreak]; rfl, by rw [q_takeBreak]; rfl, tally_takeBreak false,
        by rw [tx]; simp, by rw [tx]; exact isBreak_of_begun, by rw [tx]; exact lineBegun_out _ _, frame.circs,
        fun c' ne => frame.circ_ne ne⟩
  | false =>
    let q := s.part.modQ c fun q => { q with stall := Option.some q.stallTime }
    refine ⟨raiseNow .stall c q, after_of ?_, nofun, fun _ => ?_⟩
    · simp [running, stallTimerExpiry, stall, some, q]
    · have up := raised_settle (q := raise .stall c q) (p := q) c rfl rfl
      have circ : ∀ c', c' ≠ s.part.orders.desk → (raiseNow .stall c q).circ c' = q.circ c' := fun c' notDesk =>
        circ_settle_ne (p := raise .stall c q) notDesk
      refine ⟨up.1, up.2, fun notDesk => ?_, fun c' ne notDesk => ?_⟩
      · rw [circ c notDesk]; simp only [q, Part.modQ, Part.circ_setCirc]; rfl
      · rw [circ c' notDesk]; exact Part.circ_modQ_ne _ ne

/-! ### Entries removed, one after another -/

theorem foldl_without (es xs : List Entry) : es.foldl (fun xs e => without e.item xs) xs =
    xs.filter fun x => es.all fun e => x.item != e.item := by
  induction es generalizing xs with
  | nil => simp
  | cons e es ih => rw [List.foldl_cons, ih]; simp [without, List.filter_filter, Bool.and_comm]

/-- In a queue with one entry for an item, removing the entries of a kind leaves the others. -/
theorem filter_others {P : Entry → Bool} (single : (xs.map (·.item)).Nodup) :
    (xs.filter fun x => (xs.filter P).all fun e => x.item != e.item) = xs.filter fun x => !P x := by
  refine List.filter_congr fun x member => ?_
  rw [Bool.eq_iff_iff, List.all_eq_true]
  constructor
  · intro others
    by_contra kind
    have same := others x (List.mem_filter.mpr ⟨member, by simpa using kind⟩)
    simp at same
  · intro stays e removed
    obtain ⟨queued, kind⟩ := List.mem_filter.mp removed
    simp only [bne_iff_ne, ne_eq]
    intro same
    rw [List.inj_on_of_nodup_map single member queued same, kind] at stays
    cases stays

/-! ### Lapses (R110, R111) -/

/-- The circuit after its entries have lapsed, one after another. -/
theorem q_lapse (es : List Entry) : (es.foldl (fun p e => lapseEntry c e p) p).q c = { p.q c with
    entries := (p.q c).entries.filter fun x => es.all fun e => x.item != e.item } := by
  rw [← foldl_without]
  induction es generalizing p with
  | nil => rfl
  | cons e es ih =>
    rw [List.foldl_cons, ih]
    simp [lapseEntry]

theorem tx_lapse (es : List Entry) : (es.foldl (fun p e => lapseEntry c e p) p).tx c' = p.tx c' := by
  induction es generalizing p with
  | nil => rfl
  | cons e es ih =>
    rw [List.foldl_cons, ih]
    simp [lapseEntry]

theorem circ_lapseEntry_ne (e : Entry) (ne : c' ≠ c) : (lapseEntry c e p).circ c' = p.circ c' := by
  rw [lapseEntry, Part.circ_raise, Part.circ_modTally_ne _ ne, circ_removeQueued_ne _ ne]

theorem circ_lapse_ne (es : List Entry) (ne : c' ≠ c) :
    (es.foldl (fun p e => lapseEntry c e p) p).circ c' = p.circ c' := by
  induction es generalizing p with
  | nil => rfl
  | cons e es ih => exact ih.trans (circ_lapseEntry_ne e ne)

theorem tally_lapseEntry (e : Entry) : ((lapseEntry c e p).circ c).tally =
    { (p.circ c).tally with lapsed := bump (p.circ c).tally.lapsed } := by
  simp [lapseEntry]

theorem bump_min {k n : Nat} (within : k ≤ 9999999) : min 9999999 (bump k + n) = min 9999999 (k + (n + 1)) := by
  unfold bump
  simp only [Config.tallyMax]
  split <;> omega

theorem tally_lapse (es : List Entry) (within : (p.circ c).tally.lapsed ≤ 9999999) :
    ((es.foldl (fun p e => lapseEntry c e p) p).circ c).tally =
      { (p.circ c).tally with lapsed := min 9999999 ((p.circ c).tally.lapsed + es.length) } := by
  induction es generalizing p with
  | nil => simp [within]
  | cons e es ih =>
    have tally := tally_lapseEntry (p := p) (c := c) e
    rw [List.foldl_cons, ih (by rw [tally]; exact bump_le within), tally, List.length_cons, bump_min within]

theorem lapse_frame (es : List Entry) : OutFrame p (es.foldl (fun p e => lapseEntry c e p) p) :=
  (OutMoves.foldl (fun _ _ h => h.lapseEntry _) es .refl).frame

/-- Where an entry has lapsed, LAPSED is raised for the circuit. -/
theorem raised_lapse (some : es ≠ []) :
    let q := es.foldl (fun p e => lapseEntry c e p) p
    (q.alarm.flag .lapsed).raised = true ∧ c ∈ (q.alarm.flag .lapsed).members := by
  cases es with
  | nil => exact absurd rfl some
  | cons e es =>
    have kept : (lapseEntry c e p).alarm.Kept (es.foldl (fun p e => lapseEntry c e p) (lapseEntry c e p)).alarm :=
      (OutMoves.foldl (fun _ _ h => h.lapseEntry _) es .refl).kept
    have up : ((lapseEntry c e p).alarm.flag .lapsed).raised = true := Alarm.raised_raise ..
    exact ⟨kept.raised _ up, kept.members _ up c (Alarm.member_raise _ c rfl)⟩

theorem flag_kept_settle {f : Flag} {m : Fin 8} (up : (q.alarm.flag f).raised = true ∧ m ∈ (q.alarm.flag f).members) :
    ((settle q).flag f).raised = true ∧ m ∈ ((settle q).flag f).members :=
  ⟨(settle_kept q).raised f up.1, (settle_kept q).members f up.1 m up.2⟩

/-- Settles O28. -/
theorem lapseRemovesTheFirstOverdue : Obligations.LapseRemovesTheFirstOverdue := by
  intro s c running
  refine ⟨fun before after e split single early unbroken limited past => ?_, fun none => ?_⟩
  · have due : overdue s.part.clock (s.part.q c) e = true := by simp [overdue, unbroken, limited, past]
    have first : s.part.overdueEntries c = e :: after.filter (overdue s.part.clock (s.part.q c)) := by
      rw [Part.overdueEntries, split, List.filter_append, List.filter_eq_nil_iff.mpr fun x member => by
        simp [early x member], List.filter_cons_of_pos due]
      rfl
    have lapses := lapse_frame (p := s.part) (c := c) [e]
    have frame : OutFrame s.part (settle (lapseEntry c e s.part)) := lapses.trans (settle_frame _)
    have desk : (lapseEntry c e s.part).orders.desk = s.part.orders.desk := congrArg OrderUnit.desk lapses.orders
    have up := flag_kept_settle (raised_lapse (p := s.part) (c := c) (es := [e]) (by simp))
    refine ⟨settle (lapseEntry c e s.part), after_of ?_, up.1, up.2, fun notDesk => ?_, frame.lines, frame.banks,
      frame.history, frame.orders, fun c' ne notDesk => ?_⟩
    · simp [running, lapseFirst, first]
    · have circ : (settle (lapseEntry c e s.part)).circ c = (lapseEntry c e s.part).circ c :=
        circ_settle_ne (by rwa [desk])
      have queue : (settle (lapseEntry c e s.part)).q c = { s.part.q c with entries := before ++ after } := by
        rw [Part.q, circ]
        refine (q_lapse (p := s.part) (c := c) [e]).trans ?_
        have others : before ++ after = (before ++ after).filter fun x => x.item != e.item :=
          (List.filter_eq_self.mpr fun x member => by simpa using single x member).symm
        rw [split, others]
        simp [List.filter_append]
      refine ⟨by rw [queue], by rw [queue], ?_, ?_⟩
      · rw [Part.tx, circ]; exact tx_lapse (p := s.part) (c := c) [e]
      · rw [circ, tally_lapseEntry]
    · rw [circ_settle_ne (by rwa [desk])]
      exact circ_lapseEntry_ne e ne
  · refine after_self ?_
    have empty : s.part.overdueEntries c = [] := List.filter_eq_nil_iff.mpr fun x member => by simp [none x member]
    simp [lapseFirst, empty]

/-! ### Age limits (R111) -/

/-- The queue with the age limit of a class set. -/
def withAge (k : Fin 5) (minutes : Nat) (q : Queue) : Queue := { q with ages := q.ages.set k.val minutes k.isLt }

theorem actCirc_age (k : Fin 5) (minutes : Nat) (p : Part) :
    actCirc c (ageKey k minutes) p = lapseClass c (p.modQ c (withAge k minutes)) (k.val + 1) := by
  have sender : setSender c (ageKey k minutes) p = p :=
    Part.modTx_id _ (by match k with | 0 | 1 | 2 | 3 | 4 => simp [ageKey])
  have paper : reestimateFor c (ageKey k minutes) p = p := by match k with | 0 | 1 | 2 | 3 | 4 => rfl
  have queue : setQueue c (ageKey k minutes) p = p.modQ c (withAge k minutes) := by
    refine Part.modQ_congr ?_
    match k with
    | 0 | 1 | 2 | 3 | 4 =>
      simp only [ageKey, withAge, Option.getD_none, Option.getD_some]
      congr 1
      ext i hi
      match i, hi with
      | 0, _ | 1, _ | 2, _ | 3, _ | 4, _ => simp
  have classes : agedClasses (ageKey k minutes) = [k.val + 1] := by match k with | 0 | 1 | 2 | 3 | 4 => rfl
  have limits : ∀ q, setThresholds c (ageKey k minutes) q = q := fun q => by match k with | 0 | 1 | 2 | 3 | 4 => rfl
  simp only [actCirc, sender, paper, queue, classes, limits]
  rfl

theorem ageLimit_withAge (k : Fin 5) (minutes : Nat) (q : Queue) :
    (withAge k minutes q).ageLimit (k.val + 1) = minutes := by
  match k with
  | 0 | 1 | 2 | 3 | 4 => simp [withAge, Queue.ageLimit]

/-- Settles O44. -/
theorem circAgeOrderSetsTheLimit : Obligations.CircAgeOrderSetsTheLimit := by
  intro s c k minutes h most
  let aged := s.part.modQ c (withAge k minutes)
  let past := fun e : Entry => overdue s.part.clock (withAge k minutes (s.part.q c)) e && e.cls == k.val + 1
  let es := (s.part.q c).entries.filter past
  let q := es.foldl (fun p e => lapseEntry c e p) aged
  have checked : checkCirc s.part c.val ((checkRange 0 255 minutes).map (ageKey k)) = .ok (.circ c (ageKey k minutes)) := by
    refine checkCirc_ok (by rw [checkRange_of (Nat.zero_le _) most]; rfl) ?_ ?_ ?_ <;>
      match k with | 0 | 1 | 2 | 3 | 4 => rfl
  have queue : aged.q c = withAge k minutes (s.part.q c) := Part.q_modQ ..
  have acts : actCirc c (ageKey k minutes) s.part = q := by
    rw [actCirc_age, lapseClass, Part.overdueEntries, queue, List.filter_filter]
    exact congrArg (fun es => es.foldl (fun p e => lapseEntry c e p) aged)
      (List.filter_congr fun e _ => Bool.and_comm ..)
  have frame : OutFrame aged (settle q) := (lapse_frame es).trans (settle_frame q)
  have desk : q.orders.desk = s.part.orders.desk := congrArg OrderUnit.desk (lapse_frame es).orders
  refine ⟨settle q, after_settled h (check := fun p => checkCirc p c.val _) checked (congrArg Done.plain acts), ?_⟩
  intro due
  have past_iff : ∀ e, past e = true ↔ due e := fun e => by
    simp only [past, overdue, Bool.and_eq_true, beq_iff_eq, due]
    constructor
    · rintro ⟨⟨⟨unbroken, limited⟩, late⟩, cls⟩
      rw [cls, ageLimit_withAge] at limited late
      exact ⟨cls, by simpa using unbroken, by simpa using limited, by simpa using late⟩
    · rintro ⟨cls, unbroken, limited, late⟩
      rw [cls, ageLimit_withAge]
      exact ⟨⟨⟨by simp [unbroken], by simpa using limited⟩, by simpa using late⟩, rfl⟩
  refine ⟨?_, frame.lines, frame.banks, frame.history, fun c' ne notDesk => ?_, fun single notDesk => ?_,
    fun ⟨e, queued, late⟩ => ?_, fun none => ?_⟩
  · rw [(settle_sameOrdered q c).2.2.2, q_lapse, queue]; rfl
  · rw [circ_settle_ne (by rwa [desk]), circ_lapse_ne es ne]
    exact Part.circ_modQ_ne _ ne
  · have circ : (settle q).circ c = q.circ c := circ_settle_ne (by rwa [desk])
    have singleQueued : ((s.part.q c).entries.map (·.item)).Nodup :=
      nodup_of_sublist (List.sublist_append_right ..) single
    have entries : ((settle q).q c).entries = (s.part.q c).entries.filter fun x => !past x := by
      rw [Part.q, circ, ← Part.q, q_lapse, queue]
      exact filter_others singleQueued
    refine ⟨by rw [entries]; exact List.filter_sublist, fun e queued => ?_, ?_, ?_, fun within => ?_⟩
    · rw [entries, List.mem_filter, ← past_iff]
      simp [queued]
    · rw [Part.q, circ, ← Part.q, q_lapse, queue]; rfl
    · rw [Part.tx, circ, ← Part.tx, tx_lapse]; exact Part.tx_modQ ..
    · have tally : (aged.circ c).tally = (s.part.circ c).tally := tally_modQ ..
      have count : (s.part.q c).entries.length - ((settle q).q c).entries.length = es.length := by
        have parts := List.length_eq_length_filter_add (l := (s.part.q c).entries) past
        rw [entries]
        show _ = ((s.part.q c).entries.filter past).length
        omega
      rw [circ, tally_lapse es (by rwa [tally]), tally, count]
  · have some : es ≠ [] := List.ne_nil_of_mem (List.mem_filter.mpr ⟨queued, (past_iff e).mpr late⟩)
    exact flag_kept_settle (raised_lapse some)
  · have empty : es = [] := List.filter_eq_nil_iff.mpr fun e queued late => none e queued ((past_iff e).mp late)
    have stays : q = aged := by simp only [q, empty]; rfl
    rw [stays]
    exact settle_of_settled h.settled

end Sys2Proof.Machine
end

section
/-! Entries removed without a flag or a tally: PURGE, rewrites and kills (R112, R115, R158–R163). -/

namespace Sys2Proof.Machine

variable {p₀ p q : Part} {c c' : CircNo} {l : LineNo} {n k : Nat} {s : State} {it : Item}

/-! ### A removal raises no flag (R149, R151) -/

/-- A backlog that does not grow brings no entry into CONGESTED. -/
theorem alarm_recompute_of_le (fit : p.Fit c) (less : backlogOf (p.q c) ≤ (p.load c).backlog) :
    (recompute c p).alarm = p.alarm := by
  unfold recompute
  simp only
  split
  · rfl
  · have agrees := fit.agrees
    obtain ⟨below, order⟩ := fit.relation
    rw [evaluate_quiet]
    · rfl
    · simp only [Part.load_modLoad]
      unfold Load.Agrees at agrees
      unfold evaluated
      grind

theorem alarm_released (fit : p.Fit c) (less : backlogOf (p.q c) ≤ (p.load c).backlog) :
    (released c n p).alarm = p.alarm := by
  rw [released, alarm_examineFree]
  exact alarm_recompute_of_le (p := p.modItem n _) ⟨fit.estimates, fit.relation, fit.agrees⟩ less

theorem backlogOf_sublist {a b : Queue} (fewer : a.held.Sublist b.held) : backlogOf a ≤ backlogOf b :=
  (fewer.map contribution).sum_le_sum fun _ _ => Nat.zero_le _

theorem alarm_removeQueued (h : p.Balanced c) : (removeQueued c n p).alarm = p.alarm := by
  unfold removeQueued
  split
  · have fewer : ((p.modQ c fun q => { q with entries := without n q.entries }).q c).held.Sublist (p.q c).held := by
      simp only [Part.q_modQ, Queue.held]
      exact (without_sublist n _).append_left _
    refine alarm_released (h.toFit.of_subset (fun e member => h.estimates e (fewer.subset member)) (by simp)) ?_
    rw [Part.load_modQ, h.backlog]
    exact backlogOf_sublist fewer
  · rfl

theorem alarm_removeCurrent (h : p.Balanced c) : (removeCurrent c p).alarm = p.alarm := by
  unfold removeCurrent
  split
  · next e current =>
    have fewer : ((p.modQ c fun q => { q with current := none }).q c).held.Sublist (p.q c).held := by
      simp [Queue.held, current]
    refine alarm_released (h.toFit.of_subset (fun e member => h.estimates e (fewer.subset member)) (by simp)) ?_
    rw [Part.load_modQ, h.backlog]
    exact backlogOf_sublist fewer
  · rfl

/-! ### Descriptors through a removal (R66, R112) -/

/-- A release changes a holders count, and may free the descriptor. -/
theorem mem_released (member : it ∈ (released c n p).items) : ∃ it' ∈ p.items, it = { it' with holders := it.holders } := by
  have kept : it ∈ (recompute c (p.modItem n fun it => { it with holders := it.holders - 1 })).items := by
    unfold released examineFree at member
    split at member
    · exact member
    · split at member
      · exact (List.mem_filter.mp member).1
      · exact member
  rw [items_recompute] at kept
  obtain ⟨it', inUse, rfl⟩ := List.mem_map.mp kept
  exact ⟨it', inUse, by split <;> rfl⟩

theorem mem_released_ne (member : it ∈ (released c n p).items) (ne : it.num ≠ n) : it ∈ p.items := by
  have kept : it ∈ (recompute c (p.modItem n fun it => { it with holders := it.holders - 1 })).items := by
    unfold released examineFree at member
    split at member
    · exact member
    · split at member
      · exact (List.mem_filter.mp member).1
      · exact member
  rw [items_recompute] at kept
  obtain ⟨it', inUse, rfl⟩ := List.mem_map.mp kept
  by_cases same : it'.num = n
  · rw [if_pos (by simpa using same)] at ne; exact absurd same ne
  · rwa [if_neg (by simpa using same)]

/-- An ended descriptor that stands after it has been examined still has holders. -/
theorem holders_of_mem_examineFree (numbers : (p.items.map (·.num)).Nodup) (member : it ∈ (examineFree it.num p).items)
    (ended : it.ended = true) : it.holders ≠ 0 := by
  intro none
  have inUse : it ∈ p.items := by
    unfold examineFree at member
    split at member
    · exact member
    · split at member
      · exact (List.mem_filter.mp member).1
      · exact member
  unfold examineFree at member
  rw [Part.item?_of_mem numbers inUse] at member
  simp [ended, none] at member

theorem Part.Referred.items_nodup (h : p.Referred) : (p.items.map (·.num)).Nodup := by
  have numbers := h.numbers
  rwa [Part.keys, List.map_map] at numbers

/-- Removals: entries go, and with them descriptors that are ended and have no entry left; nothing else of the part
changes but holders counts, backlogs, overload states and what the senders do. -/
structure Removing (p₀ p : Part) : Prop where
  frame : OutFrame p₀ p
  alarm : p.alarm = p₀.alarm
  tally : ∀ c, (p.circ c).tally = (p₀.circ c).tally
  items : ∀ it ∈ p.items, ∃ it' ∈ p₀.items, it = { it' with holders := it.holders }
  loose : ∀ it ∈ p.items, it.ended = true → (∃ c, it.num ∈ p₀.refs c) → ∃ c, it.num ∈ p.refs c
  filling : ∀ n, p₀.Filling n → p.Filling n
  single : p.Single
  referred : p.Referred
  balanced : ∀ c, p.Balanced c

theorem Removing.refl (single : p.Single) (referred : p.Referred) (balanced : ∀ c, p.Balanced c) : Removing p p :=
  ⟨.refl p, rfl, fun _ => rfl, fun it member => ⟨it, member, rfl⟩, fun _ _ _ h => h, fun _ h => h, single, referred, balanced⟩

/-- A step of the sender that leaves the entries of its circuit. -/
theorem Removing.sender (h : Removing p₀ p) (m : OutMoves p q) (on : OnCirc c p q)
    (entries : (q.q c).entries = (p.q c).entries) (current : (q.q c).current = (p.q c).current)
    (load : q.load c = p.load c) (tally : (q.circ c).tally = (p.circ c).tally) : Removing p₀ q := by
  have refs : q.refs = p.refs := funext fun k => by
    by_cases e : k = c
    · subst e; simp [Part.refs, Queue.held, entries, current]
    · exact refs_of_circ (on.circ_ne e)
  refine ⟨h.frame.trans m.frame, on.alarm.trans h.alarm, fun k => ?_, by rw [on.items]; exact h.items,
    by rw [on.items, refs]; exact h.loose, fun n filling => (h.filling n filling).of_items on.items,
    h.single.of_circ c (by rw [Queue.held, entries, current]; exact h.single c) fun _ => on.circ_ne,
    h.referred.of_same on.items fun k => by rw [refs],
    balanced_of_circ h.balanced c ((h.balanced c).of_same entries current load) fun _ => on.circ_ne⟩
  by_cases e : k = c
  · subst e; exact tally.trans (h.tally k)
  · rw [on.circ_ne e]; exact h.tally k

/-- A release of the descriptor of an entry that has left its place, within a removal from `p` to `q`. -/
theorem Removing.release (h : Removing p₀ p) (m : OutMove p q) (alarm : q.alarm = p.alarm)
    (tally : ∀ c, (q.circ c).tally = (p.circ c).tally) {r : Part} (gives : q = released c n r) (items : r.items = p.items)
    (refs : ∀ k, ∀ x ∈ p.refs k, x ≠ n → x ∈ q.refs k) : Removing p₀ q := by
  have single := m.keeps_single h.single
  have referred := m.keeps_referred h.single h.referred
  refine ⟨h.frame.trans m.frame, alarm.trans h.alarm, fun c => (tally c).trans (h.tally c), fun it member => ?_,
    fun it member ended held => ?_, fun n filling => (h.filling n filling).act m, single, referred,
    m.keeps_balanced h.single h.balanced⟩
  · rw [gives] at member
    obtain ⟨it', inUse, same⟩ := mem_released member
    obtain ⟨it₀, inUse₀, same₀⟩ := h.items it' (items ▸ inUse)
    exact ⟨it₀, inUse₀, by rw [same, same₀]⟩
  · by_cases e : it.num = n
    · have some : it.holders ≠ 0 := by
        have numbers := h.referred.items_nodup
        subst e
        rw [gives, released] at member
        refine holders_of_mem_examineFree ?_ member ended
        rw [items_recompute, Part.modItem, items]
        have same : (fun it : Item => it.num) ∘ (fun x : Item => if x.num == it.num then { x with holders := x.holders - 1 } else x) =
            fun it => it.num := funext fun x => by simp only [Function.comp]; split <;> rfl
        rw [List.map_map, same]
        exact numbers
      have counted : it.holders = ∑ c, (q.refs c).count it.num :=
        referred.holders (it.num, it.holders) (List.mem_map_of_mem member)
      by_contra none
      push Not at none
      refine some (counted.trans (Finset.sum_eq_zero fun c _ => List.count_eq_zero_of_not_mem (none c)))
    · have before : it ∈ p.items := by
        rw [← items]
        exact mem_released_ne (c := c) (gives ▸ member) e
      obtain ⟨k, refers⟩ := h.loose it before ended held
      exact ⟨k, refs k _ refers e⟩

theorem Removing.removeQueued (h : Removing p₀ p) (n : Nat) : Removing p₀ (removeQueued c n p) := by
  by_cases there : ((p.q c).entries.any fun e => e.item == n) = true
  · refine h.release (c := c) (n := n) (.removeQueued c n) (alarm_removeQueued (h.balanced c)) (fun _ => by simp)
      (if_pos there) rfl fun k x refers ne => ?_
    by_cases e : k = c
    · subst e
      obtain ⟨y, held, rfl⟩ := List.mem_map.mp refers
      refine List.mem_map.mpr ⟨y, ?_, rfl⟩
      simp only [q_removeQueued, Queue.held, List.mem_append] at held ⊢
      exact held.imp_right fun queued => mem_without.mpr ⟨queued, ne⟩
    · rwa [refs_of_circ (circ_removeQueued_ne n e)]
  · rw [Machine.removeQueued, if_neg there]; exact h

theorem Removing.removeCurrent (h : Removing p₀ p) : Removing p₀ (removeCurrent c p) := by
  cases current : (p.q c).current with
  | none => rw [Machine.removeCurrent, current]; exact h
  | some e =>
    have gives : Machine.removeCurrent c p = released c e.item (p.modQ c fun q => { q with current := none }) := by
      rw [Machine.removeCurrent, current]
    refine h.release (.removeCurrent c) (alarm_removeCurrent (h.balanced c)) (fun _ => by simp) gives rfl
      fun k x refers ne => ?_
    by_cases same : k = c
    · subst same
      obtain ⟨y, held, rfl⟩ := List.mem_map.mp refers
      refine List.mem_map.mpr ⟨y, ?_, rfl⟩
      rw [held_some _ current] at held
      simp only [q_removeCurrent, Queue.held, Option.toList_none, List.nil_append]
      rcases List.mem_cons.mp held with rfl | queued
      · exact absurd rfl ne
      · exact queued
    · rwa [refs_of_circ (circ_removeCurrent_ne same)]

theorem Removing.foldl {α : Type} {f : Part → α → Part} (step : ∀ p a, Removing p₀ p → Removing p₀ (f p a))
    (h : Removing p₀ p) (xs : List α) : Removing p₀ (xs.foldl f p) := by
  induction xs generalizing p with
  | nil => exact h
  | cons x xs ih => exact ih (step p x h)

/-- The descriptor of an entry that is still held has changed in its holders alone. -/
theorem Removing.item (h : Removing p₀ p) (numbers : (p₀.items.map (·.num)).Nodup) (refers : n ∈ p.refs c) :
    ∃ k, p.item n = { p₀.item n with holders := k } := by
  obtain ⟨x, key, num⟩ := List.mem_map.mp (h.referred.refers c n refers)
  obtain ⟨it, inUse, rfl⟩ := List.mem_map.mp key
  obtain ⟨it₀, inUse₀, same⟩ := h.items it inUse
  have num : it.num = n := num
  have num₀ : it₀.num = n := by rw [← num, same]
  refine ⟨it.holders, ?_⟩
  rw [Part.item_of_item? (num ▸ Part.item?_of_mem h.referred.items_nodup inUse),
    Part.item_of_item? (num₀ ▸ Part.item?_of_mem numbers inUse₀), ← same]

/-! ### Entries removed from one circuit -/

theorem q_removeAll (es : List Entry) : (es.foldl (fun p e => removeQueued c e.item p) p).q c = { p.q c with
    entries := (p.q c).entries.filter fun x => es.all fun e => x.item != e.item } := by
  rw [← foldl_without]
  induction es generalizing p with
  | nil => rfl
  | cons e es ih =>
    rw [List.foldl_cons, ih]
    simp

theorem tx_removeAll (es : List Entry) : (es.foldl (fun p e => removeQueued c e.item p) p).tx c' = p.tx c' := by
  induction es generalizing p with
  | nil => rfl
  | cons e es ih =>
    rw [List.foldl_cons, ih]
    simp

theorem circ_removeAll_ne (es : List Entry) (ne : c' ≠ c) :
    (es.foldl (fun p e => removeQueued c e.item p) p).circ c' = p.circ c' := by
  induction es generalizing p with
  | nil => rfl
  | cons e es ih => exact ih.trans (circ_removeQueued_ne e.item ne)

/-- The entries of a kind removed from one circuit. -/
theorem q_removeKind (single : p.Single) (P : Entry → Bool) :
    (((p.q c).entries.filter P).foldl (fun p e => removeQueued c e.item p) p).q c =
      { p.q c with entries := (p.q c).entries.filter fun e => !P e } := by
  rw [q_removeAll, filter_others (nodup_of_sublist (List.sublist_append_right ..) (single c))]

/-- What is done for each circuit in turn, where each turn leaves the other circuits. -/
theorem eachCirc_spec {f : CircNo → Part → Part} {I : Part → Prop} (step : ∀ c p, I p → I (f c p))
    (others : ∀ c c' p, c' ≠ c → (f c p).circ c' = p.circ c') (start : I p) (cs : List CircNo) (once : cs.Nodup) :
    let q := cs.foldl (fun p c => f c p) p
    I q ∧ (∀ c, c ∉ cs → q.circ c = p.circ c) ∧
      ∀ c ∈ cs, ∃ p', I p' ∧ p'.circ c = p.circ c ∧ q.circ c = (f c p').circ c := by
  induction cs generalizing p with
  | nil => exact ⟨start, fun _ _ => rfl, fun _ h => absurd h List.not_mem_nil⟩
  | cons a cs ih =>
    obtain ⟨new, once⟩ := List.nodup_cons.mp once
    obtain ⟨inv, outside, inside⟩ := ih (step a p start) once
    refine ⟨inv, fun c out => ?_, fun c member => ?_⟩
    · obtain ⟨ne, out⟩ : c ≠ a ∧ c ∉ cs := by simpa using out
      exact (outside c out).trans (others a c p ne)
    · by_cases same : c = a
      · subst same
        exact ⟨p, start, rfl, outside c new⟩
      · obtain ⟨p', inv, before, after⟩ := inside c ((List.mem_cons.mp member).resolve_left same)
        exact ⟨p', inv, before.trans (others a c p same), after⟩

theorem allEight_nodup : allEight.Nodup := by decide
theorem mem_allEight (c : Fin 8) : c ∈ allEight := by revert c; decide

/-! ### PURGE (R115, R179) -/

/-- One circuit's part of a PURGE. -/
def purgeOn (slug : Option Text) (c : CircNo) (p : Part) : Part :=
  (p.purgeable c slug).foldl (fun p e => removeQueued c e.item p) p

/-- The entries of a circuit that a PURGE removes are the same throughout the purge. -/
theorem Removing.purgeable (h : Removing p₀ p) (numbers : (p₀.items.map (·.num)).Nodup) (slug : Option Text)
    (same : p.circ c = p₀.circ c) : p.purgeable c slug = p₀.purgeable c slug := by
  have queue : p.q c = p₀.q c := congrArg Circ.q same
  unfold Part.purgeable
  rw [queue]
  refine List.filter_congr fun e queued => ?_
  have refers : e.item ∈ p.refs c := by
    rw [refs_of_circ same]
    exact List.mem_map_of_mem (List.mem_append_right _ queued)
  obtain ⟨k, item⟩ := h.item numbers refers
  rw [item]

theorem purgeCircs_eq (cs : List CircNo) (slug : Option Text) (once : cs.Nodup)
    (h : Removing p₀ p) (numbers : (p₀.items.map (·.num)).Nodup) (same : ∀ c ∈ cs, p.circ c = p₀.circ c) (n : Nat) :
    cs.foldl (fun (n, p) c =>
      let es := p.purgeable c slug
      (n + es.length, es.foldl (fun p e => Machine.removeQueued c e.item p) p)) (n, p) =
    (n + (cs.map fun c => (p₀.purgeable c slug).length).sum, cs.foldl (fun p c => purgeOn slug c p) p) := by
  induction cs generalizing p n with
  | nil => rfl
  | cons c cs ih =>
    obtain ⟨new, once⟩ := List.nodup_cons.mp once
    have mine := h.purgeable numbers slug (same c (.head _))
    have next : Removing p₀ (purgeOn slug c p) := h.foldl (fun p e hp => hp.removeQueued _) _
    have rest := ih once next (fun k member => (circ_removeAll_ne _ fun e : k = c => new (e ▸ member)).trans
      (same k (.tail _ member))) (n + (p₀.purgeable c slug).length)
    rw [List.foldl_cons, List.foldl_cons, List.map_cons, List.sum_cons, ← Nat.add_assoc, ← rest, ← mine]
    rfl

end Sys2Proof.Machine
end

section
/-! PURGE, rewrites and kills (R115, R158–R163, R179). -/

namespace Sys2Proof.Machine

variable {p₀ p q : Part} {c c' : CircNo} {l : LineNo} {n k : Nat} {s : State} {it : Item}

/-! ### PURGE -/

theorem checkSlug_ok {slug : Option Text} (form : ∀ t, slug = some t → isSlug t = true) :
    checkSlug slug = .ok (slug.map cutSlug) := by
  cases slug with
  | none => rfl
  | some t => simp [checkSlug, form t rfl]

/-- The entries that a PURGE removes. -/
theorem purgeable_iff {slug : Option Text} {e : Entry} (queued : e ∈ (p.q c).entries) :
    e ∈ p.purgeable c (slug.map cutSlug) ↔
      e.resume = none ∧ ∀ t, slug = some t → (p.item e.item).slug = t.take 12 := by
  cases slug <;> simp [Part.purgeable, queued, cutSlug, Config.slugSize]

theorem sum_one (c : Fin 8) (f : Fin 8 → Nat) : (allEight.map fun k => if k = c then f k else 0).sum = f c := by
  rw [sum_allEight]
  simp

theorem filter_purgeable (slug : Option Text) :
    (p.q c).entries.filter (fun e => (p.purgeable c slug).contains e) = p.purgeable c slug := by
  unfold Part.purgeable
  refine List.filter_congr fun e queued => ?_
  rw [Bool.eq_iff_iff, List.contains_iff_mem, List.mem_filter]
  exact and_iff_right queued

/-- One circuit's part of a PURGE, made in a state that has the circuit as the purge found it. -/
theorem Removing.q_purgeOn (h : Removing p₀ p) (referred : p₀.Referred) (single : p₀.Single) (slug : Option Text)
    (same : p.circ c = p₀.circ c) : (purgeOn slug c p).q c = { p₀.q c with
      entries := (p₀.q c).entries.filter fun e => !(p₀.purgeable c slug).contains e } := by
  have queue : p.q c = p₀.q c := congrArg Circ.q same
  have others := filter_others (P := fun e => (p₀.purgeable c slug).contains e)
    (nodup_of_sublist (List.sublist_append_right ..) (single c))
  rw [filter_purgeable] at others
  rw [purgeOn, h.purgeable referred.items_nodup slug same, q_removeAll, queue, others]

/-- Settles O29. -/
theorem purgeRemovesUnbrokenEntries : Obligations.PurgeRemovesUnbrokenEntries := by
  intro s only slug h ordered counted holders form
  have single : s.part.Single := (holdersCounted_iff.mp holders).1
  have referred : s.part.Referred := (holdersCounted_iff.mp holders).2
  have start : Removing s.part s.part := .refl single referred (backlogsCounted_iff.mp counted).2
  let cs : List CircNo := match only with
    | some c => [c]
    | none => allEight
  have once : cs.Nodup := by cases only <;> simp [cs, allEight_nodup]
  have covers : ∀ c, c ∈ cs ↔ only = none ∨ only = some c := fun c => by
    cases only <;> simp [cs, mem_allEight, eq_comm]
  let cut := slug.map cutSlug
  let q := cs.foldl (fun p c => purgeOn cut c p) s.part
  have purged : purgeCircs cs cut s.part = ((cs.map fun c => (s.part.purgeable c cut).length).sum, q) := by
    rw [purgeCircs, purgeCircs_eq cs cut once start referred.items_nodup (fun _ _ => rfl) 0, Nat.zero_add]
  obtain ⟨removing, (outside : ∀ c, c ∉ cs → q.circ c = s.part.circ c), inside⟩ :=
    eachCirc_spec (I := fun p => Removing s.part p) (f := purgeOn cut)
      (fun c p hp => hp.foldl (fun _ _ h => h.removeQueued _) _) (fun c c' p ne => circ_removeAll_ne _ ne) start cs once
  have queue : ∀ c ∈ cs, q.q c = { s.part.q c with
      entries := (s.part.q c).entries.filter fun e => !(s.part.purgeable c cut).contains e } ∧
      q.tx c = s.part.tx c := fun c member => by
    obtain ⟨p', removing', before, after⟩ := inside c member
    refine ⟨?_, ?_⟩
    · rw [Part.q, after]; exact removing'.q_purgeOn referred single cut before
    · rw [Part.tx, after, ← Part.tx, purgeOn, tx_removeAll]; exact congrArg Circ.tx before
  have gone : ∀ c, ∀ e ∈ (s.part.q c).entries, ((only = none ∨ only = some c) ∧ e.resume = none ∧
      ∀ t, slug = some t → (s.part.item e.item).slug = t.take 12) ↔ c ∈ cs ∧ e ∈ s.part.purgeable c cut :=
    fun c e queued => by rw [covers, purgeable_iff queued]
  refine ⟨q, fun c => ⟨?_, fun e queued => Iff.trans ?_ (not_congr (gone c e queued)).symm⟩, fun c => ⟨?_, ?_, removing.tally c⟩, removing.alarm,
    removing.frame.lines, removing.frame.banks, removing.frame.history, ?_⟩
  · by_cases member : c ∈ cs
    · rw [(queue c member).1]; exact List.filter_sublist
    · rw [Part.q, outside c member]; exact List.Sublist.refl _
  · by_cases member : c ∈ cs
    · rw [(queue c member).1, List.mem_filter]
      simp [queued, member]
    · rw [Part.q, outside c member]
      exact iff_of_true queued fun both => member both.1
  · by_cases member : c ∈ cs
    · rw [(queue c member).1]
    · rw [Part.q, outside c member]; rfl
  · by_cases member : c ∈ cs
    · exact (queue c member).2
    · rw [Part.tx, outside c member]; rfl
  · have checked : ((checkRouteLine (only.map (·.val))).bind fun c => (checkSlug slug).map fun t => Order.purge c t) =
        .ok (.purge only cut) := by
      rw [checkRouteLine_val, checkSlug_ok form]; rfl
    have lost : ∀ c, (s.part.q c).entries.length - (q.q c).entries.length =
        if c ∈ cs then (s.part.purgeable c cut).length else 0 := fun c => by
      by_cases member : c ∈ cs
      · have parts := List.length_eq_length_filter_add (l := (s.part.q c).entries)
          fun e => (s.part.purgeable c cut).contains e
        rw [filter_purgeable] at parts
        rw [if_pos member, (queue c member).1]
        dsimp only
        omega
      · rw [if_neg member, Part.q, Part.q, outside c member]
        exact Nat.sub_self _
    have count : (cs.map fun c => (s.part.purgeable c cut).length).sum =
        (allEight.map fun c => (s.part.q c).entries.length - (q.q c).entries.length).sum := by
      simp only [lost]
      cases only with
      | none => simp [cs, mem_allEight]
      | some c => simp [cs, sum_one]
    have acts : act (.purge only cut) s.part = .with q (dec (cs.map fun c => (s.part.purgeable c cut).length).sum) := by
      have gives : actPurge only cut s.part = .with (purgeCircs cs cut s.part).2 (dec (purgeCircs cs cut s.part).1) := by
        cases only <;> rfl
      exact gives.trans (by rw [purged])
    rw [← count]
    exact after_with h (check := fun _ => (checkRouteLine (only.map (·.val))).bind fun c => (checkSlug slug).map fun t =>
      Order.purge c t) checked acts (removing.alarm ▸ h.settled) (dec_ne_nil _)

end Sys2Proof.Machine
end

section
/-! Rewrites and kills (R158–R163). -/

namespace Sys2Proof.Machine

variable {p₀ p q : Part} {c c' : CircNo} {l : LineNo} {n k : Nat} {s : State} {it : Item}

/-! ### Output lines begun -/

theorem lineText_congr (kind : LineKind) (current : (q.q c).current = (p.q c).current)
    (width : (q.tx c).force.width = (p.tx c).force.width) (owed : (q.tx c).owed = (p.tx c).owed)
    (item : ∀ n, q.item n = p.item n) : q.lineText c kind = p.lineText c kind := by
  unfold Part.lineText
  rw [current, width, owed]
  cases (p.q c).current <;> cases kind <;> simp [item]

/-- What the start of an output line leaves behind is an output line begun. -/
theorem begun_beginLine (kind : LineKind) : (beginLine c kind p).LineBegun c kind (p.tx c).force := by
  unfold Part.LineBegun
  have items : ∀ n, (beginLine c kind p).item n = p.item n := ((OnCirc.refl c p).beginLine kind).item
  rw [tx_beginLine]
  by_cases mark : (p.tx c).startMark = true
  · simp [lineBegun, mark]
  · have text : (beginLine c kind p).lineText c kind = (p.modTx c bringLine).lineText c kind :=
      lineText_congr kind (by simp) (by simp [lineBegun, mark]) (by simp [lineBegun, mark, bringLine]) items
    simp only [lineBegun, mark, lineFrames, text]
    simpa [bringLine] using fun on => absurd on mark

/-- A line whose text is the circuit's own is begun in every state that has the circuit as it is. -/
theorem Part.LineBegun.of_circ {kind : LineKind} {was : TxParams} (h : p.LineBegun c kind was)
    (own : kind = .breakLine ∨ kind = .killLine ∨ kind = .owed) (same : q.circ c = p.circ c) :
    q.LineBegun c kind was := by
  have tx : q.tx c = p.tx c := congrArg Circ.tx same
  have queue : q.q c = p.q c := congrArg Circ.q same
  have text : q.lineText c kind = p.lineText c kind := by
    unfold Part.lineText
    rw [tx, queue]
    rcases own with rfl | rfl | rfl <;> cases (p.q c).current <;> rfl
  unfold Part.LineBegun at h ⊢
  rwa [tx, text]

theorem begun_beginNotice (kind : LineKind) : (beginNotice c kind p).LineBegun c kind (p.tx c).force := by
  have begun := begun_beginLine (p := stopStall c (p.modTx c fun tx => { tx with state := .notice })) (c := c) kind
  have force : ((stopStall c (p.modTx c fun tx => { tx with state := .notice })).tx c).force = (p.tx c).force := by
    simp [stopStall]
  rwa [force] at begun

theorem state_beginNotice (kind : LineKind) : ((beginNotice c kind p).tx c).state = .notice := by
  simp [beginNotice, stopStall]

theorem owed_lineBegun (kind : LineKind) (tx : Sender) : (lineBegun p c kind tx).owed = tx.owed := by
  rw [lineBegun_keeps]

theorem owed_beginNotice (kind : LineKind) : ((beginNotice c kind p).tx c).owed = (p.tx c).owed := by
  simp [beginNotice, stopStall, owed_lineBegun]

theorem q_beginNotice (kind : LineKind) : (beginNotice c kind p).q c = { p.q c with stall := none } := by
  simp [beginNotice, stopStall]

theorem load_beginNotice (kind : LineKind) : (beginNotice c kind p).load c = p.load c := by
  simp [beginNotice, stopStall, beginLine_eq]

theorem tally_beginNotice (kind : LineKind) : ((beginNotice c kind p).circ c).tally = (p.circ c).tally := by
  simp [beginNotice, stopStall]

theorem Removing.beginNotice (h : Removing p₀ p) {kind : LineKind} (ok : kind ≠ .breakLine) :
    Removing p₀ (beginNotice c kind p) :=
  h.sender (OutMoves.beginNotice .refl (.inl ok)) ((OnCirc.refl c p).beginNotice kind) (by rw [q_beginNotice])
    (by rw [q_beginNotice]) (load_beginNotice kind) (tally_beginNotice kind)

theorem Removing.modTx (h : Removing p₀ p) {f : Sender → Sender} (ordered : (f (p.tx c)).ordered = (p.tx c).ordered)
    (job : (f (p.tx c)).job = (p.tx c).job) : Removing p₀ (p.modTx c f) :=
  h.sender (OutMoves.modTx .refl ordered (.inl job)) ((OnCirc.refl c p).modTx f) (by simp) (by simp) (by simp) (by simp)

/-! ### The kill purge on one circuit (R160) -/

theorem killQueued_q (e : Entry) : (killQueued c e p).q c = { p.q c with entries := without e.item (p.q c).entries } := by
  unfold killQueued owe
  simp only
  split <;> simp

theorem killQueued_tx (e : Entry) : (killQueued c e p).tx c = { p.tx c with
    owed := (p.tx c).owed ++ if e.resume.isSome then [e.cseq.getD 0] else [] } := by
  unfold killQueued owe
  simp only
  split <;> simp

theorem circ_killQueued_ne (e : Entry) (ne : c' ≠ c) : (killQueued c e p).circ c' = p.circ c' := by
  unfold killQueued owe
  simp only
  split
  · exact (Part.circ_modTx_ne _ ne).trans (circ_removeQueued_ne _ ne)
  · exact circ_removeQueued_ne _ ne

theorem Removing.killQueued (h : Removing p₀ p) (e : Entry) : Removing p₀ (killQueued c e p) := by
  unfold Machine.killQueued owe
  simp only
  split
  · exact (h.removeQueued _).modTx rfl rfl
  · exact h.removeQueued _

theorem q_killAll (es : List Entry) : (es.foldl (fun p e => killQueued c e p) p).q c = { p.q c with
    entries := (p.q c).entries.filter fun x => es.all fun e => x.item != e.item } := by
  rw [← foldl_without]
  induction es generalizing p with
  | nil => rfl
  | cons e es ih => rw [List.foldl_cons, ih, killQueued_q]; rfl

theorem tx_killAll (es : List Entry) : (es.foldl (fun p e => killQueued c e p) p).tx c = { p.tx c with
    owed := (p.tx c).owed ++ (es.filter fun e => e.resume.isSome).map fun e => e.cseq.getD 0 } := by
  induction es generalizing p with
  | nil => simp
  | cons e es ih =>
    rw [List.foldl_cons, ih, killQueued_tx]
    by_cases broken : e.resume.isSome = true <;> simp [broken]

theorem circ_killAll_ne (es : List Entry) (ne : c' ≠ c) :
    (es.foldl (fun p e => killQueued c e p) p).circ c' = p.circ c' := by
  induction es generalizing p with
  | nil => rfl
  | cons e es ih => exact ih.trans (circ_killQueued_ne e ne)

/-- The current entry of a circuit, where it is one of these items. -/
def currentOf (ns : List Nat) (p : Part) (c : CircNo) : List Entry :=
  (p.q c).current.toList.filter fun e => ns.contains e.item

theorem killCurrentOf_none {ns : List Nat} (none : currentOf ns p c = []) : killCurrentOf ns c p = p := by
  unfold killCurrentOf
  split
  · next e current =>
    simp only [currentOf, current, Option.toList_some, List.filter_eq_nil_iff, List.mem_singleton, forall_eq] at none
    exact if_neg none
  · rfl

theorem killCurrentOf_some {ns : List Nat} (some : currentOf ns p c ≠ []) : ∃ e, (p.q c).current = .some e ∧
    currentOf ns p c = [e] ∧ killCurrentOf ns c p = killCurrent c e p := by
  cases current : (p.q c).current with
  | none => simp [currentOf, current] at some
  | some e =>
    have mine : ns.contains e.item = true := by
      by_contra other
      exact some (by simp [currentOf, current]; simpa using other)
    refine ⟨e, rfl, by simp [currentOf, current]; simpa using mine, ?_⟩
    rw [killCurrentOf, current]
    exact if_pos mine

theorem circ_killCurrentOf_ne (ns : List Nat) (ne : c' ≠ c) : (killCurrentOf ns c p).circ c' = p.circ c' := by
  unfold killCurrentOf
  split
  · split
    · unfold killCurrent
      split
      · exact ((OnCirc.refl c p).beginNotice _).circ_ne ne
      · simp only [owe]
        rw [Part.circ_modTx_ne _ ne, Part.circ_modTx_ne _ ne, circ_removeCurrent_ne ne]
      all_goals rfl
    · rfl
  · rfl

theorem Removing.killCurrentOf (h : Removing p₀ p) (ns : List Nat) : Removing p₀ (killCurrentOf ns c p) := by
  unfold Machine.killCurrentOf
  split
  · split
    · unfold killCurrent
      split
      · exact h.beginNotice (by decide)
      · exact Removing.modTx (Removing.modTx h.removeCurrent rfl rfl) rfl rfl
      all_goals exact h
    · exact h
  · exact h

/-- A selection point with a kill notice owed. -/
theorem selectionPoint_owed (owed : (p.tx c).owed ≠ []) : selectionPoint c p =
    beginNotice c .owed (clearBreak c (p.modQ c fun q => { q with force := q.ordered })) := by
  rw [selectionPoint, if_neg (by simpa [clearBreak] using owed)]

theorem circ_killOn_ne (ns : List Nat) (ne : c' ≠ c) : (killOn ns c p).circ c' = p.circ c' := by
  unfold killOn
  simp only
  split
  · rw [((OnCirc.refl c _).selectionPoint).circ_ne ne, circ_killCurrentOf_ne ns ne, circ_killAll_ne _ ne]
  · rw [circ_killCurrentOf_ne ns ne, circ_killAll_ne _ ne]

theorem Removing.modQ (h : Removing p₀ p) {f : Queue → Queue} (m : OutMoves p (p.modQ c f))
    (entries : (f (p.q c)).entries = (p.q c).entries) (current : (f (p.q c)).current = (p.q c).current) :
    Removing p₀ (p.modQ c f) :=
  h.sender m ((OnCirc.refl c p).modQ f) (by simpa) (by simpa) (by simp) (by simp)

theorem Removing.killOn (h : Removing p₀ p) (ns : List Nat) : Removing p₀ (killOn ns c p) := by
  have purged : Removing p₀ (Machine.killCurrentOf ns c
      (((p.q c).entries.filter fun e => ns.contains e.item).foldl (fun p e => Machine.killQueued c e p) p)) :=
    Removing.killCurrentOf (h.foldl (fun p e hp => hp.killQueued e) _) ns
  unfold Machine.killOn
  simp only
  split
  · next owes =>
    rw [selectionPoint_owed (by simpa using (Bool.and_eq_true_iff.mp owes).2)]
    refine Removing.beginNotice ?_ (by decide)
    refine Removing.modQ (Removing.modQ purged ?_ rfl rfl) ?_ rfl rfl
    · exact OutMoves.modQ .refl ⟨rfl, rfl, rfl, rfl, rfl, id⟩
    · exact OutMoves.clearBreak .refl
  · exact purged

/-- What the kill purge leaves of a circuit, for the entries of the items of these numbers. -/
structure KilledOn (ns : List Nat) (p q : Part) (c : CircNo) : Prop where
  entries : (q.q c).entries = (p.q c).entries.filter fun e => !ns.contains e.item
  owed : (q.tx c).owed = (p.tx c).owed ++ (((p.q c).entries.filter fun e => ns.contains e.item && e.resume.isSome) ++
    if (p.tx c).state = .held then currentOf ns p c else []).map fun e => e.cseq.getD 0
  held : (p.tx c).state = .held ∧ currentOf ns p c ≠ [] → (q.q c).current = none ∧
    q.tx c = { p.tx c with owed := (q.tx c).owed, heldPos := .selectionDue }
  current : ¬ ((p.tx c).state = .held ∧ currentOf ns p c ≠ []) → (q.q c).current = (p.q c).current
  waiting : (p.tx c).state = .waiting ∧ currentOf ns p c ≠ [] →
    (q.tx c).state = .notice ∧ q.LineBegun c .killLine (p.tx c).force ∧ (q.q c).stall = none
  idle : (p.tx c).state = .idle ∧ (q.tx c).owed ≠ [] →
    (q.tx c).state = .notice ∧ q.LineBegun c .owed (p.tx c).force
  rests : ((p.tx c).state = .idle → (q.tx c).owed = []) ∧
    ((p.tx c).state = .waiting ∨ (p.tx c).state = .held → currentOf ns p c = []) →
    q.tx c = { p.tx c with owed := (q.tx c).owed }

theorem killedOn_killOn (single : p.Single) (ns : List Nat) : KilledOn ns p (killOn ns c p) c := by
  let es := (p.q c).entries.filter fun e => ns.contains e.item
  let a := es.foldl (fun p e => killQueued c e p) p
  have aq : a.q c = { p.q c with entries := (p.q c).entries.filter fun e => !ns.contains e.item } := by
    rw [q_killAll, filter_others (nodup_of_sublist (List.sublist_append_right ..) (single c))]
  let owed := (p.tx c).owed ++ ((p.q c).entries.filter fun e => ns.contains e.item && e.resume.isSome).map
    fun e => e.cseq.getD 0
  have atx : a.tx c = { p.tx c with owed := owed } := by
    rw [tx_killAll, List.filter_filter]
    simp only [owed, Bool.and_comm]
  have same : currentOf ns a c = currentOf ns p c := by rw [currentOf, aq]; rfl
  have means : killOn ns c p = if ((killCurrentOf ns c a).tx c).state == .idle &&
      ((killCurrentOf ns c a).tx c).owed != [] then selectionPoint c (killCurrentOf ns c a) else killCurrentOf ns c a := rfl
  by_cases reached : currentOf ns p c ≠ [] ∧ ((p.tx c).state = .waiting ∨ (p.tx c).state = .held)
  · obtain ⟨some, state⟩ := reached
    obtain ⟨e, current, list, kills⟩ := killCurrentOf_some (c := c) (p := a) (by rwa [same])
    rw [aq] at current
    rw [same] at list
    rcases state with waits | held
    · have gives : killOn ns c p = beginNotice c .killLine a := by
        have begins : killCurrentOf ns c a = beginNotice c .killLine a := by
          rw [kills, killCurrent, atx, waits]
        rw [means, begins, if_neg (by rw [state_beginNotice]; simp)]
      have ne : ¬ (p.tx c).state = .held := by rw [waits]; decide
      have owes : ((killOn ns c p).tx c).owed = owed := by rw [gives, owed_beginNotice, atx]
      refine ⟨?_, ?_, fun h => absurd h.1 ne, fun _ => ?_, fun _ => ⟨?_, ?_, ?_⟩, fun h => ?_, fun h => ?_⟩
      · rw [gives, q_beginNotice, aq]
      · rw [owes, if_neg ne, List.append_nil]
      · rw [gives, q_beginNotice, aq]
      · rw [gives, state_beginNotice]
      · have begun := begun_beginNotice (p := a) (c := c) .killLine
        rw [gives]; rwa [atx] at begun
      · rw [gives, q_beginNotice]
      · rw [waits] at h; cases h.1
      · exact absurd (h.2 (.inl waits)) some
    · have gives : killOn ns c p =
          (owe c (e.cseq.getD 0) (removeCurrent c a)).modTx c fun tx => { tx with heldPos := .selectionDue } := by
        have begins : killCurrentOf ns c a =
            (owe c (e.cseq.getD 0) (removeCurrent c a)).modTx c fun tx => { tx with heldPos := .selectionDue } := by
          rw [kills, killCurrent, atx, held]
        rw [means, begins, if_neg (by simp [owe, atx, held])]
      have tx : (killOn ns c p).tx c =
          { p.tx c with owed := owed ++ [e.cseq.getD 0], heldPos := .selectionDue } := by
        rw [gives]; simp [owe, atx]
      have queue : (killOn ns c p).q c = { a.q c with current := none } := by rw [gives]; simp [owe]
      refine ⟨by rw [queue, aq], ?_, fun _ => ⟨by rw [queue], by rw [tx]⟩, fun h => absurd ⟨held, some⟩ h, fun h => ?_,
        fun h => ?_, fun h => absurd (h.2 (.inr held)) some⟩
      · rw [tx, if_pos held, list]; simp [owed]
      · rw [held] at h; cases h.1
      · rw [held] at h; cases h.1
  · have stays : killCurrentOf ns c a = a := by
      by_cases some : currentOf ns p c ≠ []
      · obtain ⟨e, -, -, kills⟩ := killCurrentOf_some (c := c) (p := a) (by rwa [same])
        rw [kills, killCurrent, atx]
        cases state : (p.tx c).state with
        | waiting => exact absurd ⟨some, .inl state⟩ reached
        | held => exact absurd ⟨some, .inr state⟩ reached
        | _ => rfl
      · exact killCurrentOf_none (by rw [same]; exact not_not.mp some)
    have noHeld : (if (p.tx c).state = .held then currentOf ns p c else []) = [] := by
      split
      · next held => exact not_not.mp fun some => reached ⟨some, .inr held⟩
      · rfl
    rw [means, stays, atx]
    simp only
    by_cases begins : (p.tx c).state = .idle ∧ owed ≠ []
    · obtain ⟨idle, some⟩ := begins
      rw [if_pos (by simp [idle, some]), selectionPoint_owed (by rwa [atx])]
      let b := clearBreak c (a.modQ c fun q => { q with force := q.ordered })
      have btx : b.tx c = { p.tx c with owed := owed } := by simp [b, clearBreak, atx]
      have bq : (b.q c).entries = (a.q c).entries ∧ (b.q c).current = (a.q c).current := by simp [b, clearBreak]
      have owes : ((beginNotice c .owed b).tx c).owed = owed := by rw [owed_beginNotice, btx]
      refine ⟨?_, ?_, fun h => ?_, fun _ => ?_, fun h => ?_, fun _ => ⟨state_beginNotice _, ?_⟩, fun h => ?_⟩
      · rw [q_beginNotice, bq.1, aq]
      · rw [owes, noHeld, List.append_nil]
      · rw [idle] at h; cases h.1
      · rw [q_beginNotice, bq.2, aq]
      · rw [idle] at h; cases h.1
      · have begun := begun_beginNotice (p := b) (c := c) .owed
        rwa [btx] at begun
      · rw [owes] at h; exact absurd (h.1 idle) some
    · rw [if_neg (by simpa using begins)]
      refine ⟨by rw [aq], by rw [atx, noHeld, List.append_nil], fun h => absurd ⟨h.2, .inr h.1⟩ reached, fun _ => by rw [aq],
        fun h => absurd ⟨h.2, .inl h.1⟩ reached, fun h => ?_, fun _ => by rw [atx]⟩
      rw [atx] at h
      exact absurd h begins

/-! ### What a purge leaves of the part -/

/-- What is done for every circuit in turn, where each turn leaves the other circuits. -/
theorem eachCirc_each {f : CircNo → Part → Part} {I : Part → Prop} (step : ∀ c p, I p → I (f c p))
    (others : ∀ c c' p, c' ≠ c → (f c p).circ c' = p.circ c') (start : I p) :
    I (p.eachCirc f) ∧ ∀ c, ∃ p', I p' ∧ p'.circ c = p.circ c ∧ (p.eachCirc f).circ c = (f c p').circ c := by
  obtain ⟨inv, -, inside⟩ := eachCirc_spec step others start allEight allEight_nodup
  exact ⟨inv, fun c => inside c (mem_allEight c)⟩

theorem contains_numbers (items : List Item) (P : Item → Bool) (n : Nat) :
    ((items.filter P).map (·.num)).contains n = items.any fun it => it.num == n && P it := by
  rw [Bool.eq_iff_iff, List.contains_iff_mem]
  simp only [List.mem_map, List.mem_filter, List.any_eq_true, Bool.and_eq_true, beq_iff_eq]
  exact ⟨fun ⟨it, ⟨inUse, kind⟩, num⟩ => ⟨it, inUse, num, kind⟩, fun ⟨it, inUse, num, kind⟩ => ⟨it, ⟨inUse, kind⟩, num⟩⟩

/-- An ended descriptor whose last entry has gone is freed, and any other one stays. -/
theorem Removing.freed (h : Removing p₀ p) (numbers : (p₀.items.map (·.num)).Nodup) (inUse : it ∈ p₀.items) :
    (it.ended = true ∧ (∃ c, ∃ e ∈ (p₀.q c).held, e.item = it.num) ∧
        (∀ c, ∀ e ∈ (p.q c).held, e.item ≠ it.num) → ∀ it' ∈ p.items, it'.num ≠ it.num) ∧
      (it.ended = false ∨ (∃ c, ∃ e ∈ (p.q c).held, e.item = it.num) → ∃ it' ∈ p.items, it'.num = it.num) := by
  refine ⟨fun ⟨ended, ⟨c, e, held, refers⟩, gone⟩ it' inUse' num => ?_, fun stays => ?_⟩
  · obtain ⟨it₀, inUse₀, same⟩ := h.items it' inUse'
    have one : it₀ = it := Part.unique_num numbers inUse₀ inUse (by rw [← num, same])
    have ended' : it'.ended = true := by rw [same, one]; exact ended
    obtain ⟨k, refers'⟩ := h.loose it' inUse' ended' ⟨c, List.mem_map.mpr ⟨e, held, refers.trans num.symm⟩⟩
    obtain ⟨e', held', refers'⟩ := List.mem_map.mp refers'
    exact gone k e' held' (refers'.trans num)
  · rcases stays with filling | ⟨c, e, held, refers⟩
    · have state : it.state = .filling := by simpa [Item.ended] using filling
      obtain ⟨it', found, -⟩ := h.filling it.num ⟨it, Part.item?_of_mem numbers inUse, state⟩
      exact ⟨it', Part.mem_of_item? found, Part.num_of_item? found⟩
    · obtain ⟨x, key, num⟩ := List.mem_map.mp (h.referred.refers c it.num (List.mem_map.mpr ⟨e, held, refers⟩))
      obtain ⟨it', inUse', rfl⟩ := List.mem_map.mp key
      exact ⟨it', inUse', num⟩

theorem killMatches_eq (k it : Item) : killMatches k it =
    decide (it.source = k.source ∧ it.category = k.category ∧ it.slug = k.slug ∧ it.kind ≠ .kill) := by
  rw [Bool.eq_iff_iff]
  simp [killMatches, and_assoc]

theorem olderThan_eq {before after : List Item} {k : Item} (numbers : (p.items.map (·.num)).Nodup)
    (items : p.items = before ++ k :: after) : p.olderThan k.num = before := by
  have apart : ∀ it ∈ before, (it.num != k.num) = true := fun it member => by
    rw [items, List.map_append, List.map_cons, List.nodup_append] at numbers
    simpa using numbers.2.2 it.num (List.mem_map_of_mem member) k.num (.head _)
  rw [Part.olderThan, items, List.takeWhile_append_of_pos apart]
  simp

theorem item_middle {before after : List Item} {k : Item} (numbers : (p.items.map (·.num)).Nodup)
    (items : p.items = before ++ k :: after) : p.item k.num = k :=
  Part.item_of_item? (Part.item?_of_mem numbers (by rw [items]; simp))

/-! ### Rewrites (R163) -/

/-- One circuit's part of a rewrite purge. -/
def rewriteOn (ns : List Nat) (c : CircNo) (p : Part) : Part :=
  ((p.q c).entries.filter fun e => e.resume.isNone && ns.contains e.item).foldl (fun p e => removeQueued c e.item p) p

/-- A rewrite purge removes entries, of each circuit those of the older items. -/
theorem rewritePurge_spec (start : Removing p p) (n : Nat) :
    let ns := ((p.olderThan n).filter (rewriteMatches (p.item n))).map (·.num)
    Removing p (rewritePurge n p) ∧ ∀ c, (rewritePurge n p).tx c = p.tx c ∧ (rewritePurge n p).q c = { p.q c with
      entries := (p.q c).entries.filter fun e => !(e.resume.isNone && ns.contains e.item) } := by
  intro ns
  obtain ⟨removing, inside⟩ := eachCirc_each (I := fun q => Removing p q) (f := rewriteOn ns)
    (fun c q hq => hq.foldl (fun _ _ h => h.removeQueued _) _) (fun c c' q ne => circ_removeAll_ne _ ne) start
  have turns : rewritePurge n p = p.eachCirc (rewriteOn ns) := rfl
  rw [turns]
  refine ⟨removing, fun c => ?_⟩
  obtain ⟨p', removing', before, after⟩ := inside c
  refine ⟨?_, ?_⟩
  · rw [Part.tx, after]
    exact (tx_removeAll _).trans (congrArg Circ.tx before)
  · have same : p'.q c = p.q c := congrArg Circ.q before
    rw [Part.q, after]
    refine (q_removeKind removing'.single _).trans ?_
    rw [same]

/-! ### Kills (R159–R162) -/

theorem Part.Balanced.killed (h : p.Balanced c) (f : Item → Bool) : (markKilled f p).Balanced c := h.of_same rfl rfl rfl

theorem killPurge_eq (n : Nat) (p : Part) : ∃ r h, killPurge n p = r.setHistory h ∧
    r = (markKilled (killMatches (p.item n)) p).eachCirc
      (killOn ((p.items.filter (killMatches (p.item n))).map (·.num))) ∧
    h = { r.history with entries := r.history.entries.filter fun x =>
      !(some x.line == (p.item n).source && x.category == (p.item n).category && x.slug == (p.item n).slug) } :=
  ⟨_, _, rfl, rfl, rfl⟩

theorem items_markKilled_num (f : Item → Bool) : (markKilled f p).items.map (·.num) = p.items.map (·.num) := by
  simp only [markKilled, List.map_map]
  refine List.map_congr_left fun it _ => ?_
  simp only [Function.comp]
  split <;> rfl

/-- A kill purge removes entries of a part with the killed marks set, and drops history entries. -/
theorem killPurge_removing (single : p.Single) (referred : p.Referred) (balanced : ∀ c, p.Balanced c) (n : Nat) :
    let k := p.item n
    let ns := (p.items.filter (killMatches k)).map (·.num)
    ∃ r, Removing (markKilled (killMatches k) p) r ∧ (∀ c, KilledOn ns p r c) ∧ killPurge n p = r.setHistory
      { p.history with entries := p.history.entries.filter fun h =>
        !(some h.line == k.source && h.category == k.category && h.slug == k.slug) } := by
  intro k ns
  let f := killMatches k
  have start : Removing (markKilled f p) (markKilled f p) :=
    .refl single (referred.map (fun it => by split <;> rfl) (fun it => by split <;> rfl) rfl rfl) fun c =>
      (balanced c).killed f
  obtain ⟨removing, inside⟩ := eachCirc_each (I := fun q => Removing (markKilled f p) q) (f := killOn ns)
    (fun c q hq => hq.killOn ns) (fun c c' q ne => circ_killOn_ne ns ne) start
  obtain ⟨r, h, purged, gives, history⟩ := killPurge_eq n p
  rw [← gives] at removing inside
  have old : r.history = p.history := removing.frame.history
  rw [old] at history
  refine ⟨r, removing, fun c => ?_, by rw [purged, history]⟩
  obtain ⟨p', removing', before, after⟩ := inside c
  have before : p'.circ c = p.circ c := before
  have queue' : p'.q c = p.q c := congrArg Circ.q before
  have tx' : p'.tx c = p.tx c := congrArg Circ.tx before
  have current' : currentOf ns p' c = currentOf ns p c := by rw [currentOf, queue', currentOf]
  obtain ⟨entries, owed, held, current, waiting, idle, rests⟩ := killedOn_killOn (c := c) removing'.single ns
  generalize killOn ns c p' = q at after entries owed held current waiting idle rests
  have queue : r.q c = q.q c := congrArg Circ.q after
  have tx : r.tx c = q.tx c := congrArg Circ.tx after
  rw [queue', tx', current'] at owed
  rw [queue'] at entries current
  rw [tx', current'] at held current waiting rests
  rw [tx'] at idle
  refine ⟨by rw [queue, entries], by rw [tx, owed], by rw [queue, tx]; exact held, by rw [queue]; exact current,
    fun h => ?_, fun h => ?_, by rw [tx]; exact rests⟩
  · obtain ⟨state, begun, stall⟩ := waiting h
    exact ⟨by rw [tx, state], begun.of_circ (.inr (.inl rfl)) after, by rw [queue, stall]⟩
  · obtain ⟨state, begun⟩ := idle (by rwa [tx] at h)
    exact ⟨by rw [tx, state], begun.of_circ (.inr (.inr rfl)) after⟩

/-- Settles O30: a purge is a run of removals, and on each circuit the entries, what is owed and what the sender begins. -/
theorem rewriteAndKillPurgeTheirKey : Obligations.RewriteAndKillPurgeTheirKey := by
  intro p before after k ordered counted holders items sameStory kept
  have single : p.Single := (holdersCounted_iff.mp holders).1
  have referred : p.Referred := (holdersCounted_iff.mp holders).2
  have balanced := (backlogsCounted_iff.mp counted).2
  have numbers := referred.items_nodup
  have story : killMatches k = sameStory := funext fun it => killMatches_eq k it
  refine ⟨?_, ?_⟩
  · intro q gone
    obtain ⟨removing, circuits⟩ := rewritePurge_spec (.refl single referred balanced) k.num
    have frame := removing.frame
    have sought : ∀ e : Entry, (e.resume.isNone &&
        (((p.olderThan k.num).filter (rewriteMatches (p.item k.num))).map (·.num)).contains e.item) = gone e := fun e => by
      rw [olderThan_eq numbers items, item_middle numbers items, contains_numbers]
      simp only [gone, rewriteMatches, story, Bool.and_assoc]
    refine ⟨⟨removing.alarm, frame.lines, frame.banks, frame.orders, frame.unrouted, removing.tally, fun it inUse =>
      removing.freed numbers inUse⟩, frame.history, removing.items, fun c => ⟨?_, ?_, (circuits c).1⟩⟩
    · rw [(circuits c).2]
      simp only [sought]
    · rw [(circuits c).2]
  · intro q matched
    obtain ⟨r, removing, circuits, purged⟩ := killPurge_removing single referred balanced k.num
    rw [item_middle numbers items] at removing circuits purged
    have frame := removing.frame
    have sought : ∀ e : Entry, ((p.items.filter (killMatches k)).map (·.num)).contains e.item = matched e :=
      fun e => by rw [contains_numbers, story]
    have purged : q = _ := purged
    clear_value q
    subst purged
    refine ⟨⟨removing.alarm, frame.lines, frame.banks, frame.orders, frame.unrouted, removing.tally, fun it inUse => ?_⟩,
      rfl, ?_, fun it inUse => ?_, fun c => ?_⟩
    · obtain ⟨it₁, inUse₁, num, ended⟩ : ∃ it₁ ∈ (markKilled (killMatches k) p).items,
          it₁.num = it.num ∧ it₁.ended = it.ended :=
        ⟨_, List.mem_map_of_mem inUse, by split <;> rfl, by split <;> rfl⟩
      have numbers₁ : ((markKilled (killMatches k) p).items.map (·.num)).Nodup := by
        rw [items_markKilled_num]; exact numbers
      have freed := removing.freed numbers₁ inUse₁
      rw [num, ended] at freed
      exact freed
    · refine List.filter_congr fun h _ => ?_
      rw [Bool.eq_iff_iff]; simp [or_assoc]
    · obtain ⟨it₁, inUse₁, same⟩ := removing.items it inUse
      obtain ⟨it', inUse', rfl⟩ := List.mem_map.mp inUse₁
      refine ⟨it', inUse', ?_⟩
      rw [same, story]
      by_cases kind : sameStory it' = true <;> simp [kind]
    · obtain ⟨entries, owed, held, current, waiting, idle, rests⟩ := circuits c
      simp only [sought] at entries owed
      have mine : currentOf ((p.items.filter (killMatches k)).map (·.num)) p c = (p.q c).current.toList.filter matched :=
        List.filter_congr fun e _ => sought e
      rw [mine] at owed held current waiting rests
      rw [owed] at held idle rests
      refine ⟨entries, owed, held, current, fun h => ?_, fun h => ?_, rests⟩
      · obtain ⟨state, begun, stall⟩ := waiting h
        exact ⟨state, begun.of_circ (.inr (.inl rfl)) rfl, stall⟩
      · obtain ⟨state, begun⟩ := idle h
        exact ⟨state, begun.of_circ (.inr (.inr rfl)) rfl⟩

end Sys2Proof.Machine
end

section
/-! The sender after a hold: FREE from each held position (R139). -/

namespace Sys2Proof.Machine

variable {p q : Part} {c : CircNo}

/-! ### What a sender finds, from the parts of the circuit that it reads -/

theorem breakDue_congr (broken : (q.q c).breakClass = (p.q c).breakClass ∧ (q.q c).breakQuantum = (p.q c).breakQuantum)
    (entries : (q.q c).entries = (p.q c).entries) (current : (q.q c).current = (p.q c).current)
    (force : (q.q c).force = (p.q c).force) (turn : (q.q c).turn = (p.q c).turn) (items : q.items = p.items) :
    q.breakDue c = p.breakDue c := by
  obtain ⟨cls, quantum⟩ := broken
  have rank : (q.q c).currentClass = (p.q c).currentClass := by rw [Queue.currentClass, Queue.currentClass, current]
  simp only [Part.breakDue, Part.quantumDue, Part.classHolds, Part.quantumHolds, Part.eligible, Part.item, Part.item?,
    cls, quantum, rank, entries, force, turn, items]

theorem choose_congr (entries : (q.q c).entries = (p.q c).entries) (current : (q.q c).current = (p.q c).current)
    (force : (q.q c).force = (p.q c).force) (turn : (q.q c).turn = (p.q c).turn)
    (lines : (q.q c).turnLines = (p.q c).turnLines) (items : q.items = p.items) : q.choose c = p.choose c := by
  have eligible : q.eligible = p.eligible := by
    funext e
    simp only [Part.eligible, Part.item, Part.item?, items]
  simp only [Part.choose, chooseFrom, entries, current, force, turn, lines, eligible]

theorem breakDue_clearBreak : (clearBreak c p).breakDue c = false := by
  simp [clearBreak, Part.breakDue, Part.quantumDue]

theorem bodySent_eq : p.bodySent c = (p.q c).current.any fun e =>
    (p.item e.item).ended && (p.item e.item).body.length ≤ (p.tx c).offset := by
  unfold Part.bodySent
  cases (p.q c).current <;> rfl

theorem currentKilled_eq : p.currentKilled c = (p.q c).current.any fun e => (p.item e.item).killed := by
  unfold Part.currentKilled
  cases (p.q c).current <;> rfl

theorem examined_congr (current : (q.q c).current = (p.q c).current)
    (width : (q.tx c).force.width = (p.tx c).force.width) (margin : (q.tx c).force.margin = (p.tx c).force.margin)
    (offset : (q.tx c).offset = (p.tx c).offset) (item : ∀ n, q.item n = p.item n) : q.examined c = p.examined c := by
  unfold Part.examined
  rw [current, width, margin, offset]
  cases (p.q c).current <;> simp [item]

theorem examined_of_sent (sent : p.bodySent c = true) : p.examined c = .done := by
  unfold Part.bodySent at sent
  unfold Part.examined
  cases current : (p.q c).current <;> simp_all [bodyStep]

theorem force_lineBegun (kind : LineKind) (tx : Sender) : (lineBegun p c kind tx).force =
    if tx.startMark then tx.force else { tx.ordered with rate := tx.force.rate, code := tx.force.code } := by
  unfold lineBegun
  split <;> rfl

/-- Once the start line end is sent, a line begun depends on the rate and code that were in force alone. -/
theorem Part.LineBegun.of_code {kind : LineKind} {was was' : TxParams} (h : p.LineBegun c kind was)
    (mark : (p.tx c).startMark = false) (rate : was'.rate = was.rate) (code : was'.code = was.code) :
    p.LineBegun c kind was' := by
  unfold Part.LineBegun at h ⊢
  rw [rate, code]
  simpa [mark] using h

/-! ### A break taken (R107) -/

/-- The part as a break is taken, before its break line. -/
def interrupted (c : CircNo) (quantum : Bool) (p : Part) : Part :=
  let p := clearBreak c ((interruptAt c { offset := (p.tx c).offset, line := (p.tx c).lineNo } p).modTally c fun t =>
    { t with breaks := bump t.breaks })
  if quantum then p.modQ c endTurn else p

theorem takeBreak_eq (quantum : Bool) : takeBreak c quantum p = beginNotice c .breakLine (interrupted c quantum p) := rfl

theorem tx_interrupted (quantum : Bool) : (interrupted c quantum p).tx c = p.tx c := by
  unfold interrupted clearBreak interruptAt
  cases quantum <;> simp

theorem begun_takeBreak (quantum : Bool) : (takeBreak c quantum p).LineBegun c .breakLine (p.tx c).force := by
  have begun := begun_beginNotice (p := interrupted c quantum p) (c := c) .breakLine
  rwa [tx_interrupted] at begun

theorem state_takeBreak (quantum : Bool) : ((takeBreak c quantum p).tx c).state = .notice := state_beginNotice _

/-! ### The body goes on (R129, R131, R132) -/

/-- The sender of `q` has gone on from `p` by what it found of its item. -/
def Part.GoneOn (q p : Part) (c : CircNo) : BodyStep → Prop
  | .line ln => (q.tx c) = { bringLine (p.tx c) with
        state := .copy, job := .body ln.next ln.last
        out := textFrames (p.tx c).force.code (p.tx c).shift ln.text ++
          if ln.last = true then [] else lineEndFrames (p.tx c).force.code (p.tx c).ordered.fills } ∧
      q.q c = { p.q c with stall := none }
  | .done => (q.tx c) = { bringLine (p.tx c) with
        state := if p.currentKilled c then .notice else .trailer, job := (q.tx c).job, out := (q.tx c).out } ∧
      q.q c = { p.q c with stall := none } ∧
      ((p.tx c).column = 0 → (p.tx c).startMark = false →
        q.LineBegun c (if p.currentKilled c then .killLine else .trailer) (p.tx c).force)
  | .wait => True

theorem goneOn_sendBody (ln : BodyLine) : (sendBody c ln (p.modTx c bringLine)).GoneOn p c (.line ln) := by
  constructor
  · cases last : ln.last <;> simp [sendBody, stopStall, lineFrames, bringLine, last]
  · simp [sendBody, stopStall]

theorem goneOn_enterTrailer (next : Nat) : (enterTrailer c next (p.modTx c bringLine)).GoneOn p c .done := by
  have killed : (p.modTx c bringLine).currentKilled c = p.currentKilled c := by
    simp only [currentKilled_eq, Part.q_modTx, ((OnCirc.refl c p).modTx bringLine).item]
  unfold enterTrailer
  simp only [killed]
  refine ⟨?_, ?_, ?_⟩
  · by_cases column : (p.tx c).column = 0
    · simp only [stopStall, Part.tx_modQ, Part.tx_modTx, bringLine, column, if_pos, tx_beginLine]
      conv_lhs => rw [lineBegun_keeps, force_lineBegun]
      simp
    · simp [stopStall, column, bringLine]
  · by_cases column : (p.tx c).column = 0 <;> simp [stopStall, column, bringLine]
  · intro column mark
    simp only [stopStall, Part.tx_modQ, Part.tx_modTx, bringLine, column, if_pos]
    have begun := begun_beginLine (c := c) (if p.currentKilled c then .killLine else .trailer)
      (p := stopStall c ((p.modTx c bringLine).modTx c fun tx =>
        { tx with state := if p.currentKilled c then .notice else .trailer }))
    refine Part.LineBegun.of_code begun ?_ ?_ ?_
    · rw [tx_beginLine, lineBegun_keeps]
      simpa [stopStall, bringLine] using mark
    · simp [stopStall, bringLine]
    · simp [stopStall, bringLine]

/-- What a sender that waits has gone on to. -/
theorem startBody_wait (mark : (p.tx c).startMark = false) (wait : (p.modTx c bringLine).examined c = .wait) :
    startBody c p = enterWaiting c (p.modTx c bringLine) := by
  rw [startBody, if_neg (by simp [mark])]
  simp only [wait]

theorem goneOn_startBody (mark : (p.tx c).startMark = false) :
    (startBody c p).GoneOn p c ((p.modTx c bringLine).examined c) := by
  rw [startBody, if_neg (by simp [mark])]
  cases step : (p.modTx c bringLine).examined c with
  | done => simpa only [step] using goneOn_enterTrailer _
  | line ln => simpa only [step] using goneOn_sendBody ln
  | wait => trivial

theorem goneOn_examineWaiting : (examineWaiting c p).GoneOn p c ((p.modTx c bringLine).examined c) := by
  unfold examineWaiting
  cases step : (p.modTx c bringLine).examined c with
  | done => simpa only [step] using goneOn_enterTrailer _
  | line ln => simpa only [step] using goneOn_sendBody ln
  | wait => trivial

theorem examineWaiting_wait (wait : (p.modTx c bringLine).examined c = .wait) :
    examineWaiting c p = p.modTx c bringLine := by
  simp only [examineWaiting, wait]

theorem examined_of_gone {step : BodyStep} (gone : q.GoneOn p c step) (other : step ≠ .wait) (on : OnCirc c p q) :
    q.examined c = (p.modTx c bringLine).examined c := by
  have item : ∀ n, q.item n = (p.modTx c bringLine).item n := fun n =>
    (on.item n).trans (((OnCirc.refl c p).modTx bringLine).item n).symm
  cases step with
  | wait => exact absurd rfl other
  | line ln =>
    obtain ⟨tx, queue⟩ := gone
    exact examined_congr (by simp [queue]) (by simp [tx]) (by simp [tx]) (by simp [tx, bringLine]) item
  | done =>
    obtain ⟨tx, queue, -⟩ := gone
    exact examined_congr (by simp [queue]) (by rw [tx]; simp) (by rw [tx]; simp) (by rw [tx]; simp [bringLine]) item

/-! ### FREE (R139) -/

/-- The sender of `q` has gone on from where it stood in `p`: with the next body line, the wait for it, or the trailer or
kill line. -/
def Part.WentOn (q p : Part) (c : CircNo) : Prop :=
  (q.q c).current = (p.q c).current ∧ (q.q c).entries = (p.q c).entries ∧
    (q.tx c).offset = (p.tx c).offset ∧ (q.tx c).lineNo = (p.tx c).lineNo ∧
    match q.examined c with
    | .line ln => (q.tx c).state = .copy ∧ (q.tx c).job = .body ln.next ln.last ∧
        (q.tx c).force = { (p.tx c).ordered with rate := (p.tx c).force.rate, code := (p.tx c).force.code } ∧
        (q.tx c).out = textFrames (q.tx c).force.code (q.tx c).shift ln.text ++
          (if ln.last = true then [] else lineEndFrames (q.tx c).force.code (q.tx c).force.fills)
    | .wait => (q.tx c).state = .waiting ∧ (q.q c).stall = some (p.q c).stallTime
    | .done => (q.tx c).state = (if p.currentKilled c then .notice else .trailer) ∧
        ((p.tx c).column = 0 → q.LineBegun c (if p.currentKilled c then .killLine else .trailer) (p.tx c).force)

theorem wentOn_of_gone (on : OnCirc c p q) (mark : (p.tx c).startMark = false)
    (gone : q.GoneOn p c ((p.modTx c bringLine).examined c))
    (waits : (p.modTx c bringLine).examined c = .wait → q.WentOn p c) : q.WentOn p c := by
  by_cases wait : (p.modTx c bringLine).examined c = .wait
  · exact waits wait
  · have same := examined_of_gone gone wait on
    unfold Part.WentOn
    rw [same]
    cases step : (p.modTx c bringLine).examined c with
    | wait => exact absurd step wait
    | line ln =>
      rw [step] at gone
      obtain ⟨tx, queue⟩ := gone
      simp [tx, queue, bringLine]
    | done =>
      rw [step] at gone
      obtain ⟨tx, queue, begun⟩ := gone
      refine ⟨by rw [queue], by rw [queue], by rw [tx]; rfl, by rw [tx]; rfl, by rw [tx], fun column => begun column mark⟩

/-- A wait that nothing pending breaks. -/
theorem wentOn_waiting (wait : (p.modTx c bringLine).examined c = .wait) (on : OnCirc c p q)
    (tx : ∃ job out, q.tx c = { bringLine (p.tx c) with state := .waiting, job := job, out := out })
    (current : (q.q c).current = (p.q c).current) (entries : (q.q c).entries = (p.q c).entries)
    (stall : (q.q c).stall = some (p.q c).stallTime) : q.WentOn p c := by
  obtain ⟨job, out, tx⟩ := tx
  have same : q.examined c = .wait := by
    rw [← wait]
    exact examined_congr (by simpa using current) (by simp [tx]) (by simp [tx]) (by simp [tx, bringLine]) fun n =>
      (on.item n).trans (((OnCirc.refl c p).modTx bringLine).item n).symm
  unfold Part.WentOn
  rw [same]
  exact ⟨current, entries, by rw [tx]; rfl, by rw [tx]; rfl, by rw [tx], stall⟩

theorem wentOn_startBody (mark : (p.tx c).startMark = false)
    (calm : (p.modTx c bringLine).examined c = .wait → p.breakDue c = false) : (startBody c p).WentOn p c := by
  refine wentOn_of_gone (OnCirc.refl c p).startBody mark (goneOn_startBody mark) fun wait => ?_
  have on := (OnCirc.refl c p).startBody (c := c)
  rw [startBody_wait mark wait] at on ⊢
  have due : ∀ q : Part, q = ((p.modTx c bringLine).modTx c fun tx => { tx with state := .waiting, job := .none, out := [] }) →
    (q.modQ c fun q => { q with stall := some q.stallTime }).breakDue c = false := by
    rintro q rfl
    rw [← calm wait]
    exact breakDue_congr ⟨by simp, by simp⟩ (by simp) (by simp) (by simp) (by simp) (by simp)
  rw [enterWaiting, checkBreak, if_neg (by simp [due])] at on ⊢
  exact wentOn_waiting wait on ⟨.none, [], by simp [clearBreak]⟩ (by simp [clearBreak]) (by simp [clearBreak])
    (by simp [clearBreak])

theorem wentOn_examineWaiting (mark : (p.tx c).startMark = false) (state : (p.tx c).state = .waiting)
    (stall : (p.q c).stall = some (p.q c).stallTime) : (examineWaiting c p).WentOn p c := by
  refine wentOn_of_gone (OnCirc.refl c p).examineWaiting mark goneOn_examineWaiting fun wait => ?_
  have on := (OnCirc.refl c p).examineWaiting (c := c)
  rw [examineWaiting_wait wait] at on ⊢
  exact wentOn_waiting wait on ⟨(p.tx c).job, (p.tx c).out, by simp [bringLine, state]⟩ (by simp) (by simp) (by simp [stall])

/-- What a sender goes on to does not turn on the pending break, its own state and the stall timer. -/
theorem Part.WentOn.of_same {p' : Part} (h : q.WentOn p' c) (on : OnCirc c p p')
    (tx : ∃ state, p'.tx c = { p.tx c with state := state })
    (queue : ∃ cls quantum stall, p'.q c = { p.q c with breakClass := cls, breakQuantum := quantum, stall := stall }) :
    q.WentOn p c := by
  obtain ⟨state, tx⟩ := tx
  obtain ⟨cls, quantum, stall, queue⟩ := queue
  have killed : p'.currentKilled c = p.currentKilled c := by
    simp only [currentKilled_eq, queue, on.item]
  unfold Part.WentOn at h ⊢
  rwa [tx, queue, killed] at h

/-- The circuit as a break leaves it. -/
def Part.Broken (q p : Part) (c : CircNo) : Prop :=
  ((q.tx c).state = .notice ∧ q.LineBegun c .breakLine (p.tx c).force) ∧
    (q.circ c).tally.breaks = bump (p.circ c).tally.breaks ∧ (q.q c).entries = (p.q c).entries ∧ (q.q c).stall = none ∧
    (q.q c).current = (p.q c).current.map fun e => { e with
      resume := some { offset := (p.tx c).offset, line := (p.tx c).lineNo } }

theorem broken_takeBreak (quantum : Bool) : (takeBreak c quantum p).Broken p c := by
  refine ⟨⟨state_takeBreak quantum, begun_takeBreak quantum⟩, ?_, ?_⟩
  · rw [tally_takeBreak]
  · rw [q_takeBreak]
    cases quantum <;> exact ⟨rfl, rfl, rfl⟩

/-- The check of a pending break that holds. -/
theorem checkBreak_due {cont : Part → Part} (due : p.breakDue c = true) :
    checkBreak c cont p = takeBreak c (p.quantumDue c) p := by rw [checkBreak, if_pos due]

/-- The check of a pending break that does not hold, and where there is none. -/
theorem checkBreak_calm {cont : Part → Part} (calm : p.breakDue c = false) :
    checkBreak c cont p = cont (clearBreak c p) := by rw [checkBreak, if_neg (by simp [calm])]

theorem wentOn_checkBreak (mark : (p.tx c).startMark = false) (calm : p.breakDue c = false) :
    (checkBreak c (startBody c) p).WentOn p c := by
  rw [checkBreak_calm calm]
  refine (wentOn_startBody (p := clearBreak c p) (by simpa [clearBreak] using mark) fun _ => breakDue_clearBreak).of_same
    (OnCirc.refl c p).clearBreak ⟨(p.tx c).state, by simp [clearBreak]⟩
    ⟨false, false, (p.q c).stall, by simp [clearBreak]⟩

/-! ### Selection points (R100) -/

/-- The circuit as a selection point leaves it. -/
def Part.Selected (q p : Part) (c : CircNo) : Prop :=
  ((p.tx c).owed ≠ [] → (q.tx c).state = .notice ∧ q.LineBegun c .owed (p.tx c).force) ∧
  ((p.tx c).owed = [] → match (p.modQ c fun q => { q with force := q.ordered }).choose c with
    | none => (q.tx c).state = .idle ∧ (q.q c).entries = (p.q c).entries ∧ (q.q c).current = (p.q c).current
    | some ch => ((q.tx c).state = .heading ∧ q.LineBegun c .heading (p.tx c).force) ∧
        (q.q c).entries = (p.q c).entries.filter (fun x => x.item ≠ ch.entry.item) ∧
        (q.q c).current = some { ch.entry with cseq := some (ch.entry.cseq.getD (p.tx c).nextCseq) } ∧
        (q.q c).byTurn = ch.byTurn ∧ (q.q c).turn = ch.turn ∧ (q.q c).turnLines = ch.turnLines)

theorem select_none (none : p.choose c = none) : select c p = enterIdle c p := by
  unfold select
  rw [none]

theorem select_some {ch : Choice} (some : p.choose c = some ch) : select c p = becomeCurrent c ch p := by
  unfold select
  rw [some]

theorem begun_becomeCurrent (ch : Choice) : ((becomeCurrent c ch p).tx c).state = .heading ∧
    (becomeCurrent c ch p).LineBegun c .heading (p.tx c).force := by
  unfold becomeCurrent
  constructor
  · simp [takeEntry]
  · have begun := begun_beginLine (c := c) .heading (p := takeEntry c ch (ch.entry.cseq.getD (p.tx c).nextCseq)
      (p.modTx c fun tx => { tx with
        state := .heading, job := .none
        nextCseq := if ch.entry.cseq.isSome then (p.tx c).nextCseq
          else if (p.tx c).nextCseq < 9999 then (p.tx c).nextCseq + 1 else 1 }))
    refine Eq.mp (congrArg _ ?_) begun
    simp [takeEntry]

theorem q_becomeCurrent (ch : Choice) : (becomeCurrent c ch p).q c = { p.q c with
    entries := without ch.entry.item (p.q c).entries
    current := some { ch.entry with cseq := some (ch.entry.cseq.getD (p.tx c).nextCseq) }
    byTurn := ch.byTurn, turn := ch.turn, turnLines := ch.turnLines } := by
  simp [becomeCurrent, takeEntry]

theorem selected_selectionPoint : (selectionPoint c p).Selected p c := by
  constructor
  · intro owed
    rw [selectionPoint_owed owed]
    refine ⟨state_beginNotice _, ?_⟩
    have begun := begun_beginNotice (c := c) .owed (p := clearBreak c (p.modQ c fun q => { q with force := q.ordered }))
    refine Eq.mp (congrArg _ ?_) begun
    simp [clearBreak]
  · intro owed
    have same : (clearBreak c (p.modQ c fun q => { q with force := q.ordered })).choose c =
        (p.modQ c fun q => { q with force := q.ordered }).choose c :=
      choose_congr (by simp [clearBreak]) (by simp [clearBreak]) (by simp [clearBreak]) (by simp [clearBreak])
        (by simp [clearBreak]) (by simp [clearBreak])
    rw [selectionPoint, if_pos (by simpa [clearBreak] using owed), ← same]
    split
    next none =>
      rw [select_none none]
      simp [enterIdle, clearBreak, bringCode]
    next ch some =>
      rw [select_some some]
      refine ⟨⟨(begun_becomeCurrent ch).1, Eq.mp (congrArg _ ?_) (begun_becomeCurrent ch).2⟩, ?_⟩
      · simp [clearBreak]
      · rw [q_becomeCurrent]
        simp only [clearBreak, Part.q_modQ, Part.tx_modQ, without, and_true]
        exact List.filter_congr fun x _ => by
          by_cases same : x.item = ch.entry.item <;> simp [same]

theorem OnCirc.resumeHeld (h : OnCirc c q p) : OnCirc c q (resumeHeld c p) := by
  unfold Machine.resumeHeld
  split
  · exact (h.modTx _).selectionPoint
  · exact h.selectionPoint
  · split
    · exact h.startBody
    · exact h.checkBreak fun _ h => h.startBody
  · exact ((h.modTx _).modQ _).checkBreak fun _ h => h.examineWaiting

theorem Part.Selected.of_state {p' : Part} (h : q.Selected p' c) (on : OnCirc c p p')
    (tx : ∃ state, p'.tx c = { p.tx c with state := state }) (queue : p'.q c = p.q c) : q.Selected p c := by
  obtain ⟨state, tx⟩ := tx
  have chosen : (p'.modQ c fun q => { q with force := q.ordered }).choose c =
      (p.modQ c fun q => { q with force := q.ordered }).choose c :=
    choose_congr (by simp [queue]) (by simp [queue]) (by simp [queue]) (by simp [queue]) (by simp [queue])
      (by simp [on.items])
  unfold Part.Selected at h ⊢
  rwa [tx, queue, chosen] at h

/-- The part with a held sender that waits again, its stall timer started afresh. -/
def stillWaiting (c : CircNo) (p : Part) : Part :=
  (p.modTx c fun tx => { tx with state := .waiting }).modQ c fun q => { q with stall := some q.stallTime }

/-- Settles O34. -/
theorem freeGoesOnFromTheHeldPosition : Obligations.FreeGoesOnFromTheHeldPosition := by
  intro s c h held
  have on : OnCirc c s.part (resumeHeld c s.part) := (OnCirc.refl c s.part).resumeHeld
  refine ⟨resumeHeld c s.part, ?_, on.circs, fun c' ne => on.circ_ne ne, ?_⟩
  · exact after_plain h (check := fun _ => (checkEight c.val).map .free) (o := .free c) (map_checkEight c _)
      (congrArg Done.plain (if_pos held)) (by rw [on.alarm]; exact h.settled)
  have killed : (s.part.q c).current.any (fun e => (s.part.item e.item).killed) = s.part.currentKilled c :=
    currentKilled_eq.symm
  dsimp only
  rw [killed]
  refine ⟨fun pos => ?_, fun afterBody pos => ?_, fun pos => ?_⟩
  · change (resumeHeld c s.part).Selected s.part c
    rw [resumeHeld]
    rcases pos with pos | pos <;> simp only [pos]
    · exact selected_selectionPoint.of_state ((OnCirc.refl c _).modTx _) ⟨.idle, by simp⟩ (by simp)
    · exact selected_selectionPoint
  · have go : resumeHeld c s.part = if afterBody && s.part.bodySent c then startBody c s.part
        else checkBreak c (startBody c) s.part := by rw [resumeHeld, pos]
    rw [go, ← bodySent_eq]
    constructor
    · intro going due
      rw [if_neg (by simpa using going), checkBreak_due due]
      exact broken_takeBreak _
    · intro calm mark
      change Part.WentOn _ s.part c
      by_cases sent : (afterBody && s.part.bodySent c) = true
      · rw [if_pos sent]
        refine wentOn_startBody mark fun wait => absurd ?_ (fun h : BodyStep.done = .wait => nomatch h)
        rw [← wait]
        refine (examined_of_sent ?_).symm
        rw [Bool.and_eq_true] at sent
        rw [← sent.2]
        simp [bodySent_eq, bringLine, ((OnCirc.refl c s.part).modTx bringLine).item]
      · rw [if_neg sent]
        exact wentOn_checkBreak mark (calm.resolve_left (by simpa using sent))
  · have on : OnCirc c s.part (stillWaiting c s.part) := ((OnCirc.refl c s.part).modTx _).modQ _
    have go : resumeHeld c s.part = checkBreak c (examineWaiting c) (stillWaiting c s.part) := by rw [resumeHeld, pos]; rfl
    have same : (stillWaiting c s.part).breakDue c = s.part.breakDue c :=
      breakDue_congr (by simp [stillWaiting]) (by simp [stillWaiting]) (by simp [stillWaiting]) (by simp [stillWaiting])
        (by simp [stillWaiting]) on.items
    rw [go]
    constructor
    · intro due
      rw [checkBreak_due (by rw [same, due])]
      change Part.Broken _ s.part c
      simpa [Part.Broken, stillWaiting] using broken_takeBreak (p := stillWaiting c s.part) (c := c) _
    · intro calm mark
      rw [checkBreak_calm (by rw [same, calm])]
      refine (wentOn_examineWaiting (p := clearBreak c (stillWaiting c s.part)) ?_ ?_ ?_).of_same on.clearBreak
        ⟨.waiting, by simp [clearBreak, stillWaiting]⟩
        ⟨false, false, some (s.part.q c).stallTime, by simp [clearBreak, stillWaiting]⟩
      · simpa [clearBreak, stillWaiting] using mark
      · simp [clearBreak, stillWaiting]
      · simp [clearBreak, stillWaiting]

end Sys2Proof.Machine
end

section
/-! Body output lines: their formation and the examination of an item (R129, R130). -/

namespace Sys2Proof.Machine

variable {body cs : Text} {ended : Bool} {width margin k lo i j n : Nat} {best : Option Nat}

/-! ### The last space in reach -/

theorem lastSpaceAux_of_none (none : ∀ n, lo ≤ i + n → cs[n]? ≠ some spaceChr) : lastSpaceAux lo cs i best = best := by
  induction cs generalizing i best with
  | nil => rfl
  | cons c cs ih =>
    have here : (c = spaceChr && lo ≤ i) = false := by
      have := none 0
      simp only [Nat.add_zero, List.getElem?_cons_zero, ne_eq, Option.some.injEq] at this
      simp only [Bool.and_eq_false_iff, decide_eq_false_iff_not]
      tauto
    rw [lastSpaceAux, here]
    exact ih fun n in_reach => none (n + 1) (by omega)

theorem lastSpaceAux_of_last (reach : lo ≤ i + n) (space : cs[n]? = some spaceChr)
    (last : ∀ m, n < m → cs[m]? ≠ some spaceChr) : lastSpaceAux lo cs i best = some (i + n) := by
  induction cs generalizing i best n with
  | nil => simp at space
  | cons c cs ih =>
    rw [lastSpaceAux]
    cases n with
    | zero =>
      rw [lastSpaceAux_of_none fun m _ => last (m + 1) (by omega)]
      simp only [List.getElem?_cons_zero, Option.some.injEq] at space
      simp_all
    | succ n => rw [ih (n := n) (by omega) space fun m later => last (m + 1) (by omega)]; congr 1; omega

theorem space_of_lastSpaceAux (is : lastSpaceAux lo cs i best = some j) :
    best = some j ∨ ∃ n, j = i + n ∧ cs[n]? = some spaceChr := by
  induction cs generalizing i best with
  | nil => exact .inl is
  | cons c cs ih =>
    rw [lastSpaceAux] at is
    rcases ih is with here | ⟨n, rfl, space⟩
    · split at here
      next at_once => exact .inr ⟨0, by simp_all⟩
      next => exact .inl here
    · exact .inr ⟨n + 1, by omega, space⟩

/-! ### The five steps (R130) -/

theorem getElem?_reach (fits : j < width) : ((body.drop k).take width)[j]? = body[k + j]? := by
  rw [List.getElem?_take_of_lt fits, List.getElem?_drop]

theorem getElem?_past_reach (past : width ≤ j) : ((body.drop k).take width)[j]? = none :=
  List.getElem?_eq_none (by simp; omega)

theorem formLine_lineEnd (fits : j < width) (ends : body[k + j]? = some lineEndChr)
    (first : ∀ i, i < j → body[k + i]? ≠ some lineEndChr) :
    formLine body ended width margin k = { text := (body.drop k).take j, next := k + j + 1, last := false } := by
  have here := (getElem?_reach fits).trans ends
  have found : ((body.drop k).take width).findIdx? (· == lineEndChr) = some j := by
    obtain ⟨within, is⟩ := List.getElem?_eq_some_iff.mp here
    refine List.findIdx?_eq_some_iff_getElem.mpr ⟨within, by simp [is], fun i before same => first i before ?_⟩
    rw [← getElem?_reach (by omega : i < width)]
    exact List.getElem?_eq_some_iff.mpr ⟨by omega, by simpa using same⟩
  simp only [formLine, found]

theorem findIdx?_reach (unended : ∀ j, j < width → body[k + j]? ≠ some lineEndChr) :
    ((body.drop k).take width).findIdx? (· == lineEndChr) = none := by
  refine List.findIdx?_eq_none_iff.mpr fun c member => ?_
  obtain ⟨j, is⟩ := List.getElem?_of_mem member
  have fits : j < width := by
    by_contra past
    rw [getElem?_past_reach (by omega)] at is
    exact nomatch is
  have other := unended j fits
  rw [← getElem?_reach fits, is] at other
  simpa using other

theorem formLine_rest (unended : ∀ j, j < width → body[k + j]? ≠ some lineEndChr) (inside : k < body.length)
    (fits : body.length ≤ k + width) :
    formLine body true width margin k =
      { text := (body.drop k).take (body.length - k), next := body.length, last := true } := by
  have whole : (body.drop k).take (body.length - k) = body.drop k := List.take_of_length_le (by simp)
  have past : k + (body.length - k) = body.length := by omega
  simp [formLine, findIdx?_reach unended, whole, past, Nat.sub_le_iff_le_add'.mpr fits]

theorem formLine_wide (unended : ∀ j, j < width → body[k + j]? ≠ some lineEndChr)
    (more : ended = false ∨ k + width < body.length)
    (breaks : body[k + width]? = some spaceChr ∨ body[k + width]? = some lineEndChr) :
    formLine body ended width margin k = { text := (body.drop k).take width, next := k + width + 1, last := false } := by
  have not_rest : ¬ (ended && (body.drop k).length ≤ width) = true := by
    rcases more with filling | more
    · simp [filling]
    · simp; omega
  simp only [formLine, findIdx?_reach unended, if_neg not_rest, List.getElem?_drop]
  rw [if_pos (by simpa using breaks)]

/-- Without a line end in reach, and with a character that goes on past the width, the margin decides. -/
theorem formLine_margin (unended : ∀ j, j < width → body[k + j]? ≠ some lineEndChr)
    (more : ended = false ∨ k + width < body.length)
    (goes : body[k + width]? ≠ some spaceChr ∧ body[k + width]? ≠ some lineEndChr) :
    formLine body ended width margin k = match lastSpaceAux (width - margin) ((body.drop k).take width) 0 none with
      | some j => { text := (body.drop k).take j, next := k + j + 1, last := false }
      | none => { text := (body.drop k).take width, next := k + width, last := false } := by
  have not_rest : ¬ (ended && (body.drop k).length ≤ width) = true := by
    rcases more with filling | more
    · simp [filling]
    · simp; omega
  simp only [formLine, findIdx?_reach unended, if_neg not_rest, List.getElem?_drop]
  exact if_neg (by simpa using goes)

theorem formLine_margin_space (unended : ∀ j, j < width → body[k + j]? ≠ some lineEndChr)
    (more : ended = false ∨ k + width < body.length)
    (goes : body[k + width]? ≠ some spaceChr ∧ body[k + width]? ≠ some lineEndChr)
    (reach : width - margin ≤ j) (fits : j < width) (space : body[k + j]? = some spaceChr)
    (last : ∀ i, j < i → i < width → body[k + i]? ≠ some spaceChr) :
    formLine body ended width margin k = { text := (body.drop k).take j, next := k + j + 1, last := false } := by
  rw [formLine_margin unended more goes, lastSpaceAux_of_last (n := j) (by omega) (by rwa [getElem?_reach fits])]
  · simp
  · intro m later
    by_cases within : m < width
    · rw [getElem?_reach within]
      exact last m later within
    · simp [getElem?_past_reach (Nat.le_of_not_lt within)]

theorem formLine_hard (unended : ∀ j, j < width → body[k + j]? ≠ some lineEndChr)
    (more : ended = false ∨ k + width < body.length)
    (goes : body[k + width]? ≠ some spaceChr ∧ body[k + width]? ≠ some lineEndChr)
    (unspaced : ∀ j, width - margin ≤ j → j < width → body[k + j]? ≠ some spaceChr) :
    formLine body ended width margin k = { text := (body.drop k).take width, next := k + width, last := false } := by
  rw [formLine_margin unended more goes, lastSpaceAux_of_none]
  intro m reach
  by_cases within : m < width
  · rw [getElem?_reach within]
    exact unspaced m (by omega) within
  · simp [getElem?_past_reach (Nat.le_of_not_lt within)]

/-! ### What every line has -/

/-- A line of `n` characters from the send offset, with what it consumes. -/
theorem line_of_take (fits : n ≤ width) (inside : k + n ≤ body.length)
    (unended : ∀ j, j < n → body[k + j]? ≠ some lineEndChr) {ln : BodyLine} (text : ln.text = (body.drop k).take n) :
    ln.text.length = n ∧ ln.text = (body.drop k).take ln.text.length ∧ ln.text.length ≤ width ∧ lineEndChr ∉ ln.text := by
  have length : ln.text.length = n := by rw [text]; simp; omega
  refine ⟨length, by rw [length, text], by omega, fun member => ?_⟩
  obtain ⟨j, is⟩ := List.getElem?_of_mem member
  have within : j < n := by rw [← length]; exact (List.getElem?_eq_some_iff.mp is).1
  rw [text, getElem?_reach within] at is
  exact unended j within is

/-- What a formed line has: it is a run of the characters from the send offset, fits the width, and the next line starts
right after it or after the one character that it consumes. -/
def LineFits (body : Text) (ended : Bool) (width k : Nat) (ln : BodyLine) : Prop :=
  ln.text = (body.drop k).take ln.text.length ∧ ln.text.length ≤ width ∧ lineEndChr ∉ ln.text ∧
    (ln.next = k + ln.text.length ∨ (ln.next = k + ln.text.length + 1 ∧
      (body[k + ln.text.length]? = some spaceChr ∨ body[k + ln.text.length]? = some lineEndChr))) ∧
    k < ln.next ∧ ln.next ≤ body.length ∧ (ln.last = true → ended = true ∧ ln.next = body.length)

/-- A line that consumes nothing after its characters. -/
theorem lineFits_run {last : Bool} (moves : 0 < n) (fits : n ≤ width) (inside : k + n ≤ body.length)
    (unended : ∀ j, j < n → body[k + j]? ≠ some lineEndChr) (ends : last = true → ended = true ∧ k + n = body.length) :
    LineFits body ended width k { text := (body.drop k).take n, next := k + n, last := last } := by
  obtain ⟨length, run, width, unended⟩ := line_of_take (ln := ⟨_, k + n, last⟩) fits inside unended rfl
  exact ⟨run, width, unended, .inl (by rw [length]), by simp; omega, inside, ends⟩

/-- A line that consumes the space or line end after its characters. -/
theorem lineFits_consumed (fits : n ≤ width) (unended : ∀ j, j < n → body[k + j]? ≠ some lineEndChr)
    (consumed : body[k + n]? = some spaceChr ∨ body[k + n]? = some lineEndChr) :
    LineFits body ended width k { text := (body.drop k).take n, next := k + n + 1, last := false } := by
  have inside : k + n < body.length := by
    rcases consumed with is | is <;> exact (List.getElem?_eq_some_iff.mp is).1
  obtain ⟨length, run, width, unended⟩ := line_of_take (ln := ⟨_, k + n + 1, false⟩) fits (by omega) unended rfl
  exact ⟨run, width, unended, .inr ⟨by rw [length], by rwa [length]⟩, by simp, inside, nofun⟩

/-- A line without a line end in reach. -/
theorem lineFits_open (unended : ∀ j, j < width → body[k + j]? ≠ some lineEndChr) (wide : 1 ≤ width)
    (inside : k < body.length)
    (formable : ended = true ∨ width + 1 ≤ body.length - k ∨ lineEndChr ∈ (body.drop k).take (width + 1)) :
    LineFits body ended width k (formLine body ended width margin k) := by
  by_cases rest : ended = true ∧ body.length ≤ k + width
  · obtain ⟨rfl, fits⟩ := rest
    rw [formLine_rest unended inside fits]
    have whole : k + (body.length - k) = body.length := by omega
    have run := lineFits_run (body := body) (k := k) (ended := true) (last := true) (n := body.length - k) (width := width)
      (by omega) (by omega) (by omega) (fun j within => unended j (by omega)) fun _ => ⟨rfl, whole⟩
    rwa [whole] at run
  have more : ended = false ∨ k + width < body.length := by
    cases ended
    · exact .inl rfl
    · exact .inr (by simpa using rest)
  by_cases breaks : body[k + width]? = some spaceChr ∨ body[k + width]? = some lineEndChr
  · rw [formLine_wide unended more breaks]
    exact lineFits_consumed le_rfl unended breaks
  have past : k + width < body.length := by
    rcases formable with ended | long | ends
    · exact more.resolve_left (by simp [ended])
    · omega
    · obtain ⟨j, is⟩ := List.getElem?_of_mem ends
      have within := (List.getElem?_eq_some_iff.mp is).1
      rw [List.length_take] at within
      rw [getElem?_reach (by omega)] at is
      by_cases short : j < width
      · exact absurd is (unended j short)
      · have : k + j < body.length := (List.getElem?_eq_some_iff.mp is).1
        omega
  rw [not_or] at breaks
  rw [formLine_margin unended more breaks]
  cases last : lastSpaceAux (width - margin) ((body.drop k).take width) 0 none with
  | none => exact lineFits_run (by omega) le_rfl (by omega) unended nofun
  | some j =>
    obtain ⟨n, rfl, space⟩ := (space_of_lastSpaceAux last).resolve_left nofun
    rw [Nat.zero_add]
    have fits : n < width := by
      by_contra beyond
      rw [getElem?_past_reach (by omega)] at space
      exact nomatch space
    rw [getElem?_reach fits] at space
    exact lineFits_consumed (by omega) (fun j within => unended j (by omega)) (.inl space)

/-- Settles O32. -/
theorem formedLineFitsTheWidth : Obligations.FormedLineFitsTheWidth := by
  refine ⟨fun body ended width margin k wide inside formable => ?_, fun body ended width margin k wide inside => ?_,
    fun it width margin k => ⟨fun ended whole => ?_, fun filling => ?_⟩, fun p c e current => ?_⟩
  · change LineFits body ended width k (formLine body ended width margin k)
    by_cases ends : ∃ j, j < width ∧ body[k + j]? = some lineEndChr
    · classical
      obtain ⟨fits, is⟩ := Nat.find_spec ends
      have first : ∀ i, i < Nat.find ends → body[k + i]? ≠ some lineEndChr := fun i before same =>
        Nat.find_min ends before ⟨by omega, same⟩
      rw [formLine_lineEnd fits is first]
      exact lineFits_consumed (by omega) first (.inr is)
    · exact lineFits_open (fun j fits is => ends ⟨j, fits, is⟩) wide inside formable
  · refine ⟨fun j fits ends first => formLine_lineEnd fits ends first, fun unended => ⟨?_, fun more => ⟨?_, ?_⟩⟩⟩
    · rintro rfl fits
      exact formLine_rest unended inside fits
    · exact formLine_wide unended more
    · exact fun space ends => ⟨fun j reach fits is last => formLine_margin_space unended more ⟨space, ends⟩ reach fits is last,
        formLine_hard unended more ⟨space, ends⟩⟩
  · simp [bodyStep, ended, whole]
  · simp [bodyStep, filling]
  · rw [Part.examined, current]

end Sys2Proof.Machine
end

section
/-! The end of a frame: what the frame itself changes (R123). -/

namespace Sys2Proof.Machine

variable {p p₀ q : Part} {c c' : CircNo} {f : Frame} {rest : List Frame}

/-- A recomputation against a backlog that has not grown changes the one circuit alone. -/
theorem OnCirc.recompute (h : OnCirc c p₀ p) (fit : p.Fit c) (less : backlogOf (p.q c) ≤ (p.load c).backlog) :
    OnCirc c p₀ (recompute c p) := by
  obtain ⟨a, st, eq, -, -⟩ := recompute_eq c p
  have quiet := alarm_recompute_of_le fit less
  rw [eq] at quiet ⊢
  have same : a = p.alarm := quiet
  subst same
  exact (h.modLoad fun ld => { ld with backlog := backlogOf (p.q c), state := st } :)

/-- The current entry of a queue with one frame more spent. -/
def spentQueue (q : Queue) : Queue :=
  { q with current := q.current.map fun e => { e with spent := e.spent + 1 } }

theorem backlogOf_spentQueue (q : Queue) : backlogOf (spentQueue q) ≤ backlogOf q := by
  cases current : q.current with
  | none => simp [backlogOf, spentQueue, Queue.held, current]
  | some e =>
    have less : e.estimate - (e.spent + 1) ≤ e.estimate - e.spent := by omega
    simpa [backlogOf, spentQueue, Queue.held, current, contribution] using less

theorem Part.Fit.spent (h : p.Fit c) : (p.modQ c spentQueue).Fit c := by
  refine h.of_subset ?_ (by simp)
  have := h.estimates
  rw [Part.q_modQ, spentQueue, held_map_current]
  cases current : (p.q c).current <;> simpa [Queue.held, current] using this

theorem Part.Balanced.spendOne (h : p.Balanced c) : (spendOne c p).Balanced c := h.toFit.spent.recompute

theorem OnCirc.spendOne (h : OnCirc c p₀ p) (balanced : p.Balanced c) : OnCirc c p₀ (spendOne c p) := by
  refine OnCirc.recompute (h.modQ _) balanced.toFit.spent ?_
  · rw [Part.q_modQ, Part.load_modQ, balanced.backlog]
    exact backlogOf_spentQueue _

/-! ### The frame ended -/

/-- The part once the frame `f` is counted and spent, `rest` being left of its output line. -/
def frameOut (c : CircNo) (f : Frame) (rest : List Frame) (p : Part) : Part :=
  let q := (p.modTx c fun tx => { frameEnded f (rest = []) tx with out := rest }).modTally c fun t =>
    { t with sent := bump t.sent }
  if (p.tx c).job.ofEntry then spendOne c q else q

theorem frameSent_eq (out : (p.tx c).out = f :: rest) : frameSent c p =
    if rest = [] then jobDone c (p.tx c).job (frameOut c f rest p) else frameOut c f rest p := by
  rw [frameSent, out]
  rfl

theorem tx_frameOut : (frameOut c f rest p).tx c = { frameEnded f (rest = []) (p.tx c) with out := rest } := by
  unfold frameOut
  simp only
  split <;> simp

theorem q_frameOut : (frameOut c f rest p).q c =
    if (p.tx c).job.ofEntry = true then spentQueue (p.q c) else p.q c := by
  unfold frameOut
  simp only
  split <;> simp [spendOne, spentQueue]

theorem tally_frameOut : ((frameOut c f rest p).circ c).tally =
    { (p.circ c).tally with sent := bump (p.circ c).tally.sent } := by
  unfold frameOut
  simp only
  split <;> simp [spendOne]

theorem Part.Balanced.counted {g : Sender → Sender} {k : CircTally → CircTally} (h : p.Balanced c) :
    ((p.modTx c g).modTally c k).Balanced c := h.of_same (by simp) (by simp) (by simp)

theorem onCirc_frameOut (balanced : p.Balanced c) : OnCirc c p (frameOut c f rest p) := by
  unfold frameOut
  simp only
  split
  · exact OnCirc.spendOne (((OnCirc.refl c p).modTx _).modTally _) balanced.counted
  · exact ((OnCirc.refl c p).modTx _).modTally _

theorem balanced_frameOut (balanced : p.Balanced c) : (frameOut c f rest p).Balanced c := by
  unfold frameOut
  simp only
  split
  · exact balanced.counted.spendOne
  · exact balanced.counted

/-- The column and shift after a frame within its output line, and at its end. -/
theorem frameEnded_eq (last : Bool) (tx : Sender) : frameEnded f last tx = { tx with
    column := if f.sort = .printing then tx.column + 1 else if f.sort = .cr then 0 else tx.column
    shift := if last = true ∧ (f.sort = .lf ∨ f.sort = .fill) ∧ (1 ≤ tx.force.fills ∨ tx.force.unshift = true) then .letters
      else if f.code = .five ∧ f.sort = .figs then .figures
      else if f.code = .five ∧ (f.sort = .ltrs ∨ f.sort = .fill) then .letters else tx.shift } := by
  obtain ⟨code, value, parity, sort⟩ := f
  cases code <;> cases sort <;> cases last <;> simp [frameEnded]

end Sys2Proof.Machine
end

section
/-! What the beginning of the next line leaves of a sender: its place in the body, column, shift and debts. -/

namespace Sys2Proof.Machine

variable {p q : Part} {c : CircNo} {tx₀ tx tx' : Sender}

/-- From `tx₀` to `tx` the sender has kept its place in the body, its column and what it owes; the shift is as it was
unless a new code has come into force, which puts it in letters. -/
structure Steady (tx₀ tx : Sender) : Prop where
  offset : tx.offset = tx₀.offset
  lineNo : tx.lineNo = tx₀.lineNo
  column : tx.column = tx₀.column
  owed : tx.owed = tx₀.owed
  startMark : tx.startMark = tx₀.startMark
  ordered : tx.ordered = tx₀.ordered
  code : tx.force.code = tx₀.force.code ∨ tx.force.code = tx₀.ordered.code
  shift : tx.shift = if tx.force.code = tx₀.force.code then tx₀.shift else .letters

theorem Steady.refl (tx : Sender) : Steady tx tx := ⟨rfl, rfl, rfl, rfl, rfl, rfl, .inl rfl, by simp⟩

/-- A change of state, job, frames, cseq, hold or parameters in force but the code. -/
theorem Steady.of_same (h : Steady tx₀ tx) (same : tx' = { tx with
      state := tx'.state, job := tx'.job, out := tx'.out, nextCseq := tx'.nextCseq, holdPending := tx'.holdPending
      heldPos := tx'.heldPos, force := tx'.force }) (code : tx'.force.code = tx.force.code) : Steady tx₀ tx' := by
  rw [same]
  exact ⟨h.offset, h.lineNo, h.column, h.owed, h.startMark, h.ordered, by rw [code]; exact h.code,
    by simp only [code]; exact h.shift⟩

theorem Steady.bringCode (h : Steady tx₀ tx) : Steady tx₀ (bringCode tx) := by
  refine ⟨h.offset, h.lineNo, h.column, h.owed, h.startMark, h.ordered, .inr (by rw [← h.ordered]; rfl), ?_⟩
  have shift := h.shift
  have code := h.code
  rw [← h.ordered] at code
  simp only [Machine.bringCode]
  grind

theorem Steady.modTx {f : Sender → Sender} (h : Steady tx₀ (p.tx c)) (step : ∀ tx, Steady tx₀ tx → Steady tx₀ (f tx)) :
    Steady tx₀ ((p.modTx c f).tx c) := by
  rw [Part.tx_modTx]
  exact step _ h

theorem Steady.modQ {f : Queue → Queue} (h : Steady tx₀ (p.tx c)) : Steady tx₀ ((p.modQ c f).tx c) := by
  rwa [Part.tx_modQ]

theorem Steady.beginLine (h : Steady tx₀ (p.tx c)) (kind : LineKind) : Steady tx₀ ((beginLine c kind p).tx c) := by
  rw [tx_beginLine]
  refine h.of_same ?_ ?_
  · unfold lineBegun
    split <;> rfl
  · rw [force_lineBegun]
    split <;> rfl

theorem Steady.bringLine (h : Steady tx₀ tx) : Steady tx₀ (bringLine tx) := h.of_same rfl rfl

theorem Steady.beginNotice (h : Steady tx₀ (p.tx c)) (kind : LineKind) : Steady tx₀ ((beginNotice c kind p).tx c) := by
  unfold Machine.beginNotice stopStall
  refine Steady.beginLine (Steady.modQ (Steady.modTx h fun _ h => ?_)) kind
  exact h.of_same rfl rfl

theorem Steady.takeBreak (h : Steady tx₀ (p.tx c)) (quantum : Bool) : Steady tx₀ ((takeBreak c quantum p).tx c) := by
  rw [takeBreak_eq]
  exact Steady.beginNotice (by rwa [tx_interrupted]) _

theorem Steady.checkBreak {cont : Part → Part} (h : Steady tx₀ (p.tx c))
    (go : ∀ p : Part, Steady tx₀ (p.tx c) → Steady tx₀ ((cont p).tx c)) : Steady tx₀ ((checkBreak c cont p).tx c) := by
  unfold Machine.checkBreak
  split
  · exact h.takeBreak _
  · exact go _ h.modQ

theorem Steady.enterIdle (h : Steady tx₀ (p.tx c)) : Steady tx₀ ((enterIdle c p).tx c) := by
  unfold Machine.enterIdle
  refine h.modTx fun _ h => Steady.bringCode ?_
  exact h.of_same rfl rfl

theorem Steady.enterHeld (h : Steady tx₀ (p.tx c)) (pos : HeldPos) : Steady tx₀ ((enterHeld c pos p).tx c) := by
  unfold Machine.enterHeld
  refine Steady.modTx h.modQ fun _ h => Steady.bringCode ?_
  exact h.of_same rfl rfl

theorem Steady.select (h : Steady tx₀ (p.tx c)) : Steady tx₀ ((select c p).tx c) := by
  unfold Machine.select
  split
  · unfold becomeCurrent takeEntry
    refine Steady.beginLine (Steady.modQ (Steady.modTx h fun _ h => ?_)) _
    exact h.of_same rfl rfl
  · exact h.enterIdle

theorem Steady.selectionPoint (h : Steady tx₀ (p.tx c)) : Steady tx₀ ((selectionPoint c p).tx c) := by
  have fresh : Steady tx₀ ((clearBreak c (p.modQ c fun q => { q with force := q.ordered })).tx c) := h.modQ.modQ
  unfold Machine.selectionPoint
  simp only
  split
  · exact fresh.select
  · exact fresh.beginNotice _

theorem Steady.enterTrailer (h : Steady tx₀ (p.tx c)) (next : Nat) : Steady tx₀ ((enterTrailer c next p).tx c) := by
  unfold Machine.enterTrailer
  have entered (state : SenderState) : Steady tx₀ ((stopStall c (p.modTx c fun tx => { tx with state := state })).tx c) :=
    by
      refine Steady.modQ (Steady.modTx h fun _ h => ?_)
      exact h.of_same rfl rfl
  refine ite_cases (P := fun q : Part => Steady tx₀ (q.tx c)) (fun _ => (entered _).beginLine _) fun _ => ?_
  refine (entered _).modTx fun _ h => ?_
  exact h.of_same rfl rfl

theorem Steady.startBody (h : Steady tx₀ (p.tx c)) : Steady tx₀ ((startBody c p).tx c) := by
  have brought : Steady tx₀ ((p.modTx c Machine.bringLine).tx c) := h.modTx fun _ h => h.bringLine
  unfold Machine.startBody
  split
  · unfold sendStartEnd
    refine h.modTx fun _ h => ?_
    exact h.of_same rfl rfl
  · simp only
    split
    · exact brought.enterTrailer _
    · unfold sendBody stopStall
      refine Steady.modQ (brought.modTx fun _ h => ?_)
      exact h.of_same rfl rfl
    · unfold enterWaiting
      refine Steady.checkBreak (Steady.modQ (brought.modTx fun _ h => ?_)) fun _ h => h
      exact h.of_same rfl rfl

theorem Steady.holdOrSelect (h : Steady tx₀ (p.tx c)) : Steady tx₀ ((holdOrSelect c p).tx c) := by
  unfold Machine.holdOrSelect
  split
  · exact h.enterHeld _
  · exact h.selectionPoint

end Sys2Proof.Machine
end

section
/-! What follows an output line: the body, a selection, or a stop (R100, R106, R131, R138). -/

namespace Sys2Proof.Machine

variable {p q : Part} {c : CircNo}

/-! ### The body after a line (R129, R131, R132) -/

/-- The examination turns on the item of the current entry alone, not on what else the entry holds. -/
theorem examined_of_items (current : (q.q c).current.map (·.item) = (p.q c).current.map (·.item))
    (width : (q.tx c).force.width = (p.tx c).force.width) (margin : (q.tx c).force.margin = (p.tx c).force.margin)
    (offset : (q.tx c).offset = (p.tx c).offset) (item : ∀ n, q.item n = p.item n) : q.examined c = p.examined c := by
  unfold Part.examined
  rw [width, margin, offset]
  cases now : (q.q c).current <;> cases before : (p.q c).current <;> simp_all

/-- The sender of `q` has gone on with the body from `p`, whose pending break is due where `due` says so. -/
def Part.BodyGoes (q p : Part) (c : CircNo) (due : Bool) : Prop :=
  (q.tx c).force = { (p.tx c).ordered with rate := (p.tx c).force.rate, code := (p.tx c).force.code } ∧
    match q.examined c with
    | .line ln => ((q.q c).current = (p.q c).current ∧ (q.q c).entries = (p.q c).entries) ∧ (q.tx c).state = .copy ∧
        (q.tx c).job = .body ln.next ln.last ∧
        (q.tx c).out = textFrames (q.tx c).force.code (q.tx c).shift ln.text ++
          (if ln.last = true then [] else lineEndFrames (q.tx c).force.code (q.tx c).force.fills)
    | .wait => if due then q.Broken p c
        else ((q.q c).current = (p.q c).current ∧ (q.q c).entries = (p.q c).entries) ∧ (q.tx c).state = .waiting ∧
          (q.q c).stall = some (p.q c).stallTime
    | .done => ((q.q c).current = (p.q c).current ∧ (q.q c).entries = (p.q c).entries) ∧ (q.tx c).state = .trailer ∧
        ((p.tx c).column = 0 → q.LineBegun c .trailer (p.tx c).force)

/-- The part that waits for its item, before its pending break is checked. -/
def waited (c : CircNo) (p : Part) : Part :=
  ((p.modTx c bringLine).modTx c fun tx => { tx with state := .waiting, job := .none, out := [] }).modQ c fun q =>
    { q with stall := some q.stallTime }

theorem enterWaiting_eq : enterWaiting c (p.modTx c bringLine) = checkBreak c (fun p => p) (waited c p) := rfl

theorem onCirc_waited : OnCirc c p (waited c p) := (((OnCirc.refl c p).modTx _).modTx _).modQ _

theorem breakDue_waited : (waited c p).breakDue c = p.breakDue c :=
  breakDue_congr (by simp [waited]) (by simp [waited]) (by simp [waited]) (by simp [waited]) (by simp [waited])
    onCirc_waited.items

/-- A sender that waits, and whose pending break is due. -/
theorem bodyGoes_broken (mark : (p.tx c).startMark = false) (wait : (p.modTx c bringLine).examined c = .wait) (quantum : Bool) :
    (takeBreak c quantum (waited c p)).BodyGoes p c true := by
  have on : OnCirc c p (takeBreak c quantum (waited c p)) := onCirc_waited.takeBreak _
  have steady := Steady.takeBreak (Steady.refl ((waited c p).tx c)) quantum
  have force : ((takeBreak c quantum (waited c p)).tx c).force =
      { (p.tx c).ordered with rate := (p.tx c).force.rate, code := (p.tx c).force.code } := by
    obtain ⟨q, begun⟩ := tx_takeBreak (p := waited c p) (c := c) quantum
    rw [begun, force_lineBegun]
    simp [waited, bringLine, mark]
  have broken := broken_takeBreak (p := waited c p) (c := c) quantum
  have same : (takeBreak c quantum (waited c p)).examined c = .wait := by
    rw [← wait]
    obtain ⟨-, -, -, -, current⟩ := broken
    refine examined_of_items ?_ (by simp [force, bringLine]) (by simp [force, bringLine]) ?_ fun n =>
      (on.item n).trans (((OnCirc.refl c p).modTx bringLine).item n).symm
    · rw [current]
      simp [waited, Function.comp_def]
    · rw [steady.offset]
      simp [waited]
  refine ⟨force, ?_⟩
  rw [same]
  obtain ⟨⟨state, begun⟩, breaks, entries, stall, current⟩ := broken
  refine ⟨⟨state, begun.of_code ?_ ?_ ?_⟩, ?_, ?_, stall, ?_⟩
  · rw [steady.startMark]
    simpa [waited, bringLine] using mark
  · simp [waited, bringLine]
  · simp [waited, bringLine]
  · rw [breaks]
    simp [waited]
  · rw [entries]
    simp [waited]
  · rw [current]
    simp [waited, bringLine]

theorem bodyGoes_startBody (mark : (p.tx c).startMark = false) (alive : p.currentKilled c = false) :
    (startBody c p).BodyGoes p c (p.breakDue c) := by
  by_cases wait : (p.modTx c bringLine).examined c = .wait
  · rw [startBody_wait mark wait, enterWaiting_eq]
    cases due : p.breakDue c with
    | true =>
      rw [checkBreak_due (by rw [breakDue_waited, due])]
      exact bodyGoes_broken mark wait _
    | false =>
      have on : OnCirc c p (clearBreak c (waited c p)) := onCirc_waited.clearBreak
      have same : (clearBreak c (waited c p)).examined c = .wait := by
        rw [← wait]
        exact examined_congr (by simp [clearBreak, waited]) (by simp [clearBreak, waited]) (by simp [clearBreak, waited])
          (by simp [clearBreak, waited]) fun n => (on.item n).trans (((OnCirc.refl c p).modTx bringLine).item n).symm
      rw [checkBreak_calm (by rw [breakDue_waited, due])]
      refine ⟨by simp [clearBreak, waited, bringLine], ?_⟩
      rw [same]
      simp [clearBreak, waited]
  · have gone := goneOn_startBody mark
    have same := examined_of_gone gone wait (OnCirc.refl c p).startBody
    unfold Part.BodyGoes
    rw [same]
    cases step : (p.modTx c bringLine).examined c with
    | wait => exact absurd step wait
    | line ln =>
      rw [step] at gone
      obtain ⟨tx, queue⟩ := gone
      simp [tx, queue, bringLine]
    | done =>
      rw [step] at gone
      obtain ⟨tx, queue, begun⟩ := gone
      rw [alive] at tx begun
      exact ⟨by rw [tx]; rfl, ⟨by rw [queue], by rw [queue]⟩, by rw [tx]; rfl, fun column => begun column mark⟩

/-- Where no break is pending, the body goes on in the turn as it stands. -/
theorem q_startBody_clear (clear : (p.q c).breakClass = false ∧ (p.q c).breakQuantum = false) :
    ∃ stall, (startBody c p).q c = { p.q c with stall := stall } := by
  obtain ⟨cls, quantum⟩ := clear
  by_cases mark : (p.tx c).startMark = true
  · exact ⟨(p.q c).stall, by simp [startBody, mark, sendStartEnd]⟩
  rw [Bool.not_eq_true] at mark
  have gone := goneOn_startBody mark
  cases step : (p.modTx c bringLine).examined c with
  | wait =>
    refine ⟨some (p.q c).stallTime, ?_⟩
    rw [startBody_wait mark step, enterWaiting_eq, checkBreak_calm]
    · simp [clearBreak, waited, cls, quantum]
    · rw [breakDue_waited, Part.breakDue, Part.quantumDue, cls, quantum]
      rfl
  | line ln =>
    rw [step] at gone
    exact ⟨none, gone.2⟩
  | done =>
    rw [step] at gone
    exact ⟨none, gone.2.1⟩

theorem examined_bringLine_of_sent (sent : p.bodySent c = true) : (p.modTx c bringLine).examined c = .done := by
  refine examined_of_sent ?_
  rw [← sent]
  simp [bodySent_eq, bringLine, ((OnCirc.refl c p).modTx bringLine).item]

/-- Where the body has all been sent, the pending break stands. -/
theorem q_startBody_sent (sent : p.bodySent c = true) : ∃ stall, (startBody c p).q c = { p.q c with stall := stall } := by
  by_cases mark : (p.tx c).startMark = true
  · exact ⟨(p.q c).stall, by simp [startBody, mark, sendStartEnd]⟩
  rw [Bool.not_eq_true] at mark
  have gone := goneOn_startBody mark
  rw [examined_bringLine_of_sent sent] at gone
  exact ⟨none, gone.2.1⟩

/-! ### Tallies -/

/-- From `p₀` to `p` no tally of the circuit but that of its breaks has changed. -/
def BreaksOnly (c : CircNo) (p₀ p : Part) : Prop :=
  ∃ breaks, (p.circ c).tally = { (p₀.circ c).tally with breaks := breaks }

theorem BreaksOnly.of_same (h : BreaksOnly c p q) {r : Part} (same : (r.circ c).tally = (q.circ c).tally) :
    BreaksOnly c p r := by
  obtain ⟨breaks, h⟩ := h
  exact ⟨breaks, same.trans h⟩

theorem BreaksOnly.refl (c : CircNo) (p : Part) : BreaksOnly c p p := ⟨_, rfl⟩

theorem BreaksOnly.takeBreak (h : BreaksOnly c p q) (quantum : Bool) : BreaksOnly c p (takeBreak c quantum q) := by
  obtain ⟨breaks, h⟩ := h
  exact ⟨_, (tally_takeBreak quantum).trans (by rw [h])⟩

theorem BreaksOnly.checkBreak {cont : Part → Part} (h : BreaksOnly c p q)
    (go : ∀ q, BreaksOnly c p q → BreaksOnly c p (cont q)) : BreaksOnly c p (checkBreak c cont q) := by
  unfold Machine.checkBreak
  split
  · exact h.takeBreak _
  · exact go _ (h.of_same (by simp [clearBreak]))

theorem BreaksOnly.beginNotice (h : BreaksOnly c p q) (kind : LineKind) : BreaksOnly c p (beginNotice c kind q) :=
  h.of_same (tally_beginNotice kind)

theorem tally_enterTrailer (next : Nat) : ((enterTrailer c next p).circ c).tally = (p.circ c).tally := by
  unfold enterTrailer stopStall
  exact ite_cases (P := fun q : Part => (q.circ c).tally = (p.circ c).tally) (fun _ => by simp) fun _ => by simp

theorem tally_enterHeld (pos : HeldPos) : ((enterHeld c pos p).circ c).tally = (p.circ c).tally := by
  simp [enterHeld]

theorem tally_select : ((select c p).circ c).tally = (p.circ c).tally := by
  unfold select
  split <;> simp [becomeCurrent, takeEntry, enterIdle]

theorem tally_selectionPoint : ((selectionPoint c p).circ c).tally = (p.circ c).tally := by
  unfold selectionPoint
  simp only
  split
  · rw [tally_select]
    simp [clearBreak]
  · rw [tally_beginNotice]
    simp [clearBreak]

theorem tally_holdOrSelect : ((holdOrSelect c p).circ c).tally = (p.circ c).tally := by
  unfold holdOrSelect
  split
  · exact tally_enterHeld _
  · exact tally_selectionPoint

theorem BreaksOnly.startBody (h : BreaksOnly c p q) : BreaksOnly c p (startBody c q) := by
  unfold Machine.startBody
  split
  · exact h.of_same (by simp [sendStartEnd])
  · simp only
    split
    · exact h.of_same ((tally_enterTrailer _).trans (by simp))
    · exact h.of_same (by simp [sendBody, stopStall])
    · exact BreaksOnly.checkBreak (h.of_same (by simp)) fun _ h => h

theorem tally_startBody_clear (clear : (p.q c).breakClass = false ∧ (p.q c).breakQuantum = false) :
    ((startBody c p).circ c).tally = (p.circ c).tally := by
  obtain ⟨cls, quantum⟩ := clear
  have calm : (waited c p).breakDue c = false := by
    rw [breakDue_waited, Part.breakDue, Part.quantumDue, cls, quantum]
    rfl
  unfold startBody
  split
  · simp [sendStartEnd]
  · simp only
    split
    · exact (tally_enterTrailer _).trans (by simp)
    · simp [sendBody, stopStall]
    · rw [enterWaiting_eq, checkBreak_calm calm]
      simp [clearBreak, waited]

/-! ### Selections (R100–R102) -/

/-- The rate and code ordered are in force. -/
def Part.Coded (q : Part) (c : CircNo) (tx : Sender) : Prop :=
  (q.tx c).force = { tx.force with rate := tx.ordered.rate, code := tx.ordered.code }

/-- The current slot is empty, and the entries and the turn are those of `after`. -/
def Part.Rests (q : Part) (c : CircNo) (after : Queue) : Prop :=
  (q.q c).current = none ∧ (q.q c).entries = after.entries ∧
    (q.q c).turn = after.turn ∧ (q.q c).turnLines = after.turnLines

/-- The sender has stopped at a hold. -/
def Part.Stopped (q : Part) (c : CircNo) (pos : HeldPos) (tx : Sender) : Prop :=
  (q.tx c).state = .held ∧ (q.tx c).heldPos = pos ∧ (q.tx c).holdPending = false ∧ (q.tx c).out = [] ∧ q.Coded c tx

/-- The selection has been made against the queue `after`, with the items of `p`. -/
def Part.Selects (q p : Part) (c : CircNo) (after : Queue) : Prop :=
  ((∀ e ∈ after.entries, p.eligible e = false) →
    (q.tx c).state = .idle ∧ q.Coded c (p.tx c) ∧ q.Rests c after) ∧
  ((∃ e ∈ after.entries, p.eligible e = true) →
    ((q.tx c).state = .heading ∧ q.LineBegun c .heading (p.tx c).force) ∧
    ∃ ch, (p.modQ c fun _ => after).choose c = some ch ∧
      (q.q c).entries = after.entries.filter (fun x => x.item ≠ ch.entry.item) ∧
      (q.q c).current = some { ch.entry with cseq := some (ch.entry.cseq.getD (p.tx c).nextCseq) } ∧
      (q.q c).byTurn = ch.byTurn ∧ (q.q c).turn = ch.turn ∧ (q.q c).turnLines = ch.turnLines)

theorem stopped_enterHeld (pos : HeldPos) : (enterHeld c pos p).Stopped c pos (p.tx c) := by
  simp [Part.Stopped, Part.Coded, enterHeld, bringCode]

/-- The choice turns on the eligibility of the entries there alone. -/
theorem choose_of_eligible (entries : (q.q c).entries = (p.q c).entries) (current : (q.q c).current = (p.q c).current)
    (force : (q.q c).force = (p.q c).force) (turn : (q.q c).turn = (p.q c).turn)
    (lines : (q.q c).turnLines = (p.q c).turnLines) (ready : ∀ e ∈ (p.q c).entries, q.eligible e = p.eligible e) :
    q.choose c = p.choose c := by
  simp only [Part.choose, chooseFrom, entries, current, force, turn, lines, List.filter_congr ready]

theorem choose_eq_none_iff (empty : (p.q c).current = none) (turn : (p.q c).turn ≤ 8) :
    p.choose c = none ↔ ∀ e ∈ (p.q c).entries, p.eligible e = false := by
  cases mode : (p.q c).force.mode with
  | rotation => exact choose_rotation_eq_none_iff mode empty turn
  | priority =>
    rw [choose_of_empty_slot empty, chooseFrom, mode]
    simp

/-- A selection made, seen from a part whose queue and items agree as far as it reads them. -/
theorem selects_select {p₀ : Part} {after : Queue} (empty : (p.q c).current = none) (slot : after.current = none)
    (turn : after.turn ≤ 8) (entries : (p.q c).entries = after.entries) (force : (p.q c).force = after.force)
    (served : (p.q c).turn = after.turn) (lines : (p.q c).turnLines = after.turnLines)
    (ready : ∀ e ∈ after.entries, p.eligible e = p₀.eligible e) (params : (p.tx c).force = (p₀.tx c).force)
    (ordered : (p.tx c).ordered = (p₀.tx c).ordered) (cseq : (p.tx c).nextCseq = (p₀.tx c).nextCseq) :
    (select c p).Selects p₀ c after := by
  have same : p.choose c = (p₀.modQ c fun _ => after).choose c := by
    refine choose_of_eligible ?_ ?_ ?_ ?_ ?_ ?_ <;> rw [Part.q_modQ]
    · exact entries
    · rw [empty, slot]
    · exact force
    · exact served
    · exact lines
    · exact ready
  have none_iff : p.choose c = none ↔ ∀ e ∈ after.entries, p₀.eligible e = false := by
    rw [choose_eq_none_iff empty (by omega), entries]
    exact forall₂_congr fun e member => by rw [ready e member]
  constructor
  · intro idle
    rw [select_none (none_iff.mpr idle)]
    simp [Part.Coded, Part.Rests, enterIdle, bringCode, empty, entries, served, lines, params, ordered]
  · rintro ⟨e, member, eligible⟩
    obtain ⟨ch, chosen⟩ : ∃ ch, p.choose c = some ch := by
      refine Option.ne_none_iff_exists'.mp fun none => ?_
      rw [none_iff.mp none e member] at eligible
      exact nomatch eligible
    rw [select_some chosen, ← params]
    refine ⟨begun_becomeCurrent ch, ch, same ▸ chosen, ?_⟩
    rw [q_becomeCurrent, without_eq_filter, entries, cseq]
    exact ⟨rfl, rfl, rfl, rfl, rfl⟩

/-- What follows a trailer, a kill line, a break line or an owed notice. -/
theorem goesOn_holdOrSelect {p₀ : Part} {after : Queue} (queue : p.q c = after) (slot : after.current = none)
    (turn : after.turn ≤ 8) (ready : ∀ e ∈ after.entries, p.eligible e = p₀.eligible e)
    (params : (p.tx c).force = (p₀.tx c).force) (ordered : (p.tx c).ordered = (p₀.tx c).ordered)
    (cseq : (p.tx c).nextCseq = (p₀.tx c).nextCseq) :
    if (p.tx c).holdPending = true then (holdOrSelect c p).Stopped c .selectionDue (p₀.tx c) ∧ (holdOrSelect c p).Rests c after
    else if (p.tx c).owed ≠ [] then
      (((holdOrSelect c p).tx c).state = .notice ∧ (holdOrSelect c p).LineBegun c .owed (p₀.tx c).force) ∧
        (holdOrSelect c p).Rests c after
    else (holdOrSelect c p).Selects p₀ c { after with force := after.ordered } := by
  subst queue
  unfold holdOrSelect
  split
  next hold =>
    refine ⟨?_, ?_⟩
    · have stopped := stopped_enterHeld (p := p) (c := c) .selectionDue
      unfold Part.Stopped Part.Coded at stopped ⊢
      rwa [params, ordered] at stopped
    · simp [Part.Rests, enterHeld, slot]
  next free =>
    split
    next owed =>
      rw [selectionPoint_owed owed, ← params]
      refine ⟨⟨state_beginNotice _, ?_⟩, ?_⟩
      · have begun := begun_beginNotice (c := c) .owed (p := clearBreak c (p.modQ c fun q => { q with force := q.ordered }))
        refine Eq.mp (congrArg _ ?_) begun
        simp [clearBreak]
      · unfold Part.Rests
        rw [q_beginNotice]
        simp [clearBreak, slot]
    next paid =>
      rw [selectionPoint, if_pos (by simpa [clearBreak] using paid)]
      exact selects_select (by simpa [clearBreak] using slot) slot turn (by simp [clearBreak]) (by simp [clearBreak])
        (by simp [clearBreak]) (by simp [clearBreak]) ready (by simpa [clearBreak] using params)
        (by simpa [clearBreak] using ordered) (by simpa [clearBreak] using cseq)

end Sys2Proof.Machine
end

section
/-! The end of an output line: what follows each job (R123, R128, R131, R133, R134, R136, R137, R142). -/

namespace Sys2Proof.Machine

variable {p q r : Part} {c c' : CircNo} {f : Frame}

/-! ### What every job keeps -/

theorem BreaksOnly.bodyDone (next : Nat) : BreaksOnly c p (bodyDone c next p) := by
  have ended : BreaksOnly c p (endBodyLine c next p) := by
    refine (BreaksOnly.refl c p).of_same ?_
    unfold endBodyLine countTurnLine
    simp only
    split <;> simp
  unfold Machine.bodyDone
  simp only
  split
  · exact ended.beginNotice _
  · split
    · exact ended.of_same (tally_enterHeld _)
    · split
      · exact ended.startBody
      · exact ended.checkBreak fun _ h => h.startBody

/-- No line's end counts a frame. -/
theorem sent_jobDone (job : Job) : ((jobDone c job p).circ c).tally.sent = (p.circ c).tally.sent := by
  have sent : ∀ {q : Part}, BreaksOnly c p q → (q.circ c).tally.sent = (p.circ c).tally.sent := by
    rintro q ⟨breaks, h⟩
    rw [h]
  have complete : ((completeEntry c p).circ c).tally.sent = (p.circ c).tally.sent := by simp [completeEntry]
  cases job with
  | none => rfl
  | startEnd kind =>
    cases kind <;> simp only [jobDone]
    case body => exact sent (BreaksOnly.startBody ((BreaksOnly.refl c p).of_same (by simp)))
    all_goals simp
  | heading =>
    rw [jobDone]
    unfold headingDone
    split
    · rw [tally_beginNotice]
    · split
      · rw [tally_enterHeld]
        simp [setStart]
      · exact sent (BreaksOnly.startBody ((BreaksOnly.refl c p).of_same (by simp [setStart])))
  | body next last =>
    rw [jobDone]
    split
    · rw [tally_enterTrailer]
    · exact sent (BreaksOnly.bodyDone next)
  | lastEnd next kill =>
    rw [jobDone]
    unfold endBodyLine countTurnLine
    rw [tally_beginLine]
    simp only
    split <;> simp
  | trailer | killLine => rw [jobDone, tally_holdOrSelect, complete]
  | breakLine =>
    rw [jobDone]
    unfold breakDone
    split
    · split <;> rw [tally_holdOrSelect] <;> simp [owe, giveBack]
    · rw [tally_holdOrSelect]
  | owed =>
    rw [jobDone]
    unfold owedDone
    simp only
    split
    · rw [tally_enterHeld]
      simp
    · split
      · rw [tally_select]
        simp
      · simp
  | warmFrame =>
    rw [jobDone]
    unfold warmDone
    simp only
    split
    · rw [tally_selectionPoint]
      simp
    · simp

/-- The end of an output line works on its circuit alone, with the items whose entries leave it, and raises no flag. -/
theorem jobDone_on (balanced : p.Balanced c) (job : Job) :
    (jobDone c job p).alarm = p.alarm ∧ ∀ c', c' ≠ c → (jobDone c job p).circ c' = p.circ c' := by
  have on : ∀ {p₀ q : Part}, p₀.alarm = p.alarm → (∀ c', c' ≠ c → p₀.circ c' = p.circ c') → OnCirc c p₀ q →
      q.alarm = p.alarm ∧ ∀ c', c' ≠ c → q.circ c' = p.circ c' := fun alarm others h =>
    ⟨h.alarm.trans alarm, fun c' ne => (h.circ_ne ne).trans (others c' ne)⟩
  have here : ∀ {q : Part}, OnCirc c p q → q.alarm = p.alarm ∧ ∀ c', c' ≠ c → q.circ c' = p.circ c' := on rfl fun _ _ => rfl
  have gone : ∀ {q : Part}, OnCirc c (removeCurrent c p) q → q.alarm = p.alarm ∧ ∀ c', c' ≠ c → q.circ c' = p.circ c' :=
    on (alarm_removeCurrent balanced) fun _ => circ_removeCurrent_ne
  have complete : OnCirc c (removeCurrent c p) (completeEntry c p) := ((OnCirc.refl c _).modTally _).modQ _
  cases job with
  | none => exact here (OnCirc.refl c p)
  | startEnd kind =>
    have marked : OnCirc c p (p.modTx c fun tx => { tx with startMark := false }) := (OnCirc.refl c p).modTx _
    cases kind
    case body => exact here marked.startBody
    all_goals exact here (marked.beginLine _)
  | heading => exact here (OnCirc.refl c p).headingDone
  | body next last =>
    rw [jobDone]
    split
    · exact here ((OnCirc.refl c p).enterTrailer _)
    · exact here ((OnCirc.refl c p).bodyDone _)
  | lastEnd next kill => exact here (((OnCirc.refl c p).endBodyLine next).beginLine _)
  | trailer | killLine => exact gone complete.holdOrSelect
  | breakLine =>
    rw [jobDone]
    unfold breakDone
    split
    · split
      · exact gone ((OnCirc.refl c _).owe _).holdOrSelect
      · exact here (OnCirc.holdOrSelect ((OnCirc.refl c p).modQ _))
    · exact here (OnCirc.refl c p).holdOrSelect
  | owed => exact here (OnCirc.refl c p).owedDone
  | warmFrame => exact here (OnCirc.refl c p).warmDone

/-- Only a change of the code in force moves the shift after the last frame, and nothing moves the column. -/
theorem steady_jobDone {job : Job} (other : job ≠ .warmFrame) : ∃ tx : Sender,
    tx.column = (p.tx c).column ∧ tx.shift = (p.tx c).shift ∧ tx.force = (p.tx c).force ∧
      Steady tx ((jobDone c job p).tx c) := by
  have stage : ∀ {q r : Part} (_ : Steady (q.tx c) (r.tx c)), (q.tx c).column = (p.tx c).column →
      (q.tx c).shift = (p.tx c).shift → (q.tx c).force = (p.tx c).force → ∃ tx : Sender,
      tx.column = (p.tx c).column ∧ tx.shift = (p.tx c).shift ∧ tx.force = (p.tx c).force ∧ Steady tx (r.tx c) :=
    fun steady column shift force => ⟨_, column, shift, force, steady⟩
  have ended (next : Nat) : (((endBodyLine c next p).tx c).column = (p.tx c).column ∧
      ((endBodyLine c next p).tx c).shift = (p.tx c).shift) ∧ ((endBodyLine c next p).tx c).force = (p.tx c).force := by
    unfold endBodyLine countTurnLine
    simp only
    split <;> simp
  have start : (((setStart c p).tx c).column = (p.tx c).column ∧
      ((setStart c p).tx c).shift = (p.tx c).shift) ∧ ((setStart c p).tx c).force = (p.tx c).force := by
    unfold setStart
    rw [Part.tx_modTx]
    cases (p.q c).current.bind (·.resume) <;> simp
  have refl : ∀ {q : Part}, Steady (q.tx c) (q.tx c) := Steady.refl _
  cases job with
  | none => exact stage (q := p) (r := p) refl rfl rfl rfl
  | startEnd kind =>
    cases kind
    case body => exact stage (Steady.startBody (p := p.modTx c fun tx => { tx with startMark := false }) refl) (by simp) (by simp) (by simp)
    all_goals exact stage (Steady.beginLine (p := p.modTx c fun tx => { tx with startMark := false }) refl _) (by simp) (by simp) (by simp)
  | heading =>
    rw [jobDone]
    unfold headingDone
    split
    · exact stage (Steady.beginNotice (p := p) refl _) rfl rfl rfl
    · split
      · exact stage (Steady.enterHeld (p := setStart c p) refl _) start.1.1 start.1.2 start.2
      · exact stage (Steady.startBody (p := setStart c p) refl) start.1.1 start.1.2 start.2
  | body next last =>
    obtain ⟨⟨column, shift⟩, force⟩ := ended next
    rw [jobDone]
    split
    · exact stage (Steady.enterTrailer (p := p) refl _) rfl rfl rfl
    · unfold bodyDone
      simp only
      split
      · exact stage (Steady.beginNotice (p := endBodyLine c next p) refl _) column shift force
      · split
        · exact stage (Steady.enterHeld (p := endBodyLine c next p) refl _) column shift force
        · split
          · exact stage (Steady.startBody (p := endBodyLine c next p) refl) column shift force
          · exact stage (Steady.checkBreak (p := endBodyLine c next p) refl fun _ h => h.startBody) column shift force
  | lastEnd next kill =>
    obtain ⟨⟨column, shift⟩, force⟩ := ended next
    exact stage (Steady.beginLine (p := endBodyLine c next p) refl _) column shift force
  | trailer | killLine =>
    exact stage (Steady.holdOrSelect (p := completeEntry c p) refl) (by simp [completeEntry]) (by simp [completeEntry])
      (by simp [completeEntry])
  | breakLine =>
    rw [jobDone]
    unfold breakDone
    split
    next e current =>
      split
      · exact stage (Steady.holdOrSelect (p := owe c (e.cseq.getD 0) (removeCurrent c p)) refl) (by simp [owe]) (by simp [owe])
          (by simp [owe])
      · exact stage (Steady.holdOrSelect (p := giveBack c e p) refl) (by simp [giveBack]) (by simp [giveBack])
          (by simp [giveBack])
    · exact stage (Steady.holdOrSelect (p := p) refl) rfl rfl rfl
  | owed =>
    rw [jobDone]
    unfold owedDone
    simp only
    split
    · exact stage (Steady.enterHeld (p := p.modTx c fun tx => { tx with owed := tx.owed.tail }) refl _) (by simp) (by simp)
        (by simp)
    · split
      · exact stage (Steady.select (p := p.modTx c fun tx => { tx with owed := tx.owed.tail }) refl) (by simp) (by simp)
          (by simp)
      · exact stage (Steady.beginLine (p := p.modTx c fun tx => { tx with owed := tx.owed.tail }) refl _) (by simp) (by simp)
          (by simp)
  | warmFrame => exact absurd rfl other

end Sys2Proof.Machine
end

section
/-! The end of an output line, seen from the part whose frame ended. -/

namespace Sys2Proof.Machine

variable {p p' q r : Part} {c c' : CircNo} {f : Frame} {column : Nat} {due : Bool}

/-! ### The part as the last frame leaves it -/

/-- The column after a frame (R124). -/
def columnAfter (f : Frame) (tx : Sender) : Nat :=
  if f.sort = .printing then tx.column + 1 else if f.sort = .cr then 0 else tx.column

/-- The current entry with the frame spent, where the frame belongs to it (R123). -/
def Part.printed (p : Part) (c : CircNo) : Option Entry :=
  if (p.tx c).job.ofEntry = true then (p.q c).current.map fun e => { e with spent := e.spent + 1 } else (p.q c).current

/-- The part `p'` has the last frame of an output line of `p` counted, and has done what precedes the next line. -/
structure Stage (c : CircNo) (column : Nat) (p p' : Part) : Prop where
  on : OnCirc c p p'
  sender : p'.tx c = { p.tx c with
    offset := (p'.tx c).offset, lineNo := (p'.tx c).lineNo, startMark := (p'.tx c).startMark, owed := (p'.tx c).owed
    column := column, shift := (p'.tx c).shift, out := [] }
  queue : p'.q c = { p.q c with
    current := p.printed c, turnLines := (p'.q c).turnLines, breakQuantum := (p'.q c).breakQuantum }
  tally : (p'.circ c).tally = { (p.circ c).tally with sent := bump (p.circ c).tally.sent }

theorem q_printed : ((frameOut c f [] p).q c) = { p.q c with current := p.printed c } := by
  rw [q_frameOut, Part.printed]
  split <;> rfl

theorem tx_last : (frameOut c f [] p).tx c = { p.tx c with
    column := columnAfter f (p.tx c), shift := ((frameOut c f [] p).tx c).shift, out := [] } := by
  rw [tx_frameOut, frameEnded_eq]
  rfl

theorem stage_frameOut (balanced : p.Balanced c) : Stage c (columnAfter f (p.tx c)) p (frameOut c f [] p) where
  on := onCirc_frameOut balanced
  sender := by
    conv_lhs => rw [tx_last]
    rw [tx_last]
  queue := by rw [q_printed]
  tally := tally_frameOut

theorem Stage.modTx {g : Sender → Sender} (h : Stage c column p p') (same : g (p'.tx c) = { p'.tx c with
      offset := (g (p'.tx c)).offset, lineNo := (g (p'.tx c)).lineNo, startMark := (g (p'.tx c)).startMark
      owed := (g (p'.tx c)).owed }) : Stage c column p (p'.modTx c g) where
  on := h.on.modTx _
  sender := by
    have base := h.sender
    rw [Part.tx_modTx]
    generalize p'.tx c = t at same base
    generalize g t = u at same
    rw [same, base]
  queue := by
    rw [Part.q_modTx]
    exact h.queue
  tally := by
    rw [← h.tally]
    simp

theorem Stage.printed_any (h : Stage c column p p') (P : Entry → Bool) (spent : ∀ e, P { e with spent := e.spent + 1 } = P e) :
    (p'.q c).current.any P = (p.q c).current.any P := by
  rw [h.queue]
  simp only [Part.printed]
  split
  · cases (p.q c).current <;> simp [spent]
  · rfl

theorem Stage.killed (h : Stage c column p p') :
    p'.currentKilled c = (p.q c).current.any fun e => (p.item e.item).killed := by
  rw [currentKilled_eq, h.printed_any _ fun _ => rfl]
  simp only [h.on.item]

theorem Stage.bodySent (h : Stage c column p p') : p'.bodySent c =
    (p.q c).current.any fun e => (p.item e.item).ended && (p.item e.item).body.length ≤ (p'.tx c).offset := by
  rw [bodySent_eq, h.printed_any _ fun _ => rfl]
  simp only [h.on.item]

/-- The CLASS reason of the pending break of `p` holds. -/
def Part.classRivals (p : Part) (c : CircNo) : Bool :=
  (p.q c).entries.any fun e =>
    p.eligible e && decide (e.cls ≤ (p.q c).force.preempt) && decide (e.cls < (p.q c).currentClass)

/-- The QUANTUM reason of the pending break of `p` holds. -/
def Part.turnRivals (p : Part) (c : CircNo) : Bool :=
  (p.q c).entries.any fun e =>
    p.eligible e && decide ((p.q c).force.preempt < e.cls) && decide (turnOf e.source ≠ (p.q c).turn)

theorem Stage.quantumHolds (h : Stage c column p p') : p'.quantumHolds c = p.turnRivals c := by
  have eligible : p'.eligible = p.eligible := funext h.on.eligible
  rw [Part.quantumHolds, h.queue, eligible, Part.turnRivals]
  simp [bne, Bool.beq_eq_decide_eq]

theorem Stage.currentClass (h : Stage c column p p') : (p'.q c).currentClass = (p.q c).currentClass := by
  rw [Queue.currentClass, Queue.currentClass, h.queue]
  by_cases own : (p.tx c).job.ofEntry = true
  · cases current : (p.q c).current <;> simp [Part.printed, own, current]
  · simp [Part.printed, own]

theorem Stage.classHolds (h : Stage c column p p') : p'.classHolds c (p'.q c).currentClass = p.classRivals c := by
  have eligible : p'.eligible = p.eligible := funext h.on.eligible
  rw [h.currentClass, Part.classHolds, h.queue, eligible, Part.classRivals]

theorem Stage.quantumDue (h : Stage c column p p') :
    p'.quantumDue c = ((p'.q c).breakQuantum && p.turnRivals c) := by rw [Part.quantumDue, h.quantumHolds]

theorem Stage.breakDue (h : Stage c column p p') : p'.breakDue c =
    (((p.q c).breakClass && p.classRivals c) || ((p'.q c).breakQuantum && p.turnRivals c)) := by
  rw [Part.breakDue, h.quantumDue, h.classHolds, h.queue]

/-! ### The body, a break, and what stays -/

/-- The entries stay as they are but for the frame spent. -/
def Part.Kept (r p : Part) (c : CircNo) : Prop := (r.q c).current = p.printed c ∧ (r.q c).entries = (p.q c).entries

/-- A break has been taken on the circuit after the last frame. -/
def Part.BrokenAfter (r p : Part) (c : CircNo) : Prop :=
  ((r.tx c).state = .notice ∧ r.LineBegun c .breakLine (p.tx c).force) ∧
    (r.circ c).tally.breaks = bump (p.circ c).tally.breaks ∧ (r.q c).entries = (p.q c).entries ∧
    (r.q c).current = (p.printed c).map fun e => { e with
      resume := some { offset := (r.tx c).offset, line := (r.tx c).lineNo } }

/-- The body has gone on after the last frame. -/
def Part.BodyAfter (r p : Part) (c : CircNo) (column : Nat) (due : Bool) : Prop :=
  (r.tx c).force = { (p.tx c).ordered with rate := (p.tx c).force.rate, code := (p.tx c).force.code } ∧
    match r.examined c with
    | .line ln => r.Kept p c ∧ (r.tx c).state = .copy ∧ (r.tx c).job = .body ln.next ln.last ∧
        (r.tx c).out = textFrames (r.tx c).force.code (r.tx c).shift ln.text ++
          (if ln.last = true then [] else lineEndFrames (r.tx c).force.code (r.tx c).force.fills)
    | .wait => if due then r.BrokenAfter p c
        else r.Kept p c ∧ (r.tx c).state = .waiting ∧ (r.q c).stall = some (p.q c).stallTime
    | .done => r.Kept p c ∧ (r.tx c).state = .trailer ∧ (column = 0 → r.LineBegun c .trailer (p.tx c).force)

theorem Stage.force (h : Stage c column p p') : (p'.tx c).force = (p.tx c).force := by rw [h.sender]
theorem Stage.ordered (h : Stage c column p p') : (p'.tx c).ordered = (p.tx c).ordered := by rw [h.sender]
theorem Stage.nextCseq (h : Stage c column p p') : (p'.tx c).nextCseq = (p.tx c).nextCseq := by rw [h.sender]
theorem Stage.holdPending (h : Stage c column p p') : (p'.tx c).holdPending = (p.tx c).holdPending := by rw [h.sender]
theorem Stage.column_eq (h : Stage c column p p') : (p'.tx c).column = column := by rw [h.sender]
theorem Stage.state (h : Stage c column p p') : (p'.tx c).state = (p.tx c).state := by rw [h.sender]
theorem Stage.current (h : Stage c column p p') : (p'.q c).current = p.printed c := by rw [h.queue]
theorem Stage.entries (h : Stage c column p p') : (p'.q c).entries = (p.q c).entries := by rw [h.queue]

theorem Stage.kept (h : Stage c column p p') (current : (r.q c).current = (p'.q c).current)
    (entries : (r.q c).entries = (p'.q c).entries) : r.Kept p c :=
  ⟨current.trans h.current, entries.trans h.entries⟩

theorem Stage.broken (h : Stage c column p p') (broken : r.Broken p' c) (steady : Steady (p'.tx c) (r.tx c)) :
    r.BrokenAfter p c := by
  obtain ⟨⟨state, begun⟩, breaks, entries, -, current⟩ := broken
  rw [h.force] at begun
  refine ⟨⟨state, begun⟩, by rw [breaks, h.tally], by rw [entries, h.entries], ?_⟩
  rw [current, h.current, steady.offset, steady.lineNo]

theorem Stage.bodyAfter (h : Stage c column p p') (goes : r.BodyGoes p' c due) (steady : Steady (p'.tx c) (r.tx c)) :
    r.BodyAfter p c column due := by
  obtain ⟨force, goes⟩ := goes
  rw [h.force, h.ordered] at force
  refine ⟨force, ?_⟩
  cases step : r.examined c with
  | line ln =>
    rw [step] at goes
    exact ⟨h.kept goes.1.1 goes.1.2, goes.2⟩
  | wait =>
    rw [step] at goes
    cases due with
    | true => exact h.broken goes steady
    | false =>
      have time : (p'.q c).stallTime = (p.q c).stallTime := by rw [h.queue]
      obtain ⟨⟨current, entries⟩, state, stall⟩ := goes
      exact ⟨h.kept current entries, state, stall.trans (congrArg some time)⟩
  | done =>
    rw [step, h.column_eq, h.force] at goes
    exact ⟨h.kept goes.1.1 goes.1.2, goes.2⟩

end Sys2Proof.Machine
end

section
/-! What follows each output line, and the statement about the end of a frame. -/

namespace Sys2Proof.Machine

variable {p p' q r : Part} {c c' : CircNo} {f : Frame} {column : Nat}

/-- The pending break of `p` holds. -/
def Part.pending (p : Part) (c : CircNo) : Bool :=
  ((p.q c).breakClass && p.classRivals c) || ((p.q c).breakQuantum && p.turnRivals c)

/-- The current entry's item is killed. -/
def Part.killedNow (p : Part) (c : CircNo) : Bool := (p.q c).current.any fun e => (p.item e.item).killed

theorem Stage.breakDue_same (h : Stage c column p p') (same : (p'.q c).breakQuantum = (p.q c).breakQuantum) :
    p'.breakDue c = p.pending c := by rw [h.breakDue, same, Part.pending]

/-! ### After a start line end, and after a heading (R128, R142) -/

theorem startEnd_after (h : Stage c column p p') (quantum : (p'.q c).breakQuantum = (p.q c).breakQuantum) (kind : LineKind) :
    ((jobDone c (.startEnd kind) p').tx c).startMark = false ∧
      if kind = .body then p.killedNow c = false → (p.q c).current.isSome = true →
        (jobDone c (.startEnd kind) p').BodyAfter p c column (p.pending c)
      else (jobDone c (.startEnd kind) p').Kept p c ∧ ((jobDone c (.startEnd kind) p').tx c).state = (p.tx c).state ∧
        (jobDone c (.startEnd kind) p').LineBegun c kind (p.tx c).force := by
  have marked : Stage c column p (p'.modTx c fun tx => { tx with startMark := false }) := h.modTx rfl
  have off : ((p'.modTx c fun tx => { tx with startMark := false }).tx c).startMark = false := by simp
  by_cases body : kind = .body
  · subst body
    have steady := Steady.startBody (Steady.refl ((p'.modTx c fun tx => { tx with startMark := false }).tx c))
    refine ⟨steady.startMark.trans off, ?_⟩
    rw [if_pos rfl]
    intro alive _
    have goes := bodyGoes_startBody off (marked.killed.trans alive)
    rw [marked.breakDue_same (by simpa using quantum)] at goes
    exact marked.bodyAfter goes steady
  · have going : jobDone c (.startEnd kind) p' = beginLine c kind (p'.modTx c fun tx => { tx with startMark := false }) := by
      cases kind with
      | body => exact absurd rfl body
      | _ => rfl
    rw [going, if_neg body]
    have steady := Steady.beginLine (Steady.refl ((p'.modTx c fun tx => { tx with startMark := false }).tx c)) kind
    have begun := begun_beginLine (p := p'.modTx c fun tx => { tx with startMark := false }) (c := c) kind
    rw [marked.force] at begun
    exact ⟨steady.startMark.trans off, marked.kept (by simp) (by simp), by simp [h.state], begun⟩

/-- The start point of the current entry, where the body goes on after its heading. -/
theorem setStart_stands (h : Stage c column p p') : match (p.q c).current.bind (·.resume) with
    | some r => ((setStart c p').tx c).offset = r.offset ∧ ((setStart c p').tx c).lineNo = r.line
    | none => ((setStart c p').tx c).offset = 0 ∧ ((setStart c p').tx c).lineNo = 1 := by
  have same : (p'.q c).current.bind (·.resume) = (p.q c).current.bind (·.resume) := by
    rw [h.current, Part.printed]
    split
    · cases (p.q c).current <;> rfl
    · rfl
  unfold setStart
  rw [same, Part.tx_modTx]
  cases (p.q c).current.bind (·.resume) <;> exact ⟨rfl, rfl⟩

theorem Stage.setStart (h : Stage c column p p') : Stage c column p (setStart c p') ∧
    ((setStart c p').tx c).startMark = (p'.tx c).startMark ∧
    ((setStart c p').q c).breakQuantum = (p'.q c).breakQuantum := by
  unfold Machine.setStart
  refine ⟨h.modTx ?_, ?_, by simp⟩
  · cases (p'.q c).current.bind (·.resume) <;> rfl
  · rw [Part.tx_modTx]
    cases (p'.q c).current.bind (·.resume) <;> rfl

theorem Stage.stopped (h : Stage c column p p') (pos : HeldPos) : (enterHeld c pos p').Stopped c pos (p.tx c) := by
  have stopped := stopped_enterHeld (p := p') (c := c) pos
  unfold Part.Stopped Part.Coded at stopped ⊢
  rwa [h.force, h.ordered] at stopped

theorem Stage.notice (h : Stage c column p p') (kind : LineKind) : (beginNotice c kind p').Kept p c ∧
    ((beginNotice c kind p').tx c).state = .notice ∧ (beginNotice c kind p').LineBegun c kind (p.tx c).force := by
  have begun := begun_beginNotice (p := p') (c := c) kind
  rw [h.force] at begun
  exact ⟨h.kept (by rw [q_beginNotice]) (by rw [q_beginNotice]), state_beginNotice _, begun⟩

theorem heading_after (h : Stage c column p p') (quantum : (p'.q c).breakQuantum = (p.q c).breakQuantum)
    (mark : (p'.tx c).startMark = (p.tx c).startMark) :
    if p.killedNow c then (headingDone c p').Kept p c ∧ ((headingDone c p').tx c).state = .notice ∧
      (headingDone c p').LineBegun c .killLine (p.tx c).force
    else (match (p.q c).current.bind (·.resume) with
        | some r => ((headingDone c p').tx c).offset = r.offset ∧ ((headingDone c p').tx c).lineNo = r.line
        | none => ((headingDone c p').tx c).offset = 0 ∧ ((headingDone c p').tx c).lineNo = 1) ∧
      if (p.tx c).holdPending = true then (headingDone c p').Kept p c ∧ (headingDone c p').Stopped c (.lineEnd false) (p.tx c)
      else (p.tx c).startMark = false → (p.q c).current.isSome = true →
        (headingDone c p').BodyAfter p c column (p.pending c) := by
  obtain ⟨start, start_mark, start_quantum⟩ := h.setStart
  have stands := setStart_stands h
  unfold headingDone
  rw [h.killed, h.holdPending, ← Part.killedNow]
  by_cases killed : p.killedNow c = true
  · rw [if_pos killed, if_pos killed]
    exact h.notice _
  · rw [if_neg killed, if_neg killed]
    by_cases hold : (p.tx c).holdPending = true
    · rw [if_pos hold, if_pos hold]
      have steady := Steady.enterHeld (Steady.refl ((setStart c p').tx c)) (.lineEnd false)
      refine ⟨by rw [steady.offset, steady.lineNo]; exact stands, start.kept ?_ ?_, start.stopped _⟩ <;> simp [enterHeld]
    · rw [if_neg hold, if_neg hold]
      have steady := Steady.startBody (Steady.refl ((setStart c p').tx c))
      refine ⟨by rw [steady.offset, steady.lineNo]; exact stands, fun off _ => ?_⟩
      have goes := bodyGoes_startBody (start_mark.trans (mark.trans off))
        (start.killed.trans (Bool.eq_false_iff.mpr killed))
      rw [start.breakDue_same (start_quantum.trans quantum)] at goes
      exact start.bodyAfter goes steady

/-! ### After a body line (R103, R105, R131) -/

/-- The lines of the turn once a body line has ended (R103). -/
def Queue.linesAfter (q : Queue) : Nat :=
  if q.byTurn = true ∧ q.turnLines < 255 then q.turnLines + 1 else q.turnLines

/-- The quantum is reached at the end of this body line, with another line waiting (R105). -/
def Part.reached (p : Part) (c : CircNo) : Bool :=
  (p.q c).current.isSome && (p.q c).byTurn && decide ((p.q c).force.mode = .rotation) &&
    decide (1 ≤ (p.q c).force.quantum) && decide ((p.q c).linesAfter = (p.q c).force.quantum) &&
    decide ((p.q c).turnLines < (p.q c).linesAfter) && p.turnRivals c

theorem Stage.isSome (h : Stage c column p p') : (p'.q c).current.isSome = (p.q c).current.isSome := by
  rw [h.current, Part.printed]
  split
  · cases (p.q c).current <;> rfl
  · rfl

/-- The body line has ended in `p'`: the send offset, the line number and the turn have moved on. -/
structure LineEnded (c : CircNo) (column next : Nat) (p p' : Part) : Prop extends Stage c column p p' where
  offset : (p'.tx c).offset = next
  lineNo : (p'.tx c).lineNo = (p.tx c).lineNo + 1
  startMark : (p'.tx c).startMark = (p.tx c).startMark
  lines : (p'.q c).turnLines = (p.q c).linesAfter
  quantum : (p'.q c).breakQuantum = ((p.q c).breakQuantum || p.reached c)

theorem lineEnded_endBodyLine (h : Stage c column p p') (lines : (p'.q c).turnLines = (p.q c).turnLines)
    (quantum : (p'.q c).breakQuantum = (p.q c).breakQuantum) (number : (p'.tx c).lineNo = (p.tx c).lineNo)
    (mark : (p'.tx c).startMark = (p.tx c).startMark) (next : Nat) :
    LineEnded c column next p (endBodyLine c next p') := by
  have moved : Stage c column p (p'.modTx c fun tx => { tx with offset := next, lineNo := tx.lineNo + 1 }) := h.modTx rfl
  have queue := h.queue
  rw [lines, quantum] at queue
  have holds : (p'.modTx c fun tx => { tx with offset := next, lineNo := tx.lineNo + 1 }).quantumHolds c = p.turnRivals c :=
    moved.quantumHolds
  unfold endBodyLine countTurnLine
  simp only [Part.q_modTx]
  have turn : (p'.q c).byTurn = (p.q c).byTurn := by rw [queue]
  by_cases byTurn : (p.q c).byTurn = true
  · rw [if_pos (turn.trans byTurn)]
    refine ⟨⟨moved.on.modQ _, ?_, ?_, ?_⟩, by simp, by simp [number], by simp [mark], ?_, ?_⟩
    · rw [Part.tx_modQ]
      exact moved.sender
    · simp only [Part.q_modQ, Part.q_modTx]
      rw [queue]
    · rw [← moved.tally]
      simp
    · simp [Queue.linesAfter, byTurn, lines]
    · simp only [Part.q_modQ, Part.q_modTx, holds, h.isSome, quantum]
      have queue' := congrArg Queue.force queue
      rw [queue', lines]
      simp only [Part.reached, Queue.linesAfter, byTurn, true_and, Bool.and_true, Bool.beq_eq_decide_eq]
  · rw [if_neg (by rwa [turn])]
    refine ⟨moved, by simp, by simp [number], by simp [mark], ?_, ?_⟩
    · simp [Queue.linesAfter, byTurn, lines]
    · simp [Part.reached, byTurn, quantum]

/-- The turn stands, with the line counted. -/
def Part.TurnKept (r p : Part) (c : CircNo) : Prop :=
  (r.q c).turn = (p.q c).turn ∧ (r.q c).turnLines = (p.q c).linesAfter

/-- The body of the current entry's item ends at the offset `n`. -/
def Part.endsBy (p : Part) (c : CircNo) (n : Nat) : Bool :=
  (p.q c).current.any fun e => (p.item e.item).ended && (p.item e.item).body.length ≤ n

/-- The entries, the turn and the reasons of the pending break are those of the part whose line has ended. -/
theorem LineEnded.turn {next : Nat} (h : LineEnded c column next p p') {stall : Option Nat}
    (same : r.q c = { p'.q c with stall := stall }) : r.TurnKept p c ∧ r.Kept p c ∧
      (r.q c).breakClass = (p.q c).breakClass ∧ (r.q c).breakQuantum = ((p.q c).breakQuantum || p.reached c) := by
  refine ⟨⟨by rw [same, h.queue], by rw [same]; exact h.lines⟩, h.kept (by rw [same]) (by rw [same]), ?_, ?_⟩
  · rw [same, h.queue]
  · rw [same]
    exact h.quantum

/-- Where the body has all been sent, no break is checked. -/
theorem bodyGoes_sent {due : Bool} (mark : (p.tx c).startMark = false) (alive : p.currentKilled c = false)
    (sent : p.bodySent c = true) : (startBody c p).BodyGoes p c due := by
  have gone := goneOn_startBody mark
  have step := examined_bringLine_of_sent sent
  rw [step] at gone
  have same := (examined_of_gone gone (by simp) (OnCirc.refl c p).startBody).trans step
  have goes := bodyGoes_startBody mark alive
  unfold Part.BodyGoes at goes ⊢
  rw [same] at goes ⊢
  exact goes

theorem Part.BodyGoes.of_clearBreak (h : r.BodyGoes (clearBreak c p) c false) : r.BodyGoes p c false := by
  unfold Part.BodyGoes at h ⊢
  simpa [clearBreak] using h

theorem killed_clearBreak : (clearBreak c p).currentKilled c = p.currentKilled c := by
  simp only [currentKilled_eq, ((OnCirc.refl c p).clearBreak).item]
  simp [clearBreak]

theorem tally_clearBreak : ((clearBreak c p).circ c).tally = (p.circ c).tally := by simp [clearBreak]

theorem body_after {next : Nat} (h : Stage c column p p') (lines : (p'.q c).turnLines = (p.q c).turnLines)
    (quantum : (p'.q c).breakQuantum = (p.q c).breakQuantum) (number : (p'.tx c).lineNo = (p.tx c).lineNo)
    (mark : (p'.tx c).startMark = (p.tx c).startMark) (turn : (p.q c).turn ≤ 8) (is : bodyDone c next p' = r) :
    ((r.tx c).offset = next ∧ (r.tx c).lineNo = (p.tx c).lineNo + 1) ∧
    if p.killedNow c || (p.tx c).holdPending || p.endsBy c next then
      r.TurnKept p c ∧ r.Kept p c ∧ (r.q c).breakClass = (p.q c).breakClass ∧
      (r.q c).breakQuantum = ((p.q c).breakQuantum || p.reached c) ∧
      if p.killedNow c then (r.tx c).state = .notice ∧ r.LineBegun c .killLine (p.tx c).force
      else if (p.tx c).holdPending = true then r.Stopped c (.lineEnd true) (p.tx c)
      else (p.tx c).startMark = false → r.BodyAfter p c column false
    else (r.q c).breakClass = false ∧ (r.q c).breakQuantum = false ∧
      if ((p.q c).breakClass && p.classRivals c) || (((p.q c).breakQuantum || p.reached c) && p.turnRivals c) then
        r.BrokenAfter p c ∧ if ((p.q c).breakQuantum || p.reached c) && p.turnRivals c then
          (r.q c).turn = ((p.q c).turn + 1) % 9 ∧ (r.q c).turnLines = 0 else r.TurnKept p c
      else r.TurnKept p c ∧ r.Kept p c ∧ (r.circ c).tally.breaks = (p.circ c).tally.breaks ∧
        ((p.tx c).startMark = false → (p.q c).current.isSome = true → r.BodyAfter p c column false) := by
  have ended := lineEnded_endBodyLine h lines quantum number mark next
  have place : ∀ {r : Part}, Steady ((endBodyLine c next p').tx c) (r.tx c) →
      (r.tx c).offset = next ∧ (r.tx c).lineNo = (p.tx c).lineNo + 1 := fun steady =>
    ⟨steady.offset.trans ended.offset, steady.lineNo.trans ended.lineNo⟩
  have sent : (endBodyLine c next p').bodySent c = p.endsBy c next := by
    rw [ended.bodySent, ended.offset, Part.endsBy]
  unfold bodyDone at is
  simp only [ended.killed, ended.holdPending, sent] at is
  rw [← Part.killedNow] at is
  by_cases killed : p.killedNow c = true
  · rw [if_pos killed] at is
    subst is
    refine ⟨place (Steady.beginNotice (Steady.refl _) _), ?_⟩
    rw [if_pos (by simp [killed])]
    obtain ⟨turn, kept, cls, quantum⟩ := ended.turn (stall := none) (q_beginNotice (p := endBodyLine c next p') .killLine)
    refine ⟨turn, kept, cls, quantum, ?_⟩
    rw [if_pos killed]
    exact (ended.notice .killLine).2
  rw [if_neg killed] at is
  by_cases hold : (p.tx c).holdPending = true
  · rw [if_pos hold] at is
    subst is
    refine ⟨place (Steady.enterHeld (Steady.refl _) _), ?_⟩
    rw [if_pos (by simp [hold])]
    obtain ⟨turn, kept, cls, quantum⟩ := ended.turn (r := enterHeld c (.lineEnd true) (endBodyLine c next p')) (stall := none)
      (by simp [enterHeld])
    refine ⟨turn, kept, cls, quantum, ?_⟩
    rw [if_neg killed, if_pos hold]
    exact ended.stopped _
  rw [if_neg hold] at is
  have alive : (endBodyLine c next p').currentKilled c = false := ended.killed.trans (Bool.eq_false_iff.mpr killed)
  by_cases whole : p.endsBy c next = true
  · rw [if_pos whole] at is
    subst is
    have steady := Steady.startBody (Steady.refl ((endBodyLine c next p').tx c))
    refine ⟨place steady, ?_⟩
    rw [if_pos (by simp [whole])]
    obtain ⟨stall, same⟩ := q_startBody_sent (sent.trans whole)
    obtain ⟨turn, kept, cls, quantum⟩ := ended.turn same
    refine ⟨turn, kept, cls, quantum, ?_⟩
    rw [if_neg killed, if_neg hold]
    intro off
    exact ended.bodyAfter (bodyGoes_sent (ended.startMark.trans off) alive (sent.trans whole)) steady
  rw [if_neg whole] at is
  rw [if_neg (by simp [killed, hold, whole])]
  have due := ended.breakDue
  rw [ended.quantum] at due
  rw [← due]
  cases holds : (endBodyLine c next p').breakDue c with
  | true =>
    rw [checkBreak_due holds, ended.quantumDue, ended.quantum] at is
    subst is
    have steady := Steady.takeBreak (Steady.refl ((endBodyLine c next p').tx c))
      (((p.q c).breakQuantum || p.reached c) && p.turnRivals c)
    refine ⟨place steady, ?_⟩
    have queue := q_takeBreak (p := endBodyLine c next p') (c := c)
      (((p.q c).breakQuantum || p.reached c) && p.turnRivals c)
    have served : ((endBodyLine c next p').q c).turn = (p.q c).turn := by rw [ended.queue]
    rw [if_pos rfl]
    refine ⟨?_, ?_, ended.broken (broken_takeBreak _) steady, ?_⟩
    · rw [queue]
      unfold brokenQueue
      split <;> rfl
    · rw [queue]
      unfold brokenQueue
      split <;> rfl
    · cases byQuantum : (((p.q c).breakQuantum || p.reached c) && p.turnRivals c) with
      | true =>
        rw [byQuantum] at queue
        rw [if_pos rfl, queue]
        refine ⟨?_, rfl⟩
        simp only [brokenQueue, if_true, endTurn, served]
        unfold nextTurn
        split <;> omega
      | false =>
        rw [byQuantum] at queue
        rw [if_neg (by simp)]
        unfold Part.TurnKept
        rw [queue]
        exact ⟨served, ended.lines⟩
  | false =>
    rw [checkBreak_calm holds] at is
    subst is
    have steady := Steady.startBody (p := clearBreak c (endBodyLine c next p')) (tx₀ := (endBodyLine c next p').tx c)
      (c := c) (by rw [clearBreak, Part.tx_modQ]; exact Steady.refl _)
    have clear : ((clearBreak c (endBodyLine c next p')).q c).breakClass = false ∧
        ((clearBreak c (endBodyLine c next p')).q c).breakQuantum = false := by simp [clearBreak]
    obtain ⟨stall, same⟩ := q_startBody_clear clear
    have queue : (startBody c (clearBreak c (endBodyLine c next p'))).q c =
        { (endBodyLine c next p').q c with stall := stall, breakClass := false, breakQuantum := false } := by
      rw [same]
      simp [clearBreak]
    refine ⟨place steady, by rw [queue], by rw [queue], ?_⟩
    rw [if_neg (by simp)]
    refine ⟨⟨by rw [queue, ended.queue], by rw [queue]; exact ended.lines⟩, ended.kept (by rw [queue]) (by rw [queue]), ?_, ?_⟩
    · rw [tally_startBody_clear clear, tally_clearBreak, ended.tally]
    · intro off _
      have goes := bodyGoes_startBody (p := clearBreak c (endBodyLine c next p')) (c := c)
        (by simpa [clearBreak] using ended.startMark.trans off)
        (killed_clearBreak.trans alive)
      rw [breakDue_clearBreak] at goes
      exact ended.bodyAfter goes.of_clearBreak steady

/-! ### After the last characters of a body, and their line end (R131) -/

theorem rest_after {next : Nat} (h : Stage c column p p') (lines : (p'.q c).turnLines = (p.q c).turnLines)
    (place : (p'.tx c).offset = (p.tx c).offset ∧ (p'.tx c).lineNo = (p.tx c).lineNo)
    (is : enterTrailer c next p' = r) :
    (r.tx c).state = (if p.killedNow c then .notice else .trailer) ∧ r.Kept p c ∧
      ((r.tx c).offset = (p.tx c).offset ∧ (r.tx c).lineNo = (p.tx c).lineNo) ∧
      (r.q c).turn = (p.q c).turn ∧ (r.q c).turnLines = (p.q c).turnLines ∧
      if column = 0 then r.LineBegun c (if p.killedNow c then .killLine else .trailer) (p.tx c).force
      else (r.tx c).job = .lastEnd next (p.killedNow c) ∧
        (r.tx c).out = lineEndFrames (p.tx c).force.code (p.tx c).force.fills := by
  have steady := Steady.enterTrailer (Steady.refl (p'.tx c)) next
  have killed : p'.currentKilled c = p.killedNow c := h.killed
  have turn : (p'.q c).turn = (p.q c).turn := by rw [h.queue]
  rw [is, ] at steady
  rw [steady.offset, steady.lineNo]
  unfold enterTrailer stopStall at is
  simp only [Part.tx_modQ, Part.tx_modTx, h.column_eq, killed] at is
  by_cases zero : column = 0
  · rw [if_pos zero] at is ⊢
    subst is
    refine ⟨by simp, h.kept (by simp) (by simp), place, by simp [turn], by simp [lines], ?_⟩
    have begun := begun_beginLine (c := c) (if p.killedNow c then .killLine else .trailer)
      (p := stopStall c (p'.modTx c fun tx => { tx with state := if p.killedNow c then .notice else .trailer }))
    refine Eq.mp (congrArg _ ?_) begun
    simp [stopStall, h.force]
  · rw [if_neg zero] at is ⊢
    subst is
    exact ⟨by simp, h.kept (by simp) (by simp), place, by simp [turn], by simp [lines], by simp, by simp [h.force]⟩

theorem lastEnd_after {next : Nat} {kill : Bool} (h : Stage c column p p')
    (lines : (p'.q c).turnLines = (p.q c).turnLines) (quantum : (p'.q c).breakQuantum = (p.q c).breakQuantum)
    (number : (p'.tx c).lineNo = (p.tx c).lineNo) (mark : (p'.tx c).startMark = (p.tx c).startMark)
    (is : beginLine c (if kill then .killLine else .trailer) (endBodyLine c next p') = r) :
    ((r.tx c).offset = next ∧ (r.tx c).lineNo = (p.tx c).lineNo + 1) ∧ (r.tx c).state = (p.tx c).state ∧
      r.TurnKept p c ∧ r.Kept p c ∧ r.LineBegun c (if kill then .killLine else .trailer) (p.tx c).force := by
  have ended := lineEnded_endBodyLine h lines quantum number mark next
  have steady := Steady.beginLine (Steady.refl ((endBodyLine c next p').tx c)) (if kill then .killLine else .trailer)
  subst is
  have begun := begun_beginLine (p := endBodyLine c next p') (c := c) (if kill then .killLine else .trailer)
  rw [ended.force] at begun
  refine ⟨⟨steady.offset.trans ended.offset, steady.lineNo.trans ended.lineNo⟩, by simp [ended.state], ⟨?_, ?_⟩,
    ended.kept (by simp) (by simp), begun⟩
  · rw [q_beginLine, ended.queue]
  · rw [q_beginLine, ended.lines]

end Sys2Proof.Machine
end

section
/-! The selection after an output line, and the statement about the end of a frame. -/

namespace Sys2Proof.Machine

variable {p p' q r : Part} {c c' : CircNo} {f : Frame} {column n m : Nat} {e : Entry} {after : Queue}

/-- What follows a trailer, a kill line, a break line or an owed notice of `p`, which leaves the queue `after`. -/
def Part.GoesAfter (r p : Part) (c : CircNo) (after : Queue) : Prop :=
  if (p.tx c).holdPending = true then r.Stopped c .selectionDue (p.tx c) ∧ r.Rests c after
  else if (r.tx c).owed ≠ [] then
    ((r.tx c).state = .notice ∧ r.LineBegun c .owed (p.tx c).force) ∧ r.Rests c after
  else r.Selects p c { after with force := (p.q c).ordered }

theorem goesAfter_holdOrSelect (queue : p'.q c = after) (slot : after.current = none) (turn : after.turn ≤ 8)
    (params : after.ordered = (p.q c).ordered) (ready : ∀ e ∈ after.entries, p'.eligible e = p.eligible e)
    (sender : ∃ tx : Sender, p'.tx c = { tx with
      force := (p.tx c).force, ordered := (p.tx c).ordered, nextCseq := (p.tx c).nextCseq
      holdPending := (p.tx c).holdPending }) :
    (holdOrSelect c p').GoesAfter p c after ∧ ((holdOrSelect c p').tx c).owed = (p'.tx c).owed := by
  have owed := (Steady.holdOrSelect (Steady.refl (p'.tx c))).owed
  refine ⟨?_, owed⟩
  obtain ⟨tx, sender⟩ := sender
  have goes := goesOn_holdOrSelect (p₀ := p) queue slot turn ready (by rw [sender]) (by rw [sender]) (by rw [sender])
  have hold : (p'.tx c).holdPending = (p.tx c).holdPending := by rw [sender]
  rw [hold, ← owed] at goes
  unfold Part.GoesAfter
  rw [← params]
  exact goes

/-- The items with an entry after a selection are those with an entry before it. -/
theorem Part.GoesAfter.items (h : r.GoesAfter p c after) (n : Nat) :
    (∃ x ∈ (r.q c).held, x.item = n) ↔ ∃ x ∈ after.entries, x.item = n := by
  have rests : r.Rests c after → ((∃ x ∈ (r.q c).held, x.item = n) ↔ ∃ x ∈ after.entries, x.item = n) := by
    rintro ⟨current, entries, -, -⟩
    rw [held_none _ current, entries]
  unfold Part.GoesAfter at h
  split at h
  · exact rests h.2
  · split at h
    · exact rests h.2
    · by_cases some : ∃ e ∈ after.entries, p.eligible e = true
      · obtain ⟨-, ch, chosen, entries, current, -⟩ := h.2 some
        have queued : ch.entry ∈ after.entries := by
          have spec := (choose_spec chosen).2.1
          rwa [Part.q_modQ] at spec
        rw [Queue.held, entries, current]
        constructor
        · rintro ⟨x, member, rfl⟩
          rcases List.mem_append.mp member with first | rest
          · rw [Option.toList_some, List.mem_singleton] at first
            exact ⟨ch.entry, queued, by rw [first]⟩
          · exact ⟨x, (List.mem_filter.mp rest).1, rfl⟩
        · rintro ⟨x, member, rfl⟩
          by_cases same : x.item = ch.entry.item
          · exact ⟨_, List.mem_append_left _ (.head _), same.symm⟩
          · exact ⟨x, List.mem_append_right _ (List.mem_filter.mpr ⟨member, by simpa using same⟩), rfl⟩
      · have idle := (h.1 fun e member => by
          rw [Bool.eq_false_iff]
          exact fun eligible => some ⟨e, member, eligible⟩).2.2
        exact rests idle

/-! ### The items of the entries that stay -/

theorem item?_released (ne : m ≠ n) : (released c n p).item? m = p.item? m := by
  have others : (p.modItem n fun it => { it with holders := it.holders - 1 }).item? m = p.item? m := by
    refine (Part.item?_modItem (f := fun it => { it with holders := it.holders - 1 }) fun _ => rfl).trans ?_
    simp [ne]
  rw [released, Part.item?_examineFree ne, Part.item?_eq _ _ (items_recompute ..), others]

theorem item_released (ne : m ≠ n) : (released c n p).item m = p.item m := by
  rw [Part.item, Part.item, item?_released ne]

theorem item_removeCurrent (current : (p.q c).current = some e) (ne : n ≠ e.item) :
    (removeCurrent c p).item n = p.item n := by
  simp only [removeCurrent, current]
  rw [item_released ne]
  exact ((OnCirc.refl c p).modQ _).item n

/-! ### After a trailer, a kill line, a break line and an owed notice (R103, R133, R134, R136, R137) -/

/-- The queue once its current entry has gone, with the turn ended where its quantum is 0 or used up (R103). -/
def Queue.completed (q : Queue) : Queue :=
  if q.byTurn = true ∧ (q.force.quantum = 0 ∨ q.force.quantum ≤ q.turnLines) then
    { q with current := none, turn := (q.turn + 1) % 9, turnLines := 0 } else { q with current := none }

theorem turnAtItemEnd_eq {queue : Queue} (turn : queue.turn ≤ 8) :
    turnAtItemEnd { queue with current := none } = queue.completed := by
  have next : nextTurn queue.turn = (queue.turn + 1) % 9 := by
    unfold nextTurn
    split <;> omega
  unfold turnAtItemEnd Queue.completed endTurn
  simp [next]

theorem completed_spec {queue : Queue} (turn : queue.turn ≤ 8) : queue.completed.current = none ∧
    queue.completed.turn ≤ 8 ∧ queue.completed.ordered = queue.ordered ∧ queue.completed.entries = queue.entries := by
  unfold Queue.completed
  split
  · exact ⟨rfl, Nat.le_of_lt_succ (Nat.mod_lt _ (by omega)), rfl, rfl⟩
  · exact ⟨rfl, turn, rfl, rfl⟩

theorem eligible_removeCurrent (current : (p.q c).current = some e) (single : ((p.q c).held.map (·.item)).Nodup) :
    ∀ x ∈ (p.q c).entries, x.item ≠ e.item ∧ (removeCurrent c p).eligible x = p.eligible x := by
  intro x member
  rw [Queue.held, current] at single
  have ne : x.item ≠ e.item := by
    intro same
    exact (List.nodup_cons.mp single).1 (List.mem_map.mpr ⟨x, member, same⟩)
  exact ⟨ne, by rw [Part.eligible, Part.eligible, item_removeCurrent current ne]⟩

/-- The part as the last frame leaves it, in so far as a selection reads it. -/
theorem Stage.sender_congr (h : Stage c column p p') {tx : Sender} (same : tx = { p'.tx c with owed := tx.owed }) :
    ∃ tx' : Sender, tx = { tx' with
      force := (p.tx c).force, ordered := (p.tx c).ordered, nextCseq := (p.tx c).nextCseq
      holdPending := (p.tx c).holdPending } := by
  refine ⟨tx, ?_⟩
  have sender := h.sender
  generalize p'.tx c = t at same sender
  rw [same, sender]

theorem completed_after (h : Stage c column p p') (turn : (p.q c).turn ≤ 8)
    (queue : p'.q c = { p.q c with current := p.printed c }) (current : (p.q c).current = some e)
    (single : ((p.q c).held.map (·.item)).Nodup) (own : (p.tx c).job.ofEntry = true)
    (owed : (p'.tx c).owed = (p.tx c).owed) (is : holdOrSelect c (completeEntry c p') = r) :
    (r.circ c).tally.done = bump (p.circ c).tally.done ∧ (∀ x ∈ (r.q c).held, x.item ≠ e.item) ∧
      (r.tx c).owed = (p.tx c).owed ∧ r.GoesAfter p c (p.q c).completed := by
  obtain ⟨slot, served, params, entries⟩ := completed_spec turn
  have spent : (p'.q c).current = some { e with spent := e.spent + 1 } := by
    rw [h.current, Part.printed, if_pos own, current]
    rfl
  have apart : ∀ x ∈ (p.q c).entries, x.item ≠ e.item ∧ (removeCurrent c p').eligible x = p'.eligible x := by
    intro x member
    have := eligible_removeCurrent spent ?_ x (by rwa [h.entries])
    · exact this
    · rw [Queue.held, spent, h.entries]
      rwa [Queue.held, current] at single
  have after : (completeEntry c p').q c = (p.q c).completed := by
    rw [← turnAtItemEnd_eq turn]
    simp only [completeEntry, Part.q_modQ, Part.q_modTally, q_removeCurrent, queue]
  have ready : ∀ x ∈ (p.q c).completed.entries, (completeEntry c p').eligible x = p.eligible x := by
    intro x member
    rw [entries] at member
    rw [← h.on.eligible, ← (apart x member).2]
    exact (((OnCirc.refl c (removeCurrent c p')).modTally _).modQ _).eligible x
  obtain ⟨goes, owes⟩ := goesAfter_holdOrSelect (p := p) after slot served params ready
    (h.sender_congr (by simp [completeEntry]))
  rw [is] at goes owes
  refine ⟨?_, ?_, ?_, goes⟩
  · rw [← is, tally_holdOrSelect]
    simp [completeEntry, h.tally]
  · intro x member same
    obtain ⟨y, queued, eq⟩ := (goes.items e.item).mp ⟨x, member, same⟩
    rw [entries] at queued
    exact (apart y queued).1 eq
  · rw [owes, ← owed]
    simp [completeEntry]

theorem break_after (h : Stage c column p p') (turn : (p.q c).turn ≤ 8)
    (queue : p'.q c = { p.q c with current := p.printed c }) (current : (p.q c).current = some e)
    (single : ((p.q c).held.map (·.item)).Nodup) (own : (p.tx c).job.ofEntry = true)
    (owed : (p'.tx c).owed = (p.tx c).owed) (is : breakDone c p' = r) :
    if p.killedNow c then (∀ x ∈ (r.q c).held, x.item ≠ e.item) ∧ (r.tx c).owed = (p.tx c).owed ++ [e.cseq.getD 0] ∧
      r.GoesAfter p c { p.q c with current := none }
    else (∃ x ∈ (r.q c).held, x.item = e.item) ∧ (r.tx c).owed = (p.tx c).owed ∧
      r.GoesAfter p c { p.q c with
        entries := placeFirst { e with spent := e.spent + 1 } (p.q c).entries, current := none } := by
  have spent : (p'.q c).current = some { e with spent := e.spent + 1 } := by
    rw [h.current, Part.printed, if_pos own, current]
    rfl
  have killed : p.killedNow c = (p.item e.item).killed := by rw [Part.killedNow, current]; rfl
  unfold breakDone at is
  rw [spent] at is
  simp only [h.on.item, ← killed] at is
  by_cases dead : p.killedNow c = true
  · rw [if_pos dead] at is ⊢
    have apart : ∀ x ∈ (p.q c).entries, x.item ≠ e.item ∧ (removeCurrent c p').eligible x = p'.eligible x := by
      intro x member
      have := eligible_removeCurrent spent ?_ x (by rwa [h.entries])
      · exact this
      · rw [Queue.held, spent, h.entries]
        rwa [Queue.held, current] at single
    obtain ⟨goes, owes⟩ := goesAfter_holdOrSelect (p := p) (p' := owe c (e.cseq.getD 0) (removeCurrent c p'))
      (after := { p.q c with current := none }) (by simp [owe, queue]) rfl turn rfl
      (fun x member => by
        rw [← h.on.eligible, ← (apart x member).2]
        exact ((OnCirc.refl c _).owe _).eligible x)
      (h.sender_congr (by simp [owe]))
    rw [is] at goes owes
    refine ⟨?_, ?_, goes⟩
    · intro x member same
      obtain ⟨y, queued, eq⟩ := (goes.items e.item).mp ⟨x, member, same⟩
      exact (apart y queued).1 eq
    · rw [owes, ← owed]
      simp [owe]
  · rw [if_neg dead] at is ⊢
    obtain ⟨goes, owes⟩ := goesAfter_holdOrSelect (p := p) (p' := giveBack c { e with spent := e.spent + 1 } p')
      (after := { p.q c with entries := placeFirst { e with spent := e.spent + 1 } (p.q c).entries, current := none })
      (by simp [giveBack, queue]) rfl turn rfl
      (fun x _ => (h.on.modQ _ : OnCirc c p (giveBack c _ p')).eligible x)
      (h.sender_congr (by simp [giveBack]))
    rw [is] at goes owes
    refine ⟨(goes.items e.item).mpr ⟨_, (placeFirst_perm _ _).mem_iff.mpr (.head _), rfl⟩, ?_, goes⟩
    rw [owes, ← owed]
    simp [giveBack]

theorem owed_after (h : Stage c column p p') (turn : (p.q c).turn ≤ 8)
    (queue : p'.q c = p.q c) (empty : (p.q c).current = none)
    (owed : (p'.tx c).owed = (p.tx c).owed) (is : owedDone c p' = r) :
    (r.tx c).owed = (p.tx c).owed.tail ∧
      if (p.tx c).holdPending = true then r.Stopped c .selectionDue (p.tx c)
      else if (p.tx c).owed.tail ≠ [] then r.LineBegun c .owed (p.tx c).force else r.Selects p c (p.q c) := by
  have paid : Stage c column p (p'.modTx c fun tx => { tx with owed := tx.owed.tail }) := h.modTx rfl
  have debts : ((p'.modTx c fun tx => { tx with owed := tx.owed.tail }).tx c).owed = (p.tx c).owed.tail := by simp [owed]
  unfold owedDone at is
  simp only [paid.holdPending, debts] at is
  by_cases hold : (p.tx c).holdPending = true
  · rw [if_pos hold] at is ⊢
    subst is
    exact ⟨(Steady.enterHeld (Steady.refl _) _).owed.trans debts, paid.stopped _⟩
  · rw [if_neg hold] at is ⊢
    by_cases none : (p.tx c).owed.tail = []
    · rw [if_pos none] at is
      rw [if_neg (by simpa using none)]
      subst is
      refine ⟨(Steady.select (Steady.refl _)).owed.trans debts, ?_⟩
      exact selects_select (by simpa [queue] using empty) empty turn (by simp [queue]) (by simp [queue]) (by simp [queue])
        (by simp [queue]) (fun x _ => paid.on.eligible x) paid.force paid.ordered paid.nextCseq
    · rw [if_neg none] at is
      rw [if_pos none]
      subst is
      have begun := begun_beginLine (p := p'.modTx c fun tx => { tx with owed := tx.owed.tail }) (c := c) .owed
      rw [paid.force] at begun
      exact ⟨(Steady.beginLine (Steady.refl _) _).owed.trans debts, begun⟩

end Sys2Proof.Machine
end

section
/-! The statement about the end of a frame. -/

namespace Sys2Proof.Machine

variable {p r : Part} {c c' : CircNo} {f : Frame}

theorem exec_frameSent {s : State} (running : s.part.inReset = false) (quiet : (frameSent c s.part).alarm.owing = []) :
    exec (.frameSent c) s = .next { s with part := frameSent c s.part } := by
  refine after_of (f := fun p => if p.inReset then p else settle (frameSent c p)) ?_
  rw [if_neg (by simp [running]), settle_of_settled quiet]

/-- A frame within an output line. -/
theorem frame_within {s : State} {g : Frame} {rest : List Frame} (running : s.part.inReset = false)
    (settled : s.part.alarm.owing = []) (balanced : s.part.Balanced c) (out : (s.part.tx c).out = f :: g :: rest) :
    ∃ p : Part, exec (.frameSent c) s = .next { s with part := p } ∧
      p.tx c = { s.part.tx c with
        out := g :: rest
        column := if f.sort = .printing then (s.part.tx c).column + 1 else if f.sort = .cr then 0
          else (s.part.tx c).column
        shift := if f.code = .five ∧ f.sort = .figs then .figures
          else if f.code = .five ∧ (f.sort = .ltrs ∨ f.sort = .fill) then .letters else (s.part.tx c).shift } ∧
      (p.circ c).tally = { (s.part.circ c).tally with sent := bump (s.part.circ c).tally.sent } ∧
      p.q c = (if (s.part.tx c).job.ofEntry = true then
        { s.part.q c with current := (s.part.q c).current.map fun e => { e with spent := e.spent + 1 } }
        else s.part.q c) ∧
      (p.load c).backlog = backlogOf (p.q c) ∧
      { p with circs := s.part.circs } = s.part ∧ ∀ c', c' ≠ c → p.circ c' = s.part.circ c' := by
  have on : OnCirc c s.part (frameOut c f (g :: rest) s.part) := onCirc_frameOut balanced
  have sent : frameSent c s.part = frameOut c f (g :: rest) s.part := by rw [frameSent_eq out, if_neg (by simp)]
  refine ⟨frameSent c s.part, exec_frameSent running (by rw [sent, on.alarm]; exact settled), ?_⟩
  rw [sent]
  refine ⟨?_, tally_frameOut, q_frameOut, (balanced_frameOut balanced).backlog, on.circs, fun c' ne => on.circ_ne ne⟩
  rw [tx_frameOut, frameEnded_eq]
  simp

/-- The shift after the last frame, as far as the code stays. -/
theorem shift_last : ((frameOut c f [] p).tx c).shift =
    if (f.sort = .lf ∨ f.sort = .fill) ∧ (1 ≤ (p.tx c).force.fills ∨ (p.tx c).force.unshift = true) then .letters
    else if f.code = .five ∧ f.sort = .figs then .figures
      else if f.code = .five ∧ (f.sort = .ltrs ∨ f.sort = .fill) then .letters else (p.tx c).shift := by
  rw [tx_frameOut, frameEnded_eq]
  simp

/-- Settles O31. -/
theorem frameSentWithinALine : Obligations.FrameSentWithinALine := by
  refine ⟨fun s c f g rest running settled counted => ⟨fun none => ?_, fun out => ?_⟩,
    fun s c f running settled counted ordered turn out => ?_⟩
  · have same : frameSent c s.part = s.part := by rw [frameSent, none]
    rw [exec_frameSent running (by rw [same]; exact settled), same]
  · exact frame_within running settled ((backlogsCounted_iff.mp counted).2 c) out
  · have balanced : s.part.Balanced c := (backlogsCounted_iff.mp counted).2 c
    have single := (counted c).single
    have stage := stage_frameOut (f := f) balanced
    have fresh : (frameOut c f [] s.part).tx c = { s.part.tx c with
        column := columnAfter f (s.part.tx c), shift := ((frameOut c f [] s.part).tx c).shift, out := [] } := tx_last
    have queue : (frameOut c f [] s.part).q c = { s.part.q c with current := s.part.printed c } := q_printed
    have lines : ((frameOut c f [] s.part).q c).turnLines = (s.part.q c).turnLines := by rw [queue]
    have quantum : ((frameOut c f [] s.part).q c).breakQuantum = (s.part.q c).breakQuantum := by rw [queue]
    have number : ((frameOut c f [] s.part).tx c).lineNo = (s.part.tx c).lineNo := by rw [fresh]
    have mark : ((frameOut c f [] s.part).tx c).startMark = (s.part.tx c).startMark := by rw [fresh]
    have owed : ((frameOut c f [] s.part).tx c).owed = (s.part.tx c).owed := by rw [fresh]
    have sent : frameSent c s.part = jobDone c (s.part.tx c).job (frameOut c f [] s.part) := by
      rw [frameSent_eq out, if_pos rfl]
    obtain ⟨alarm, others⟩ := jobDone_on (balanced_frameOut (f := f) (rest := []) balanced) (s.part.tx c).job
    rw [← sent] at alarm others
    have frame := (OutMoves.frameSent (c := c) (.refl : OutMoves s.part s.part)).frame
    have kept_balanced : (frameSent c s.part).Balanced c := by
      have both := (OutMoves.frameSent (c := c) (.refl : OutMoves s.part s.part)).keeps
        (I := fun p => p.Single ∧ ∀ c, p.Balanced c)
        (fun m h => ⟨m.keeps_single h.1, m.keeps_balanced h.1 h.2⟩) (backlogsCounted_iff.mp counted)
      exact both.2 c
    have runs := exec_frameSent (c := c) running (by rw [alarm, stage.on.alarm]; exact settled)
    have sent_tally : ((frameSent c s.part).circ c).tally.sent = bump (s.part.circ c).tally.sent := by
      rw [sent, sent_jobDone, tally_frameOut]
    have steady := steady_jobDone (c := c) (p := frameOut c f [] s.part) (job := (s.part.tx c).job)
    rw [← sent] at steady
    generalize frameSent c s.part = r at sent alarm others frame kept_balanced runs sent_tally steady
    have going : ∀ j, (s.part.tx c).job = j → jobDone c j (frameOut c f [] s.part) = r := fun j job => by rw [sent, job]
    refine ⟨r, runs, ?_⟩
    intro tx q spent killed column stands frameShift shift coded stopped begun begins printed kept rivals classHolds broken
      body pending rests selects goesOn linesAfter next reached byQuantum turnKept
    refine ⟨?_, kept_balanced.backlog, alarm.trans stage.on.alarm, frame.lines, frame.banks, frame.history, frame.orders,
      fun c' ne => (others c' ne).trans (stage.on.circ_ne ne), fun other => ?_, fun kind job => ?_, fun job => ?_,
      fun offset job => ?_, fun offset job => ?_, fun offset kill job => ?_, fun job e current => ?_, fun job e current => ?_,
      fun job empty => ?_⟩
    · exact sent_tally
    · obtain ⟨tx₁, column₁, shift₁, force₁, steady⟩ := steady other
      refine ⟨?_, ?_⟩
      · rw [steady.column, column₁, fresh]
        rfl
      · rw [steady.shift, force₁, shift₁, shift_last, stage.force]
    · have after := startEnd_after stage quantum kind
      rw [going _ job] at after
      exact after
    · have after := heading_after stage quantum mark
      rw [show headingDone c (frameOut c f [] s.part) = r from going _ job] at after
      exact after
    · exact body_after stage lines quantum number mark turn (going _ job)
    · exact rest_after stage lines ⟨by rw [fresh], number⟩ (going _ job)
    · exact lastEnd_after stage lines quantum number mark (going _ job)
    · rcases job with job | job
      · exact completed_after stage turn queue current single (by rw [job]; rfl) owed (going _ job)
      · exact completed_after stage turn queue current single (by rw [job]; rfl) owed (going _ job)
    · exact break_after stage turn queue current single (by rw [job]; rfl) owed (going _ job)
    · have queue_same : (frameOut c f [] s.part).q c = s.part.q c := by
        rw [q_frameOut, job]
        rfl
      exact owed_after stage turn queue_same empty owed (going _ job)

end Sys2Proof.Machine
end

section
/-! The order unit at work: a step with no command waiting (R173–R176, R186, R187). -/

namespace Sys2Proof.Machine

variable {s : State} {p : Part} {t : Text} {l : LineNo} {serial done : Nat} {rest answers : List Text}

/-! ### The next order line -/

theorem step_idle (none : s.pending = []) : step s = s.after idle := by rw [step, none]

theorem idle_rests (rests : p.inReset = true ∨ p.orders.buffer.isExecuting = false) : idle p = p := by
  unfold idle
  rcases rests with low | rests
  · rw [if_pos low]
  · split
    · rfl
    · unfold nextOrder
      cases buffer : p.orders.buffer with
      | executing => simp [buffer, OrderBuffer.isExecuting] at rests
      | free | collecting => rfl

theorem nextOrder_eq (executes : p.orders.buffer = .executing l serial (t :: rest) done answers) :
    nextOrder p = afterOrder l serial rest (done + 1)
      (answers ++ answerLines [dec (done + 1)] (execute (readOrder t p) p)) (execute (readOrder t p) p).ends
      (execute (readOrder t p) p).part := by
  unfold nextOrder
  rw [executes]

/-- A command that is checked as the next order line reads has that line's effect. -/
theorem step_eq_exec {check : Part → Checked Order} {i : Instr} (none : s.pending = [])
    (running : s.part.inReset = false)
    (executes : s.part.orders.buffer = .executing l serial (t :: rest) done answers)
    (means : exec i s = s.after (orderCommand check)) (reads : readOrder t s.part = check s.part) : step s = exec i s := by
  rw [step_idle none, means, State.after_eq, State.after_eq]
  have same : orderCommand check s.part = nextOrder s.part := by
    unfold orderCommand
    rw [if_neg (by simp [running]), executes]
    exact if_pos reads
  rw [same, idle, if_neg (by simp [running])]

theorem checkLine_ok {key : LineNo → Checked LineKeys} {k : LineKeys} (n : LineNo) (given : key n = .ok k) :
    checkLine n.val key = .ok (.line n k) := by
  rw [checkLine, bind_checkEight, given]
  rfl

theorem checkRate_baud (r : Rate) : checkRate r.baud = .ok r := by cases r <;> rfl

theorem checkSequence_ok {w other : Text} (least : 2 ≤ w.length) (most : w.length ≤ 6)
    (letters : ∀ c ∈ w, isLetter c = true) (ne : w ≠ other) : checkSequence other w = .ok w :=
  if_pos ⟨least, most, by simpa using letters, ne⟩

theorem circuitsOf_val {cs : List CircNo} (sorted : cs.Pairwise (· < ·)) : circuitsOf (cs.map (·.val)) = cs := by
  have ordered : (circuitsOf (cs.map (·.val))).Pairwise (· < ·) := List.Pairwise.filter _ (by decide : allEight.Pairwise (· < ·))
  have perm : (circuitsOf (cs.map (·.val))).Perm cs := by
    refine (List.perm_ext_iff_of_nodup (ordered.imp ne_of_lt) (sorted.imp ne_of_lt)).mpr fun c => ?_
    simp only [circuitsOf, List.mem_filter, mem_allEight, true_and, List.contains_iff_mem, List.mem_map]
    exact ⟨fun ⟨x, member, same⟩ => Fin.ext same ▸ member, fun member => ⟨c, member, rfl⟩⟩
  exact perm.eq_of_pairwise (fun _ _ _ _ a b => absurd a (lt_asymm b)) ordered sorted

theorem checkRoute_ok {rt : Route} (letters : ∀ w, rt.key.category = some w → w.length = 2 ∧ ∀ c ∈ w, isLetter c = true)
    (sorted : rt.circuits.Pairwise (· < ·)) (classes : ∀ k, rt.cls = some k → 1 ≤ k ∧ k ≤ 5) :
    checkRoute (rt.key.line.map (·.val)) rt.key.category (rt.circuits.map (·.val)) rt.cls (rt.alt.map (·.val))
      (some rt.mode) = .ok (.route rt) := by
  have set : checkSet (rt.circuits.map (·.val)) = .ok rt.circuits := by
    rw [checkSet_ok, circuitsOf_val sorted]
    · exact List.Nodup.map Fin.val_injective (sorted.imp ne_of_lt)
    · intro d member
      obtain ⟨c, -, rfl⟩ := List.mem_map.mp member
      omega
  unfold checkRoute
  rw [checkRouteLine_val, checkRouteLine_val, checkCategory_ok letters, set, checkClass_ok classes]
  rfl

theorem ends_act {o : Order} (warm : o ≠ .restartWarm) (cold : o ≠ .restartCold) : (act o p).ends = false := by
  cases o with
  | restartWarm => exact absurd rfl warm
  | restartCold => exact absurd rfl cold
  | route rt =>
    simp only [act, actRoute]
    split
    · rfl
    · split <;> rfl
  | unroute key =>
    simp only [act, actUnroute]
    split <;> rfl
  | _ => rfl

/-- The step that takes the next order line. -/
theorem step_nextOrder (none : s.pending = []) (running : s.part.inReset = false)
    (executes : s.part.orders.buffer = .executing l serial (t :: rest) done answers) {d : Done}
    (executed : execute (readOrder t s.part) s.part = d) :
    step s = .next { s with
      part := (afterOrder l serial rest (done + 1) (answers ++ answerLines [dec (done + 1)] d) d.ends d.part) } := by
  rw [step_idle none, State.after_eq, idle, if_neg (by simp [running]), nextOrder_eq executes, executed]

/-- A CIRC order that keeps the relation of the thresholds is accepted. -/
theorem checkCirc_threshold {c : CircNo} {keys : Checked CircKeys} {k : CircKeys} (given : keys = .ok k)
    (relation : (thresholdsAfter k (p.load c)).hyst < (thresholdsAfter k (p.load c)).loadOn ∧
      (thresholdsAfter k (p.load c)).loadOn ≤ (thresholdsAfter k (p.load c)).congOn) :
    checkCirc p c.val keys = .ok (.circ c k) := by
  rw [given, checkCirc_eq]
  exact if_neg (by simp [relation])

/-- An answer line under its number. -/
theorem answerLine_numbered (number : Text) (words : Checked Text) : answerLine [number] words =
    sentence (match words with
      | .ok [] => [number, txt "OK"]
      | .ok ws => [number, txt "OK", ws]
      | .no r => [number, txt "NO", reasonWord r]) := by
  cases words with
  | no r => rfl
  | ok ws => cases ws <;> rfl

theorem sentence_four (a b d e : Text) : sentence [a, b, d, e] = sentence [a, b, d ++ spaceChr :: e] := by
  simp [sentence]

/-- Settles O52. -/
theorem idleStepTakesAnOrderLineOrIdles : Obligations.IdleStepTakesAnOrderLineOrIdles := by
  refine ⟨fun s waits rests => ?_, fun s l serial done t rest answers waits running settled executes => ?_⟩
  · rw [step_idle waits, State.after_eq, idle_rests rests]
  · intro number gives goesOn
    have goes : ∀ {d : Done}, execute (readOrder t s.part) s.part = d → d.ends = false →
        goesOn d.part (answers ++ answerLines [dec (done + 1)] d) := by
      intro d executed on
      have stepped := step_nextOrder waits running executes executed
      rw [on] at stepped
      refine ⟨fun last => ?_, fun more => ?_⟩
      · rw [afterOrder, if_neg (by simp), if_pos last] at stepped
        exact stepped
      · rw [afterOrder, if_neg (by simp), if_neg more] at stepped
        exact stepped
    refine ⟨fun r reads => ?_, fun o reads warm cold => ?_, fun reads => ?_, fun reads => ?_, ?_⟩
    · exact goes (d := .refused s.part r) (by rw [reads]; rfl) rfl
    · intro d
      have gone := goes (d := { d with part := settle d.part }) (by rw [reads]; rfl) (ends_act warm cold)
      rw [answerLines, answerLine_numbered] at gone
      exact gone
    · have stepped := step_nextOrder waits running executes (d := act .restartWarm s.part) (by
        rw [reads]
        exact congrArg (fun q => { act .restartWarm s.part with part := q }) (settle_of_settled (p := warmPart s.part) rfl))
      rw [answerLines, answerLine_numbered] at stepped
      rw [sentence_four]
      exact stepped
    · have stepped := step_nextOrder waits running executes (d := act .restartCold s.part) (by
        rw [reads]
        exact congrArg (fun q => { act .restartCold s.part with part := q })
          (settle_of_settled (p := powerUp s.part.straps s.part) rfl))
      rw [answerLines, answerLine_numbered] at stepped
      rw [sentence_four]
      exact stepped
    · intro does
      have same : ∀ {check : Part → Checked Order} {i : Instr} {o : Order}, check s.part = .ok o →
          exec i s = s.after (orderCommand check) → does o i := fun checked means reads =>
        step_eq_exec waits running executes means (reads.trans checked.symm)
      have setting : ∀ {c : CircNo} {keys : Checked CircKeys} {k : CircKeys} {i : Instr}, keys = .ok k → k.loadOn = none →
          k.congOn = none → k.hyst = none → exec i s = s.after (orderCommand fun p => checkCirc p c.val keys) →
          does (.circ c k) i := fun given loadOn congOn hyst means =>
        same (check := fun p => checkCirc p _ _) (checkCirc_ok given loadOn congOn hyst) means
      have threshold : ∀ {c : CircNo} {keys : Checked CircKeys} {k : CircKeys} {i : Instr}, keys = .ok k →
          (thresholdsAfter k (s.part.load c)).hyst < (thresholdsAfter k (s.part.load c)).loadOn ∧
            (thresholdsAfter k (s.part.load c)).loadOn ≤ (thresholdsAfter k (s.part.load c)).congOn →
          exec i s = s.after (orderCommand fun p => checkCirc p c.val keys) → does (.circ c k) i :=
        fun given relation means => same (check := fun p => checkCirc p _ _) (checkCirc_threshold given relation) means
      refine ⟨fun k on code n w => ?_, fun c on code m n => ?_, fun rt letters => ?_, fun c slug form => ?_,
        fun fs on named single => ?_, fun w two letters => ?_, fun n most => ?_, ?_⟩
      · refine ⟨fun r => ?_, ?_, fun least most => ?_, ?_, ?_, fun least most letters => ⟨fun ne => ?_, fun ne => ?_⟩,
          fun range => ?_, ?_, ?_⟩
        · exact same (checkLine_ok k (congrArg (Checked.map _) (checkRate_baud r))) rfl
        · exact same (checkLine_ok k rfl) rfl
        · exact same (checkLine_ok k (congrArg (Checked.map _) (checkRange_of least most))) rfl
        · exact same (checkLine_ok k rfl) rfl
        · exact same (checkLine_ok k rfl) rfl
        · exact same (check := fun p => checkLine k.val fun l => (checkSequence (p.fr l).closing w).map fun x =>
            { opening := some x }) (checkLine_ok k (congrArg (Checked.map _) (checkSequence_ok least most letters ne))) rfl
        · exact same (check := fun p => checkLine k.val fun l => (checkSequence (p.fr l).opening w).map fun x =>
            { closing := some x }) (checkLine_ok k (congrArg (Checked.map _) (checkSequence_ok least most letters ne))) rfl
        · exact same (checkLine_ok k (congrArg (Checked.map _) (if_pos range))) rfl
        · exact same (checkLine_ok k rfl) rfl
        · exact same (map_checkEight k _) rfl
      · refine ⟨fun r => ?_, ?_, fun least most => ?_, fun most => ?_, fun most => ?_, ?_, ?_, fun most => ?_, fun most => ?_,
          fun least most => ?_, fun most => ⟨?_, ?_, ?_, ?_, ?_⟩, fun most => ?_, ?_, ?_, ?_, ?_⟩
        · exact setting (congrArg (Checked.map _) (checkRate_baud r)) rfl rfl rfl rfl
        · exact setting rfl rfl rfl rfl rfl
        · exact setting (congrArg (Checked.map _) (checkRange_of least most)) rfl rfl rfl rfl
        · exact setting (congrArg (Checked.map _) (checkRange_of (Nat.zero_le n) most)) rfl rfl rfl rfl
        · exact setting (congrArg (Checked.map _) (checkRange_of (Nat.zero_le n) most)) rfl rfl rfl rfl
        · exact setting rfl rfl rfl rfl rfl
        · exact setting rfl rfl rfl rfl rfl
        · exact setting (congrArg (Checked.map _) (checkRange_of (Nat.zero_le n) most)) rfl rfl rfl rfl
        · exact setting (congrArg (Checked.map _) (checkRange_of (Nat.zero_le n) most)) rfl rfl rfl rfl
        · exact setting (congrArg (Checked.map _) (checkRange_of least most)) rfl rfl rfl rfl
        · exact setting (congrArg (Checked.map _) (checkRange_of (Nat.zero_le n) most)) rfl rfl rfl rfl
        · exact setting (congrArg (Checked.map _) (checkRange_of (Nat.zero_le n) most)) rfl rfl rfl rfl
        · exact setting (congrArg (Checked.map _) (checkRange_of (Nat.zero_le n) most)) rfl rfl rfl rfl
        · exact setting (congrArg (Checked.map _) (checkRange_of (Nat.zero_le n) most)) rfl rfl rfl rfl
        · exact setting (congrArg (Checked.map _) (checkRange_of (Nat.zero_le n) most)) rfl rfl rfl rfl
        · have range : checkRange 0 999999 n = .ok n := checkRange_of (Nat.zero_le n) most
          exact ⟨fun low high => threshold (congrArg (Checked.map _) range) ⟨low, high⟩ rfl,
            fun low high => threshold (congrArg (Checked.map _) range) ⟨low, high⟩ rfl,
            fun low high => threshold (congrArg (Checked.map _) range) ⟨low, high⟩ rfl⟩
        · exact same (map_checkEight c _) rfl
        · exact same (map_checkEight c _) rfl
        · exact same (map_checkEight c _) rfl
        · exact same (map_checkEight c _) rfl
      · refine ⟨?_, fun sorted classes => ?_⟩
        · refine same (check := fun _ => (checkRouteLine (rt.key.line.map (·.val))).bind fun l =>
            (checkCategory rt.key.category).map fun c => .unroute { line := l, category := c }) ?_ rfl
          rw [checkRouteLine_val, checkCategory_ok letters]
          rfl
        · exact same (checkRoute_ok letters sorted classes) rfl
      · refine same (check := fun _ => (checkRouteLine (c.map (·.val))).bind fun c => (checkSlug slug).map fun t =>
          .purge c t) ?_ rfl
        rw [checkRouteLine_val, checkSlug_ok fun w given => (form w given).1]
        have whole : slug.map cutSlug = slug := by
          cases slug with
          | none => rfl
          | some w => exact congrArg some (List.take_of_length_le (form w rfl).2)
        rw [whole]
        rfl
      · have flags : checkFlags (.names fs) = .ok fs := checkFlags_ok (by simp [pickFlags, named, single])
        exact ⟨same (congrArg (Checked.map _) flags) rfl, same (congrArg (Checked.map _) flags) rfl,
          same (congrArg (Checked.map _) flags) rfl⟩
      · exact same (congrArg (Checked.map _) (checkAddress_ok two letters)) rfl
      · exact same (congrArg (Checked.map _) (checkRange_of (Nat.zero_le n) most)) rfl
      · refine ⟨same rfl rfl, same rfl rfl, same rfl rfl, same rfl rfl, same rfl rfl, same rfl rfl, same rfl rfl,
          same rfl rfl, ?_⟩
        exact step_eq_exec waits running executes (check := readOrder t) rfl rfl

end Sys2Proof.Machine
end

section
/-! Headings: the words of a text, and the fields that they give (R41, R42). -/

namespace Sys2Proof.Machine

/-! ### The words of a sentence -/

theorem tokensAux_append {w : Text} (unspaced : spaceChr ∉ w) (rest cur : Text) :
    tokensAux (w ++ rest) cur = tokensAux rest (w.reverse ++ cur) := by
  induction w generalizing cur with
  | nil => rfl
  | cons c w ih =>
    rw [List.mem_cons, not_or] at unspaced
    rw [List.cons_append, tokensAux, if_neg (Ne.symm unspaced.1), ih unspaced.2]
    simp

theorem tokensAux_end (cur : Text) : tokensAux [] cur = if cur = [] then [] else [cur.reverse] := rfl

theorem tokensAux_space (rest cur : Text) :
    tokensAux (spaceChr :: rest) cur = (if cur = [] then [] else [cur.reverse]) ++ tokens rest := by
  rw [tokensAux, if_pos rfl]
  split <;> rfl

/-- The words of a sentence are its tokens, but for the empty ones. -/
theorem tokens_sentence {ws : List Text} (unspaced : ∀ w ∈ ws, spaceChr ∉ w) :
    tokens (sentence ws) = ws.filter (· ≠ []) := by
  induction ws with
  | nil => rfl
  | cons w ws ih =>
    have first := unspaced w (.head _)
    have rest := ih fun x member => unspaced x (.tail _ member)
    cases ws with
    | nil =>
      have read := tokensAux_append first [] []
      rw [List.append_nil, List.append_nil, tokensAux_end] at read
      rw [sentence, tokens, read, List.filter_cons]
      cases w <;> simp
    | cons x xs =>
      have read := tokensAux_append first (spaceChr :: sentence (x :: xs)) []
      rw [List.append_nil, tokensAux_space, rest] at read
      rw [sentence, tokens, read]
      · cases w with
        | nil => exact (List.filter_cons_of_neg (by simp)).symm
        | cons c w =>
          rw [if_neg (by simp), List.reverse_reverse]
          exact (List.filter_cons_of_pos (by simp)).symm
      · exact fun h => nomatch h

theorem filterMap_words {α : Type} {f : Text → Option α} (empty : f [] = none) (ws : List Text) :
    (ws.filter (· ≠ [])).filterMap f = ws.filterMap f := by
  induction ws with
  | nil => rfl
  | cons w ws ih =>
    cases w with
    | nil => rw [List.filter_cons_of_neg (by simp), ih, List.filterMap_cons_none empty]
    | cons c w => rw [List.filter_cons_of_pos (by simp), List.filterMap_cons, List.filterMap_cons, ih]

/-! ### The marks -/

theorem numeral_digits {ds : Text} (some : 1 ≤ ds.length) (digits : ∀ d ∈ ds, isDigit d = true) :
    numeral ds = .some (ds.foldl (fun n d => n * 10 + (d - 28)) 0) := by
  have filled : ds ≠ [] := by
    rintro rfl
    exact nomatch some
  rw [numeral, if_pos (by simpa [filled] using digits)]

/-- The words T and one to three digits are the take tokens (R42). -/
theorem takeToken_iff (w : Text) (n : Nat) : takeToken w = some n ↔ ∃ ds : Text, (w = txt "T" ++ ds ∧ 1 ≤ ds.length ∧
    ds.length ≤ 3 ∧ ∀ d ∈ ds, isDigit d = true) ∧
    n = if ds.foldl (fun n d => n * 10 + (d - 28)) 0 = 0 then 1 else min (ds.foldl (fun n d => n * 10 + (d - 28)) 0) 99 := by
  constructor
  · intro is
    unfold takeToken at is
    split at is
    next ds =>
      split at is
      next few =>
        unfold numeral at is
        split at is
        next digits =>
          rw [Bool.and_eq_true, decide_eq_true_eq] at digits
          refine ⟨ds, ⟨rfl, List.length_pos_iff.mpr digits.1, few, by simpa using digits.2⟩, ?_⟩
          simpa using is.symm
        next => exact nomatch is
      next => exact nomatch is
    next => exact nomatch is
  · rintro ⟨ds, ⟨rfl, least, most, digits⟩, rfl⟩
    show (if ds.length ≤ 3 then (numeral ds).map _ else none) = _
    rw [if_pos most, numeral_digits least digits]
    rfl

theorem kindToken_iff (w : Text) (k : Kind) : kindToken w = some k ↔
    (w = txt "RW" ∧ k = .rewrite) ∨ (w = txt "CO" ∧ k = .correction) ∨ (w = txt "KL" ∧ k = .kill) := by
  have apart : txt "RW" ≠ txt "CO" ∧ txt "RW" ≠ txt "KL" ∧ txt "CO" ≠ txt "KL" := by decide
  unfold kindToken
  split
  · next is => subst is; simp [apart, eq_comm]
  · split
    · next is => subst is; simp [apart, apart.1.symm, eq_comm]
    · split
      · next is => subst is; simp [apart.2.1.symm, apart.2.2.symm, eq_comm]
      · simp [*]

/-- The last of the words that `f` reads. -/
theorem getLast?_filterMap {α : Type} {f : Text → Option α} {before after : List Text} {w : Text} {a : α}
    (reads : f w = some a) (last : ∀ x ∈ after, f x = none) :
    ((before ++ w :: after).filterMap f).getLast? = some a := by
  have rest : after.filterMap f = [] := List.filterMap_eq_nil_iff.mpr last
  rw [List.filterMap_append, List.filterMap_cons_some reads, rest]
  simp

theorem ne_space_of_digit {c : Chr} (digit : isDigit c = true) : c ≠ spaceChr := by
  rintro rfl
  exact nomatch digit

theorem ne_space_of_letter {c : Chr} (letter : isLetter c = true) : c ≠ spaceChr := by
  rintro rfl
  exact nomatch letter

theorem ne_space_of_slug {t : Text} {c : Chr} (form : isSlug t = true) (inside : c ∈ t) : c ≠ spaceChr := by
  rintro rfl
  cases t with
  | nil => exact nomatch inside
  | cons first more =>
    simp only [isSlug, Bool.and_eq_true, List.all_eq_true] at form
    rcases List.mem_cons.mp inside with same | later
    · exact ne_space_of_letter form.1 same.symm
    · exact absurd (form.2 _ later) (by decide)

theorem clampClass_eq (n : Nat) : clampClass n = if n = 0 then 1 else min n 5 := by
  unfold clampClass
  split
  · rfl
  · split <;> omega

/-- Settles O14. -/
theorem headingGivesItsFields : Obligations.HeadingGivesItsFields := by
  intro serial category slug cls words take kind least most digits digit two letters form unspaced number isTake marks
    takes kinds
  have unspaced_of : ∀ {t : Text}, (∀ c ∈ t, c ≠ spaceChr) → spaceChr ∉ t := fun other member => other _ member rfl
  obtain ⟨first, more, rfl⟩ : ∃ first more, slug = first :: more := by
    cases slug with
    | nil => exact nomatch form
    | cons first more => exact ⟨first, more, rfl⟩
  have split : tokens (sentence (serial :: [cls] :: category :: (first :: more) :: words)) =
      serial :: [cls] :: category :: (first :: more) :: words.filter (· ≠ []) := by
    rw [tokens_sentence]
    · have filled : serial ≠ [] ∧ category ≠ [] := by
        constructor <;> rintro rfl
        · exact nomatch least
        · exact nomatch two
      rw [List.filter_cons_of_pos (by simpa using filled.1), List.filter_cons_of_pos (by simp),
        List.filter_cons_of_pos (by simpa using filled.2), List.filter_cons_of_pos (by simp)]
    · intro w member
      simp only [List.mem_cons] at member
      rcases member with rfl | rfl | rfl | rfl | member
      · exact unspaced_of fun c inside => ne_space_of_digit (digits c inside)
      · exact unspaced_of fun c inside => ne_space_of_digit (List.mem_singleton.mp inside ▸ digit)
      · exact unspaced_of fun c inside => ne_space_of_letter (letters c inside)
      · exact unspaced_of fun c inside => ne_space_of_slug form inside
      · exact unspaced w member
  have taken : ((words.filterMap takeToken).getLast?).getD 1 = take := by
    rcases takes with ⟨without, rfl⟩ | ⟨before, w, ds, after, rfl, is, last, rfl⟩
    · have none : words.filterMap takeToken = [] := List.filterMap_eq_nil_iff.mpr fun w member =>
        Option.eq_none_iff_forall_ne_some.mpr fun n reads =>
          let ⟨ds, is, _⟩ := (takeToken_iff w n).mp reads
          without w member ds is
      rw [none]
      rfl
    · rw [getLast?_filterMap ((takeToken_iff w _).mpr ⟨ds, is, rfl⟩) fun x member =>
        Option.eq_none_iff_forall_ne_some.mpr fun n reads =>
          let ⟨ds, is, _⟩ := (takeToken_iff x n).mp reads
          last x member ds is]
      rfl
  have kind_of : kindOf (words.filterMap kindToken).getLast? take = kind := by
    rcases kinds with ⟨without, rfl⟩ | ⟨before, w, after, rfl, is, last⟩
    · have none : words.filterMap kindToken = [] := List.filterMap_eq_nil_iff.mpr fun w member =>
        Option.eq_none_iff_forall_ne_some.mpr fun k reads => without w member k ((kindToken_iff w k).mp reads)
      rw [none]
      rfl
    · rw [getLast?_filterMap ((kindToken_iff w kind).mpr is) fun x member =>
        Option.eq_none_iff_forall_ne_some.mpr fun k reads => last x member k ((kindToken_iff x k).mp reads)]
      rfl
  have class_of : numeral [cls] = some (cls - 28) := by
    rw [numeral_digits (by simp) (by simpa using digit)]
    simp
  unfold parseHeading
  simp only [split]
  rw [numeral_digits least digits, class_of, filterMap_words rfl, filterMap_words rfl, taken, kind_of]
  have fits : (decide (serial.length ≤ 4) && decide ([cls].length = 1) && isTwoLetters category && isSlug (first :: more)) =
      true := by
    simp only [most, form, isTwoLetters, two, decide_true, Bool.true_and, Bool.and_true, List.length_singleton]
    exact List.all_eq_true.mpr letters
  have clamp : clampClass (cls - 28) = if cls - 28 = 0 then 1 else min (cls - 28) 5 := clampClass_eq _
  rw [← clamp]
  exact if_pos fits

end Sys2Proof.Machine
end

section
/-! Insertion: the place of an arrival, its review, and displacement (R97, R98, R105, R106). -/

namespace Sys2Proof.Machine

variable {p q : Part} {c c' : CircNo} {e : Entry} {es : List Entry} {r : Request}

/-! ### The place of an entry (R96, R107) -/

theorem placeLast_eq (sorted : es.Pairwise fun a b => a.cls ≤ b.cls) :
    placeLast e es = (es.filter fun x => x.cls ≤ e.cls) ++ e :: es.filter (fun x => e.cls < x.cls) := by
  induction es with
  | nil => rfl
  | cons x xs ih =>
    rw [List.pairwise_cons] at sorted
    rw [placeLast]
    split
    next before =>
      rw [ih sorted.2, List.filter_cons_of_pos (by simpa using before), List.filter_cons_of_neg (by simpa using before)]
      rfl
    next behind =>
      have rest : ∀ y ∈ x :: xs, e.cls < y.cls := by
        intro y member
        rcases List.mem_cons.mp member with rfl | later
        · omega
        · have := sorted.1 y later
          omega
      rw [List.filter_eq_nil_iff.mpr fun y member => by simpa using rest y member,
        List.filter_eq_self.mpr fun y member => by simpa using rest y member]
      rfl

theorem placeFirst_eq (sorted : es.Pairwise fun a b => a.cls ≤ b.cls) :
    placeFirst e es = (es.filter fun x => x.cls < e.cls) ++ e :: es.filter (fun x => e.cls ≤ x.cls) := by
  induction es with
  | nil => rfl
  | cons x xs ih =>
    rw [List.pairwise_cons] at sorted
    rw [placeFirst]
    split
    next before =>
      rw [ih sorted.2, List.filter_cons_of_pos (by simpa using before), List.filter_cons_of_neg (by simpa using before)]
      rfl
    next behind =>
      have rest : ∀ y ∈ x :: xs, e.cls ≤ y.cls := by
        intro y member
        rcases List.mem_cons.mp member with rfl | later
        · omega
        · have := sorted.1 y later
          omega
      rw [List.filter_eq_nil_iff.mpr fun y member => by simpa using rest y member,
        List.filter_eq_self.mpr fun y member => by simpa using rest y member]
      rfl

/-! ### An entry put in the queue -/

theorem item?_putEntry (n : Nat) : (putEntry c r p).item? n =
    (p.item? n).map fun it => if n = r.item then { it with holders := it.holders + 1 } else it := by
  rw [putEntry, Part.item?_eq _ _ (items_recompute ..)]
  exact Part.item?_modItem (f := fun it => { it with holders := it.holders + 1 }) fun _ => rfl

theorem eligible_putEntry (x : Entry) : (putEntry c r p).eligible x = p.eligible x := by
  rw [Part.eligible, Part.eligible, Part.item, Part.item, item?_putEntry]
  cases p.item? x.item with
  | none => rfl
  | some it =>
    simp only [Option.map_some, Option.getD_some, readyFor]
    split <;> rfl

theorem load_putEntry : ((putEntry c r p).load c).backlog = backlogOf ((putEntry c r p).q c) := by
  obtain ⟨st, load, -⟩ := load_recompute c ((p.modQ c fun q => { q with
    entries := placeLast (p.newEntry c r) q.entries }).modItem r.item fun it => { it with holders := it.holders + 1 })
  rw [putEntry, q_recompute, load]

theorem flag_putEntry {f : Flag} (ne : f ≠ .congested) : (putEntry c r p).flag f = p.flag f := by
  obtain ⟨a, st, eq, alarm, -⟩ := recompute_eq c ((p.modQ c fun q => { q with
    entries := placeLast (p.newEntry c r) q.entries }).modItem r.item fun it => { it with holders := it.holders + 1 })
  rw [putEntry, eq]
  show a.flag f = p.alarm.flag f
  rcases alarm with rfl | rfl
  · rfl
  · exact (Alarm.flag_raise ..).trans (if_neg ne)

/-! ### What a review leaves (R97, R105, R106) -/

/-- The queue `now` holds the entries of `was`: either all in their places, or with one of them taken into the empty
current slot. -/
def Reviewed (was now : Queue) : Prop :=
  (now.entries = was.entries ∧ ∃ f : Entry → Entry, now.current = was.current.map f ∧
    ∀ e, (f e).item = e.item ∧ contribution (f e) = contribution e) ∨
  (was.current = none ∧ ∃ e n, e ∈ was.entries ∧ now.entries = without e.item was.entries ∧
    now.current = some { e with cseq := some n })

theorem Reviewed.same {was now : Queue} (entries : now.entries = was.entries) (current : now.current = was.current) :
    Reviewed was now := .inl ⟨entries, id, by simpa using current, fun _ => ⟨rfl, rfl⟩⟩

theorem reviewed_select : Reviewed (p.q c) ((select c p).q c) := by
  cases chosen : p.choose c with
  | none => exact .same (by rw [q_select_of_none chosen]) (by rw [q_select_of_none chosen])
  | some ch =>
    obtain ⟨empty, queued, -⟩ := choose_spec chosen
    rw [q_select_of_some chosen]
    exact .inr ⟨empty, ch.entry, _, queued, rfl, rfl⟩

theorem Reviewed.of_was {was was' now : Queue} (h : Reviewed was' now) (entries : was'.entries = was.entries)
    (current : was'.current = was.current) : Reviewed was now := by
  unfold Reviewed at h ⊢
  rwa [entries, current] at h

theorem reviewed_selectionPoint : Reviewed (p.q c) ((selectionPoint c p).q c) := by
  unfold selectionPoint
  simp only
  split
  · exact reviewed_select.of_was (by simp [clearBreak]) (by simp [clearBreak])
  · exact .same (by simp [q_beginNotice, clearBreak]) (by simp [q_beginNotice, clearBreak])

theorem reviewed_takeBreak (quantum : Bool) : Reviewed (p.q c) ((takeBreak c quantum p).q c) := by
  rw [q_takeBreak]
  unfold brokenQueue
  refine .inl ⟨by split <;> rfl, fun e => { e with
    resume := some { offset := (p.tx c).offset, line := (p.tx c).lineNo } }, by split <;> rfl, fun _ => ⟨rfl, rfl⟩⟩

theorem reviewed_review : Reviewed (p.q c) ((review c e p).q c) := by
  unfold review
  split
  · exact reviewed_selectionPoint
  · simp only
    split
    · unfold checkBreak
      split
      · exact (reviewed_takeBreak _).of_was (by simp [addReasons]) (by simp [addReasons])
      · exact .same (by simp [addReasons, clearBreak]) (by simp [addReasons, clearBreak])
    · exact .same (by simp [addReasons]) (by simp [addReasons])

theorem Reviewed.entry {was now : Queue} (h : Reviewed was now) (queued : e ∈ was.entries)
    (alone : ∀ x ∈ was.entries, x.item = e.item → x = e) : ∃ x ∈ now.held, x = { e with cseq := x.cseq } := by
  rcases h with ⟨entries, -⟩ | ⟨empty, taken, n, member, entries, current⟩
  · exact ⟨e, by simp [Queue.held, entries, queued], rfl⟩
  · by_cases same : e.item = taken.item
    · cases alone taken member same.symm
      exact ⟨_, by rw [Queue.held, current]; exact .head _, rfl⟩
    · refine ⟨e, ?_, rfl⟩
      rw [Queue.held, entries]
      exact List.mem_append_right _ (List.mem_filter.mpr ⟨queued, by simpa using same⟩)

theorem Reviewed.items {was now : Queue} (h : Reviewed was now) (single : (was.held.map (·.item)).Nodup) :
    (now.held.map (·.item)).Perm (was.held.map (·.item)) ∧ backlogOf now = backlogOf was := by
  rcases h with ⟨entries, f, current, keeps⟩ | ⟨empty, taken, n, member, entries, current⟩
  · rw [backlogOf, backlogOf, Queue.held, Queue.held, entries, current]
    cases was.current with
    | none => exact ⟨.refl _, rfl⟩
    | some e =>
      obtain ⟨item, owes⟩ := keeps e
      simp [item, owes]
  · rw [backlogOf, backlogOf]
    rw [held_none _ empty] at single ⊢
    have perm := perm_without single member
    rw [Queue.held, entries, current]
    exact ⟨(perm.map (·.item)).symm, ((perm.map contribution).sum_nat).symm⟩

/-! ### Displacement (R98) -/

/-- The entry that the search for one to displace has found so far, against one more. -/
def worse (cls : Nat) (best : Option Entry) (e : Entry) : Option Entry :=
  if e.resume.isNone && cls < e.cls then
    match best with
    | none => some e
    | some b => if b.cls ≤ e.cls then some e else some b
  else best

theorem displaceable_eq (cls : Nat) (es : List Entry) : displaceable cls es = es.foldl (worse cls) none := rfl

theorem worse_fold_none {cls : Nat} {best : Option Entry} (none : ∀ x ∈ es, x.resume.isSome = true ∨ x.cls ≤ cls) :
    es.foldl (worse cls) best = best := by
  induction es with
  | nil => rfl
  | cons x xs ih =>
    have first : worse cls best x = best := by
      unfold worse
      rw [if_neg]
      rcases none x (.head _) with broken | low
      · simp [Option.isNone_iff_eq_none, Option.isSome_iff_ne_none.mp broken]
      · simp [Nat.not_lt.mpr low]
    rw [List.foldl_cons, first, ih fun y member => none y (.tail _ member)]

theorem worse_fold_keeps {cls : Nat} {b : Entry} (lower : ∀ x ∈ es, x.resume = none → x.cls < b.cls) :
    es.foldl (worse cls) (some b) = some b := by
  induction es with
  | nil => rfl
  | cons x xs ih =>
    have first : worse cls (some b) x = some b := by
      unfold worse
      split
      next unbroken =>
        rw [Bool.and_eq_true, Option.isNone_iff_eq_none] at unbroken
        have := lower x (.head _) unbroken.1
        simp only
        rw [if_neg (by omega)]
      next => rfl
    rw [List.foldl_cons, first, ih fun y member => lower y (.tail _ member)]

theorem worse_fold_bound {cls k : Nat} {best : Option Entry} (start : ∀ b, best = some b → b.cls ≤ k)
    (bound : ∀ x ∈ es, x.resume = none → x.cls ≤ k) : ∀ b, es.foldl (worse cls) best = some b → b.cls ≤ k := by
  induction es generalizing best with
  | nil => exact start
  | cons x xs ih =>
    refine ih (fun b is => ?_) fun y member => bound y (.tail _ member)
    unfold worse at is
    split at is
    next unbroken =>
      rw [Bool.and_eq_true, Option.isNone_iff_eq_none] at unbroken
      have low := bound x (.head _) unbroken.1
      cases best with
      | none => exact Option.some.inj is ▸ low
      | some a =>
        simp only at is
        split at is
        · exact Option.some.inj is ▸ low
        · exact start b is
    next => exact start b is

/-- The last of the largest class, of the entries never broken off, is displaced where its class is larger. -/
theorem displaceable_last {cls : Nat} {before after : List Entry} (fresh : e.resume = none) (larger : cls < e.cls)
    (most : ∀ x ∈ before ++ e :: after, x.resume = none → x.cls ≤ e.cls)
    (last : ∀ x ∈ after, x.resume = none → x.cls ≠ e.cls) : displaceable cls (before ++ e :: after) = some e := by
  rw [displaceable_eq, List.foldl_append, List.foldl_cons]
  have found : worse cls (before.foldl (worse cls) none) e = some e := by
    have bound := worse_fold_bound (cls := cls) (k := e.cls) (best := none) (es := before) (by simp)
      fun x member => most x (by simp [member])
    generalize before.foldl (worse cls) none = best at bound
    unfold worse
    rw [if_pos (by simp [fresh, larger])]
    cases best with
    | none => rfl
    | some b => exact if_pos (bound b rfl)
  rw [found]
  exact worse_fold_keeps fun x member unbroken =>
    lt_of_le_of_ne (most x (by simp [member]) unbroken) (last x member unbroken)

/-! ### The outcomes of an insertion (R97, R98) -/

theorem insert_duplicate (held : ∃ x ∈ (p.q c).held, x.item = r.item) : insert c r p = (.duplicate, p) := by
  unfold insert
  exact if_pos (by simpa using held)

theorem insert_room (fresh : ∀ x ∈ (p.q c).held, x.item ≠ r.item) (room : p.queueCount c < 32) :
    insert c r p = (.done, placeEntry c r p) := by
  unfold insert
  rw [if_neg (by simpa using fresh), if_pos room]

theorem insert_full (fresh : ∀ x ∈ (p.q c).held, x.item ≠ r.item) (full : 32 ≤ p.queueCount c)
    (none : ∀ x ∈ (p.q c).entries, x.resume.isSome = true ∨ x.cls ≤ r.cls) :
    insert c r p = (.full, raise .queueFull c p) := by
  unfold insert
  rw [if_neg (by simpa using fresh), if_neg (Nat.not_lt.mpr full), displaceable_eq, worse_fold_none none]

theorem insert_displacing (fresh : ∀ x ∈ (p.q c).held, x.item ≠ r.item) (full : 32 ≤ p.queueCount c)
    (displaced : displaceable r.cls (p.q c).entries = some e) :
    insert c r p = (.done, placeEntry c r (displaceEntry c e p)) := by
  unfold insert
  rw [if_neg (by simpa using fresh), if_neg (Nat.not_lt.mpr full), displaced]

/-! ### An arrival placed and reviewed (R97, R105, R106) -/

/-- What every placing of an entry does. -/
structure Placing (c : CircNo) (r : Request) (p q : Part) : Prop where
  arrival : ∃ x ∈ (q.q c).held, x = { p.newEntry c r with cseq := x.cseq }
  stay : ∀ y ∈ (p.q c).held, ∃ x ∈ (q.q c).held, x.item = y.item
  only : ∀ x ∈ (q.q c).held, x.item = r.item ∨ ∃ y ∈ (p.q c).held, x.item = y.item
  backlog : (q.load c).backlog = backlogOf (q.q c)
  item : ∀ n, q.item? n = (p.item? n).map fun it => if n = r.item then { it with holders := it.holders + 1 } else it
  flags : ∀ f, f ≠ .congested → q.flag f = p.flag f
  frame : OutFrame p q
  others : ∀ c', c' ≠ c → q.circ c' = p.circ c'

theorem load_selectionPoint : (selectionPoint c p).load c = p.load c := by
  unfold selectionPoint
  simp only
  split
  · unfold select
    split <;> simp [becomeCurrent, takeEntry, enterIdle, beginLine_eq, clearBreak]
  · rw [load_beginNotice]
    simp [clearBreak]

theorem load_takeBreak (quantum : Bool) : (takeBreak c quantum p).load c = p.load c := by
  rw [takeBreak_eq, load_beginNotice]
  unfold interrupted
  cases quantum <;> simp [clearBreak, interruptAt]

theorem load_review : (review c e p).load c = p.load c := by
  unfold review
  split
  · exact load_selectionPoint
  · simp only
    split
    · unfold checkBreak
      split
      · rw [load_takeBreak]
        simp [addReasons]
      · simp [addReasons, clearBreak]
    · simp [addReasons]

/-- An arrival stands in the queue, or in the current slot that took it at once. -/
theorem arrival_placeEntry (fresh : ∀ x ∈ (p.q c).entries, x.item ≠ r.item) :
    ∃ x ∈ ((placeEntry c r p).q c).held, x = { p.newEntry c r with cseq := x.cseq } := by
  have reviewed : Reviewed ((putEntry c r p).q c) ((placeEntry c r p).q c) := reviewed_review
  have perm : ((putEntry c r p).q c).entries.Perm (p.newEntry c r :: (p.q c).entries) := by
    rw [q_putEntry]
    exact placeLast_perm _ _
  refine reviewed.entry (perm.mem_iff.mpr (.head _)) fun x member same => ?_
  rcases List.mem_cons.mp (perm.mem_iff.mp member) with is | member
  · exact is
  · exact absurd same (fresh x member)

theorem placing_placeEntry (single : ((p.q c).held.map (·.item)).Nodup) (fresh : ∀ x ∈ (p.q c).held, x.item ≠ r.item) :
    Placing c r p (placeEntry c r p) := by
  have on : OnCirc c (putEntry c r p) (placeEntry c r p) := (OnCirc.refl c _).review _
  have reviewed : Reviewed ((putEntry c r p).q c) ((placeEntry c r p).q c) := reviewed_review
  have single' : (((putEntry c r p).q c).held.map (·.item)).Nodup := nodup_putEntry single (by simpa using fresh)
  obtain ⟨perm, owes⟩ := reviewed.items single'
  have items : ∀ n, (∃ x ∈ ((placeEntry c r p).q c).held, x.item = n) ↔ ∃ x ∈ ((putEntry c r p).q c).held, x.item = n := by
    intro n
    have := perm.mem_iff (a := n)
    simpa only [List.mem_map] using this
  have held := held_putEntry (p := p) (c := c) r
  refine ⟨?_, fun y member => ?_, fun x member => ?_, ?_, fun n => ?_, fun f ne => ?_, ?_, fun c' ne => ?_⟩
  · exact arrival_placeEntry fun x member => fresh x (List.mem_append_right _ member)
  · exact (items y.item).mpr ⟨y, held.mem_iff.mpr (.tail _ member), rfl⟩
  · obtain ⟨y, member, same⟩ := (items x.item).mp ⟨x, member, rfl⟩
    rcases List.mem_cons.mp (held.mem_iff.mp member) with rfl | member
    · exact .inl same.symm
    · exact .inr ⟨y, member, same.symm⟩
  · rw [owes, ← load_putEntry, placeEntry, load_review]
  · rw [Part.item?_eq _ _ on.items, item?_putEntry]
  · rw [Part.flag, on.alarm]
    exact flag_putEntry ne
  · exact (OutFrame.putEntry r (.refl p)).trans (OutMoves.review _ .refl).frame
  · rw [on.circ_ne ne, circ_putEntry_ne r ne]

end Sys2Proof.Machine
end

section
/-! The statement about arrivals (R97, R98, R105, R106). -/

namespace Sys2Proof.Machine

variable {p q : Part} {c c' : CircNo} {e : Entry} {es : List Entry} {r : Request}

/-! ### The review by the state of the sender -/

theorem review_idle (idle : (p.tx c).state = .idle) : review c e p = selectionPoint c p := by
  unfold review
  exact if_pos idle

theorem review_sending (busy : (p.tx c).state ≠ .idle) (sends : (p.tx c).state ≠ .waiting) :
    review c e p = addReasons c e p := by
  unfold review
  rw [if_neg busy]
  exact if_neg (by simp [addReasons, sends])

/-- A sender that waits takes a break that is due, and otherwise has none pending. -/
theorem review_waiting (waits : (p.tx c).state = .waiting) : review c e p =
    if (addReasons c e p).breakDue c then takeBreak c ((addReasons c e p).quantumDue c) (addReasons c e p)
    else clearBreak c (addReasons c e p) := by
  unfold review
  rw [if_neg (by simp [waits])]
  simp only
  by_cases reasons : ((addReasons c e p).q c).breakClass = true ∨ ((addReasons c e p).q c).breakQuantum = true
  · have state : ((addReasons c e p).tx c).state = .waiting := by simpa [addReasons] using waits
    exact (if_pos ⟨state, reasons⟩).trans rfl
  · rw [not_or, Bool.not_eq_true, Bool.not_eq_true] at reasons
    obtain ⟨cls, quantum⟩ := reasons
    rw [if_neg (by simp [cls, quantum]), if_neg (by simp [Part.breakDue, Part.quantumDue, cls, quantum])]
    exact (Part.modQ_id _ (by
      generalize (addReasons c e p).q c = was at cls quantum
      rw [← cls]
      cases was
      simp_all)).symm

/-- The reasons for a break that an arrival adds (R105). -/
theorem q_addReasons : (addReasons c e p).q c = { p.q c with
    breakClass := (p.q c).breakClass || callsClass (p.q c) e
    breakQuantum := (p.q c).breakQuantum || p.callsQuantum c e } := by
  simp [addReasons]

theorem eligible_addReasons (x : Entry) : (addReasons c e p).eligible x = p.eligible x :=
  ((OnCirc.refl c p).addReasons e).eligible x

/-- The calls of an arrival, seen from the queue before it. -/
theorem q_placed : (addReasons c (p.newEntry c r) (putEntry c r p)).q c = { p.q c with
    entries := placeLast (p.newEntry c r) (p.q c).entries
    breakClass := (p.q c).breakClass || callsClass (p.q c) (p.newEntry c r)
    breakQuantum := (p.q c).breakQuantum || p.callsQuantum c (p.newEntry c r) } := by
  rw [q_addReasons, q_putEntry]
  have calls : (putEntry c r p).callsQuantum c (p.newEntry c r) = p.callsQuantum c (p.newEntry c r) := by
    rw [Part.callsQuantum, Part.callsQuantum, eligible_putEntry, q_putEntry]
    rfl
  rw [calls]
  rfl

theorem tx_placed : (addReasons c (p.newEntry c r) (putEntry c r p)).tx c = p.tx c := by simp [addReasons]

theorem tally_placed : ((addReasons c (p.newEntry c r) (putEntry c r p)).circ c).tally = (p.circ c).tally := by
  simp [addReasons]

theorem callsClass_eq (was : Queue) (e : Entry) : callsClass was e = (was.current.isSome &&
    decide (1 ≤ was.force.preempt) && (decide (e.cls ≤ was.force.preempt) && decide (e.cls < was.currentClass))) := by
  simp only [callsClass, Bool.and_assoc]

theorem callsQuantum_eq (e : Entry) : p.callsQuantum c e = ((p.q c).current.isSome &&
    decide ((p.q c).force.mode = .rotation) && (p.q c).byTurn && decide (1 ≤ (p.q c).force.quantum) &&
    decide ((p.q c).force.quantum ≤ (p.q c).turnLines) && p.eligible e &&
    (decide ((p.q c).force.preempt < e.cls) && decide (turnOf e.source ≠ (p.q c).turn))) := by
  simp only [Part.callsQuantum, quantumUsed, Bool.and_assoc, bne, Bool.beq_eq_decide_eq, ← decide_not, Ne]

theorem breakDue_placed : (addReasons c (p.newEntry c r) (putEntry c r p)).breakDue c =
    ((((p.q c).breakClass || callsClass (p.q c) (p.newEntry c r)) &&
        (placeLast (p.newEntry c r) (p.q c).entries).any fun x =>
          p.eligible x && (decide (x.cls ≤ (p.q c).force.preempt) && decide (x.cls < (p.q c).currentClass))) ||
      (((p.q c).breakQuantum || p.callsQuantum c (p.newEntry c r)) &&
        (placeLast (p.newEntry c r) (p.q c).entries).any fun x =>
          p.eligible x && (decide ((p.q c).force.preempt < x.cls) && decide (turnOf x.source ≠ (p.q c).turn)))) := by
  have eligible : (addReasons c (p.newEntry c r) (putEntry c r p)).eligible = p.eligible :=
    funext fun x => (eligible_addReasons x).trans (eligible_putEntry x)
  rw [Part.breakDue, Part.quantumDue, Part.classHolds, Part.quantumHolds, q_placed, eligible]
  simp only [Bool.and_assoc, bne, Bool.beq_eq_decide_eq, ← decide_not]
  rfl

/-- An IDLE sender makes a selection with the arrival in its place. -/
theorem placed_idle (idle : (p.tx c).state = .idle) : if (p.tx c).owed ≠ [] then
      (((placeEntry c r p).tx c).state = .notice ∧ (placeEntry c r p).LineBegun c .owed (p.tx c).force) ∧
        ((placeEntry c r p).q c).entries = placeLast (p.newEntry c r) (p.q c).entries
    else match (p.modQ c fun q => { q with
        entries := placeLast (p.newEntry c r) (p.q c).entries, force := q.ordered }).choose c with
      | none => ((placeEntry c r p).tx c).state = .idle ∧
          ((placeEntry c r p).q c).entries = placeLast (p.newEntry c r) (p.q c).entries
      | some ch => (((placeEntry c r p).tx c).state = .heading ∧ (placeEntry c r p).LineBegun c .heading (p.tx c).force) ∧
          ((placeEntry c r p).q c).entries =
            (placeLast (p.newEntry c r) (p.q c).entries).filter (fun x => x.item ≠ ch.entry.item) ∧
          ((placeEntry c r p).q c).current.map (·.item) = some ch.entry.item := by
  have selects : placeEntry c r p = selectionPoint c (putEntry c r p) := review_idle (by simpa using idle)
  obtain ⟨pays, chooses⟩ := selected_selectionPoint (p := putEntry c r p) (c := c)
  have same : ((putEntry c r p).modQ c fun q => { q with force := q.ordered }).choose c =
      (p.modQ c fun q => { q with
        entries := placeLast (p.newEntry c r) (p.q c).entries, force := q.ordered }).choose c := by
    refine choose_of_eligible ?_ ?_ ?_ ?_ ?_ fun x _ => ?_
    all_goals try simp
    exact (((OnCirc.refl c (putEntry c r p)).modQ _).eligible x).trans
      ((eligible_putEntry x).trans (((OnCirc.refl c p).modQ _).eligible x).symm)
  rw [same, tx_putEntry, q_putEntry, ← selects] at chooses
  rw [tx_putEntry, ← selects] at pays
  split
  next owed =>
    refine ⟨pays owed, ?_⟩
    rw [selects, selectionPoint_owed (by simpa using owed), q_beginNotice]
    simp [clearBreak]
  next paid =>
    have chosen := chooses (by simpa using paid)
    generalize (p.modQ c fun q => { q with
      entries := placeLast (p.newEntry c r) (p.q c).entries, force := q.ordered }).choose c = choice at chosen ⊢
    cases choice with
    | none => exact ⟨chosen.1, chosen.2.1⟩
    | some ch =>
      obtain ⟨begun, entries, current, -⟩ := chosen
      exact ⟨begun, entries, congrArg (Option.map Entry.item) current⟩

/-- A sender that waits takes the break that the arrival makes due. -/
theorem placed_waiting (waits : (p.tx c).state = .waiting) :
    if (addReasons c (p.newEntry c r) (putEntry c r p)).breakDue c = true then
      (((placeEntry c r p).tx c).state = .notice ∧ (placeEntry c r p).LineBegun c .breakLine (p.tx c).force) ∧
        ((placeEntry c r p).q c).entries = placeLast (p.newEntry c r) (p.q c).entries ∧
        ((placeEntry c r p).circ c).tally = { (p.circ c).tally with breaks := bump (p.circ c).tally.breaks }
    else ((placeEntry c r p).tx c).state = .waiting ∧ ((placeEntry c r p).circ c).tally = (p.circ c).tally ∧
      (placeEntry c r p).q c = { p.q c with
        entries := placeLast (p.newEntry c r) (p.q c).entries, breakClass := false, breakQuantum := false } := by
  have reviews : placeEntry c r p = _ := review_waiting (by simpa using waits)
  rw [reviews]
  split
  next due =>
    obtain ⟨begun, -, entries, -, -⟩ := broken_takeBreak (p := addReasons c (p.newEntry c r) (putEntry c r p)) (c := c)
      ((addReasons c (p.newEntry c r) (putEntry c r p)).quantumDue c)
    rw [tx_placed] at begun
    refine ⟨begun, entries.trans (by rw [q_placed]), ?_⟩
    rw [tally_takeBreak, tally_placed]
  next calm =>
    refine ⟨?_, ?_, ?_⟩
    · rw [clearBreak, Part.tx_modQ, tx_placed, waits]
    · rw [tally_clearBreak, tally_placed]
    · rw [clearBreak, Part.q_modQ, q_placed]

theorem placed_sending (busy : (p.tx c).state ≠ .idle) (sends : (p.tx c).state ≠ .waiting) :
    placeEntry c r p = addReasons c (p.newEntry c r) (putEntry c r p) :=
  review_sending (by simpa using busy) (by simpa using sends)

theorem tally_placeEntry (sends : (p.tx c).state ≠ .waiting) :
    ((placeEntry c r p).circ c).tally = (p.circ c).tally := by
  by_cases idle : (p.tx c).state = .idle
  · rw [show placeEntry c r p = _ from review_idle (by simpa using idle), tally_selectionPoint, tally_putEntry]
  · rw [placed_sending idle sends, tally_placed]

/-- A placing counts no displacement. -/
theorem displaced_placeEntry : ((placeEntry c r p).circ c).tally.displaced = (p.circ c).tally.displaced := by
  by_cases waits : (p.tx c).state = .waiting
  · have placed := placed_waiting (r := r) waits
    split at placed
    · rw [placed.2.2]
    · rw [placed.2.1]
  · rw [tally_placeEntry waits]

theorem item?_displaceEntry {n : Nat} (ne : n ≠ e.item) : (displaceEntry c e p).item? n = p.item? n := by
  have kept : (removeQueued c e.item p).item? n = p.item? n := by
    unfold removeQueued
    split
    · rw [item?_released ne]
      rfl
    · rfl
  exact (Part.item?_eq _ _ rfl).trans kept

theorem without_middle {before after : List Entry} (single : ((before ++ e :: after).map (·.item)).Nodup) :
    without e.item (before ++ e :: after) = before ++ after := by
  rw [List.map_append, List.map_cons, List.nodup_append] at single
  obtain ⟨-, later, apart⟩ := single
  have others : ∀ x ∈ before ++ after, (x.item != e.item) = true := by
    intro x member
    rw [bne_iff_ne]
    rcases List.mem_append.mp member with earlier | member
    · exact apart x.item (List.mem_map_of_mem earlier) e.item (.head _)
    · exact fun same => (List.nodup_cons.mp later).1 (same ▸ List.mem_map_of_mem member)
  rw [without, List.filter_append, List.filter_cons_of_neg (by simp), ← List.filter_append, List.filter_eq_self.mpr others]

/-- Settles O24. -/
theorem arrivalsStandByClass : Obligations.ArrivalsStandByClass := by
  refine ⟨fun e es sorted => ⟨placeLast_eq sorted, placeFirst_eq sorted⟩, fun p c r held => insert_duplicate held,
    fun p c r single fresh room => ⟨_, insert_room fresh room, ?_⟩, fun p c r single fresh full => ⟨fun none => ?_,
    fun before after e split broken larger most last => ?_⟩⟩
  · intro was tx blank arrival entries urgent rival byClass byQuantum begins
    have placing := placing_placeEntry single fresh
    have class_calls : ((p.q c).breakClass || callsClass (p.q c) (p.newEntry c r)) = byClass :=
      congrArg ((p.q c).breakClass || ·) (callsClass_eq _ _)
    have quantum_calls : ((p.q c).breakQuantum || p.callsQuantum c (p.newEntry c r)) = byQuantum :=
      congrArg ((p.q c).breakQuantum || ·) (callsQuantum_eq _)
    refine ⟨placing.arrival, placing.stay, placing.backlog, fun it is => ?_, placing.flags, placing.frame.lines,
      placing.frame.banks, placing.frame.history, placing.frame.orders, placing.others, tally_placeEntry,
      fun busy sends => ?_, fun waits => ?_, placed_idle⟩
    · rw [placing.item, is]
      simp
    · rw [placed_sending busy sends, q_placed, class_calls, quantum_calls]
      exact ⟨tx_placed, rfl⟩
    · have placed := placed_waiting (r := r) waits
      rw [breakDue_placed, class_calls, quantum_calls] at placed
      exact placed
  · refine ⟨_, insert_full fresh full none, Alarm.raised_raise .., Alarm.member_raise _ _ rfl, fun f ne => ?_, rfl⟩
    exact (Alarm.flag_raise ..).trans (if_neg ne)
  · have found : displaceable r.cls (p.q c).entries = some e := by
      rw [split] at most ⊢
      exact displaceable_last broken larger most last
    have member : e ∈ (p.q c).held := by
      rw [Queue.held, split]
      simp
    have ne : r.item ≠ e.item := (fresh e member).symm
    have gone : ((displaceEntry c e p).q c).held.Sublist (p.q c).held := held_displaceEntry_sublist e
    have single' := nodup_of_sublist gone single
    have placing := placing_placeEntry single' fun x member => fresh x (gone.subset member)
    refine ⟨_, (displaceEntry c e p).newEntry c r, insert_displacing fresh full found, ?_⟩
    have item : (displaceEntry c e p).item? r.item = p.item? r.item := item?_displaceEntry ne
    have frame : OutFrame p (displaceEntry c e p) := ((OutFrame.refl p).removeQueued (c := c) e.item).trans
      ⟨rfl, rfl, rfl, rfl, rfl, rfl, rfl, rfl⟩
    have all := frame.trans placing.frame
    have raised : ((placeEntry c r (displaceEntry c e p)).flag .displaced) = (displaceEntry c e p).flag .displaced :=
      placing.flags _ (by decide)
    have entries : ((displaceEntry c e p).q c).entries = before ++ after := by
      rw [q_displaceEntry, split]
      exact without_middle (by rw [← split]; exact (single.sublist ((List.sublist_append_right _ _).map _)))
    have left : ∀ x ∈ ((displaceEntry c e p).q c).held, x.item ≠ e.item := by
      intro x member same
      rw [Queue.held, q_displaceEntry, List.mem_append] at member
      rcases member with current | queued
      · rw [Queue.held, List.map_append, List.nodup_append] at single
        exact single.2.2 _ (List.mem_map_of_mem current) _ (List.mem_map_of_mem (split ▸ by simp)) same
      · exact absurd same (by simpa using (List.mem_filter.mp queued).2)
    refine ⟨?_, ?_, ?_, fun x member same => ?_, rfl, rfl, rfl, rfl, ?_, frame.clock, rfl, ?_, fun busy sends => ?_,
      fun it is => ?_, all.lines, all.banks, all.history, all.orders, fun c' other => ?_⟩
    · rw [raised]
      exact Alarm.raised_raise ..
    · rw [raised]
      exact Alarm.member_raise _ _ rfl
    · rw [displaced_placeEntry]
      simp [displaceEntry]
    · rcases placing.only x member with arrival | ⟨y, stays, eq⟩
      · exact ne (arrival.symm.trans same)
      · exact left y stays (eq.symm.trans same)
    · show ((displaceEntry c e p).item r.item).source = (p.item r.item).source
      rw [Part.item, Part.item, item]
    · obtain ⟨x, inside, is⟩ := placing.arrival
      exact ⟨x, inside, by rw [is]; rfl⟩
    · rw [placed_sending (by simpa using busy) (by simpa using sends), q_placed, entries]
    · rw [placing.item, item, is]
      simp
    · rw [placing.others c' other, circ_displaceEntry_ne e other]

end Sys2Proof.Machine
end

section
/-! The gate and diversion (R152–R154), with the queue's answer and the flags that it raises. -/

namespace Sys2Proof.Machine

variable {p q : Part} {c c' a : CircNo} {e : Entry} {r : Request} {f : Flag} {x y : Alarm} {n : Nat}

/-! ### Raises that make no notice (R188, R191) -/

/-- A raise of the flag makes no notice: the flag is raised already, or has its notices off. -/
def Alarm.Quiet (x : Alarm) (f : Flag) : Prop := (x.flag f).raised = true ∨ (x.flag f).notice = false

/-- No raise makes a notice. -/
def Alarm.Silent (x : Alarm) : Prop := ∀ f, x.Quiet f

theorem Alarm.Quiet.raise (h : x.Quiet f) (g : Flag) (m : Fin 8) : (x.raise g m).Quiet f := by
  unfold Alarm.Quiet at h ⊢
  rw [Alarm.flag_raise]
  split
  · exact .inl rfl
  · exact h

theorem owing_raise_quiet (h : x.Quiet f) (m : Fin 8) : (x.raise f m).owing = x.owing := by
  have still : (!(x.flag f).raised && (x.flag f).notice) = false := by
    rcases h with up | off
    · simp [up]
    · simp [off]
  unfold Alarm.raise
  simp only
  rw [if_neg (by simp [still])]
  rfl

theorem Raises.silent (h : Raises x y) (silent : x.Silent) : y.Silent ∧ y.owing = x.owing := by
  induction h with
  | refl => exact ⟨silent, rfl⟩
  | raise _ f m ih => exact ⟨fun g => (ih.1 g).raise f m, (owing_raise_quiet (ih.1 f) m).trans ih.2⟩
  | count _ flags owing ih =>
    refine ⟨fun g => ?_, owing.trans ih.2⟩
    have := ih.1 g
    simpa only [Alarm.Quiet, Alarm.flag, flags] using this

theorem settle_silent {p₀ : Part} (raises : Raises p₀.alarm p.alarm) (silent : p₀.alarm.Silent)
    (settled : p₀.alarm.owing = []) : settle p = p :=
  settle_of_settled ((raises.silent silent).2.trans settled)

/-- What an act leaves of a circuit, the notices leave: the circuit is not the desk circuit, or no raise makes one. -/
theorem circ_settle_quiet {p₀ : Part} (raises : Raises p₀.alarm p.alarm) (orders : p.orders = p₀.orders)
    (settled : p₀.alarm.owing = []) (quiet : c ≠ p₀.orders.desk ∨ p₀.alarm.Silent) :
    (settle p).circ c = p.circ c := by
  rcases quiet with ne | silent
  · exact circ_settle_ne (by rwa [orders])
  · rw [settle_silent raises silent settled]

/-! ### A request taken or refused by a queue (R97, R98) -/

/-- The queue takes a request of class `cls`: it has room, or an entry that the arrival displaces. -/
def Part.Takes (p : Part) (c : CircNo) (cls : Nat) : Prop :=
  p.queueCount c < 32 ∨ ∃ e ∈ (p.q c).entries, e.resume = none ∧ cls < e.cls

theorem worse_fold_some {cls : Nat} {best : Option Entry} {es : List Entry}
    (found : best.isSome = true ∨ ∃ e ∈ es, e.resume = none ∧ cls < e.cls) :
    (es.foldl (worse cls) best).isSome = true := by
  induction es generalizing best with
  | nil => simpa using found
  | cons x xs ih =>
    refine ih ?_
    by_cases candidate : x.resume = none ∧ cls < x.cls
    · left
      unfold worse
      rw [if_pos (by simp [candidate])]
      cases best with
      | none => rfl
      | some b =>
        simp only
        split <;> rfl
    · have same : worse cls best x = best := by
        unfold worse
        rw [if_neg (by simpa using candidate)]
      rw [same]
      rcases found with found | ⟨e, member, is⟩
      · exact .inl found
      · rcases List.mem_cons.mp member with rfl | later
        · exact absurd is candidate
        · exact .inr ⟨e, later, is⟩

/-- The part before an arrival that the queue takes: where the queue is full, an entry has been displaced. -/
def Making (c : CircNo) (p p' : Part) : Prop :=
  (p.queueCount c < 32 ∧ p' = p) ∨ (32 ≤ p.queueCount c ∧ ∃ e ∈ (p.q c).entries, p' = displaceEntry c e p)

theorem insert_takes (fresh : ∀ x ∈ (p.q c).held, x.item ≠ r.item) (takes : p.Takes c r.cls) :
    ∃ p', Making c p p' ∧ insert c r p = (.done, placeEntry c r p') := by
  by_cases room : p.queueCount c < 32
  · exact ⟨p, .inl ⟨room, rfl⟩, insert_room fresh room⟩
  · obtain ⟨e, found⟩ := Option.isSome_iff_exists.mp (worse_fold_some (best := none)
      (.inr (takes.resolve_left room)))
    exact ⟨displaceEntry c e p, .inr ⟨Nat.le_of_not_lt room, e, displaceable_mem found, rfl⟩,
      insert_displacing fresh (Nat.le_of_not_lt room) found⟩

theorem insert_refuses (fresh : ∀ x ∈ (p.q c).held, x.item ≠ r.item) (refuses : ¬ p.Takes c r.cls) :
    insert c r p = (.full, raise .queueFull c p) := by
  unfold Part.Takes at refuses
  push Not at refuses
  refine insert_full fresh refuses.1 fun x member => ?_
  cases broken : x.resume with
  | none => exact .inr (refuses.2 x member broken)
  | some _ => exact .inl rfl

/-- What the making of room leaves. -/
theorem Making.keeps {p' : Part} (h : Making c p p') (fresh : ∀ x ∈ (p.q c).held, x.item ≠ n) :
    (∀ x ∈ (p'.q c).held, x.item ≠ n) ∧ p'.clock = p.clock ∧ p'.orders = p.orders ∧ Raises p.alarm p'.alarm ∧
    (p'.circ c).tally = { (p.circ c).tally with
      displaced := if p.queueCount c < 32 then (p.circ c).tally.displaced else bump (p.circ c).tally.displaced } ∧
    (32 ≤ p.queueCount c → (p'.flag .displaced).raised = true ∧ c ∈ (p'.flag .displaced).members) ∧
    (((p.q c).held.map (·.item)).Nodup → ((p'.q c).held.map (·.item)).Nodup) ∧
    ∀ c', c' ≠ c → p'.circ c' = p.circ c' := by
  rcases h with ⟨room, rfl⟩ | ⟨full, e, -, rfl⟩
  · exact ⟨fresh, rfl, rfl, .refl, by simp [room], fun full => absurd room (Nat.not_lt.mpr full), id, fun _ _ => rfl⟩
  · have gone : ((displaceEntry c e p).q c).held.Sublist (p.q c).held := held_displaceEntry_sublist e
    have frame : OutFrame p (displaceEntry c e p) := ((OutFrame.refl p).removeQueued (c := c) e.item).trans
      ⟨rfl, rfl, rfl, rfl, rfl, rfl, rfl, rfl⟩
    refine ⟨fun x member => fresh x (gone.subset member), frame.clock, frame.orders, raises_displaceEntry e, ?_,
      fun _ => ⟨Alarm.raised_raise .., Alarm.member_raise _ _ rfl⟩, fun single => nodup_of_sublist gone single,
      fun c' ne => circ_displaceEntry_ne e ne⟩
    rw [if_neg (Nat.not_lt.mpr full)]
    simp [displaceEntry]

/-! ### The answer of the gate and of the queue (R152–R154) -/

/-- The gate of a circuit refuses requests of class `cls` (R152). -/
def Part.Refuses (p : Part) (c : CircNo) (cls : Nat) : Prop :=
  ((p.load c).state = .loaded ∧ cls = 5) ∨ ((p.load c).state = .congested ∧ 4 ≤ cls)

theorem gateAdmits_iff {cls : Nat} (high : cls ≤ 5) : gateAdmits (p.load c).state cls = true ↔ ¬ p.Refuses c cls := by
  unfold Part.Refuses
  cases (p.load c).state with
  | normal => simp [gateAdmits]
  | loaded => simp [gateAdmits]; omega
  | congested => simp [gateAdmits]; omega

/-- A request stands on a circuit as an entry that has not begun. -/
def Queue.Stands (q : Queue) (r : Request) (clock : Nat) : Prop :=
  ∃ e ∈ q.held, e.item = r.item ∧ e.cls = r.cls ∧ e.diverted = r.diverted ∧ e.mode = r.mode ∧
    e.admitted = clock ∧ e.resume = none ∧ e.spent = 0

/-- A break is the only act of an arrival that a tally of the circuit counts. -/
theorem tally_placeEntry_breaks : ((placeEntry c r p).circ c).tally = { (p.circ c).tally with
    breaks := ((placeEntry c r p).circ c).tally.breaks } := by
  by_cases waits : (p.tx c).state = .waiting
  · have placed := placed_waiting (r := r) waits
    split at placed
    · rw [placed.2.2]
    · rw [placed.2.1]
  · rw [tally_placeEntry waits]

theorem orders_placeEntry (c : CircNo) (r : Request) (p : Part) : (placeEntry c r p).orders = p.orders :=
  ((OnCirc.refl c (putEntry c r p)).review (p.newEntry c r)).orders.trans (orders_recompute ..)

/-- What a request that the queue takes brings. -/
theorem taken_insert (fresh : ∀ x ∈ (p.q c).held, x.item ≠ r.item) (takes : p.Takes c r.cls) :
    ∃ q, insert c r p = (.done, q) ∧ q.orders = p.orders ∧ (q.q c).Stands r p.clock ∧
      (q.circ c).tally = { (p.circ c).tally with
        displaced := if p.queueCount c < 32 then (p.circ c).tally.displaced else bump (p.circ c).tally.displaced
        breaks := (q.circ c).tally.breaks } ∧
      (32 ≤ p.queueCount c → (q.flag .displaced).raised = true ∧ c ∈ (q.flag .displaced).members) ∧
      (((p.q c).held.map (·.item)).Nodup → (q.load c).backlog = backlogOf (q.q c)) := by
  obtain ⟨p', making, inserted⟩ := insert_takes fresh takes
  obtain ⟨fresh', clock, orders, -, tally, displaced, single, -⟩ := making.keeps fresh
  refine ⟨_, inserted, (orders_placeEntry ..).trans orders, ?_, ?_, fun full => ?_,
    fun distinct => (placing_placeEntry (single distinct) fresh').backlog⟩
  · obtain ⟨x, inside, is⟩ := arrival_placeEntry (c := c) (r := r) (p := p') fun x queued =>
      fresh' x (List.mem_append_right _ queued)
    exact ⟨x, inside, by rw [is, ← clock]; exact ⟨rfl, rfl, rfl, rfl, rfl, rfl, rfl⟩⟩
  · rw [tally_placeEntry_breaks, tally]
  · have flag : (placeEntry c r p').flag .displaced = p'.flag .displaced := by
      have alarm := ((OnCirc.refl c (putEntry c r p')).review (p'.newEntry c r)).alarm
      exact (congrArg (fun x : Alarm => x.flag .displaced) alarm).trans (flag_putEntry (by decide))
    rw [flag]
    exact displaced full

theorem orders_insert (r : Request) : (insert c r p).2.orders = p.orders := by
  unfold insert
  split
  · rfl
  · split
    · exact orders_placeEntry ..
    · split
      · exact (orders_placeEntry ..).trans (((OutFrame.refl p).removeQueued (c := c) _).trans
          ⟨rfl, rfl, rfl, rfl, rfl, rfl, rfl, rfl⟩).orders
      · rfl

/-- A request that a queue refuses raises QUEUE_FULL with the circuit as a member, and the notices leave it raised. -/
theorem full_settle (q : Part) (alarm : q.alarm = (raise .queueFull c p).alarm) :
    ((settle q).flag .queueFull).raised = true ∧ c ∈ ((settle q).flag .queueFull).members :=
  flag_kept_settle (by rw [alarm]; exact ⟨Alarm.raised_raise .., Alarm.member_raise _ _ rfl⟩)

theorem divert_shed {rt : Route} {cls : Nat} (high : cls ≤ 5)
    (none : ∀ a, rt.alt = some a → a = c ∨ a ∈ rt.circuits ∨ p.Refuses a cls ∨ ∃ e ∈ (p.q a).held, e.item = n) :
    divert rt n cls c p = countShed c p := by
  unfold divert alternateFor
  cases alt : rt.alt with
  | none => rfl
  | some a =>
    by_cases own : a = c ∨ a ∈ rt.circuits
    · simp [own]
    simp only [own, if_false]
    split
    next admits =>
      have refuses := (gateAdmits_iff high).mp admits
      have held : ∃ e ∈ (p.q a).held, e.item = n := by
        rcases none a alt with eq | mem | gate | held
        · exact absurd (.inl eq) own
        · exact absurd (.inr mem) own
        · exact absurd gate refuses
        · exact held
      rw [insert_duplicate held]
    next => rfl

theorem divert_alternate {rt : Route} {cls : Nat} {answer : Inserted} (high : cls ≤ 5) (alt : rt.alt = some a)
    (ne : a ≠ c) (outside : a ∉ rt.circuits) (admits : ¬ p.Refuses a cls)
    (inserted : insert a { item := n, cls := cls, mode := rt.mode, diverted := true } p = (answer, q)) :
    divert rt n cls c p = if answer = .done then countDiverted c q else countShed c q := by
  unfold divert alternateFor
  simp only [alt, ne, outside, or_self, if_false, (gateAdmits_iff high).mpr admits, if_true, inserted]
  cases answer <;> rfl

theorem offer_admitted {rt : Route} {cls : Nat} {answer : Inserted} (high : cls ≤ 5) (admits : ¬ p.Refuses c cls)
    (inserted : insert c { item := n, cls := cls, mode := rt.mode, diverted := false } p = (answer, q)) :
    offer rt n cls c p = settle (if answer = .duplicate then countShed c q else q) := by
  unfold offer
  rw [if_pos ((gateAdmits_iff high).mpr admits), inserted]
  cases answer <;> rfl

theorem offer_fresh {rt : Route} {cls : Nat} (high : cls ≤ 5) (admits : ¬ p.Refuses c cls)
    (fresh : ∀ x ∈ (p.q c).held, x.item ≠ n) : offer rt n cls c p =
      settle (insert c { item := n, cls := cls, mode := rt.mode, diverted := false } p).2 := by
  by_cases room : p.Takes c cls
  · obtain ⟨made, inserted, -⟩ :=
      taken_insert (r := { item := n, cls := cls, mode := rt.mode, diverted := false }) fresh room
    rw [offer_admitted high admits inserted, inserted]
    rfl
  · have inserted := insert_refuses (r := { item := n, cls := cls, mode := rt.mode, diverted := false }) fresh room
    rw [offer_admitted high admits inserted, inserted]
    rfl

theorem offer_refused {rt : Route} {cls : Nat} (high : cls ≤ 5) (refuses : p.Refuses c cls) :
    offer rt n cls c p = settle (divert rt n cls c p) :=
  congrArg settle (if_neg fun admits => (gateAdmits_iff high).mp admits refuses)

/-- Settles O36. -/
theorem gateShedsOrDiverts : Obligations.GateShedsOrDiverts := by
  intro p rt n cls c settled low high refuses shed silent absent takes stands full q
  have alike : (countShed c p).alarm.owing = [] := settled
  refine ⟨fun admits => ⟨fun held => ?_, fun fresh quiet => ⟨fun c' ne desk => ?_, fun room => ?_, fun room => ?_⟩⟩,
    fun refused => ⟨fun none => ?_, fun a alt ne outside admits fresh quiet => ⟨fun room => ?_, fun room => ?_⟩⟩⟩
  · exact (offer_admitted high admits (insert_duplicate held)).trans (settle_of_settled alike)
  · rw [show q.circ c' = (settle (insert c _ p).2).circ c' from
      congrArg (Part.circ · c') (offer_fresh high admits fresh), circ_settle_ne (by rwa [orders_insert]),
      circ_insert_ne _ ne]
  · obtain ⟨made, inserted, orders, stood, tally, displaced, backlog⟩ :=
      taken_insert (r := { item := n, cls := cls, mode := rt.mode, diverted := false }) fresh room
    have raises := raises_insert (c := c) (p := p) { item := n, cls := cls, mode := rt.mode, diverted := false }
    rw [inserted] at raises
    have offered : q = settle made := offer_admitted high admits inserted
    have kept : q.circ c = made.circ c :=
      (congrArg (Part.circ · c) offered).trans (circ_settle_quiet raises orders settled quiet)
    refine ⟨?_, ?_, fun crowded => ?_, fun distinct => ?_⟩
    · show (q.q c).Stands { item := n, cls := cls, mode := rt.mode, diverted := false } p.clock
      rw [show q.q c = made.q c from congrArg Circ.q kept]
      exact stood
    · rw [kept]
      exact tally
    · rw [offered]
      exact flag_kept_settle (displaced crowded)
    · rw [show q.q c = made.q c from congrArg Circ.q kept, show q.load c = made.load c from congrArg Circ.load kept]
      exact backlog distinct
  · have inserted := insert_refuses (r := { item := n, cls := cls, mode := rt.mode, diverted := false }) fresh room
    have offered : q = settle (raise .queueFull c p) := offer_admitted high admits inserted
    rw [offered]
    exact ⟨full_settle _ rfl, circ_settle_quiet (.raise .refl _ _) rfl settled quiet⟩
  · rw [show q = settle (divert rt n cls c p) from offer_refused high refused, divert_shed high none]
    exact settle_of_settled alike
  · obtain ⟨made, inserted, orders, stood, tally, displaced, backlog⟩ :=
      taken_insert (r := { item := n, cls := cls, mode := rt.mode, diverted := true }) fresh room
    have raises := raises_insert (c := a) (p := p) { item := n, cls := cls, mode := rt.mode, diverted := true }
    have other := circ_insert_ne (p := p) { item := n, cls := cls, mode := rt.mode, diverted := true } ne.symm
    rw [inserted] at raises other
    have offered : q = settle (countDiverted c made) := (offer_refused high refused).trans
      (congrArg settle (divert_alternate high alt ne outside admits inserted))
    have kept : ∀ c' : CircNo, (c' ≠ p.orders.desk ∨ silent) → q.circ c' = (countDiverted c made).circ c' :=
      fun c' quiet => (congrArg (Part.circ · c') offered).trans (circ_settle_quiet (p₀ := p) raises orders settled quiet)
    constructor
    · show (q.q a).Stands { item := n, cls := cls, mode := rt.mode, diverted := true } p.clock
      rw [show q.q a = (countDiverted c made).q a from congrArg Circ.q (kept a (quiet.imp_left And.left))]
      simpa [countDiverted] using stood
    · rw [kept c (quiet.imp_left And.right), ← other]
      simp [countDiverted]
  · have inserted := insert_refuses (r := { item := n, cls := cls, mode := rt.mode, diverted := true }) fresh room
    have offered : q = settle (countShed c (raise .queueFull a p)) := (offer_refused high refused).trans
      (congrArg settle (divert_alternate high alt ne outside admits inserted))
    have kept : ∀ c' : CircNo, (c' ≠ p.orders.desk ∨ silent) →
        q.circ c' = (countShed c (raise .queueFull a p)).circ c' := fun c' quiet =>
      (congrArg (Part.circ · c') offered).trans (circ_settle_quiet (p₀ := p) (.raise .refl _ _) rfl settled quiet)
    refine ⟨?_, ?_, ?_⟩
    · rw [offered]
      exact full_settle _ rfl
    · rw [kept a (quiet.imp_left And.left)]
      exact Part.circ_setCirc_ne _ ne
    · rw [kept c (quiet.imp_left And.right)]
      simp [countShed]

end Sys2Proof.Machine
end

section
/-! Unit items: answers and notices (R69–R73, R191). -/

namespace Sys2Proof.Machine

variable {p q : Part} {c : CircNo} {r : Request} {f : Flag} {n serial : Nat} {slug body line : Text}

/-! ### The lowest FREE descriptor (R62) -/

theorem lowestFrom_none {used : List Nat} {fuel : Nat} :
    lowestFrom used fuel n = none ↔ ∀ k, n ≤ k → k < n + fuel → k ∈ used := by
  induction fuel generalizing n with
  | zero => simp [lowestFrom]; omega
  | succ fuel ih =>
    by_cases inUse : n ∈ used
    · rw [lowestFrom, if_pos (by simpa using inUse), ih]
      refine ⟨fun all k low high => ?_, fun all k low high => all k (by omega) (by omega)⟩
      rcases Nat.eq_or_lt_of_le low with rfl | above
      · exact inUse
      · exact all k above (by omega)
    · rw [lowestFrom, if_neg (by simpa using inUse)]
      exact ⟨fun some => absurd some (by simp), fun all => absurd (all n (Nat.le_refl n) (by omega)) inUse⟩

theorem lowestFree_none : p.lowestFree = none ↔ ∀ k, k < 256 → ∃ it ∈ p.items, it.num = k := by
  unfold Part.lowestFree
  rw [lowestFrom_none]
  simp [Config.tableSize]

theorem lowestFree_of (range : n < 256) (fresh : ∀ it ∈ p.items, it.num ≠ n)
    (below : ∀ k, k < n → ∃ it ∈ p.items, it.num = k) : p.lowestFree = some n := by
  cases lowest : p.lowestFree with
  | none =>
    obtain ⟨it, member, num⟩ := lowestFree_none.mp lowest n range
    exact absurd num (fresh it member)
  | some m =>
    obtain ⟨unused, -, used⟩ := Part.lowestFree_spec lowest
    rcases Nat.lt_trichotomy m n with less | eq | more
    · obtain ⟨it, member, num⟩ := below m less
      exact absurd (List.mem_map.mpr ⟨it, member, num⟩) unused
    · rw [eq]
    · obtain ⟨it, member, num⟩ := List.mem_map.mp (used n more)
      exact absurd num (fresh it member)

/-! ### A unit item stands on the desk circuit (R69, R70) -/

theorem queueCount_le : p.queueCount c ≤ (p.q c).held.length := by
  unfold Part.queueCount Part.inBreakLine Queue.held
  cases (p.q c).current with
  | none => simp
  | some e =>
    simp only [List.length_append, Option.toList_some, List.length_singleton]
    split <;> omega

theorem alarm_placeEntry : (placeEntry c r p).alarm = p.alarm ∨ (placeEntry c r p).alarm = p.alarm.raise .congested c := by
  have kept : (placeEntry c r p).alarm = (putEntry c r p).alarm :=
    ((OnCirc.refl c (putEntry c r p)).review (p.newEntry c r)).alarm
  obtain ⟨a, st, eq, alarm, -⟩ := recompute_eq c ((p.modQ c fun q =>
    { q with entries := placeLast (p.newEntry c r) q.entries }).modItem r.item fun it =>
      { it with holders := it.holders + 1 })
  rw [kept, putEntry, eq]
  exact alarm

/-- The request by which a unit item is handed to the queue of the desk circuit (R69). -/
def unitRequest (n : Nat) : Request := { item := n, cls := 2, mode := .send, diverted := false }

/-- A unit item with one holder, as it stands once the desk circuit has taken it. -/
structure UnitMade (n serial : Nat) (slug body : Text) (p q : Part) : Prop where
  items : q.items = p.items ++ [{ unitItem n serial slug body p.clock with holders := 1 }]
  store : q.store = { p.store with freeBlocks := p.store.freeBlocks - blocksFor body.length }
  entry : ∃ e ∈ (q.q p.orders.desk).held, e.item = n ∧ e.cls = 2 ∧ e.mode = .send ∧ e.diverted = false ∧
    e.source = none ∧ e.admitted = p.clock
  frame : OutFrame p q
  alarm : q.alarm = p.alarm ∨ q.alarm = p.alarm.raise .congested p.orders.desk
  others : ∀ c, c ≠ p.orders.desk → q.circ c = p.circ c

theorem UnitMade.quiet (h : UnitMade n serial slug body p q) (still : p.alarm.Quiet .congested) :
    q.alarm.owing = p.alarm.owing ∧ q.alarm.lost = p.alarm.lost ∧ q.alarm.serial = p.alarm.serial := by
  rcases h.alarm with alarm | alarm <;> rw [alarm]
  · exact ⟨rfl, rfl, rfl⟩
  · exact ⟨owing_raise_quiet still _, Alarm.lost_raise .., Alarm.serial_raise ..⟩

theorem modItem_last {it : Item} {g : Item → Item} (items : p.items = q.items ++ [it])
    (fresh : ∀ x ∈ q.items, x.num ≠ it.num) :
    (p.modItem it.num g).items = q.items ++ [g it] := by
  show p.items.map _ = _
  rw [items, List.map_append]
  refine congrArg₂ (· ++ ·) ((List.map_congr_left fun x member => ?_).trans (List.map_id _)) (by simp)
  simp [fresh x member]

theorem makeUnit_made (lowest : p.lowestFree = some n) (blocks : blocksFor body.length ≤ p.store.freeBlocks)
    (room : (p.q p.orders.desk).held.length < 32) (absent : ∀ e ∈ (p.q p.orders.desk).held, e.item ≠ n) :
    ∃ q, makeUnit serial slug body p = some q ∧ UnitMade n serial slug body p q := by
  have inserted : insert p.orders.desk (unitRequest n) (addUnit n serial slug body p) =
      (.done, placeEntry p.orders.desk (unitRequest n) (addUnit n serial slug body p)) :=
    insert_room (p := addUnit n serial slug body p) absent (Nat.lt_of_le_of_lt queueCount_le room)
  have added : (addUnit n serial slug body p).item n = unitItem n serial slug body p.clock := by
    rw [Part.item, item?_addUnit lowest]
    rfl
  have made : makeUnit serial slug body p =
      some (placeEntry p.orders.desk (unitRequest n) (addUnit n serial slug body p)) := by
    unfold makeUnit
    simp only [lowest, if_pos blocks]
    rw [show insert p.orders.desk { item := n, cls := 2, mode := .send, diverted := false }
      (addUnit n serial slug body p) = _ from inserted]
  refine ⟨_, made, ?_⟩
  · have onCirc := (OnCirc.refl p.orders.desk (putEntry p.orders.desk (unitRequest n) (addUnit n serial slug body p))).review
      ((addUnit n serial slug body p).newEntry p.orders.desk (unitRequest n))
    refine ⟨?_, ?_, ?_, ?_, alarm_placeEntry, fun c ne => ?_⟩
    · rw [placeEntry, onCirc.items, putEntry, items_recompute]
      exact modItem_last (it := unitItem n serial slug body p.clock) rfl fun x member same =>
        (Part.lowestFree_spec lowest).1 (List.mem_map.mpr ⟨x, member, same⟩)
    · rw [placeEntry, onCirc.store, putEntry, store_recompute]
      rfl
    · obtain ⟨x, inside, is⟩ := arrival_placeEntry (p := addUnit n serial slug body p) (c := p.orders.desk)
        (r := unitRequest n) fun e queued => absent e (List.mem_append_right _ queued)
      refine ⟨x, inside, ?_⟩
      rw [is]
      exact ⟨rfl, rfl, rfl, rfl, congrArg Item.source added, rfl⟩
    · exact (OutMoves.makeUnit .refl made).frame
    · have := circ_insert_ne (p := addUnit n serial slug body p) (unitRequest n) ne
      rwa [inserted] at this

/-- The queue of the desk circuit refuses the unit item: its descriptor and blocks are given back (R69, R98). -/
theorem makeUnit_refused (lowest : p.lowestFree = some n) (blocks : blocksFor body.length ≤ p.store.freeBlocks)
    (full : 32 ≤ p.queueCount p.orders.desk) (absent : ∀ e ∈ (p.q p.orders.desk).held, e.item ≠ n)
    (none : ∀ e ∈ (p.q p.orders.desk).entries, e.resume.isSome = true ∨ e.cls ≤ 2) :
    makeUnit serial slug body p = some (raise .queueFull p.orders.desk p) := by
  have inserted : insert p.orders.desk (unitRequest n) (addUnit n serial slug body p) =
      (.full, raise .queueFull p.orders.desk (addUnit n serial slug body p)) :=
    insert_full (p := addUnit n serial slug body p) absent full none
  have found : (raise .queueFull p.orders.desk (addUnit n serial slug body p)).item? n =
      some (unitItem n serial slug body p.clock) := (Part.item?_eq _ _ rfl).trans (item?_addUnit lowest)
  have left : ((addUnit n serial slug body p).items.filter fun x => x.num != n) = p.items := by
    show (p.items ++ [_]).filter _ = _
    rw [List.filter_append, List.filter_eq_self.mpr fun x member => ?_]
    · simp [unitItem]
    · have fresh := (Part.lowestFree_spec lowest).1
      simpa using fun same => fresh (List.mem_map.mpr ⟨x, member, same⟩)
  have freed : examineFree n (raise .queueFull p.orders.desk (addUnit n serial slug body p)) =
      raise .queueFull p.orders.desk p := by
    unfold examineFree
    rw [found]
    show ({ (raise .queueFull p.orders.desk (addUnit n serial slug body p)) with
      items := (addUnit n serial slug body p).items.filter fun x => x.num != n
      store := { p.store with freeBlocks := p.store.freeBlocks - blocksFor body.length + blocksFor body.length } } : Part) = _
    rw [left, Nat.sub_add_cancel blocks]
    rfl
  unfold makeUnit
  simp only [lowest, if_pos blocks]
  rw [show insert p.orders.desk { item := n, cls := 2, mode := .send, diverted := false }
    (addUnit n serial slug body p) = _ from inserted]
  exact congrArg some freed

/-- Without a descriptor or the blocks no unit item is made (R69). -/
theorem makeUnit_none (lacks : (∀ k, k < 256 → ∃ it ∈ p.items, it.num = k) ∨
    p.store.freeBlocks < blocksFor body.length) : makeUnit serial slug body p = none := by
  unfold makeUnit
  rcases lacks with used | few
  · rw [lowestFree_none.mpr used]
  · cases p.lowestFree with
    | none => rfl
    | some n => exact if_neg (Nat.not_le.mpr few)

/-! ### The notices of an act -/

theorem settleAux_settled_eq (fuel : Nat) (settled : p.alarm.owing = []) : settleAux fuel p = p := by
  cases fuel with
  | zero => rfl
  | succ fuel =>
    unfold settleAux
    rw [settled]

theorem settle_one (owing : p.alarm.owing = [line])
    (settled : (makeNotice line (p.setAlarm { p.alarm with owing := [] })).alarm.owing = []) :
    settle p = makeNotice line (p.setAlarm { p.alarm with owing := [] }) := by
  unfold settle
  rw [owing]
  show settleAux 12 p = _
  unfold settleAux
  rw [owing]
  exact settleAux_settled_eq _ settled

theorem owing_raise_edge {x : Alarm} (edge : ¬ x.Quiet f) (m : Fin 8) :
    (x.raise f m).owing = x.owing ++ [noticeText f (membersAfter f m (x.flag f))] := by
  have falls : (!(x.flag f).raised && (x.flag f).notice) = true := by
    cases up : (x.flag f).raised
    · cases on : (x.flag f).notice
      · exact absurd (.inr on) edge
      · rfl
    · exact absurd (.inl up) edge
  unfold Alarm.raise
  simp only
  rw [if_pos (by simp [falls])]
  rfl

/-! ### Answers (R71, R176) -/

theorem makeAnswer_some {lines : List Text} (settled : p.alarm.owing = [])
    (made : makeUnit serial p.orders.address (answerBody lines) p = some q) :
    makeAnswer serial lines p = settle q := by
  unfold makeAnswer
  simp only [settle_of_settled settled, made]

theorem makeAnswer_none {lines : List Text} (settled : p.alarm.owing = [])
    (made : makeUnit serial p.orders.address (answerBody lines) p = none) :
    makeAnswer serial lines p = settle (loseUnit p) := by
  unfold makeAnswer
  simp only [settle_of_settled settled, made]

theorem linesWithin_length (room : Nat) (lines : List Text) :
    (bodyOfLines (linesWithin room lines)).length ≤ room := by
  induction lines generalizing room with
  | nil => simp [linesWithin, bodyOfLines]
  | cons t ts ih =>
    unfold linesWithin
    split
    next fits =>
      have rest := ih (room - (t.length + 1))
      simp only [bodyOfLines, List.flatMap_cons, List.length_append, List.length_singleton] at rest ⊢
      omega
    next => simp [bodyOfLines]

/-- The lines that fit are the leading ones, up to the first that does not. -/
theorem linesWithin_take (room : Nat) (lines : List Text) (exceeds : room < (bodyOfLines lines).length) :
    ∃ k, linesWithin room lines = lines.take k ∧ room < (bodyOfLines (lines.take (k + 1))).length := by
  induction lines generalizing room with
  | nil => simp [bodyOfLines] at exceeds
  | cons t ts ih =>
    unfold linesWithin
    split
    next fits =>
      obtain ⟨k, taken, more⟩ := ih (room - (t.length + 1)) (by
        simp only [bodyOfLines, List.flatMap_cons, List.length_append, List.length_singleton] at exceeds ⊢
        omega)
      refine ⟨k + 1, by rw [taken]; rfl, ?_⟩
      rw [List.take_succ_cons]
      simp only [bodyOfLines, List.flatMap_cons, List.length_append, List.length_singleton] at more ⊢
      omega
    next tooLong =>
      refine ⟨0, rfl, ?_⟩
      simp [bodyOfLines]
      omega

/-! ### Lost items (R69, R194) -/

theorem loseUnit_quiet (quiet : p.alarm.Quiet .storeFull) : (loseUnit p).alarm.owing = p.alarm.owing :=
  owing_raise_quiet (x := { p.alarm with lost := bump p.alarm.lost }) quiet 0

/-- What the loss of a unit item leaves: the part as it was, with STORE_FULL raised and no notice owed. -/
def UnitLost (count : Nat) (p q : Part) : Prop :=
  { q with alarm := p.alarm } = p ∧ q.alarm.lost = count ∧ q.alarm.serial = p.alarm.serial ∧
    (q.flag .storeFull).raised = true ∧ q.alarm.owing = []

theorem unitLost_loseUnit (settled : p.alarm.owing = []) (quiet : p.alarm.Quiet .storeFull) :
    UnitLost (bump p.alarm.lost) p (loseUnit p) :=
  ⟨rfl, Alarm.lost_raise .., Alarm.serial_raise .., Alarm.raised_raise .., (loseUnit_quiet quiet).trans settled⟩

/-- The part once the notice owed by a lost item is taken up. -/
def Part.lostOnce (p : Part) : Part := (loseUnit p).setAlarm { (loseUnit p).alarm with owing := [] }

theorem lostOnce_spec : p.lostOnce.alarm.Quiet .storeFull ∧ p.lostOnce.alarm.owing = [] ∧
    p.lostOnce.alarm.lost = bump p.alarm.lost ∧ p.lostOnce.alarm.serial = p.alarm.serial ∧
    { p.lostOnce with alarm := p.alarm } = p ∧ p.lostOnce.items = p.items :=
  ⟨.inl (Alarm.raised_raise ..), rfl, Alarm.lost_raise .., Alarm.serial_raise .., rfl, rfl⟩

/-- The notice of the raise by which a unit item is lost is lost too. -/
theorem settle_loseUnit_twice (settled : p.alarm.owing = []) (edge : ¬ p.alarm.Quiet .storeFull)
    (used : ∀ k, k < 256 → ∃ it ∈ p.items, it.num = k) :
    UnitLost (bump (bump p.alarm.lost)) p (settle (loseUnit p)) := by
  obtain ⟨up, settled', lost, serial, same, items⟩ := lostOnce_spec (p := p)
  have owing := owing_raise_edge (x := { p.alarm with lost := bump p.alarm.lost }) edge 0
  have again : ∀ line, makeNotice line p.lostOnce = loseUnit p.lostOnce := fun line => by
    unfold makeNotice
    rw [makeUnit_none (.inl (by rwa [items]))]
  have twice := unitLost_loseUnit settled' up
  have one : (loseUnit p).alarm.owing = [noticeText .storeFull _] := owing.trans (congrArg (· ++ _) settled)
  have done : settle (loseUnit p) = loseUnit p.lostOnce := by
    have made := settle_one one
    rw [← Part.lostOnce, again] at made
    exact made twice.2.2.2.2
  obtain ⟨rest, count, kept, raised, none⟩ := twice
  rw [done]
  exact ⟨(congrArg (fun x : Part => { x with alarm := p.alarm }) rest).trans same,
    count.trans (congrArg bump lost), kept.trans serial, raised, none⟩

/-! ### Notices (R191) -/

/-- The part once the notice of an edge is taken up. -/
def Part.edgeTaken (f : Flag) (m : Fin 8) (p : Part) : Part :=
  (raise f m p).setAlarm { (raise f m p).alarm with owing := [] }

theorem edgeTaken_spec (f : Flag) (m : Fin 8) (p : Part) : (p.edgeTaken f m).alarm.owing = [] ∧
    (p.edgeTaken f m).alarm.lost = p.alarm.lost ∧ (p.edgeTaken f m).alarm.serial = p.alarm.serial ∧
    (f = .congested ∨ p.alarm.Quiet .congested → (p.edgeTaken f m).alarm.Quiet .congested) := by
  refine ⟨rfl, Alarm.lost_raise .., Alarm.serial_raise .., fun still => ?_⟩
  rcases still with rfl | still
  · exact .inl (Alarm.raised_raise ..)
  · exact still.raise f m

theorem noticeText_edge (clear : (p.flag f).raised = false) (m : Fin 8) :
    noticeText f (membersAfter f m (p.flag f)) = sentence ([txt "ALARM", flagName f] ++ match memberWord f with
      | some word => [word, [28 + m.val]]
      | none => []) := by
  unfold noticeText memberWords membersAfter
  rw [clear]
  cases memberWord f <;> rfl

/-- A notice that is made whole. -/
theorem makeNotice_made (settled : p.alarm.owing = []) (still : p.alarm.Quiet .congested) (lowest : p.lowestFree = some n)
    (blocks : blocksFor (line.length + 1) ≤ p.store.freeBlocks)
    (room : (p.q p.orders.desk).held.length < 32) (absent : ∀ e ∈ (p.q p.orders.desk).held, e.item ≠ n) :
    ∃ q, UnitMade n p.alarm.serial (txt "ALARM") (line ++ [lineEndChr]) p q ∧ q.alarm.owing = [] ∧
      q.alarm.lost = p.alarm.lost ∧ q.alarm.serial = p.alarm.serial ∧ makeNotice line p =
        q.setAlarm { q.alarm with serial := if q.alarm.serial < 9999 then q.alarm.serial + 1 else 1 } := by
  obtain ⟨q, unit, whole⟩ := makeUnit_made (serial := p.alarm.serial) (slug := txt "ALARM") (body := line ++ [lineEndChr])
    lowest (by simpa using blocks) room absent
  obtain ⟨owing, lost, serial⟩ := whole.quiet still
  refine ⟨q, whole, owing.trans settled, lost, serial, ?_⟩
  unfold makeNotice
  rw [unit]

/-! ### The statement -/

/-- Settles O50. -/
theorem unitItemsAreMadeWholeOrLost : Obligations.UnitItemsAreMadeWholeOrLost := by
  refine ⟨fun p settled => ?_, fun lines => ?_⟩
  · intro desk quiet room noRoom made lost
    have lowest : ∀ n length, room n length → p.lowestFree = some n ∧ blocksFor length ≤ p.store.freeBlocks :=
      fun n length ⟨range, fresh, below, blocks⟩ => ⟨lowestFree_of range fresh below, blocks⟩
    refine ⟨fun serial lines => ?_, fun f m => ?_⟩
    · intro body q
      refine ⟨fun n has few absent still => ?_, fun n has full absent none still => ?_, fun lacks still => ?_,
        fun used edge => ?_⟩
      · obtain ⟨free, blocks⟩ := lowest n _ has
        obtain ⟨p', unit, whole⟩ := makeUnit_made (serial := serial) (slug := p.orders.address) free blocks few absent
        obtain ⟨owing, lost, serial⟩ := whole.quiet still
        have done : q = p' := (makeAnswer_some settled unit).trans (settle_of_settled (owing.trans settled))
        rw [done]
        exact ⟨⟨whole.items, whole.store, whole.entry, whole.frame.lines, whole.frame.banks, whole.frame.history,
          whole.frame.orders, lost, whole.others⟩, serial⟩
      · obtain ⟨free, blocks⟩ := lowest n _ has
        have unit := makeUnit_refused (serial := serial) (slug := p.orders.address) free blocks full absent none
        have done : q = raise .queueFull desk p := (makeAnswer_some settled unit).trans
          (settle_of_settled ((owing_raise_quiet still _).trans settled))
        rw [done]
        exact ⟨rfl, Alarm.lost_raise .., Alarm.raised_raise .., Alarm.member_raise _ _ rfl⟩
      · rw [show q = loseUnit p from (makeAnswer_none settled (makeUnit_none lacks)).trans
          (settle_of_settled ((loseUnit_quiet still).trans settled))]
        exact unitLost_loseUnit settled still
      · rw [show q = settle (loseUnit p) from makeAnswer_none settled (makeUnit_none (.inl used))]
        exact settle_loseUnit_twice settled edge used
    · intro line q
      refine ⟨(settle_kept (raise f m p)).raised f (Alarm.raised_raise ..), fun still => ?_,
        fun n edge has few absent other => ?_⟩
      · have done : q = raise f m p := settle_of_settled ((owing_raise_quiet still m).trans settled)
        rw [done]
        exact ⟨rfl, Alarm.serial_raise .., Alarm.lost_raise .., fun g ne => (Alarm.flag_raise ..).trans (if_neg ne)⟩
      · obtain ⟨free, blocks⟩ := lowest n _ has
        have clear : (p.flag f).raised = false := by
          cases up : (p.flag f).raised with
          | false => rfl
          | true => exact absurd (.inl up) edge
        obtain ⟨settled', lostSame, serialSame, still⟩ := edgeTaken_spec f m p
        obtain ⟨q', whole, owing, lost', serial', notice⟩ := makeNotice_made (p := p.edgeTaken f m) (line := line)
          settled' (still other) free blocks few absent
        have one : (raise f m p).alarm.owing = [line] :=
          (owing_raise_edge edge m).trans (by rw [settled]; exact congrArg (fun t => [t]) (noticeText_edge clear m))
        have done : q = q'.setAlarm { q'.alarm with
            serial := if q'.alarm.serial < 9999 then q'.alarm.serial + 1 else 1 } := by
          have taken := settle_one one
          rw [← Part.edgeTaken, notice] at taken
          exact taken owing
        rw [done]
        refine ⟨⟨?_, whole.store, whole.entry, whole.frame.lines, whole.frame.banks, whole.frame.history,
          whole.frame.orders, lost'.trans lostSame, whole.others⟩, ?_⟩
        · rw [← serialSame]
          exact whole.items
        · rw [← serialSame, ← serial']
          rfl
  · intro whole
    have longest := linesWithin_length 1526 lines
    refine ⟨fun fits => if_pos fits, fun exceeds => ?_⟩
    have capped : answerBody lines = bodyOfLines (linesWithin 1526 lines ++ [txt "TRUNCATED"]) :=
      if_neg (Nat.not_le.mpr exceeds)
    obtain ⟨k, taken, more⟩ := linesWithin_take 1526 lines (show 1526 < (whole lines).length by omega)
    rw [taken] at capped longest
    refine ⟨k, capped, longest, more, ?_⟩
    have last : (bodyOfLines [txt "TRUNCATED"]).length = 10 := rfl
    rw [capped, bodyOfLines, List.flatMap_append, List.length_append]
    unfold bodyOfLines at longest last
    omega

end Sys2Proof.Machine
end

section
/-! Sequences and headings: what a delivery brings, and the end of a heading (R34–R45, R62). -/

namespace Sys2Proof.Machine

variable {p q : Part} {l : LineNo} {c : Chr} {h : Heading} {n : Nat} {st : FramerState}

/-! ### Deliveries (R34–R36) -/

/-- The framer with nothing held. -/
def unheld (l : LineNo) (p : Part) : Part := p.modFr l fun fr => { fr with held := [] }

@[simp] theorem fr_unheld : (unheld l p).fr l = { p.fr l with held := [] } := by simp [unheld]
@[simp] theorem line_unheld : (unheld l p).line l = { p.line l with fr := { p.fr l with held := [] } } := by
  simp [unheld, Part.fr]

theorem unheld_of_none (held : (p.fr l).held = []) : unheld l p = p :=
  Part.modFr_id _ (by cases fr : p.fr l; simp_all)

/-- A character that begins no sequence is not the start of a sequence. -/
theorem not_starts {sequence : Text} (long : 2 ≤ sequence.length) (first : sequence.head? ≠ some c) :
    [c] ≠ sequence ∧ properPrefix [c] sequence = false := by
  match sequence, long with
  | x :: y :: rest, _ =>
    have other : c ≠ x := by
      rintro rfl
      exact first rfl
    simp [properPrefix, List.isPrefixOf, other]

theorem deliver_plain (held : (p.fr l).held = []) (opens : 2 ≤ (p.fr l).opening.length)
    (closes : 2 ≤ (p.fr l).closing.length) (first : (p.fr l).opening.head? ≠ some c)
    (last : (p.fr l).closing.head? ≠ some c) : deliver l c p = releaseChr l c p := by
  obtain ⟨noOpening, noStart⟩ := not_starts opens first
  obtain ⟨noClosing, noEnd⟩ := not_starts closes last
  have same : (p.modFr l fun fr => { fr with held := [] }) = p := unheld_of_none held
  rw [deliver, held, List.nil_append, same]
  simp [examine, noOpening, noStart, noClosing, noEnd]

theorem deliver_opening (completes : (p.fr l).held ++ [c] = (p.fr l).opening) :
    deliver l c p = matchOpening l (unheld l p) := by
  rw [deliver, completes]
  cases opening : (p.fr l).opening with
  | nil => simp [opening] at completes
  | cons x xs =>
    unfold examine
    rw [← unheld]
    simp only [fr_unheld, opening, if_true]

theorem deliver_closing (completes : (p.fr l).held ++ [c] = (p.fr l).closing) (ne : (p.fr l).closing ≠ (p.fr l).opening)
    (watched : (p.fr l).state ≠ .hunt) : deliver l c p = matchClosing l (unheld l p) := by
  rw [deliver, completes]
  cases closing : (p.fr l).closing with
  | nil => simp [closing] at completes
  | cons x xs =>
    rw [closing] at ne
    unfold examine
    rw [← unheld]
    simp [closing, ne, watched]

/-! ### Headings (R39–R45) -/

/-- The framer puts a refused heading away: nothing is held, and the heading counts as refused. -/
def putAway (l : LineNo) (st : FramerState) (p : Part) : Part :=
  (p.modFr l fun fr => { fr with held := [], state := st, heading := [], headStart := st = .heading }).modLineTally l
    fun t => { t with refused := bump t.refused }

theorem countRefused_toState : countRefused l (toState l st (unheld l p)) = putAway l st p := by
  unfold countRefused toState unheld putAway
  rw [Part.modFr_modFr]
  rfl

theorem countRefused_toState_of (held : (p.fr l).held = []) : countRefused l (toState l st p) = putAway l st p := by
  rw [← countRefused_toState, unheld_of_none held]

theorem endHeading_none (parsed : parseHeading (p.fr l).heading = none) : endHeading l p = headingFault l p := by
  unfold endHeading
  rw [parsed]

theorem endHeading_order (parsed : parseHeading (p.fr l).heading = some h) (category : h.category = txt "QD")
    (slug : h.slug = p.orders.address) : endHeading l p = orderHeading l h p := by
  unfold endHeading
  rw [parsed]
  exact if_pos ⟨category, slug⟩

theorem endHeading_copy (parsed : parseHeading (p.fr l).heading = some h)
    (ordinary : h.category ≠ txt "QD" ∨ h.slug ≠ p.orders.address) : endHeading l p = copyHeading l h p := by
  unfold endHeading
  rw [parsed]
  exact if_neg fun both => ordinary.elim (· both.1) (· both.2)

theorem copyHeading_refused (none : 248 ≤ p.store.agencyItems ∨ ∀ k, k < 256 → ∃ it ∈ p.items, it.num = k) :
    copyHeading l h p = raiseNow .tableFull l (countRefused l (toState l .discard p)) := by
  have lacks : (if p.store.agencyItems < Config.agencyItemLimit then p.lowestFree else Option.none) = Option.none := by
    split
    next room => exact lowestFree_none.mpr (none.resolve_left (Nat.not_le.mpr room))
    next => rfl
  unfold copyHeading
  rw [lacks]

theorem countAccepted_toState : countAccepted l (toState l st p) = p.setLine l { p.line l with
    fr := { p.fr l with state := st, heading := [], headStart := st == .heading }
    tally := { (p.line l).tally with accepted := bump (p.line l).tally.accepted } } := by
  simp [countAccepted, toState, Part.modFr, Part.modLineTally, Part.setLine_setLine, Part.fr]

/-- An item that no purge and no route follows is granted its descriptor (R45, R62). -/
theorem copyHeading_unrouted (ordinary : h.kind ≠ .kill ∧ h.kind ≠ .rewrite) (room : p.store.agencyItems < 248)
    (lowest : p.lowestFree = some n) (none : lookup p.banks.active l h.category = none) :
    copyHeading l h p =
      countAccepted l (toState l .body { grantItem l n h p with unrouted := bump p.unrouted }) := by
  have granted : (if p.store.agencyItems < Config.agencyItemLimit then p.lowestFree else Option.none) = some n :=
    (if_pos room).trans lowest
  have purged : ∀ q, purgeFor h.kind n q = q := fun q => by
    cases kind : h.kind with
    | kill => exact absurd kind ordinary.1
    | rewrite => exact absurd kind ordinary.2
    | _ => rfl
  have category : ((grantItem l n h p).item n).category = h.category := by
    have found : (grantItem l n h p).item? n = some (agencyItem n l h p.clock) := (Part.item?_eq _ _ rfl).trans
      (Part.item?_addItem_self (agencyItem n l h p.clock) (Part.lowestFree_spec lowest).1)
    rw [Part.item, found]
    rfl
  have routed : routeItem l n (grantItem l n h p) = { grantItem l n h p with unrouted := bump p.unrouted } := by
    unfold routeItem
    rw [show lookup (grantItem l n h p).banks.active l ((grantItem l n h p).item n).category = Option.none by
      rw [category]; exact none]
    rfl
  unfold copyHeading
  rw [granted]
  simp only [purged, routed]

theorem isSlug_iff (slug : Text) : isSlug slug = true ↔ ∃ (first : Chr) (more : Text), slug = first :: more ∧
    isLetter first = true ∧ ∀ d ∈ more, isLetter d = true ∨ isDigit d = true ∨ d = 38 := by
  cases slug with
  | nil => simp [isSlug]
  | cons x xs => simp [isSlug, or_assoc]

theorem numeral_isSome (t : Text) : (numeral t).isSome = true ↔ t ≠ [] ∧ ∀ d ∈ t, isDigit d = true := by
  unfold numeral
  split <;> simp_all

theorem parseHeading_isSome (buffer : Text) : (parseHeading buffer).isSome = true ↔
    ∃ (serial cls category slug : Text) (marks : List Text),
      tokens buffer = serial :: cls :: category :: slug :: marks ∧
      serial ≠ [] ∧ serial.length ≤ 4 ∧ (∀ d ∈ serial, isDigit d = true) ∧ (∃ d, cls = [d] ∧ isDigit d = true) ∧
      category.length = 2 ∧ (∀ c ∈ category, isLetter c = true) ∧
      ∃ (first : Chr) (more : Text), slug = first :: more ∧ isLetter first = true ∧
        ∀ d ∈ more, isLetter d = true ∨ isDigit d = true ∨ d = 38 := by
  have shaped : ∀ serial cls category slug marks, tokens buffer = serial :: cls :: category :: slug :: marks →
      ((parseHeading buffer).isSome = true ↔ (numeral serial).isSome = true ∧ (numeral cls).isSome = true ∧
        serial.length ≤ 4 ∧ cls.length = 1 ∧ isTwoLetters category = true ∧ isSlug slug = true) := by
    intro serial cls category slug marks shape
    unfold parseHeading
    simp only [shape]
    cases numeral serial with
    | none => simp
    | some s =>
      cases numeral cls with
      | none => simp
      | some k => simp [and_assoc]
  constructor
  · intro parsed
    obtain ⟨serial, cls, category, slug, marks, shape⟩ : ∃ serial cls category slug marks,
        tokens buffer = serial :: cls :: category :: slug :: marks := by
      unfold parseHeading at parsed
      split at parsed
      next shape => exact ⟨_, _, _, _, _, shape⟩
      next => exact absurd parsed (by simp)
    obtain ⟨digits, digit, short, single, letters, isSlug⟩ := (shaped _ _ _ _ _ shape).mp parsed
    obtain ⟨some, digits⟩ := (numeral_isSome serial).mp digits
    obtain ⟨-, digit⟩ := (numeral_isSome cls).mp digit
    obtain ⟨d, rfl⟩ := List.length_eq_one_iff.mp single
    simp only [isTwoLetters, Bool.and_eq_true, decide_eq_true_eq, List.all_eq_true] at letters
    exact ⟨serial, [d], category, slug, marks, shape, some, short, digits, ⟨d, rfl, digit d (by simp)⟩, letters.1, letters.2,
      (isSlug_iff slug).mp isSlug⟩
  · rintro ⟨serial, cls, category, slug, marks, shape, some, short, digits, ⟨d, rfl, digit⟩, two, letters, slugged⟩
    refine (shaped _ _ _ _ _ shape).mpr ⟨(numeral_isSome serial).mpr ⟨some, digits⟩, (numeral_isSome [d]).mpr ?_, short, rfl,
      ?_, (isSlug_iff slug).mpr slugged⟩
    · simpa using digit
    · simpa [isTwoLetters, two] using letters

/-! ### The heading buffer (R39) -/

theorem headingChr_of_start (start : (p.fr l).headStart = true) (blank : c = spaceChr ∨ c = lineEndChr) :
    headingChr l c p = p := by
  unfold headingChr
  exact if_pos (by simpa [start] using blank)

theorem headingChr_ends (begun : (p.fr l).headStart = false) : headingChr l lineEndChr p = endHeading l p := by
  unfold headingChr
  simp [begun]

theorem headingChr_inside (mid : c ≠ lineEndChr) (live : (p.fr l).headStart = false ∨ c ≠ spaceChr) :
    headingChr l c p = if (p.fr l).heading.length < 80 then
      p.modFr l fun fr => { fr with heading := fr.heading ++ [c], headStart := false }
    else countBetween l (headingFault l p) := by
  have still : ¬ ((p.fr l).headStart && (c = spaceChr || c = lineEndChr)) = true := by
    rcases live with begun | other
    · simp [begun]
    · simp [other, mid]
  unfold headingChr
  rw [if_neg still, if_neg mid, Config.headingSize]

/-- Settles O15. -/
theorem unroutedHeadingGetsADescriptor : Obligations.UnroutedHeadingGetsADescriptor := by
  refine ⟨fun p l h n parsed copy ordinary none room range fresh below => ?_, parseHeading_isSome, fun p l => ?_⟩
  · rw [endHeading_copy parsed copy, copyHeading_unrouted ordinary room (lowestFree_of range fresh below) none]
    rw [countAccepted_toState]
    have line : Part.line { grantItem l n h p with unrouted := bump p.unrouted } l = { p.line l with
        fr := { p.fr l with item := some n, sum := 0, pos := 0, ref := .letters } } := Part.line_setLine _
    have fr : Part.fr { grantItem l n h p with unrouted := bump p.unrouted } l =
        { p.fr l with item := some n, sum := 0, pos := 0, ref := .letters } := congrArg Line.fr line
    rw [line, fr]
    have set : ∀ x, Part.setLine { grantItem l n h p with unrouted := bump p.unrouted } l x =
        { p.setLine l x with
          items := p.items ++ [agencyItem n l h p.clock]
          store := { p.store with agencyItems := p.store.agencyItems + 1 }
          unrouted := bump p.unrouted } := fun x => by
      simp [grantItem, Part.modFr, Part.setLine, Part.addItem]
    exact set _
  · intro refused
    have faulty : ∀ st, (p.fr l).held = [] → raiseNow .headingFault l (countRefused l (toState l st p)) =
        raiseNow .headingFault l (refused st) := fun st held =>
      congrArg (raiseNow .headingFault l) (countRefused_toState_of held)
    have matched : ∀ st, raiseNow .headingFault l (countRefused l (toState l st (unheld l p))) =
        raiseNow .headingFault l (refused st) := fun st =>
      congrArg (raiseNow .headingFault l) countRefused_toState
    refine ⟨fun held => ⟨fun none => (endHeading_none none).trans (faulty _ held), fun h parsed copy none => ?_⟩,
      fun heading opens closes c => ⟨fun held first last => ?_, fun completes => ?_, fun completes ne => ?_⟩⟩
    · rw [endHeading_copy parsed copy, copyHeading_refused none]
      exact congrArg (raiseNow .tableFull l) (countRefused_toState_of held)
    · have taken : deliver l c p = headingChr l c p := by
        rw [deliver_plain held opens closes first last, releaseChr, heading]
      rw [taken]
      refine ⟨headingChr_of_start, fun begun ends => ?_, fun mid live => ⟨fun room => ?_, fun full => ?_⟩⟩
      · rw [ends, headingChr_ends begun]
      · rw [headingChr_inside mid live, if_pos room]
      · rw [headingChr_inside mid live, if_neg (Nat.not_lt.mpr full)]
        exact congrArg (countBetween l) (faulty .discard held)
    · rw [deliver_opening completes, matchOpening, fr_unheld, heading]
      exact matched .heading
    · rw [deliver_closing completes ne (by rw [heading]; decide), matchClosing, fr_unheld, heading]
      exact matched .hunt

end Sys2Proof.Machine
end

section
/-! Order items: the claim of the buffer, the collection of lines and the closing (R43, R54, R55, R173, R174). -/

namespace Sys2Proof.Machine

variable {p q : Part} {l : LineNo} {c : Chr} {h : Heading} {serial : Nat} {lines : List Text} {cur : Text}
  {st : FramerState}

/-! ### The check of an order item (R173) -/

theorem checkRight_iff {all : List Text} : checkRight all = true ↔ ∃ ck, all = all.dropLast ++ [ck] ∧
    tokens ck = [txt "CK", checkLetters all.dropLast] := by
  unfold checkRight
  cases last : all.getLast? with
  | none =>
    have empty : all = [] := by simpa using last
    simp [empty]
  | some ck =>
    have split := List.dropLast_append_getLast? ck (by simpa using last)
    constructor
    · intro right
      exact ⟨ck, split.symm, by simpa using right⟩
    · rintro ⟨ck', split', right⟩
      have same : ck' = ck := by simpa using List.append_cancel_left (split'.symm.trans split.symm)
      simpa [same] using right

/-! ### Framers in ORDER (R54) -/

/-- The framer leaves ORDER with nothing held. -/
def leaveOrder (l : LineNo) (st : FramerState) (p : Part) : Part :=
  p.modFr l fun fr => { fr with held := [], state := st, heading := [], headStart := false }

theorem toState_unheld (st : FramerState) (other : st ≠ .heading) : toState l st (unheld l p) = leaveOrder l st p := by
  unfold toState unheld leaveOrder
  rw [Part.modFr_modFr]
  cases st with
  | heading => exact absurd rfl other
  | _ => rfl

theorem toState_of_unheld (other : st ≠ .heading) (held : (p.fr l).held = []) :
    toState l st p = leaveOrder l st p := by
  rw [← toState_unheld st other, unheld_of_none held]

theorem fr_makeAnswer (serial : Nat) (answer : List Text) : (makeAnswer serial answer p).fr l = p.fr l :=
  (OutMoves.makeAnswer serial answer .refl).frame.fr l

theorem abandonOrder_own (collecting : p.orders.buffer = .collecting l serial lines cur) (word : String) :
    abandonOrder l word p = makeAnswer serial (noWord word) (p.setBuffer .free) := by
  unfold abandonOrder
  rw [collecting]
  exact if_pos rfl

theorem orderChr_lineEnd (collecting : p.orders.buffer = .collecting l serial lines cur) :
    orderChr l lineEndChr p = if cur = [] then p else p.setBuffer (.collecting l serial (lines ++ [cur]) []) := by
  unfold orderChr
  rw [collecting]
  simp

theorem orderChr_text (collecting : p.orders.buffer = .collecting l serial lines cur) (mid : c ≠ lineEndChr) :
    orderChr l c p = if cur.length = 80 ∨ (cur = [] ∧ lines.length = 24) then
      countBetween l (toState l .discard (makeAnswer serial (noWord "LONG") (p.setBuffer .free)))
    else p.setBuffer (.collecting l serial lines (cur ++ [c])) := by
  unfold orderChr
  rw [abandonOrder_own collecting, collecting]
  simp [mid, Config.orderWidth, Config.orderLines]

/-- Settles O16. -/
theorem orderHeadingClaimsTheBuffer : Obligations.OrderHeadingClaimsTheBuffer := by
  refine ⟨fun p l h parsed category slug desk free => ?_, fun p l serial lines cur c opens closes => ?_⟩
  · rw [endHeading_order parsed category slug]
    unfold orderHeading
    rw [free]
    simp only [desk, Bool.not_true, if_false, Bool.false_eq_true, countAccepted_toState]
    rfl
  · intro dropped
    refine ⟨fun order collecting => ⟨fun held first last => ?_, fun completes => ?_, fun held => ?_,
      fun completes ne => ?_⟩, fun h parsed category slug => ?_⟩
    · have taken : deliver l c p = orderChr l c p := by
        rw [deliver_plain held opens closes first last, releaseChr, order]
      rw [taken]
      refine ⟨fun ends => ?_, fun mid short few => ?_, fun mid long => ?_⟩
      · rw [ends]
        exact orderChr_lineEnd collecting
      · rw [orderChr_text collecting mid, if_neg]
        rintro (full | ⟨empty, full⟩)
        · omega
        · have := few empty
          omega
      · have put := toState_of_unheld (st := .discard) (by decide)
          ((congrArg Framer.held (fr_makeAnswer (p := p.setBuffer .free) serial (noWord "LONG"))).trans held)
        rw [orderChr_text collecting mid, if_pos long, put]
        rfl
    · have collecting' : (unheld l p).orders.buffer = .collecting l serial lines cur := collecting
      rw [deliver_opening completes, matchOpening, fr_unheld, order]
      simp only
      rw [abandonOrder_own collecting']
      rfl
    · have put := toState_of_unheld (st := .hunt) (by decide)
        ((congrArg Framer.held (fr_makeAnswer (p := p.setBuffer .free) serial (noWord "INCOMPLETE"))).trans held)
      have same : releaseHeld l p = p := by
        rw [releaseHeld, held]
        exact unheld_of_none held
      unfold interrupt
      simp only [same, order]
      rw [abandonOrder_own collecting, put]
      rfl
    · have collecting' : (leaveOrder l .hunt p).orders.buffer = .collecting l serial lines cur := collecting
      have taken : deliver l c p = closeOrder l (leaveOrder l .hunt p) := by
        rw [deliver_closing completes ne (by rw [order]; decide), matchClosing, fr_unheld, order]
        exact congrArg (closeOrder l) (toState_unheld _ (by decide))
      rw [taken]
      unfold closeOrder
      rw [collecting']
      intro all right
      have right_iff : ∀ orders, right orders ↔ checkRight all = true ∧ all.dropLast = orders := fun orders => by
        rw [checkRight_iff]
        constructor
        · rintro ⟨ck, split, tokens⟩
          have front : all.dropLast = orders := by rw [split, List.dropLast_concat]
          exact ⟨⟨ck, by rw [front, split], by rw [front]; exact tokens⟩, front⟩
        · rintro ⟨⟨ck, split, tokens⟩, rfl⟩
          exact ⟨ck, split, tokens⟩
      refine ⟨fun orders is some => ?_, fun is => ?_, fun none => ?_⟩
      · obtain ⟨checked, front⟩ := (right_iff orders).mp is
        exact (if_pos checked).trans ((if_neg (by rw [show (withLast lines cur).dropLast = orders from front]; exact some)).trans
          (congrArg (fun o => (leaveOrder l .hunt p).setBuffer (.executing l serial o 0 [])) front))
      · obtain ⟨checked, front⟩ := (right_iff []).mp is
        exact (if_pos checked).trans (if_pos front)
      · refine if_neg fun checked => ?_
        exact none _ ((right_iff _).mpr ⟨checked, rfl⟩)
    · rw [endHeading_order parsed category slug]
      refine ⟨fun off => ?_, fun desk busy => ?_⟩
      · exact if_pos (by simp [off])
      · unfold orderHeading
        rw [if_neg (by simp [desk])]
        split
        next free => exact absurd free busy
        next => rfl

end Sys2Proof.Machine
end

section
/-! What becomes of the item that a framer receives: the acts of the circuit side, commits and breaks (R50, R51, R53). -/

namespace Sys2Proof.Machine

variable {p q r : Part} {l : LineNo} {c : CircNo} {n k : Nat} {it : Item}

/-! ### The circuit side changes nothing of an agency item but its holders -/

/-- Of a FILLING item, and of an agency item that is still there, only the holders have changed. -/
structure Part.ItemsKept (p q : Part) : Prop where
  agency : ∀ n after, q.item? n = some after → after.source.isSome = true →
    ∃ it, p.item? n = some it ∧ after = { it with holders := after.holders }
  filling : ∀ n it, p.item? n = some it → it.state = .filling → ∃ h, q.item? n = some { it with holders := h }

theorem Part.ItemsKept.of_items (same : ∀ n, q.item? n = p.item? n) : p.ItemsKept q :=
  ⟨fun n after found _ => ⟨after, (same n).symm.trans found, rfl⟩, fun n it found _ => ⟨it.holders, (same n).trans found⟩⟩

theorem Part.ItemsKept.refl (p : Part) : p.ItemsKept p := .of_items fun _ => rfl

theorem Part.ItemsKept.trans (h : p.ItemsKept q) (k : q.ItemsKept r) : p.ItemsKept r := by
  constructor
  · intro n after found agency
    obtain ⟨mid, found', is⟩ := k.agency n after found agency
    obtain ⟨it, found'', is'⟩ := h.agency n mid found' (by rw [is] at agency; exact agency)
    exact ⟨it, found'', by rw [is, is']⟩
  · intro n it found filling
    obtain ⟨holders, found'⟩ := h.filling n it found filling
    exact k.filling n { it with holders := holders } found' filling

theorem Part.ItemsKept.holders (g : Item → Nat) : p.ItemsKept (p.modItem k fun it => { it with holders := g it }) := by
  have item? : ∀ n, (p.modItem k fun it => { it with holders := g it }).item? n =
      (p.item? n).map fun it => if n = k then { it with holders := g it } else it := fun n =>
    Part.item?_modItem (f := fun it => { it with holders := g it }) fun _ => rfl
  constructor
  · intro n after found _
    rw [item?, Option.map_eq_some_iff] at found
    obtain ⟨it, found, rfl⟩ := found
    refine ⟨it, found, ?_⟩
    split <;> rfl
  · intro n it found _
    rw [item?, found]
    by_cases e : n = k
    · exact ⟨g it, by simp [e]⟩
    · exact ⟨it.holders, by simp [e]⟩

theorem Part.ItemsKept.free : p.ItemsKept (examineFree k p) := by
  have gone : ∀ after, (Machine.examineFree k p).item? k = some after → p.item? k = some after := fun after found => by
    unfold Machine.examineFree at found
    split at found
    · exact found
    · split at found
      · have member := List.mem_of_find?_eq_some found
        have num := List.find?_some found
        simp_all
      · exact found
  constructor
  · intro n after found _
    by_cases e : n = k
    · exact ⟨after, e ▸ gone after (e ▸ found), rfl⟩
    · exact ⟨after, (Part.item?_examineFree e).symm.trans found, rfl⟩
  · intro n it found filling
    refine ⟨it.holders, ?_⟩
    by_cases e : n = k
    · subst e
      have stays : Machine.examineFree n p = p := by
        unfold Machine.examineFree
        simp [found, Item.ended, filling]
      rw [stays]
      exact found
    · exact (Part.item?_examineFree e).trans found

theorem OutMove.itemsKept (m : OutMove p q) : p.ItemsKept q := by
  have released : ∀ {p : Part} {c k}, p.ItemsKept (Machine.released c k p) := fun {p c k} =>
    ((Part.ItemsKept.holders (p := p) (k := k) fun it => it.holders - 1).trans
      (.of_items fun n => Part.item?_eq _ _ (items_recompute ..))).trans .free
  have removeQueued : ∀ {p : Part} {c k}, p.ItemsKept (Machine.removeQueued c k p) := fun {p c k} => by
    unfold Machine.removeQueued
    split
    · refine Part.ItemsKept.trans ?_ released
      exact .of_items fun n => Part.item?_eq _ _ rfl
    · exact .refl _
  have put : ∀ {p : Part} {c r}, p.ItemsKept (Machine.putEntry c r p) := fun {p c r} =>
    (Part.ItemsKept.holders (p := p) (k := r.item) fun it => it.holders + 1).trans
      (.of_items fun n => Part.item?_eq _ _ (items_recompute ..))
  cases m with
  | raise | alarm | queue | tx | tally | interrupt | take | giveBack => exact .of_items fun n => Part.item?_eq _ _ rfl
  | removeQueued => exact removeQueued
  | removeCurrent c =>
    unfold Machine.removeCurrent
    split
    · refine Part.ItemsKept.trans ?_ released
      exact .of_items fun n => Part.item?_eq _ _ rfl
    · exact .refl _
  | put => exact put
  | replace c e r =>
    refine Part.ItemsKept.trans ?_ put
    exact removeQueued.trans (.of_items fun n => Part.item?_eq _ _ rfl)
  | reestimate => exact .of_items fun n => Part.item?_eq _ _ (by simp [reestimateOn, Part.modEntries])
  | spend => exact .of_items fun n => Part.item?_eq _ _ (by simp [spendOne])
  | free => exact .free
  | addUnit m serial slug body lowest =>
    have item? : ∀ n, (Machine.addUnit m serial slug body p).item? n =
        (p.item? n).or (if m = n then some (unitItem m serial slug body p.clock) else none) := fun n => by
      show (p.items ++ [_]).find? _ = _
      rw [List.find?_append, List.find?_singleton]
      simp [unitItem, Part.item?]
    constructor
    · intro n after found agency
      rw [item?] at found
      cases before : p.item? n with
      | some it =>
        rw [before] at found
        exact ⟨it, rfl, by cases found; rfl⟩
      | none =>
        rw [before, Option.none_or] at found
        split at found
        · cases found
          exact absurd agency (by simp [unitItem])
        · exact nomatch found
    · intro n it found _
      exact ⟨it.holders, by rw [item?, found]; rfl⟩

theorem OutMoves.itemsKept (m : OutMoves p q) : p.ItemsKept q := by
  induction m with
  | refl => exact .refl p
  | tail _ m ih => exact ih.trans m.itemsKept

/-! ### Commits and the ends of an item (R50, R51, R53) -/

/-- The body of item `n` is wholly committed, before the commit event is handed on. -/
def commitItem (n : Nat) (p : Part) : Part := p.modItem n fun it => { it with committed := it.body.length }

theorem commit_moves (n : Nat) (old : Item) (p : Part) : OutMoves (commitItem n p) (commit n old p) := by
  unfold commit
  exact OutMoves.eachCirc (fun c q h => h.trans (OutMoves.commitOn n old .refl)) (OutMoves.reestimateItem n .refl)

theorem signLast_eq (sum : Nat) (it : Item) : signLast sum it = { it with signatures :=
    if it.stats.lineEnds < it.stats.lines ∧ it.signatures.length < 48 then it.signatures ++ [sum] else it.signatures } := by
  unfold signLast addSignature
  by_cases unterminated : it.stats.lineEnds < it.stats.lines
  · by_cases few : it.signatures.length < 48
    · simp [unterminated, few, Config.signedLines]
    · simp [unterminated, few, Config.signedLines]
  · simp [unterminated]

theorem item?_endItem {st : ItemState} {v : Option Verdict} (found : p.item? n = some it) :
    (endItem l n st v p).item? n = some { signLast (p.fr l).sum it with state := st, verdict := v } := by
  have num : ∀ it : Item, ({ signLast (p.fr l).sum it with state := st, verdict := v } : Item).num = it.num := fun it => by
    rw [signLast_eq]
  have item? : (endItem l n st v p).item? n = (p.item? n).map fun it =>
      if n = n then { signLast (p.fr l).sum it with state := st, verdict := v } else it :=
    (Part.item?_modItem (p := p.modFr l fun fr => { fr with item := none }) _ num).trans
      (congrArg (Option.map _) (Part.item?_eq _ _ rfl))
  rw [item?, found]
  simp

theorem item?_commitItem (found : p.item? n = some it) :
    (commitItem n p).item? n = some { it with committed := it.body.length } := by
  have item? : (commitItem n p).item? n = (p.item? n).map fun it =>
      if n = n then { it with committed := it.body.length } else it := Part.item?_modItem _ fun _ => rfl
  rw [item?, found]
  simp

/-- The part when an item in BODY is BROKEN and committed, before its commit event is handed on. -/
def brokenPart (l : LineNo) (n : Nat) (p : Part) : Part := commitItem n (endItem l n .broken (some .fresh) p)

theorem breakItem_none (none : (p.fr l).item = none) : breakItem l p = p := by
  unfold breakItem
  rw [none]

theorem breakItem_moves (receiving : (p.fr l).item = some n) : OutMoves (brokenPart l n p) (breakItem l p) := by
  unfold breakItem
  rw [receiving]
  exact ((commit_moves n (p.item n) _).act (.free n)).trans (OutMoves.settle .refl)

/-- A break of an item leaves of the lines all but the reference to the item. -/
theorem lines_breakItem : (breakItem l p).lines = (p.modFr l fun fr => { fr with item := none }).lines := by
  cases receiving : (p.fr l).item with
  | none =>
    rw [breakItem_none receiving, Part.modFr_id]
    cases fr : p.fr l
    simp_all
  | some n => exact (breakItem_moves receiving).frame.lines

theorem line_breakItem : (breakItem l p).line l = { p.line l with fr := { p.fr l with item := none } } := by
  rw [Part.line, lines_breakItem]
  exact Part.line_modFr _

theorem fr_breakItem : (breakItem l p).fr l = { p.fr l with item := none } := congrArg Line.fr line_breakItem

/-- The broken item, where entries still hold it (R53). -/
theorem item_breakItem (receiving : (p.fr l).item = some n) (found : p.item? n = some it) {after : Item}
    (left : (breakItem l p).item? n = some after) (agency : after.source.isSome = true) :
    after = { signLast (p.fr l).sum it with
      state := .broken, verdict := some .fresh, committed := it.body.length, holders := after.holders } := by
  obtain ⟨was, found', is⟩ := (breakItem_moves receiving).itemsKept.agency n after left agency
  rw [brokenPart, item?_commitItem (item?_endItem found), Option.some_inj] at found'
  rw [is, ← found', signLast_eq]

end Sys2Proof.Machine
end

section
/-! Bodies: a character that is stored, a block that is refused, a run-on (R47–R49, R51, R53, R59). -/

namespace Sys2Proof.Machine

variable {p q r : Part} {l : LineNo} {n k : Nat} {it : Item} {c : Chr}

/-! ### A character stored (R47–R49) -/

theorem modItem_modItem (f g : Item → Item) (num : ∀ it, (f it).num = it.num) :
    (p.modItem n f).modItem n g = p.modItem n fun it => g (f it) := by
  unfold Part.modItem
  simp only [List.map_map]
  congr 1
  refine List.map_congr_left fun x _ => ?_
  by_cases e : x.num = n
  · simp [e, num]
  · simp [e]

theorem countChr_eq (ref : Shift) (body : Text) (c : Chr) (st : Stats) : countChr ref (beginsLine body) c st =
    { printable := st.printable + if c = lineEndChr then 0 else 1
      lineEnds := st.lineEnds + if c = lineEndChr then 1 else 0
      caseChanges := st.caseChanges + if (caseOf c).any (· ≠ ref) then 1 else 0
      lines := st.lines + if body = [] ∨ body.getLast? = some lineEndChr then 1 else 0 } := by
  have begins : beginsLine body = true ↔ body = [] ∨ body.getLast? = some lineEndChr := by
    unfold beginsLine
    cases last : body.getLast? with
    | none => simpa using last
    | some x =>
      have : body ≠ [] := by
        rintro rfl
        exact nomatch last
      simp [this]
  unfold countChr
  congr 1
  · split <;> rfl
  · split <;> rfl
  · cases caseOf c with
    | none => simp
    | some cls => by_cases e : cls = ref <;> simp [e]
  · by_cases b : beginsLine body = true
    · rw [if_pos b, if_pos (begins.mp b)]
    · rw [if_neg b, if_neg (fun h => b (begins.mpr h))]
      rfl

theorem chainFull_iff : it.chainFull = true ↔ it.body.length = 32 * it.blocks := by simp [Item.chainFull, Config.blockSize]

theorem blockGranted_iff : p.blockGranted = true ↔ 0 < p.store.freeBlocks ∧ p.store.agencyBlocks < 2000 := by
  simp [Part.blockGranted, Config.agencyBlockLimit]

/-- The framer once character `c` is stored (R48, R49). -/
def frWith (c : Chr) (fr : Framer) : Framer :=
  { fr with
    ref := if c = lineEndChr then .letters else (caseOf c).getD fr.ref
    sum := if c = lineEndChr then 0 else if c = spaceChr then fr.sum else (fr.sum + c * (fr.pos + 1)) % 65536
    pos := if c = lineEndChr then 0 else if c = spaceChr then fr.pos else fr.pos + 1 }

/-- The item once character `c` is stored, with a block where its chain was full (R47–R49). -/
def itemWith (full : Prop) [Decidable full] (fr : Framer) (c : Chr) (it : Item) : Item :=
  { it with
    body := it.body ++ [c]
    blocks := if full then it.blocks + 1 else it.blocks
    stats :=
      { printable := it.stats.printable + if c = lineEndChr then 0 else 1
        lineEnds := it.stats.lineEnds + if c = lineEndChr then 1 else 0
        caseChanges := it.stats.caseChanges + if (caseOf c).any (· ≠ fr.ref) then 1 else 0
        lines := it.stats.lines + if it.body = [] ∨ it.body.getLast? = some lineEndChr then 1 else 0 }
    signatures := if c = lineEndChr ∧ it.signatures.length < 48 then it.signatures ++ [fr.sum] else it.signatures }

/-- The store once the chain of an item has taken a block, if it was full (R59). -/
def storeWith (full : Prop) [Decidable full] (st : Store) : Store :=
  if full then { st with freeBlocks := st.freeBlocks - 1, agencyBlocks := st.agencyBlocks + 1 } else st

theorem storeChr_eq (c : Chr) : storeChr l n c p =
    (p.modItem n (itemWith False (p.fr l) c)).modFr l (frWith c) := by
  have item : (fun it : Item => { it with
      body := it.body ++ [c]
      stats := countChr (p.fr l).ref (beginsLine it.body) c it.stats
      signatures := if c = lineEndChr then addSignature (p.fr l).sum it.signatures else it.signatures }) =
      itemWith False (p.fr l) c := funext fun it => by
    unfold itemWith
    rw [countChr_eq, addSignature, Config.signedLines]
    by_cases ends : c = lineEndChr <;> simp [ends]
  have framer : (fun fr : Framer => { fr with
      ref := refAfter fr.ref c
      sum := if c = lineEndChr then 0 else if c = spaceChr then fr.sum else (fr.sum + c * (fr.pos + 1)) % 65536
      pos := if c = lineEndChr then 0 else if c = spaceChr then fr.pos else fr.pos + 1 }) = frWith c := funext fun fr => by
    unfold frWith refAfter
    cases caseOf c <;> rfl
  unfold storeChr
  rw [← item, ← framer]

theorem appendChr_eq (found : p.item? n = some it) (c : Chr) : appendChr l n c p =
    (({ p with store := storeWith (it.body.length = 32 * it.blocks) p.store } : Part).modItem n
      (itemWith (it.body.length = 32 * it.blocks) (p.fr l) c)).modFr l (frWith c) := by
  unfold appendChr
  rw [Part.item_of_item? found, storeChr_eq]
  by_cases full : it.body.length = 32 * it.blocks
  · rw [if_pos (chainFull_iff.mpr full), storeWith, if_pos full, takeBlock]
    have both := modItem_modItem (p := { p with store := { p.store with
      freeBlocks := p.store.freeBlocks - 1, agencyBlocks := p.store.agencyBlocks + 1 } }) (n := n)
      (fun it => { it with blocks := it.blocks + 1 }) (itemWith False (p.fr l) c) fun _ => rfl
    refine congrArg (Part.modFr · l (frWith c)) (both.trans (congrArg _ (funext fun x => ?_)))
    simp [itemWith, full]
  · rw [if_neg (fun h => full (chainFull_iff.mp h)), storeWith, if_neg full]
    refine congrArg (Part.modFr · l (frWith c)) (congrArg _ (funext fun x => ?_))
    simp [itemWith, full]

theorem item?_appendChr (found : p.item? n = some it) (c : Chr) : (appendChr l n c p).item? n =
    some (itemWith (it.body.length = 32 * it.blocks) (p.fr l) c it) := by
  have item? : (appendChr l n c p).item? n = (p.item? n).map fun x => if n = n then
      itemWith (it.body.length = 32 * it.blocks) (p.fr l) c x else x := by
    rw [appendChr_eq found]
    exact Part.item?_modItem (p := { p with store := storeWith (it.body.length = 32 * it.blocks) p.store }) _ fun _ => rfl
  rw [item?, found]
  simp

theorem line_appendChr (found : p.item? n = some it) (c : Chr) :
    (appendChr l n c p).line l = { p.line l with fr := frWith c (p.fr l) } := by
  rw [appendChr_eq found]
  exact Part.line_modFr _

theorem fr_appendChr (found : p.item? n = some it) (c : Chr) : (appendChr l n c p).fr l = frWith c (p.fr l) :=
  congrArg Line.fr (line_appendChr found c)

/-! ### A character released to the body sink (R47, R50, R59) -/

theorem bodyChr_refused (receiving : (p.fr l).item = some n) (found : p.item? n = some it)
    (full : it.body.length = 32 * it.blocks) (refused : ¬ (0 < p.store.freeBlocks ∧ p.store.agencyBlocks < 2000)) :
    bodyChr l c p = countBetween l (raiseNow .storeFull l (toState l .discard (breakItem l p))) := by
  unfold bodyChr
  simp only [receiving, Part.item_of_item? found]
  refine if_pos ?_
  have : p.blockGranted = false := Bool.eq_false_iff.mpr fun h => refused (blockGranted_iff.mp h)
  rw [chainFull_iff.mpr full, this]
  rfl

theorem bodyChr_stored (receiving : (p.fr l).item = some n) (found : p.item? n = some it)
    (granted : it.body.length = 32 * it.blocks → 0 < p.store.freeBlocks ∧ p.store.agencyBlocks < 2000) :
    bodyChr l c p = if 0 < (p.fr l).release ∧ (p.fr l).release ≤ it.body.length + 1 - it.committed then
      settle (commit n (itemWith (it.body.length = 32 * it.blocks) (p.fr l) c it) (appendChr l n c p))
    else appendChr l n c p := by
  have open' : ¬ (it.chainFull && !p.blockGranted) = true := by
    by_cases full : it.body.length = 32 * it.blocks
    · simp [blockGranted_iff.mpr (granted full)]
    · simp [Bool.eq_false_iff.mpr fun h => full (chainFull_iff.mp h)]
  have fr : ((appendChr l n c p).fr l).release = (p.fr l).release :=
    (congrArg Framer.release (fr_appendChr (l := l) found c) :)
  unfold bodyChr
  simp only [receiving, Part.item_of_item? found, if_neg open', Part.item_of_item? (item?_appendChr found c), fr]
  simp [itemWith]

/-- Where entries still hold item `n`, it is `it`, BROKEN with verdict FRESH and wholly committed (R53). -/
def Part.Broke (p : Part) (n : Nat) (it : Item) : Prop := ∀ after, p.item? n = some after → after.source.isSome = true →
  after = { it with state := .broken, verdict := some .fresh, committed := it.body.length, holders := after.holders }

theorem Part.Broke.kept (h : p.Broke n it) (k : p.ItemsKept q) : q.Broke n it := by
  intro after found agency
  obtain ⟨was, found', is⟩ := k.agency n after found agency
  have same := h was found' (by rw [is] at agency; exact agency)
  rw [is, same]

theorem Part.Broke.of_items (h : p.Broke n it) (same : q.items = p.items) : q.Broke n it :=
  h.kept (.of_items fun _ => Part.item?_eq _ _ same)

theorem broke_breakItem (receiving : (p.fr l).item = some n) (found : p.item? n = some it) :
    (breakItem l p).Broke n (signLast (p.fr l).sum it) := fun after left agency => by
  have is := item_breakItem receiving found left agency
  rw [signLast_eq] at is ⊢
  exact is

/-- What the framer's line is left with where a block is refused. -/
theorem line_refused : (countBetween l (raiseNow .storeFull l (toState l .discard (breakItem l p)))).line l = { p.line l with
    fr := { p.fr l with item := none, state := .discard, heading := [], headStart := false }
    tally := { (p.line l).tally with between := bump (p.line l).tally.between } } := by
  have raised : (raiseNow .storeFull l (toState l .discard (breakItem l p))).line l =
      (toState l .discard (breakItem l p)).line l := (OutMoves.raiseNow _ _ .refl).frame.line l
  rw [countBetween, Part.line_modLineTally, raised, toState, Part.line_modFr, line_breakItem]
  rfl

/-- Settles O17. -/
theorem bodyCharacterIsStored : Obligations.BodyCharacterIsStored := by
  intro p l n it c body receiving held found opens closes first last full granted
  have taken : deliver l c p = bodyChr l c p := by
    rw [deliver_plain held opens closes first last, releaseChr, body]
  rw [taken]
  refine ⟨fun room small => ?_, fun isFull refused sound => ?_⟩
  · rw [bodyChr_stored receiving found room, if_neg (by omega), appendChr_eq found]
    rfl
  · intro q signed
    have is : q = countBetween l (raiseNow .storeFull l (toState l .discard (breakItem l p))) :=
      bodyChr_refused receiving found isFull refused
    have line := line_refused (p := p) (l := l)
    rw [← is] at line
    have fr := congrArg Line.fr line
    have moves : Moves l p q := is ▸ (((Moves.breakItem .refl).toState .discard).raiseNow .storeFull l).countBetween
    have raised : OutMoves (toState l .discard (breakItem l p))
      (raiseNow .storeFull l (toState l .discard (breakItem l p))) := OutMoves.raiseNow _ _ .refl
    have frame := (breakItem_moves receiving).frame
    have broke : q.Broke n signed := by
      have broke := (broke_breakItem receiving found).of_items (q := toState l .discard (breakItem l p)) rfl
      rw [signLast_eq] at broke
      rw [is]
      exact (broke.kept raised.itemsKept).of_items rfl
    refine ⟨congrArg Framer.state fr, congrArg Framer.item fr, congrArg Framer.heading fr,
      (congrArg Framer.held fr).trans held, moves.frame.rx, congrArg Line.tally line, ?_, ?_, ?_, ?_, ?_, moves.frame.others⟩
    · rw [is]
      exact (settle_kept _).raised .storeFull (Alarm.raised_raise ..)
    · rw [is]
      exact raised.frame.banks.trans frame.banks
    · rw [is]
      exact raised.frame.history.trans frame.history
    · rw [is]
      exact raised.frame.orders.trans frame.orders
    · exact broke

/-- Settles O18. -/
theorem runOnBreaksTheItem : Obligations.RunOnBreaksTheItem := by
  intro p l n c sound body receiving completes q
  have is : q = toState l .heading (raiseNow .runOn l (breakItem l (unheld l p))) := by
    show deliver l c p = _
    rw [deliver_opening completes, matchOpening, fr_unheld, body]
  have raised : OutMoves (breakItem l (unheld l p)) (raiseNow .runOn l (breakItem l (unheld l p))) :=
    OutMoves.raiseNow _ _ .refl
  have receiving' : ((unheld l p).fr l).item = some n := by rw [fr_unheld]; exact receiving
  obtain ⟨it, member, num, -⟩ := sound.receiving l n receiving
  have found : (unheld l p).item? n = some it := (Part.item?_eq _ _ rfl).trans (num ▸ Part.item?_of_mem sound.numbers member)
  have broke : q.Broke n (signLast ((unheld l p).fr l).sum it) := by
    rw [is]
    exact ((broke_breakItem receiving' found).kept raised.itemsKept).of_items rfl
  have fr : q.fr l = { (unheld l p).fr l with item := none, state := .heading, heading := [], headStart := true } := by
    rw [is, toState, Part.fr_modFr, raised.frame.fr, fr_breakItem]
    rfl
  have moves : Moves l p q := .deliver c .refl
  refine ⟨congrArg Framer.state fr, congrArg Framer.heading fr, congrArg Framer.item fr, ?_, ?_, fun after left agency => ?_,
    moves.frame.others⟩
  · rw [is]
    exact (settle_kept _).raised .runOn (Alarm.raised_raise ..)
  · rw [is]
    exact (settle_kept _).members .runOn (Alarm.raised_raise ..) l (Alarm.member_raise _ _ rfl)
  · have same := broke after left (by simpa using agency)
    rw [same]
    exact ⟨rfl, rfl, rfl⟩

end Sys2Proof.Machine
end

section
/-! Held characters that are released: to the body sink, to no sink, and by a line interruption (R36, R37, R47, R50, R59). -/

namespace Sys2Proof.Machine

variable {p q r : Part} {l : LineNo} {n k : Nat} {it : Item} {c : Chr} {cs : Text}

/-! ### One character released in BODY -/

/-- The committed length after one more character, at release length `release` (R50). -/
def committedBy (release length committed : Nat) : Nat :=
  if 0 < release ∧ release ≤ length + 1 - committed then length + 1 else committed

/-- The framer of line `l` receives item `n`, which stands as `it` and is FILLING. -/
structure Part.Receives (p : Part) (l : LineNo) (n : Nat) (it : Item) : Prop where
  body : (p.fr l).state = .body
  receiving : (p.fr l).item = some n
  found : p.item? n = some it
  filling : it.state = .filling

/-- The framer of line `l` has lost item `n`, BROKEN: it is in DISCARD, with STORE_FULL raised. -/
structure Part.Drops (p : Part) (l : LineNo) (n : Nat) (it : Item) : Prop where
  discard : (p.fr l).state = .discard
  receiving : (p.fr l).item = none
  broke : ∃ sum, p.Broke n (signLast sum it)
  raised : (p.flag .storeFull).raised = true

/-- The item after one more character, but for its statistics and holders. -/
structure Item.Grown (release : Nat) (c : Chr) (it it' : Item) : Prop where
  body : it'.body = it.body ++ [c]
  blocks : it'.blocks = if it.body.length = 32 * it.blocks then it.blocks + 1 else it.blocks
  committed : it'.committed = committedBy release it.body.length it.committed
  source : it'.source = it.source

theorem stored_step (h : p.Receives l n it)
    (granted : it.body.length = 32 * it.blocks → 0 < p.store.freeBlocks ∧ p.store.agencyBlocks < 2000) :
    ∃ it', (releaseChr l c p).Receives l n it' ∧ it.Grown (p.fr l).release c it' ∧
      (releaseChr l c p).line l = { p.line l with fr := frWith c (p.fr l) } ∧
      ((p.fr l).release = 0 ∨ it.body.length + 1 - it.committed < (p.fr l).release → (releaseChr l c p).store =
        storeWith (it.body.length = 32 * it.blocks) p.store) := by
  have released : releaseChr l c p = bodyChr l c p := by rw [releaseChr, h.body]
  have line := line_appendChr (l := l) h.found c
  have item := item?_appendChr (l := l) h.found c
  rw [released, bodyChr_stored h.receiving h.found granted]
  split
  next due =>
    have moves : OutMoves (commitItem n (appendChr l n c p))
        (settle (commit n (itemWith (it.body.length = 32 * it.blocks) (p.fr l) c it) (appendChr l n c p))) :=
      (commit_moves n _ _).trans (OutMoves.settle .refl)
    have line' := (moves.frame.line l).trans line
    obtain ⟨holders, found⟩ := moves.itemsKept.filling n _ (item?_commitItem item)
      (show (itemWith (it.body.length = 32 * it.blocks) (p.fr l) c it).state = .filling from h.filling)
    generalize settle (commit n _ _) = q at line' found ⊢
    refine ⟨_, ⟨(congrArg (·.fr.state) line').trans h.body, (congrArg (·.fr.item) line').trans h.receiving, found, h.filling⟩,
      ⟨rfl, rfl, ?_, rfl⟩, line', fun small => by omega⟩
    exact (List.length_append (as := it.body) (bs := [c])).trans (if_pos due).symm
  next early =>
    refine ⟨_, ⟨(congrArg (·.fr.state) line).trans h.body, (congrArg (·.fr.item) line).trans h.receiving, item, h.filling⟩,
      ⟨rfl, rfl, ?_, rfl⟩, line, fun _ => ?_⟩
    · rw [committedBy, if_neg early]
      rfl
    · rw [appendChr_eq h.found]
      rfl

theorem refused_step (h : p.Receives l n it) (full : it.body.length = 32 * it.blocks)
    (refused : ¬ (0 < p.store.freeBlocks ∧ p.store.agencyBlocks < 2000)) :
    (releaseChr l c p).Drops l n it ∧ (releaseChr l c p).line l = { p.line l with
      fr := { p.fr l with item := none, state := .discard, heading := [], headStart := false }
      tally := { (p.line l).tally with between := bump (p.line l).tally.between } } := by
  have released : releaseChr l c p = countBetween l (raiseNow .storeFull l (toState l .discard (breakItem l p))) := by
    rw [releaseChr, h.body]
    exact bodyChr_refused h.receiving h.found full refused
  have line := line_refused (p := p) (l := l)
  have raised : OutMoves (toState l .discard (breakItem l p))
    (raiseNow .storeFull l (toState l .discard (breakItem l p))) := OutMoves.raiseNow _ _ .refl
  rw [released]
  exact ⟨⟨congrArg (·.fr.state) line, congrArg (·.fr.item) line,
    ⟨_, (((broke_breakItem h.receiving h.found).of_items (q := toState l .discard (breakItem l p)) rfl).kept
      raised.itemsKept).of_items rfl⟩, (settle_kept _).raised .storeFull (Alarm.raised_raise ..)⟩, line⟩

/-! ### Characters released to no sink (R35) -/

/-- The tally of a line with `cs` counted as between items. -/
def countedBetween (cs : Text) (t : LineTally) : LineTally :=
  { t with between := cs.foldl (fun n _ => bump n) t.between }

theorem foldl_between (idle : (p.fr l).state = .hunt ∨ (p.fr l).state = .discard) :
    cs.foldl (fun p c => releaseChr l c p) p = p.modLineTally l (countedBetween cs) := by
  induction cs generalizing p with
  | nil => exact (Part.setLine_self _ rfl).symm
  | cons c cs ih =>
    have once : releaseChr l c p = countBetween l p := by
      unfold releaseChr
      rcases idle with hunt | discard
      · rw [hunt]
      · rw [discard]
    rw [List.foldl_cons, once, ih (by simpa [countBetween] using idle)]
    simp [countBetween, Part.modLineTally, Part.setLine_setLine, countedBetween]

/-! ### A run of characters released in BODY -/

theorem dropped_after (h : p.Drops l n it) : (cs.foldl (fun p c => releaseChr l c p) p).Drops l n it := by
  rw [foldl_between (.inr h.discard)]
  obtain ⟨sum, broke⟩ := h.broke
  exact ⟨by simpa using h.discard, by simpa using h.receiving, ⟨sum, broke.of_items rfl⟩, h.raised⟩

/-- The item after a run of characters, where all of them find room or blocks. -/
theorem released_body (h : p.Receives l n it) : let q := cs.foldl (fun p c => releaseChr l c p) p
    (∃ it', q.Receives l n it' ∧ it'.body = it.body ++ cs) ∨ ∃ it', q.Drops l n it' := by
  induction cs generalizing p it with
  | nil => exact .inl ⟨it, h, by simp⟩
  | cons c cs ih =>
    simp only [List.foldl_cons]
    by_cases refused : it.body.length = 32 * it.blocks ∧ ¬ (0 < p.store.freeBlocks ∧ p.store.agencyBlocks < 2000)
    · exact .inr ⟨it, dropped_after (refused_step h refused.1 refused.2).1⟩
    · obtain ⟨it', h', grown, -⟩ := stored_step (c := c) h fun full => by
        by_contra none
        exact refused ⟨full, none⟩
      refine (ih h').imp_left ?_
      rintro ⟨it'', h'', body⟩
      exact ⟨it'', h'', by rw [body, grown.body, List.append_assoc]; rfl⟩

/-- The committed length after `count` more characters (R50). -/
def committedAfter (release : Nat) : Nat → Nat → Nat → Nat
  | _, committed, 0 => committed
  | length, committed, count + 1 => committedAfter release (length + 1) (committedBy release length committed) count

/-- The framer once a run of characters is stored. -/
def frAfter (cs : Text) (fr : Framer) : Framer := cs.foldl (fun fr c => frWith c fr) fr

theorem frAfter_eq (fr : Framer) : ∃ fr' : Framer,
    frAfter cs fr = { fr with ref := fr'.ref, sum := fr'.sum, pos := fr'.pos } := by
  induction cs generalizing fr with
  | nil => exact ⟨fr, rfl⟩
  | cons c cs ih =>
    obtain ⟨fr', same⟩ := ih (frWith c fr)
    exact ⟨fr', same⟩

/-- What a run of stored characters leaves. -/
structure Part.Stored (l : LineNo) (n : Nat) (it : Item) (cs : Text) (p q : Part) : Prop where
  line : q.line l = { p.line l with fr := frAfter cs (p.fr l) }
  item : ∃ it', q.Receives l n it' ∧ it'.body = it.body ++ cs ∧ it'.source = it.source ∧
    it'.committed = committedAfter (p.fr l).release it.body.length it.committed cs.length

theorem Part.Stored.cons {it' : Item} (grown : it.Grown (p.fr l).release c it')
    (line : q.line l = { p.line l with fr := frWith c (p.fr l) }) (h : Part.Stored l n it' cs q r) :
    Part.Stored l n it (c :: cs) p r := by
  have fr : q.fr l = frWith c (p.fr l) := congrArg Line.fr line
  obtain ⟨it'', receives, body, source, committed⟩ := h.item
  refine ⟨?_, it'', receives, by rw [body, grown.body, List.append_assoc]; rfl, source.trans grown.source, ?_⟩
  · rw [h.line, line, fr]
    rfl
  · rw [committed, fr, grown.body, grown.committed, List.length_append]
    rfl

/-- A run of characters that fits the chain. -/
theorem stored_fits (h : p.Receives l n it) (fits : it.body.length + cs.length ≤ 32 * it.blocks) :
    Part.Stored l n it cs p (cs.foldl (fun p c => releaseChr l c p) p) := by
  induction cs generalizing p it with
  | nil => exact ⟨rfl, it, h, by simp, rfl, rfl⟩
  | cons c cs ih =>
    rw [List.length_cons] at fits
    have room : it.body.length ≠ 32 * it.blocks := by omega
    obtain ⟨it', h', grown, line, -⟩ := stored_step (c := c) h fun full => absurd full room
    refine Part.Stored.cons grown line (ih h' ?_)
    rw [grown.body, grown.blocks, if_neg room, List.length_append, List.length_singleton]
    omega

/-- A run of characters for which one block is granted before any commit. -/
theorem stored_granted (h : p.Receives l n it) (within : it.body.length ≤ 32 * it.blocks)
    (fits : it.body.length + cs.length ≤ 32 * (it.blocks + 1))
    (granted : 0 < p.store.freeBlocks ∧ p.store.agencyBlocks < 2000)
    (before : (p.fr l).release = 0 ∨ it.body.length = 32 * it.blocks ∨
      it.body.length + cs.length - it.committed < (p.fr l).release) :
    Part.Stored l n it cs p (cs.foldl (fun p c => releaseChr l c p) p) := by
  induction cs generalizing p it with
  | nil => exact ⟨rfl, it, h, by simp, rfl, rfl⟩
  | cons c cs ih =>
    rw [List.length_cons] at fits before
    obtain ⟨it', h', grown, line, store⟩ := stored_step (c := c) h fun _ => granted
    have body : it'.body.length = it.body.length + 1 := by rw [grown.body, List.length_append, List.length_singleton]
    refine Part.Stored.cons grown line ?_
    by_cases full : it.body.length = 32 * it.blocks
    · refine stored_fits h' ?_
      rw [body, grown.blocks, if_pos full]
      omega
    · have early : (p.fr l).release = 0 ∨ it.body.length + 1 - it.committed < (p.fr l).release := by omega
      have committed : it'.committed = it.committed := by
        rw [grown.committed, committedBy, if_neg (by omega)]
      have release : ((releaseChr l c p).fr l).release = (p.fr l).release := congrArg (·.fr.release) line
      refine ih h' ?_ ?_ ?_ ?_
      · rw [body, grown.blocks, if_neg full]
        omega
      · rw [body, grown.blocks, if_neg full]
        omega
      · rw [store early, storeWith, if_neg full]
        exact granted
      · rw [release, body, committed]
        omega

/-- A run of characters that needs a block that the store refuses, before any commit: the item is broken at the first
that needs it, and the rest counts as between items. -/
theorem stored_refused (h : p.Receives l n it) (within : it.body.length ≤ 32 * it.blocks)
    (needs : 32 * it.blocks < it.body.length + cs.length)
    (refused : ¬ (0 < p.store.freeBlocks ∧ p.store.agencyBlocks < 2000))
    (before : (p.fr l).release = 0 ∨ it.body.length = 32 * it.blocks ∨
      32 * it.blocks - it.committed < (p.fr l).release) :
    let q := cs.foldl (fun p c => releaseChr l c p) p
    (∃ it', q.Drops l n it' ∧ it'.body = it.body ++ cs.take (32 * it.blocks - it.body.length)) ∧
      (q.fr l).held = (p.fr l).held ∧
      (q.line l).tally = countedBetween (cs.drop (32 * it.blocks - it.body.length)) (p.line l).tally := by
  induction cs generalizing p it with
  | nil => simp at needs; omega
  | cons c cs ih =>
    rw [List.length_cons] at needs
    simp only [List.foldl_cons]
    by_cases full : it.body.length = 32 * it.blocks
    · obtain ⟨drops, line⟩ := refused_step (c := c) h full refused
      have none : 32 * it.blocks - it.body.length = 0 := by omega
      rw [none]
      refine ⟨⟨it, dropped_after drops, by simp⟩, ?_, ?_⟩
      · rw [foldl_between (.inr drops.discard), Part.fr_modLineTally]
        exact congrArg (·.fr.held) line
      · rw [foldl_between (.inr drops.discard), Part.line_modLineTally, line]
        rfl
    · obtain ⟨it', h', grown, line, store⟩ := stored_step (c := c) h fun isFull => absurd isFull full
      have body : it'.body.length = it.body.length + 1 := by rw [grown.body, List.length_append, List.length_singleton]
      have blocks : it'.blocks = it.blocks := by rw [grown.blocks, if_neg full]
      have early : (p.fr l).release = 0 ∨ it.body.length + 1 - it.committed < (p.fr l).release := by omega
      have committed : it'.committed = it.committed := by
        rw [grown.committed, committedBy, if_neg (by omega)]
      have release : ((releaseChr l c p).fr l).release = (p.fr l).release := congrArg (·.fr.release) line
      obtain ⟨⟨it'', drops, text⟩, held, tally⟩ := ih h' (by omega) (by rw [body, blocks]; omega)
        (by rwa [store early, storeWith, if_neg full]) (by rw [release, body, blocks, committed]; omega)
      have one : 32 * it.blocks - it.body.length = 32 * it'.blocks - it'.body.length + 1 := by omega
      rw [one]
      refine ⟨⟨it'', drops, ?_⟩, ?_, ?_⟩
      · rw [text, grown.body, List.append_assoc]
        rfl
      · exact held.trans (congrArg (·.fr.held) line)
      · rw [tally, line]
        rfl

end Sys2Proof.Machine
end

section
/-! Line interruptions: a space timer that expires, a restart, PARK (R22, R24–R27, R36). -/

namespace Sys2Proof.Machine

variable {p q r : Part} {l : LineNo} {n : Nat} {it : Item} {c : Chr} {cs : Text} {st : FramerState}

/-! ### No release of a character holds another -/

@[simp] theorem held_toState : ((toState l st p).fr l).held = (p.fr l).held := by simp [toState]
@[simp] theorem state_toState : ((toState l st p).fr l).state = st := by simp [toState]
@[simp] theorem held_countBetween : ((countBetween l p).fr l).held = (p.fr l).held := by simp [countBetween]
@[simp] theorem held_countRefused : ((countRefused l p).fr l).held = (p.fr l).held := by simp [countRefused]
@[simp] theorem held_countAccepted : ((countAccepted l p).fr l).held = (p.fr l).held := by simp [countAccepted]

theorem fr_raiseNow (f : Flag) (m : Fin 8) : (raiseNow f m p).fr l = p.fr l := (OutMoves.raiseNow f m .refl).frame.fr l

theorem held_headingFault : ((headingFault l p).fr l).held = (p.fr l).held := by
  unfold headingFault
  rw [fr_raiseNow, held_countRefused, held_toState]

theorem lines_purgeFor (kind : Kind) : (purgeFor kind n p).lines = p.lines := by
  unfold purgeFor
  split
  · refine (settle_frame _).lines.trans ?_
    have outs : OutMoves (markKilled (killMatches (p.item n)) p)
        ((markKilled (killMatches (p.item n)) p).eachCirc (killOn ((p.items.filter (killMatches (p.item n))).map (·.num)))) :=
      OutMoves.eachCirc (fun c q h => h.killOn _) .refl
    have lines := outs.frame.lines
    unfold killPurge
    simp only
    generalize (markKilled _ p).eachCirc _ = q at lines ⊢
    exact lines
  · exact (settle_frame _).lines.trans (rewritePurge_moves n p).frame.lines
  all_goals rfl

theorem lines_routeItem (held : p.Filling n) : (routeItem l n p).lines = p.lines := by
  unfold routeItem
  split
  · rfl
  · next rt _ => exact (OutMoves.admits rt n (rt.cls.getD (p.item n).cls) rt.circuits .refl held).frame.lines

theorem held_grantItem {h : Heading} : ((grantItem l n h p).fr l).held = (p.fr l).held := by
  unfold grantItem
  rw [Part.fr_modFr]
  rfl

theorem held_endHeading : ((endHeading l p).fr l).held = (p.fr l).held := by
  unfold endHeading
  split
  · exact held_headingFault
  next h _ =>
    split
    · unfold orderHeading
      split
      · rw [fr_raiseNow, held_countRefused, held_toState]
      · split
        · rw [held_countAccepted, held_toState]
          rfl
        · rw [fr_makeAnswer, held_countRefused, held_toState]
    · unfold copyHeading
      split
      · rw [fr_raiseNow, held_countRefused, held_toState]
      next n lowest =>
        have lowest' : p.lowestFree = some n := by
          split at lowest
          · exact lowest
          · exact nomatch lowest
        rw [held_countAccepted, held_toState]
        have lines := (lines_routeItem (l := l) ((grantItem_filling (l := l) (hd := h) lowest').purgeFor (kind := h.kind)
          (n := n))).trans (lines_purgeFor h.kind)
        have fr := congrArg (fun v => (Vector.get v l).fr.held) lines
        exact fr.trans held_grantItem

theorem held_bodyChr : ((bodyChr l c p).fr l).held = (p.fr l).held := by
  unfold bodyChr
  split
  · rfl
  · split
    · rw [held_countBetween, fr_raiseNow, held_toState, fr_breakItem]
    · have append : ∀ n, ((appendChr l n c p).fr l).held = (p.fr l).held := fun n => by
        unfold appendChr storeChr
        rw [Part.fr_modFr]
        split <;> rfl
      simp only
      split
      · rw [(settle_frame _).fr, (commit_moves ..).frame.fr]
        exact append _
      · exact append _

theorem fr_abandonOrder (word : String) : (abandonOrder l word p).fr l = p.fr l := by
  unfold abandonOrder
  split
  · split
    · exact fr_makeAnswer ..
    · rfl
  · rfl

theorem held_releaseChr : ((releaseChr l c p).fr l).held = (p.fr l).held := by
  unfold releaseChr
  split
  · exact held_countBetween
  · exact held_countBetween
  · unfold headingChr
    simp only
    split
    · rfl
    · split
      · exact held_endHeading
      · split
        · simp
        · rw [held_countBetween, held_headingFault]
  · exact held_bodyChr
  · unfold orderChr
    split
    · split
      · split <;> rfl
      · split
        · rw [held_countBetween, held_toState, fr_abandonOrder]
        · rfl
    · rfl

theorem held_releaseHeld : ((releaseHeld l p).fr l).held = [] := by
  have kept : ∀ (cs : Text) (q : Part), ((cs.foldl (fun p c => releaseChr l c p) q).fr l).held = (q.fr l).held := by
    intro cs
    induction cs with
    | nil => exact fun _ => rfl
    | cons c cs ih => exact fun q => (ih _).trans held_releaseChr
  exact (kept _ _).trans (congrArg Framer.held (fr_unheld (p := p)))

/-! ### Interruptions (R36) -/

theorem fr_interrupt : ((interrupt l p).fr l).state = .hunt ∧ ((interrupt l p).fr l).held = [] := by
  have held := held_releaseHeld (p := p) (l := l)
  unfold interrupt
  simp only
  split
  next hunt => exact ⟨hunt, held⟩
  · exact ⟨state_toState, held_toState.trans held⟩
  · exact ⟨state_toState, held_toState.trans held⟩
  · refine ⟨state_toState, held_toState.trans ?_⟩
    rw [fr_breakItem]
    exact held
  · refine ⟨state_toState, held_toState.trans ?_⟩
    rw [fr_abandonOrder]
    exact held

theorem releaseHeld_none (held : (p.fr l).held = []) : releaseHeld l p = p := by
  rw [releaseHeld, held]
  exact unheld_of_none held

theorem line_abandonOrder (word : String) : (abandonOrder l word p).line l = p.line l := by
  unfold abandonOrder
  split
  · split
    · exact (OutMoves.makeAnswer (p := p.setBuffer .free) _ _ .refl).frame.line l
    · rfl
  · rfl

/-- A line interruption of a framer with nothing held counts in no tally of the line. -/
theorem tally_interrupt (held : (p.fr l).held = []) : ((interrupt l p).line l).tally = (p.line l).tally := by
  have tally_toState : ∀ q, ((toState l .hunt q).line l).tally = (q.line l).tally := fun q => by simp [toState]
  unfold interrupt
  simp only [releaseHeld_none held]
  split
  · rfl
  · exact tally_toState _
  · exact tally_toState _
  · rw [tally_toState, line_breakItem]
  · rw [tally_toState, line_abandonOrder]

/-- The item that a framer receives is FILLING, and of its line. -/
theorem received_item (sound : p.StoreSound) (receiving : (p.fr l).item = some n) (found : p.item? n = some it) :
    it.state = .filling ∧ it.source = some l := by
  obtain ⟨x, member, num, filling, source⟩ := sound.receiving l n receiving
  have same : x = it := by
    have own := Part.item?_of_mem sound.numbers member
    rw [num, found] at own
    exact (Option.some.inj own).symm
  exact ⟨same ▸ filling, same ▸ source⟩

/-- An interruption breaks the item that the framer receives in BODY (R36, R53). -/
theorem brokenOff_interrupt (sound : p.StoreSound) (fr : q.fr l = p.fr l) (kept : p.ItemsKept q) :
    p.BrokenOff (interrupt l q) l := by
  intro n it body receiving found
  have filling := (received_item sound receiving found).1
  obtain ⟨holders, found'⟩ := kept.filling n it found filling
  have receives : (unheld l q).Receives l n { it with holders := holders } :=
    ⟨by rw [fr_unheld, fr]; exact body, by rw [fr_unheld, fr]; exact receiving, (Part.item?_eq _ _ rfl).trans found', filling⟩
  have released : releaseHeld l q = (p.fr l).held.foldl (fun p c => releaseChr l c p) (unheld l q) := by
    rw [releaseHeld, fr]
    rfl
  have hunted : ∀ r : Part, (toState l .hunt r).items = r.items := fun r => rfl
  rcases released_body (cs := (p.fr l).held) receives with ⟨it', receives', text⟩ | ⟨it', drops⟩
  · rw [← released] at receives'
    have done : interrupt l q = toState l .hunt (breakItem l (releaseHeld l q)) := by
      unfold interrupt
      simp only [receives'.body]
    have broke := (broke_breakItem receives'.receiving receives'.found).of_items (hunted _)
    rw [← done] at broke
    refine ⟨?_, fun after left agency => ?_⟩
    · rw [done, toState, Part.fr_modFr, fr_breakItem]
    · have is := broke after left agency
      rw [signLast_eq] at is
      refine ⟨by rw [is], by rw [is], by rw [is], fun _ => by rw [is]; exact text, fun none => ?_⟩
      have same : releaseHeld l q = q := releaseHeld_none (by rw [fr, none])
      have same' : it' = { it with holders := holders } := by
        have := receives'.found
        rw [same, found'] at this
        exact (Option.some.inj this).symm
      rw [same, same', fr] at is
      exact is
  · rw [← released] at drops
    have done : interrupt l q = toState l .hunt (releaseHeld l q) := by
      unfold interrupt
      simp only [drops.discard]
    obtain ⟨sum, broke⟩ := drops.broke
    have broke := broke.of_items (hunted _)
    rw [← done] at broke
    refine ⟨?_, fun after left agency => ?_⟩
    · rw [done, toState, Part.fr_modFr]
      exact drops.receiving
    · have is := broke after left agency
      rw [signLast_eq] at is
      refine ⟨by rw [is], by rw [is], by rw [is], fun fits => ?_, fun none => ?_⟩
      · have stored := stored_fits (cs := (p.fr l).held) receives fits
        rw [← released] at stored
        obtain ⟨_, receives', -⟩ := stored.item
        exact absurd (receives'.body.symm.trans drops.discard) (by decide)
      · have same : releaseHeld l q = q := releaseHeld_none (by rw [fr, none])
        have state := drops.discard
        rw [same, fr, body] at state
        exact nomatch state

end Sys2Proof.Machine
end

section
/-! The commands and orders that interrupt a line (R22, R24–R27, R36). -/

namespace Sys2Proof.Machine

variable {p q r : Part} {l : LineNo} {s : State}

theorem lines_raiseNow (f : Flag) (m : Fin 8) : (raiseNow f m p).line l = p.line l :=
  (OutMoves.raiseNow f m .refl).frame.line l

/-- What an act that changes the receiver of line `l`, and then interrupts it, leaves. -/
structure Part.Rested (l : LineNo) (p q : Part) : Prop where
  state : (q.fr l).state = .hunt
  held : (q.fr l).held = []
  brokenOff : p.StoreSound → p.BrokenOff q l
  received : (q.line l).tally.received = (p.line l).tally.received
  others : ∀ l', l' ≠ l → q.line l' = p.line l'

theorem rested_interrupt (fr : q.fr l = p.fr l) (kept : p.ItemsKept q)
    (received : (q.line l).tally.received = (p.line l).tally.received) (others : ∀ l', l' ≠ l → q.line l' = p.line l') :
    p.Rested l (interrupt l q) :=
  have frame : LineFrame l q (interrupt l q) := (Moves.interrupt .refl).frame
  ⟨fr_interrupt.1, fr_interrupt.2, fun sound => brokenOff_interrupt sound fr kept, frame.received.trans received,
    fun l' ne => (frame.others l' ne).trans (others l' ne)⟩

theorem rx_interrupt : (interrupt l q).rx l = q.rx l := (Moves.interrupt .refl).frame.rx

/-! ### OPEN (R22, R27) -/

/-- What the opening of line `l` of part `p`, with receiver `rx`, leaves. -/
structure Part.Opens (l : LineNo) (rx : Receiver) (p q : Part) : Prop where
  rested : p.Rested l q
  rx : q.rx l = { rx with cond := .opened, phase := .hunting, shift := .letters, pendingCR := false, spaceTimer := none }
  opens : (q.line l).tally.opens = bump (p.line l).tally.opens
  tally : (p.fr l).held = [] → (q.line l).tally = { (p.line l).tally with opens := bump (p.line l).tally.opens }
  raised : (q.flag .lineOpen).raised = true ∧ l ∈ (q.flag .lineOpen).members

/-- The part of a line that enters OPEN, before the flag and the interruption. -/
def openedPart (l : LineNo) (p : Part) : Part :=
  (p.modRx l fun rx => { dropFrame rx with cond := .opened, phase := .hunting, spaceTimer := none }).modLineTally l
    fun t => { t with opens := bump t.opens }

theorem enterOpen_eq : enterOpen l p = interrupt l (raiseNow .lineOpen l (openedPart l p)) := rfl

/-- A line enters OPEN; `f` is what has been changed of its receiver before. -/
theorem opens_enterOpen (f : Receiver → Receiver) : p.Opens l (f (p.rx l)) (enterOpen l (p.modRx l f)) := by
  have line : (raiseNow .lineOpen l (openedPart l (p.modRx l f))).line l = { p.line l with
      rx := { dropFrame (f (p.rx l)) with cond := .opened, phase := .hunting, spaceTimer := none }
      tally := { (p.line l).tally with opens := bump (p.line l).tally.opens } } := by
    rw [lines_raiseNow]
    simp [openedPart, Part.rx]
  have raised : OutMoves (openedPart l (p.modRx l f)) (raiseNow .lineOpen l (openedPart l (p.modRx l f))) :=
    OutMoves.raiseNow _ _ .refl
  have others : ∀ l', l' ≠ l → (raiseNow .lineOpen l (openedPart l (p.modRx l f))).line l' = p.line l' := fun l' ne => by
    rw [raised.frame.line, openedPart, Part.line_modLineTally_ne _ ne, Part.line_modRx_ne _ ne, Part.line_modRx_ne _ ne]
  have kept : p.ItemsKept (raiseNow .lineOpen l (openedPart l (p.modRx l f))) :=
    (Part.ItemsKept.of_items (p := p) (q := openedPart l (p.modRx l f)) fun n => Part.item?_eq _ _ rfl).trans raised.itemsKept
  have up : ((raiseNow .lineOpen l (openedPart l (p.modRx l f))).flag .lineOpen).raised = true ∧
      l ∈ ((raiseNow .lineOpen l (openedPart l (p.modRx l f))).flag .lineOpen).members :=
    flag_kept_settle ⟨Alarm.raised_raise .., Alarm.member_raise _ _ rfl⟩
  rw [enterOpen_eq]
  generalize raiseNow .lineOpen l (openedPart l (p.modRx l f)) = x at line others kept up ⊢
  have moves : Moves l x (interrupt l x) := .interrupt .refl
  have fr : x.fr l = p.fr l := (congrArg Line.fr line :)
  refine ⟨rested_interrupt fr kept (congrArg (·.tally.received) line) others, ?_, ?_, fun held => ?_, ?_⟩
  · exact moves.frame.rx.trans (congrArg Line.rx line)
  · exact moves.frame.opens.trans (congrArg (·.tally.opens) line)
  · exact (tally_interrupt (by rw [fr]; exact held)).trans (congrArg Line.tally line)
  · exact ⟨moves.kept.raised _ up.1, moves.kept.members _ up.1 _ up.2⟩

/-- Settles O9. -/
theorem spaceTimerExpiryOpensTheLine : Obligations.SpaceTimerExpiryOpensTheLine := by
  intro s l high ready running
  have opens := opens_enterOpen (p := s.part) (l := l) id
  rw [show s.part.modRx l id = s.part from Part.modRx_id _ rfl] at opens
  refine ⟨enterOpen l s.part, after_of ?_, opens.rx, opens.opens, opens.tally, opens.raised.1, opens.raised.2,
    opens.rested.state, opens.rested.held, opens.rested.others, opens.rested.brokenOff⟩
  exact if_pos (by simp [high, ready, running])

/-! ### Orders on lines (R177) -/

theorem setShiftDesk_none : setShiftDesk l none none p = p := Part.modRx_id _ rfl
theorem setRelease_none : setRelease l none p = p := Part.modFr_id _ rfl

theorem actLine_code (rate : Option Rate) (code : Option LineCode) :
    actLine l { rate := rate, code := code } p = setLineCode l rate code p := by
  unfold actLine
  simp only [setShiftDesk_none, setRelease_none]
  rfl

theorem actLine_park (on : Bool) : actLine l { park := some on } p = setPark l (some on) p := by
  unfold actLine
  simp only [setShiftDesk_none, setRelease_none]
  rfl

theorem actLine_open (seconds : Nat) : actLine l { openTime := some seconds } p = setOpenTime l seconds p := by
  unfold actLine
  simp only [setShiftDesk_none, setRelease_none]
  rfl

/-- An order on a line that is accepted, and leaves no notice owed. -/
theorem after_line (h : s.TakesOrder) {k : LineKeys} {check : Part → LineNo → Checked LineKeys}
    (given : check s.part l = .ok k) (quiet : (actLine l k s.part).alarm.owing = []) :
    s.after (orderCommand fun p => checkLine l.val (check p)) = .next (s.answered (actLine l k s.part) okReply) :=
  after_plain h (checkLine_ok l given) rfl quiet

theorem checkRate_of {n : Nat} {r : Rate} (baud : Rate.ofBaud n = some r) : checkRate n = .ok r := by
  unfold checkRate
  rw [baud]

/-- A restart, with `f` what the order has changed of the receiver. -/
theorem rested_restartLine (f : Receiver → Receiver) (pin : (f (p.rx l)).pin = (p.rx l).pin)
    (cond : (f (p.rx l)).cond = (p.rx l).cond) : p.Rested l (restartLine l (p.modRx l f)) ∧
      (restartLine l (p.modRx l f)).rx l = { f (p.rx l) with
        shift := .letters, pendingCR := false
        phase := if (p.rx l).cond = .ready ∧ (p.rx l).pin = .space then .waitMark else .hunting } := by
  unfold restartLine
  refine ⟨rested_interrupt (by simp) (.of_items fun n => Part.item?_eq _ _ rfl) (by simp) fun l' ne => ?_, ?_⟩
  · rw [Part.line_modRx_ne _ ne, Part.line_modRx_ne _ ne]
  · rw [rx_interrupt, Part.rx_modRx, Part.rx_modRx]
    simp only [dropFrame, pin, cond, huntPhase]
    by_cases ready : (p.rx l).cond = .ready <;> simp [ready]

theorem settled_restartLine (h : p.Settled) : (restartLine l p).Settled :=
  Part.Settled.interrupt (p := p.modRx l _) h

/-- Settles O41. -/
theorem lineRestartAndParkOrders : Obligations.LineRestartAndParkOrders := by
  intro s l takes rested
  have settled : s.part.Settled := takes.settled
  have same : ∀ q, s.part.Rested l q → rested q := fun q h => ⟨h.state, h.held, h.brokenOff, h.received, h.others⟩
  have order : ∀ k : LineKeys, (actLine l k s.part).Settled →
      s.after (orderCommand fun _ => checkLine l.val fun _ => .ok k) =
        .next (s.answered (actLine l k s.part) okReply) := fun k quiet => after_line takes rfl quiet
  refine ⟨fun n r baud => ?_, fun code => ?_, fun free => ?_, fun parked => ⟨?_, ?_⟩, fun free => ?_⟩
  · obtain ⟨rests, rx⟩ := rested_restartLine (p := s.part) (l := l) (fun rx => { rx with rate := r }) rfl rfl
    refine ⟨_, ?_, same _ rests, rx⟩
    have acts : actLine l { rate := some r } s.part = restartLine l (s.part.modRx l fun rx => { rx with rate := r }) :=
      actLine_code (some r) none
    rw [← acts]
    refine after_line takes (check := fun _ _ => (checkRate n).map fun x => { rate := some x })
      (by rw [checkRate_of baud]; rfl) ?_
    rw [acts]
    exact settled_restartLine settled
  · obtain ⟨rests, rx⟩ := rested_restartLine (p := s.part) (l := l) (fun rx => { rx with code := code }) rfl rfl
    refine ⟨_, ?_, same _ rests, rx⟩
    have acts : actLine l { code := some code } s.part = restartLine l (s.part.modRx l fun rx => { rx with code := code }) :=
      actLine_code none (some code)
    rw [← acts]
    refine order _ ?_
    rw [acts]
    exact settled_restartLine settled
  · have acts : actLine l { park := some true } s.part = parkLine l s.part := actLine_park true
    have parks : parkLine l s.part = interrupt l (s.part.modRx l fun rx =>
      { dropFrame rx with cond := .parked, phase := .hunting, spaceTimer := none }) := if_neg free
    refine ⟨parkLine l s.part, ?_, same _ ?_, ?_⟩
    · rw [← acts]
      refine order _ ?_
      rw [acts]
      exact settled.parkLine
    · rw [parks]
      exact rested_interrupt (by simp) (.of_items fun n => Part.item?_eq _ _ rfl) (by simp) fun l' ne =>
        Part.line_modRx_ne _ ne
    · rw [parks, rx_interrupt, Part.rx_modRx]
      rfl
  · have acts : actLine l { park := some true } s.part = s.part := (actLine_park true).trans (if_pos parked)
    have done := order { park := some true } (by rw [acts]; exact settled)
    rw [acts] at done
    exact done
  · have acts : actLine l { park := some false } s.part = unparkLine l s.part := actLine_park false
    have done := order { park := some false } (by rw [acts, unparkLine, if_pos parked]; exact settled)
    rw [acts, unparkLine, if_pos parked] at done
    exact done
  · have acts : actLine l { park := some false } s.part = s.part := (actLine_park false).trans (if_neg free)
    have done := order { park := some false } (by rw [acts]; exact settled)
    rw [acts] at done
    exact done

end Sys2Proof.Machine
end

section
/-! The settings of a line, and the release of held characters that BEGIN and END bring (R27, R32, R37, R50). -/

namespace Sys2Proof.Machine

variable {p q r : Part} {l : LineNo} {n : Nat} {it : Item} {c : Chr} {cs : Text} {s : State}

/-! ### Held letters released in HEADING (R39, R41) -/

theorem heading_step (heading : (p.fr l).state = .heading) (letter : isLetter c = true) :
    releaseChr l c p = if (p.fr l).heading.length < 80 then
      p.modFr l fun fr => { fr with heading := fr.heading ++ [c], headStart := false }
    else countBetween l (headingFault l p) := by
  rw [releaseChr, heading]
  refine headingChr_inside ?_ (.inr ?_)
  all_goals
    rintro rfl
    exact absurd letter (by decide)

theorem heading_collects (heading : (p.fr l).state = .heading) (letters : ∀ c ∈ cs, isLetter c = true)
    (fits : (p.fr l).heading.length + cs.length ≤ 80) : cs.foldl (fun p c => releaseChr l c p) p =
      p.modFr l fun fr => { fr with heading := fr.heading ++ cs, headStart := fr.headStart && cs.isEmpty } := by
  induction cs generalizing p with
  | nil => exact (Part.modFr_id _ (by simp)).symm
  | cons c cs ih =>
    rw [List.length_cons] at fits
    rw [List.foldl_cons, heading_step heading (letters c (by simp)), if_pos (by omega),
      ih (by simpa using heading) (fun x m => letters x (by simp [m])) (by simp; omega), Part.modFr_modFr]
    simp

theorem heading_faults (heading : (p.fr l).state = .heading) (letters : ∀ c ∈ cs, isLetter c = true)
    (within : (p.fr l).heading.length ≤ 80) (long : 80 < (p.fr l).heading.length + cs.length) :
    let q := cs.foldl (fun p c => releaseChr l c p) p
    q.line l = { p.line l with
      fr := { p.fr l with state := .discard, heading := [], headStart := false }
      tally := countedBetween (cs.drop (80 - (p.fr l).heading.length))
        { (p.line l).tally with refused := bump (p.line l).tally.refused } } ∧
      (q.flag .headingFault).raised = true ∧ l ∈ (q.flag .headingFault).members := by
  induction cs generalizing p with
  | nil => simp at long; omega
  | cons c cs ih =>
    rw [List.length_cons] at long
    simp only [List.foldl_cons]
    rw [heading_step heading (letters c (by simp))]
    by_cases full : (p.fr l).heading.length < 80
    · rw [if_pos full]
      obtain ⟨line, raised⟩ := ih (p := p.modFr l fun fr => { fr with heading := fr.heading ++ [c], headStart := false })
        (by simpa using heading) (fun x m => letters x (by simp [m])) (by simp; omega) (by simp; omega)
      refine ⟨?_, raised⟩
      rw [line]
      have one : 80 - (p.fr l).heading.length = 80 - ((p.fr l).heading.length + 1) + 1 := by omega
      simp [one]
    · rw [if_neg full]
      have none : 80 - (p.fr l).heading.length = 0 := by omega
      have line : (headingFault l p).line l = { p.line l with
          fr := { p.fr l with state := .discard, heading := [], headStart := false }
          tally := { (p.line l).tally with refused := bump (p.line l).tally.refused } } := by
        rw [headingFault, lines_raiseNow]
        simp [countRefused, toState, Part.fr]
      have fr : (headingFault l p).fr l = { p.fr l with state := .discard, heading := [], headStart := false } :=
        congrArg Line.fr line
      rw [foldl_between (p := countBetween l (headingFault l p)) (.inr (by simp [countBetween, fr])), none]
      refine ⟨?_, flag_kept_settle ⟨Alarm.raised_raise .., Alarm.member_raise _ _ rfl⟩⟩
      rw [Part.line_modLineTally, countBetween, Part.line_modLineTally, line]
      rfl

/-! ### Held letters released in ORDER (R54) -/

theorem order_step {serial : Nat} {lines : List Text} {cur : Text} (order : (p.fr l).state = .order)
    (collecting : p.orders.buffer = .collecting l serial lines cur) (letter : isLetter c = true) :
    releaseChr l c p = if cur.length = 80 ∨ (cur = [] ∧ lines.length = 24) then
      countBetween l (toState l .discard (makeAnswer serial (noWord "LONG") (p.setBuffer .free)))
    else p.setBuffer (.collecting l serial lines (cur ++ [c])) := by
  rw [releaseChr, order]
  refine orderChr_text collecting ?_
  rintro rfl
  exact absurd letter (by decide)

theorem order_collects {serial : Nat} {lines : List Text} {cur : Text} (order : (p.fr l).state = .order)
    (collecting : p.orders.buffer = .collecting l serial lines cur) (letters : ∀ c ∈ cs, isLetter c = true)
    (fits : cur.length + cs.length ≤ 80) (few : cur = [] → cs ≠ [] → lines.length ≠ 24) :
    cs.foldl (fun p c => releaseChr l c p) p = p.setBuffer (.collecting l serial lines (cur ++ cs)) := by
  induction cs generalizing p cur with
  | nil =>
    rw [List.append_nil, ← collecting]
    rfl
  | cons c cs ih =>
    rw [List.length_cons] at fits
    rw [List.foldl_cons, order_step order collecting (letters c (by simp)), if_neg]
    · rw [ih (p := p.setBuffer (.collecting l serial lines (cur ++ [c]))) (cur := cur ++ [c]) order rfl
        (fun x m => letters x (by simp [m]))
        (by simp; omega) (fun empty => by simp at empty), List.append_assoc]
      rfl
    · rintro (full | ⟨empty, full⟩)
      · omega
      · exact few empty (by simp) full

/-- What a run of characters leaves of which the first after `cs.length - past.length` ones is past a limit. -/
structure Part.TooLong (l : LineNo) (past : Text) (p q : Part) : Prop where
  line : q.line l = { p.line l with
    fr := { p.fr l with state := .discard, heading := [], headStart := false }
    tally := countedBetween past (p.line l).tally }
  orders : q.orders = { p.orders with buffer := .free }

/-- The first of the characters is past a limit: the order is answered LONG, and all count as between items. -/
theorem tooLong_first {serial : Nat} {lines : List Text} {cur : Text} (order : (p.fr l).state = .order)
    (collecting : p.orders.buffer = .collecting l serial lines cur) (letter : isLetter c = true)
    (full : cur.length = 80 ∨ (cur = [] ∧ lines.length = 24)) :
    Part.TooLong l (c :: cs) p ((c :: cs).foldl (fun p c => releaseChr l c p) p) := by
  have frame : OutFrame (p.setBuffer .free) (makeAnswer serial (noWord "LONG") (p.setBuffer .free)) :=
    (OutMoves.makeAnswer _ _ .refl).frame
  have once := order_step order collecting letter
  rw [if_pos full] at once
  rw [List.foldl_cons, once, foldl_between (.inr (by simp [countBetween]))]
  generalize makeAnswer serial (noWord "LONG") (p.setBuffer .free) = q at frame ⊢
  refine ⟨?_, frame.orders⟩
  have line : q.line l = p.line l := frame.line l
  rw [Part.line_modLineTally, countBetween, Part.line_modLineTally, toState, Part.line_modFr, line]
  rfl

theorem order_tooLong {serial : Nat} {lines : List Text} {cur : Text} (order : (p.fr l).state = .order)
    (collecting : p.orders.buffer = .collecting l serial lines cur) (letters : ∀ c ∈ cs, isLetter c = true)
    (within : cur.length ≤ 80) (long : 80 < cur.length + cs.length) (few : cur = [] → lines.length ≠ 24) :
    Part.TooLong l (cs.drop (80 - cur.length)) p (cs.foldl (fun p c => releaseChr l c p) p) := by
  induction cs generalizing p cur with
  | nil => simp at long; omega
  | cons c cs ih =>
    rw [List.length_cons] at long
    by_cases full : cur.length = 80
    · have none : 80 - cur.length = 0 := by omega
      rw [none]
      exact tooLong_first order collecting (letters c (by simp)) (.inl full)
    · have once := order_step order collecting (letters c (by simp))
      rw [if_neg (by
        rintro (isFull | ⟨empty, isFull⟩)
        · exact full isFull
        · exact few empty isFull)] at once
      have one : 80 - cur.length = 80 - (cur ++ [c]).length + 1 := by simp; omega
      have rest := ih (p := p.setBuffer (.collecting l serial lines (cur ++ [c]))) (cur := cur ++ [c]) order rfl
        (fun x m => letters x (by simp [m])) (by simp; omega) (by simp; omega) (fun empty => by simp at empty)
      rw [List.foldl_cons, once, one, List.drop_succ_cons]
      exact ⟨rest.line, rest.orders⟩

/-! ### The committed length after a run (R50) -/

theorem committedAfter_small {release length committed count : Nat}
    (small : release = 0 ∨ length + count - committed < release) :
    committedAfter release length committed count = committed := by
  induction count generalizing length with
  | zero => rfl
  | succ count ih =>
    rw [committedAfter, committedBy, if_neg (by omega)]
    exact ih (by omega)

theorem committedAfter_big {release length committed count : Nat} (some : 0 < release)
    (big : release ≤ length + (count + 1) - committed) (once : count + 1 ≤ release) :
    committedAfter release length committed (count + 1) = max (length + 1) (committed + release) := by
  induction count generalizing length with
  | zero =>
    rw [committedAfter, committedBy, if_pos ⟨some, big⟩, committedAfter]
    omega
  | succ count ih =>
    rw [committedAfter, committedBy]
    by_cases due : release ≤ length + 1 - committed
    · rw [if_pos ⟨some, due⟩, committedAfter_small (.inr (by omega))]
      omega
    · rw [if_neg (fun h => due h.2), ih (by omega) (by omega)]
      omega

/-! ### The orders -/

/-- The framer with the sequences ordered. -/
def watching (opening closing : Option Text) (fr : Framer) : Framer :=
  { fr with opening := opening.getD fr.opening, closing := closing.getD fr.closing }

theorem actLine_sequences {opening closing : Option Text} (some : opening.isSome || closing.isSome) :
    actLine l { opening := opening, closing := closing } p = (releaseHeld l p).modFr l (watching opening closing) := by
  unfold actLine
  simp only [setShiftDesk_none, setRelease_none]
  exact if_pos some

theorem releaseHeld_eq : releaseHeld l p = (p.fr l).held.foldl (fun p c => releaseChr l c p) (unheld l p) := rfl

/-- What BEGIN and END bring, whichever of the two sequences they store. -/
theorem stores_sequences (s : State) (l : LineNo) (i : Instr) (opening closing : Option Text)
    (accepted : exec i s = .next (s.answered ((releaseHeld l s.part).modFr l (watching opening closing)) okReply)) :
    let fr := s.part.fr l
    let tally := (s.part.line l).tally
    let others := fun p : Part => ∀ l', l' ≠ l → p.line l' = s.part.line l'
    let set := watching opening closing
    let gives := fun p : Part => exec i s = .next (s.answered p okReply)
    let free := set { fr with held := [] }
    let dropped := fun (held : Text) (tally : LineTally) (p : Part) =>
      p.line l = { s.part.line l with
        fr := { free with state := .discard, heading := [], headStart := false }, tally := countedBetween held tally } ∧
      others p
    (fr.held = [] → gives (s.part.modFr l set)) ∧
    (fr.state = .hunt ∨ fr.state = .discard →
      gives (s.part.setLine l { s.part.line l with fr := free, tally := countedBetween fr.held tally })) ∧
    (fr.state = .heading → fr.held ≠ [] → (∀ c ∈ fr.held, isLetter c = true) → fr.heading.length ≤ 80 →
      if fr.heading.length + fr.held.length ≤ 80 then
        gives (s.part.modFr l fun _ => { free with heading := fr.heading ++ fr.held, headStart := false })
      else ∃ p : Part, gives p ∧ (p.flag .headingFault).raised = true ∧ l ∈ (p.flag .headingFault).members ∧
        dropped (fr.held.drop (80 - fr.heading.length)) { tally with refused := bump tally.refused } p) ∧
    (∀ serial lines cur, fr.state = .order → s.part.orders.buffer = .collecting l serial lines cur →
      (∀ c ∈ fr.held, isLetter c = true) → cur.length ≤ 80 → lines.length ≤ 24 →
      let past := if cur = [] ∧ lines.length = 24 then fr.held else fr.held.drop (80 - cur.length)
      if past = [] then
        gives ((s.part.modFr l fun _ => free).setBuffer (.collecting l serial lines (cur ++ fr.held)))
      else ∃ p : Part, gives p ∧ p.orders = { s.part.orders with buffer := .free } ∧ dropped past tally p) := by
  intro fr tally others set gives free dropped
  have given : ∀ q, (releaseHeld l s.part).modFr l set = q → gives q := fun q same => same ▸ accepted
  have moves : Moves l s.part (releaseHeld l s.part) := .releaseHeld .refl
  have rest : others ((releaseHeld l s.part).modFr l set) := fun l' ne =>
    (Part.line_modFr_ne _ ne).trans (moves.frame.others l' ne)
  refine ⟨fun none => ?_, fun idle => ?_, fun heading some letters within => ?_,
    fun serial lines cur order collecting letters within few => ?_⟩
  · exact given _ (by rw [releaseHeld_none none])
  · refine given _ ?_
    rw [releaseHeld_eq, foldl_between (by rw [fr_unheld]; exact idle)]
    simp [unheld, Part.modFr, Part.modLineTally, Part.setLine_setLine]
    rfl
  · split
    next fits =>
      refine given _ ?_
      rw [releaseHeld_eq, heading_collects (by rw [fr_unheld]; exact heading) letters (by rw [fr_unheld]; exact fits)]
      have begun : fr.held.isEmpty = false := by simpa using some
      refine (Part.modFr_modFr ..).trans ((Part.modFr_modFr ..).trans ?_)
      rw [begun]
      exact congrArg (fun x => s.part.setLine l { s.part.line l with fr := x })
        (by simp [watching, free, set, fr, Part.fr])
    next long =>
      obtain ⟨line, raised⟩ := heading_faults (p := unheld l s.part) (l := l) (cs := fr.held) (by rw [fr_unheld]; exact heading)
        letters (by rw [fr_unheld]; exact within) (by rw [fr_unheld]; exact Nat.lt_of_not_le long)
      rw [← releaseHeld_eq] at line raised
      refine ⟨_, accepted, raised.1, raised.2, ?_, rest⟩
      rw [Part.line_modFr, line, line_unheld, fr_unheld]
      rfl
  · intro past
    have order' : ((unheld l s.part).fr l).state = .order := by rw [fr_unheld]; exact order
    by_cases lost : past = []
    · rw [if_pos lost]
      refine given _ ?_
      have fits : (cur ++ fr.held).length ≤ 80 ∧ (cur = [] → fr.held ≠ [] → lines.length ≠ 24) := by
        by_cases full : cur = [] ∧ lines.length = 24
        · have none : fr.held = [] := (if_pos full).symm.trans lost
          exact ⟨by rw [none, List.append_nil]; exact within, fun _ some => absurd none some⟩
        · have none : fr.held.drop (80 - cur.length) = [] := (if_neg full).symm.trans lost
          rw [List.drop_eq_nil_iff] at none
          exact ⟨by rw [List.length_append]; omega, fun empty _ isFull => full ⟨empty, isFull⟩⟩
      rw [releaseHeld_eq, order_collects order' collecting letters (by rw [← List.length_append]; exact fits.1) fits.2]
      exact congrArg (Part.setBuffer · (.collecting l serial lines (cur ++ fr.held)))
        (Part.modFr_modFr (p := s.part) (l := l) (fun fr => { fr with held := [] }) set)
    · rw [if_neg lost]
      have tooLong : Part.TooLong l past (unheld l s.part) (releaseHeld l s.part) := by
        rw [releaseHeld_eq]
        by_cases full : cur = [] ∧ lines.length = 24
        · have all : past = fr.held := if_pos full
          rw [all] at lost ⊢
          obtain ⟨x, xs, held⟩ := List.exists_cons_of_ne_nil lost
          rw [show (s.part.fr l).held = x :: xs from held]
          exact tooLong_first order' collecting (letters x (by rw [held]; simp)) (.inr full)
        · have some : past = fr.held.drop (80 - cur.length) := if_neg full
          rw [some] at lost ⊢
          rw [List.drop_eq_nil_iff] at lost
          exact order_tooLong order' collecting letters within (by show 80 < cur.length + fr.held.length; omega)
            fun empty isFull => full ⟨empty, isFull⟩
      refine ⟨_, accepted, tooLong.orders, ?_, rest⟩
      rw [Part.line_modFr, tooLong.line, line_unheld, fr_unheld]
      rfl

/-- What BEGIN and END bring to an item in BODY, whichever of the two sequences they store. -/
theorem stores_body (s : State) (l : LineNo) (i : Instr) (opening closing : Option Text)
    (accepted : exec i s = .next (s.answered ((releaseHeld l s.part).modFr l (watching opening closing)) okReply)) :
    let fr := s.part.fr l
    let tally := (s.part.line l).tally
    let others := fun p : Part => ∀ l', l' ≠ l → p.line l' = s.part.line l'
    let gives := fun p : Part => exec i s = .next (s.answered p okReply)
    let free := watching opening closing { fr with held := [] }
    ∀ n it, fr.state = .body → fr.item = some n → s.part.item? n = some it → it.state = .filling → fr.held ≠ [] →
      let granted := 0 < s.part.store.freeBlocks ∧ s.part.store.agencyBlocks < 2000
      let size := it.body.length + fr.held.length
      let full := 32 * it.blocks
      let before := fun stored : Nat => fr.release = 0 ∨ it.body.length = full ∨ stored - it.committed < fr.release
      (size ≤ full ∨ (it.body.length ≤ full ∧ fr.held.length ≤ 32 ∧ granted ∧ before size) → ∃ p : Part, gives p ∧
        (∃ (fr' : Framer) (after : Item), p.fr l = { free with ref := fr'.ref, sum := fr'.sum, pos := fr'.pos } ∧
          p.item? n = some after ∧ after.body = it.body ++ fr.held ∧ after.state = .filling ∧
          (fr.release = 0 ∨ size - it.committed < fr.release → after.committed = it.committed) ∧
          (0 < fr.release → fr.release ≤ size - it.committed → fr.held.length ≤ fr.release →
            after.committed = max (it.body.length + 1) (it.committed + fr.release))) ∧
        (p.line l).tally = tally ∧ others p) ∧
      (it.body.length ≤ full → full < size → ¬ granted → before full → ∃ p : Part, gives p ∧
        (p.flag .storeFull).raised = true ∧ (p.fr l).state = .discard ∧ (p.fr l).held = [] ∧
        (p.fr l).item = none ∧ (p.line l).tally = countedBetween (fr.held.drop (full - it.body.length)) tally ∧ others p ∧
        ∀ after ∈ p.item? n, after.source.isSome = true →
          after.state = .broken ∧ after.verdict = some .fresh ∧
          after.body = it.body ++ fr.held.take (full - it.body.length) ∧ after.committed = after.body.length) := by
  intro fr tally others gives free n it body receiving found filling some granted size full before
  have moves : Moves l s.part (releaseHeld l s.part) := .releaseHeld .refl
  have rest : others ((releaseHeld l s.part).modFr l (watching opening closing)) := fun l' ne =>
    (Part.line_modFr_ne _ ne).trans (moves.frame.others l' ne)
  have receives : (unheld l s.part).Receives l n it :=
    ⟨by rw [fr_unheld]; exact body, by rw [fr_unheld]; exact receiving, (Part.item?_eq _ _ rfl).trans found, filling⟩
  have release : ((unheld l s.part).fr l).release = fr.release := by rw [fr_unheld]
  refine ⟨fun room => ?_, fun within needs refused early => ⟨_, accepted, ?_⟩⟩
  · have stored : Part.Stored l n it fr.held (unheld l s.part) (releaseHeld l s.part) := by
      rw [releaseHeld_eq]
      rcases room with fits | ⟨within, short, have', early⟩
      · exact stored_fits receives fits
      · exact stored_granted receives within (by show it.body.length + fr.held.length ≤ _; omega) have'
          (by rw [release]; exact early)
    obtain ⟨after, receives', text, -, committed⟩ := stored.item
    rw [release] at committed
    obtain ⟨fr', same⟩ := frAfter_eq (cs := fr.held) ((unheld l s.part).fr l)
    have line := stored.line
    rw [same, line_unheld, fr_unheld] at line
    refine ⟨_, accepted, ⟨fr', after, ?_, (Part.item?_eq _ _ rfl).trans receives'.found, text, receives'.filling,
      fun small => committed.trans (committedAfter_small small), fun due big short => ?_⟩, ?_, rest⟩
    · rw [Part.fr, Part.line_modFr, line]
      rfl
    · obtain ⟨count, length⟩ := Nat.exists_eq_succ_of_ne_zero (List.length_pos_iff.mpr some).ne'
      rw [length] at committed short
      rw [committed]
      exact committedAfter_big due (by rw [← Nat.succ_eq_add_one, ← length]; exact big) short
    · rw [Part.line_modFr, line]
  · obtain ⟨⟨it', drops, text⟩, held, tallied⟩ := stored_refused (cs := fr.held) receives within needs refused
      (by rw [release]; exact early)
    rw [← releaseHeld_eq] at drops held tallied
    rw [fr_unheld] at held
    rw [line_unheld] at tallied
    obtain ⟨sum, broke⟩ := drops.broke
    rw [Part.fr_modFr, Part.line_modFr]
    refine ⟨drops.raised, drops.discard, held, drops.receiving, tallied, rest, fun after left agency => ?_⟩
    have is := broke after ((Part.item?_eq _ _ rfl).symm.trans left) agency
    rw [signLast_eq] at is
    rw [is]
    exact ⟨rfl, rfl, text, rfl⟩

/-- An open time that the running timer of a READY line has not reached is stored. -/
theorem setOpenTime_later {seconds : Nat}
    (later : (p.rx l).cond = .ready → ∀ t, (p.rx l).spaceTimer = some t → t < seconds) :
    setOpenTime l seconds p = p.modRx l fun rx => { rx with openTime := seconds } := by
  unfold setOpenTime
  simp only [Part.rx_modRx]
  split
  next t ready running => exact if_neg (Nat.not_le.mpr (later ready t running))
  next => rfl

theorem setOpenTime_reached {seconds t : Nat} (ready : (p.rx l).cond = .ready) (running : (p.rx l).spaceTimer = some t)
    (reached : seconds ≤ t) :
    setOpenTime l seconds p = enterOpen l (p.modRx l fun rx => { rx with openTime := seconds }) := by
  unfold setOpenTime
  simp only [Part.rx_modRx, ready, running, if_pos reached]

/-- Settles O40. -/
theorem lineSettingOrdersStoreTheirValue : Obligations.LineSettingOrdersStoreTheirValue := by
  intro s l takes rx fr tally others
  have settled : s.part.Settled := takes.settled
  refine ⟨fun on => ?_, fun on => ?_, fun k range => ?_, fun k low high => ?_, fun t least most letters => ?_⟩
  · have acts : actLine l { shift := some on } s.part = s.part.modRx l fun rx => { rx with unshift := on } :=
      setRelease_none
    rw [← acts]
    exact after_line takes (check := fun _ _ => .ok { shift := some on }) rfl (by rw [acts]; exact settled)
  · have acts : actLine l { desk := some on } s.part = s.part.modRx l fun rx => { rx with desk := on } :=
      setRelease_none
    rw [← acts]
    exact after_line takes (check := fun _ _ => .ok { desk := some on }) rfl (by rw [acts]; exact settled)
  · have acts : actLine l { release := some k } s.part = s.part.modFr l fun fr => { fr with release := k } :=
      congrArg (setRelease l (some k)) setShiftDesk_none
    rw [← acts]
    exact after_line takes (check := fun _ _ => (checkRelease k).map fun x => { release := some x })
      (by rw [checkRelease, if_pos range]; rfl) (by rw [acts]; exact settled)
  · have order : (setOpenTime l k s.part).Settled → exec (.lineOpenTime l.val k) s =
        .next (s.answered (setOpenTime l k s.part) okReply) := fun quiet => by
      have acts : actLine l { openTime := some k } s.part = setOpenTime l k s.part := actLine_open k
      rw [← acts]
      exact after_line takes (check := fun _ _ => (checkRange 1 15 k).map fun x => { openTime := some x })
        (by rw [checkRange_of low high]; rfl) (by rw [acts]; exact quiet)
    refine ⟨fun later => ?_, fun t ready running reached => ?_⟩
    · have stays := setOpenTime_later later
      rw [stays] at order
      exact order settled
    · have opened := setOpenTime_reached ready running reached
      rw [opened] at order
      have opens := opens_enterOpen (p := s.part) (l := l) fun rx => { rx with openTime := k }
      exact ⟨_, order settled_enterOpen, opens.rx, opens.opens, opens.tally, opens.raised.1, opens.raised.2,
        opens.rested.state, opens.rested.held, opens.rested.others, opens.rested.brokenOff⟩
  · intro stores
    have order : ∀ (opening closing : Option Text) (check : Part → LineNo → Checked LineKeys),
        (opening.isSome || closing.isSome) = true → check s.part l = .ok { opening := opening, closing := closing } →
        s.after (orderCommand fun p => checkLine l.val (check p)) =
          .next (s.answered ((releaseHeld l s.part).modFr l (watching opening closing)) okReply) :=
        fun opening closing check some given => by
      have acts := actLine_sequences (p := s.part) (l := l) (opening := opening) (closing := closing) some
      rw [← acts]
      exact after_line takes given (by rw [acts]; exact settled.releaseHeld)
    refine ⟨fun ne => ?_, fun ne => ?_⟩
    · have accepted := order (some t) none
        (fun p l => (checkSequence (p.fr l).closing t).map fun x => { opening := some x }) rfl
        (by rw [checkSequence_ok least most letters ne]; rfl)
      obtain ⟨none', idle, heading, collecting⟩ := stores_sequences s l (.lineBegin l.val t) (some t) none accepted
      refine ⟨none', idle, heading, collecting, fun n it body receiving found filling held _ => ?_⟩
      have ⟨stored, refused⟩ := stores_body s l (.lineBegin l.val t) (some t) none accepted
        n it body receiving found filling held
      exact ⟨stored, fun within needs lacks early _ => refused within needs lacks early⟩
    · have accepted := order none (some t)
        (fun p l => (checkSequence (p.fr l).opening t).map fun x => { closing := some x }) rfl
        (by rw [checkSequence_ok least most letters ne]; rfl)
      obtain ⟨none', idle, heading, collecting⟩ := stores_sequences s l (.lineEnd l.val t) none (some t) accepted
      refine ⟨none', idle, heading, collecting, fun n it body receiving found filling held _ => ?_⟩
      have ⟨stored, refused⟩ := stores_body s l (.lineEnd l.val t) none (some t) accepted
        n it body receiving found filling held
      exact ⟨stored, fun within needs lacks early _ => refused within needs lacks early⟩

end Sys2Proof.Machine
end

section
/-! The commit of an item's body: estimates made afresh, and what each circuit does at the commit event (R50, R147). -/

namespace Sys2Proof.Machine

variable {p q r : Part} {c c' : CircNo} {n : Nat} {old it : Item} {e : Entry}

/-! ### Estimates made afresh (R147) -/

/-- An entry after a commit event of item `n`, which then stands as `it`. -/
def again (n : Nat) (it : Item) (tx : TxParams) (e : Entry) : Entry :=
  if e.item = n then { e with estimate := estimateOf e it tx } else e

theorem item_again (tx : TxParams) (e : Entry) : (again n it tx e).item = e.item := by
  unfold again
  split <;> rfl

/-- A circuit of `q` with the estimates of item `n` made afresh, from its state in `p`. -/
structure Part.Reestimated (c : CircNo) (n : Nat) (it : Item) (p q : Part) : Prop where
  entries : (q.q c).entries = (p.q c).entries.map (again n it (p.tx c).ordered)
  current : (q.q c).current = (p.q c).current.map (again n it (p.tx c).ordered)
  backlog : (q.load c).backlog = backlogOf (q.q c)
  tx : q.tx c = p.tx c
  tally : (q.circ c).tally = (p.circ c).tally

theorem reestimated_reestimateOn (n : Nat) (c : CircNo) (p : Part) :
    Part.Reestimated c n (p.item n) p (reestimateOn n c p) := by
  have same : (fun e => if e.item = n then reestimated p c e else e) = again n (p.item n) (p.tx c).ordered :=
    funext fun e => by
      unfold again reestimated
      split
      next mine => rw [mine]
      next => rfl
  obtain ⟨st, load, -⟩ := load_recompute c (p.modEntries c (again n (p.item n) (p.tx c).ordered))
  unfold reestimateOn
  rw [same]
  refine ⟨by simp [Part.modEntries], by simp [Part.modEntries], ?_, by simp [Part.modEntries], by simp [Part.modEntries]⟩
  rw [load]
  simp

theorem Part.Reestimated.congr {p' q' : Part} (h : Part.Reestimated c n it p' q') (before : p'.circ c = p.circ c)
    (after : q.circ c = q'.circ c) : Part.Reestimated c n it p q := by
  obtain ⟨entries, current, backlog, tx, tally⟩ := h
  simp only [Part.q, Part.tx, Part.load, before, ← after] at entries current backlog tx tally
  exact ⟨entries, current, backlog, tx, tally⟩

theorem items_reestimateOn : (reestimateOn n c p).items = p.items := by
  unfold reestimateOn
  rw [items_recompute]
  rfl

theorem reestimateItem_each (n : Nat) (p : Part) : (reestimateItem n p).items = p.items ∧
    ∀ c, Part.Reestimated c n (p.item n) p (reestimateItem n p) := by
  obtain ⟨items, each⟩ := eachCirc_each (f := reestimateOn n) (I := fun q => q.items = p.items)
    (fun c q same => items_reestimateOn.trans same) (fun c c' q ne => circ_reestimateOn_ne n ne) rfl
  refine ⟨items, fun c => ?_⟩
  obtain ⟨p', items', before, after⟩ := each c
  have done := reestimated_reestimateOn n c p'
  rw [show p'.item n = p.item n by rw [Part.item, Part.item, Part.item?_eq _ _ items']] at done
  exact done.congr before after

/-! ### The commit event (R50, R99, R132) -/

/-- Each circuit takes the commit event with its estimates made afresh. -/
theorem commit_each (n : Nat) (old : Item) (p : Part) : (commit n old p).items = (commitItem n p).items ∧
    ∀ c, ∃ p', p'.items = (commitItem n p).items ∧ Part.Reestimated c n ((commitItem n p).item n) p p' ∧
      (commit n old p).circ c = (commitOn n old c p').circ c := by
  obtain ⟨items, fresh⟩ := reestimateItem_each n (commitItem n p)
  obtain ⟨kept, each⟩ := eachCirc_each (f := commitOn n old) (p := reestimateItem n (commitItem n p))
    (I := fun q => q.items = (commitItem n p).items)
    (fun c q same => ((OnCirc.refl c q).commitOn n old).items.trans same)
    (fun c c' q ne => ((OnCirc.refl c q).commitOn n old).circ_ne ne) items
  refine ⟨kept, fun c => ?_⟩
  obtain ⟨p', items', before, after⟩ := each c
  exact ⟨p', items', (fresh c).congr rfl before, after⟩

theorem commitOn_absent (absent : ∀ x ∈ (p.q c).held, x.item ≠ n) : commitOn n old c p = p := by
  have none : ((p.q c).held.find? fun e => e.item == n) = none :=
    List.find?_eq_none.mpr fun x member => by simpa using absent x member
  unfold commitOn
  rw [none]

/-- At a commit event a sender that waits for the item examines it, and any other reviews the queued entry or does
nothing. -/
theorem commitOn_cases (n : Nat) (old : Item) (c : CircNo) (p : Part) :
    (((p.q c).current.map (·.item)) = some n ∧ (p.tx c).state = .waiting ∧ commitOn n old c p = examineWaiting c p) ∨
    commitOn n old c p = p ∨
    (((p.q c).current.map (·.item)) ≠ some n ∧ ∃ e, commitOn n old c p = review c e p) := by
  unfold commitOn
  cases found : (p.q c).held.find? fun e => e.item == n with
  | none => exact .inr (.inl rfl)
  | some e =>
    simp only
    by_cases mine : ((p.q c).current.map (·.item)) = some n
    · rw [if_pos mine]
      by_cases waits : (p.tx c).state = .waiting
      · exact .inl ⟨mine, waits, if_pos waits⟩
      · exact .inr (.inl (if_neg waits))
    · rw [if_neg mine]
      by_cases due : (!readyFor old e && p.eligible e) = true
      · exact .inr (.inr ⟨mine, e, if_pos due⟩)
      · exact .inr (.inl (if_neg due))

/-! ### Tallies of repeats through a commit and its notices (R169) -/

/-- Nothing has counted as suppressed or marked on circuit `c`. -/
def RepeatsKept (c : CircNo) (p q : Part) : Prop :=
  (q.circ c).tally.suppressed = (p.circ c).tally.suppressed ∧ (q.circ c).tally.marked = (p.circ c).tally.marked

theorem RepeatsKept.refl (c : CircNo) (p : Part) : RepeatsKept c p p := ⟨rfl, rfl⟩

theorem RepeatsKept.trans (h : RepeatsKept c p q) (k : RepeatsKept c q r) : RepeatsKept c p r :=
  ⟨k.1.trans h.1, k.2.trans h.2⟩

theorem RepeatsKept.of_tally (same : (q.circ c).tally = (p.circ c).tally) : RepeatsKept c p q :=
  ⟨congrArg _ same, congrArg _ same⟩

theorem BreaksOnly.repeatsKept (h : BreaksOnly c p q) : RepeatsKept c p q := by
  obtain ⟨_, tally⟩ := h
  exact ⟨by rw [tally], by rw [tally]⟩

theorem repeatsKept_review : RepeatsKept c p (review c e p) := by
  by_cases idle : (p.tx c).state = .idle
  · rw [review_idle idle]
    exact .of_tally tally_selectionPoint
  · by_cases waits : (p.tx c).state = .waiting
    · rw [review_waiting waits]
      have added : BreaksOnly c p (addReasons c e p) := (BreaksOnly.refl c p).of_same (by simp [addReasons])
      split
      · exact (added.takeBreak _).repeatsKept
      · exact .of_tally (by simp [clearBreak, addReasons])
    · rw [review_sending idle waits]
      exact .of_tally (by simp [addReasons])

theorem repeatsKept_examineWaiting : RepeatsKept c p (examineWaiting c p) := by
  refine .of_tally ?_
  unfold examineWaiting
  simp only
  split
  · rw [tally_enterTrailer]
    simp
  · simp [sendBody, stopStall]
  · simp

theorem repeatsKept_commitOn : RepeatsKept c p (commitOn n old c p) := by
  rcases commitOn_cases n old c p with ⟨-, -, same⟩ | same | ⟨-, e, same⟩
  · rw [same]
    exact repeatsKept_examineWaiting
  · rw [same]
    exact .refl c p
  · rw [same]
    exact repeatsKept_review

theorem repeatsKept_commit : RepeatsKept c p (commit n old p) := by
  obtain ⟨p', -, fresh, after⟩ := (commit_each n old p).2 c
  have kept : RepeatsKept c p' (commitOn n old c p') := repeatsKept_commitOn
  have first : RepeatsKept c p p' := .of_tally fresh.tally
  refine first.trans ⟨?_, ?_⟩
  · rw [after]
    exact kept.1
  · rw [after]
    exact kept.2

theorem repeatsKept_insert (rq : Request) : RepeatsKept c p (insert c' rq p).2 := by
  by_cases ne : c = c'
  · subst ne
    have placed : ∀ q : Part, RepeatsKept c q (placeEntry c rq q) := fun q => by
      refine ⟨?_, ?_⟩ <;> rw [tally_placeEntry_breaks]
    have displaced : ∀ e, RepeatsKept c p (displaceEntry c e p) := fun e =>
      ⟨by simp [displaceEntry], by simp [displaceEntry]⟩
    unfold insert
    split
    · exact .refl c p
    · split
      · exact placed p
      · split
        next e _ =>
          dsimp only
          exact RepeatsKept.trans (displaced e) (placed (displaceEntry c e p))
        next => exact .of_tally rfl
  · exact .of_tally (by rw [circ_insert_ne rq ne])

theorem repeatsKept_makeUnit {serial : Nat} {slug body : Text} (made : makeUnit serial slug body p = some q) :
    RepeatsKept c p q := by
  unfold makeUnit at made
  split at made
  · exact nomatch made
  next n _ =>
    split at made
    · have kept := repeatsKept_insert (c := c) (c' := p.orders.desk) (p := addUnit n serial slug body p)
        { item := n, cls := 2, mode := .send, diverted := false }
      split at made
      next inserted =>
        rw [inserted] at kept
        cases made
        exact kept
      next inserted =>
        rw [inserted] at kept
        cases made
        exact kept.trans (.of_tally (by simp))
    · exact nomatch made

theorem repeatsKept_settle (p : Part) : RepeatsKept c p (settle p) := by
  have notice : ∀ line (q : Part), RepeatsKept c q (makeNotice line q) := fun line q => by
    unfold makeNotice
    split
    next made => exact (repeatsKept_makeUnit made).trans (.of_tally rfl)
    next => exact .of_tally rfl
  have all : ∀ fuel (q : Part), RepeatsKept c q (settleAux fuel q) := fun fuel => by
    induction fuel with
    | zero => exact fun q => .refl c q
    | succ fuel ih =>
      intro q
      unfold settleAux
      split
      · exact .refl c q
      next line rest _ =>
        exact ((RepeatsKept.of_tally rfl).trans (notice line (q.setAlarm { q.alarm with owing := rest }))).trans (ih _)
  exact all _ p

end Sys2Proof.Machine
end

section
/-! The end of an item at its closing sequence: its verdict, and the repeats that it removes and counts (R51, R164–R169). -/

namespace Sys2Proof.Machine

variable {p q r : Part} {l : LineNo} {c c' : CircNo} {n : Nat} {it : Item} {e : Entry} {chr : Chr}

/-! ### The queued entry of a repeat (R169) -/

theorem repeatOn_absent (absent : ∀ x ∈ (p.q c).entries, x.item ≠ n) : repeatOn n c p = p := by
  have none : ((p.q c).entries.find? fun e => e.item == n) = none :=
    List.find?_eq_none.mpr fun x member => by simpa using absent x member
  unfold repeatOn
  rw [none]

theorem find?_single (single : ((p.q c).held.map (·.item)).Nodup) (queued : e ∈ (p.q c).entries) :
    ((p.q c).entries.find? fun x => x.item == e.item) = some e := by
  have entries : ((p.q c).entries.map (·.item)).Nodup := (single.sublist ((List.sublist_append_right _ _).map _))
  cases found : (p.q c).entries.find? fun x => x.item == e.item with
  | none => exact absurd (List.find?_eq_none.mp found e queued) (by simp)
  | some x =>
    have same : x.item = e.item := by simpa using List.find?_some found
    exact congrArg some (List.inj_on_of_nodup_map entries (List.mem_of_find?_eq_some found) queued same)

/-- What NEAR_REPEAT brings to the queued entry `e` of the item. -/
theorem repeatOn_entry (single : ((p.q c).held.map (·.item)).Nodup) (queued : e ∈ (p.q c).entries) :
    ((repeatOn e.item c p).circ c).tally.suppressed = (if e.mode = .suppress then bump (p.circ c).tally.suppressed
      else (p.circ c).tally.suppressed) ∧
    ((repeatOn e.item c p).circ c).tally.marked = (if e.mode = .mark then bump (p.circ c).tally.marked
      else (p.circ c).tally.marked) ∧
    (repeatOn e.item c p).q c = if e.mode = .suppress then { p.q c with entries := without e.item (p.q c).entries }
      else p.q c := by
  unfold repeatOn
  simp only [find?_single single queued]
  cases e.mode <;> simp

theorem repeatOn_moves (n : Nat) (c : CircNo) (p : Part) : OutMoves p (repeatOn n c p) := by
  unfold repeatOn
  split
  · exact .refl
  · split
    · exact OutMoves.removeQueued _ (OutMoves.modTally .refl fun _ w => w.bump_suppressed)
    · exact OutMoves.modTally .refl fun _ w => w.bump_marked
    · exact .refl

theorem circ_repeatOn_ne (ne : c' ≠ c) : (repeatOn n c p).circ c' = p.circ c' := by
  unfold repeatOn
  split
  · rfl
  · split
    · rw [circ_removeQueued_ne _ ne, Part.circ_modTally_ne _ ne]
    · exact Part.circ_modTally_ne _ ne
    · rfl

/-- What the verdict of item `n` does on each circuit. -/
theorem repeats_each (p : Part) : OutMoves p (p.eachCirc (repeatOn n)) ∧
    ∀ c, ∃ p', p'.circ c = p.circ c ∧ (p.eachCirc (repeatOn n)).circ c = (repeatOn n c p').circ c := by
  refine ⟨OutMoves.eachCirc (fun c q h => h.trans (repeatOn_moves n c q)) .refl, fun c => ?_⟩
  obtain ⟨-, each⟩ := eachCirc_each (f := repeatOn n) (p := p) (I := fun _ => True) (fun _ _ _ => trivial)
    (fun c c' q ne => circ_repeatOn_ne ne) trivial
  obtain ⟨p', -, before, after⟩ := each c
  exact ⟨p', before, after⟩

theorem eachCirc_id {f : CircNo → Part → Part} (same : ∀ c, f c p = p) : p.eachCirc f = p := by
  have all : ∀ cs : List CircNo, cs.foldl (fun p c => f c p) p = p := fun cs => by
    induction cs with
    | nil => rfl
    | cons c cs ih => rw [List.foldl_cons, same, ih]
  exact all allEight

/-! ### The verdict (R166) -/

/-- The verdict on an item of line `l` at its close. -/
def verdictOf (l : LineNo) (it : Item) (h : History) : Option Verdict :=
  if it.kind = .kill then none else if it.killed = true then some .fresh else some (compareWith l it h).1

/-- The history after the verdict. -/
def historyAfter (l : LineNo) (it : Item) (h : History) : History :=
  if it.kind = .kill ∨ it.killed = true then h else (compareWith l it h).2

/-- A closed item with its verdict, before the verdict has its effect on the queues. -/
structure Part.Judged (l : LineNo) (n : Nat) (it : Item) (p q : Part) : Prop where
  item : q.item? n = some { it with verdict := verdictOf l it p.history }
  rest : (q.items.filter fun x => x.num ≠ n) = p.items.filter fun x => x.num ≠ n
  history : q.history = historyAfter l it p.history
  frame : { q with items := p.items, history := p.history } = p

theorem filter_modItem {f : Item → Item} (num : ∀ x, (f x).num = x.num) :
    ((p.modItem n f).items.filter fun x => x.num ≠ n) = p.items.filter fun x => x.num ≠ n := by
  have others : ((fun x : Item => decide (x.num ≠ n)) ∘ fun x => if x.num == n then f x else x) =
      fun x => decide (x.num ≠ n) := funext fun x => by
    by_cases e : x.num = n <;> simp [e, num]
  show (p.items.map _).filter _ = _
  rw [List.filter_map, others]
  refine (List.map_congr_left fun x member => ?_).trans (List.map_id _)
  have ne : x.num ≠ n := by simpa using (List.mem_filter.mp member).2
  simp [ne]

theorem judged_modItem {v : Option Verdict} {h : History} (found : p.item? n = some it)
    (verdict : v = verdictOf l it p.history) (history : h = historyAfter l it p.history) :
    Part.Judged l n it p ((p.setHistory h).modItem n fun it => { it with verdict := v }) := by
  refine ⟨?_, ?_, history, rfl⟩
  · have item? : ((p.setHistory h).modItem n fun it => { it with verdict := v }).item? n = (p.item? n).map fun it =>
        if n = n then { it with verdict := v } else it := Part.item?_modItem _ fun _ => rfl
    rw [item?, found, ← verdict]
    simp
  · exact filter_modItem (p := p.setHistory h) fun _ => rfl

theorem verdict_judged (found : p.item? n = some it) (source : it.source = some l) (fresh : it.verdict = none) :
    ∃ q, Part.Judged l n it p q ∧
      verdict n p = if verdictOf l it p.history = some .nearRepeat then q.eachCirc (repeatOn n) else q := by
  have item := Part.item_of_item? found
  by_cases kill : it.kind = .kill
  · have none : verdictOf l it p.history = none := if_pos kill
    refine ⟨p, ⟨?_, rfl, (if_pos (.inl kill)).symm, rfl⟩, ?_⟩
    · rw [none, found, ← fresh]
    · unfold verdict
      simp only [item, source, if_pos kill, none]
      rfl
  · by_cases killed : it.killed = true
    · have always : verdictOf l it p.history = some .fresh := by simp [verdictOf, kill, killed]
      refine ⟨p.modItem n fun it => { it with verdict := some .fresh },
        judged_modItem (h := p.history) found always.symm (if_pos (.inr killed)).symm, ?_⟩
      unfold verdict
      simp only [item, source, if_neg kill, if_pos killed, always]
      rfl
    · have compared : verdictOf l it p.history = some (compareWith l it p.history).1 := by simp [verdictOf, kill, killed]
      refine ⟨(p.setHistory (compareWith l it p.history).2).modItem n fun x =>
        { x with verdict := some (compareWith l it p.history).1 },
        judged_modItem found compared.symm (if_neg (by simp [kill, killed])).symm, ?_⟩
      unfold verdict
      simp only [item, source, if_neg kill, if_neg killed, compared]
      cases (compareWith l it p.history).1 <;> rfl

end Sys2Proof.Machine
end

section
/-! A commit by a stored character, and the closing sequence of an item in BODY (R50, R51, R132, R147). -/

namespace Sys2Proof.Machine

variable {p q r : Part} {l : LineNo} {c : CircNo} {n : Nat} {it old : Item} {e : Entry} {chr : Chr}

/-! ### A character that brings the release length (R50) -/

theorem examined_of (current : ((p.q c).current.map (·.item)) = some n) : p.examined c =
    bodyStep (p.item n) (p.tx c).force.width (p.tx c).force.margin (p.tx c).offset := by
  obtain ⟨e, is, item⟩ := Option.map_eq_some_iff.mp current
  unfold Part.examined
  simp only [is, item]

theorem circ_appendChr (found : p.item? n = some it) : (appendChr l n chr p).circ c = p.circ c := by
  rw [appendChr_eq found]
  rfl

/-- The item `it` of a FILLING body is never found done. -/
theorem examined_filling (current : ((p.q c).current.map (·.item)) = some n) (found : p.item? n = some it)
    (filling : it.state = .filling) : p.examined c ≠ .done := by
  rw [examined_of current, Part.item_of_item? found]
  unfold bodyStep
  simp only [Item.ended, filling]
  split
  next h => exact absurd h (by decide)
  next => split <;> nofun

/-- What a commit event of a FILLING item leaves of a circuit whose sender is neither IDLE nor WAITING. -/
theorem commitOn_sending (busy : (p.tx c).state ≠ .idle) (sends : (p.tx c).state ≠ .waiting) :
    ((commitOn n old c p).q c).entries = (p.q c).entries ∧ ((commitOn n old c p).q c).current = (p.q c).current ∧
      (commitOn n old c p).load c = p.load c := by
  rcases commitOn_cases n old c p with ⟨-, waits, -⟩ | same | ⟨-, e, same⟩
  · exact absurd waits sends
  · rw [same]
    exact ⟨rfl, rfl, rfl⟩
  · rw [same, load_review, review_sending busy sends, q_addReasons]
    exact ⟨rfl, rfl, rfl⟩

theorem commitOn_waiting (current : ((p.q c).current.map (·.item)) = some n) (waits : (p.tx c).state = .waiting) :
    commitOn n old c p = examineWaiting c p := by
  obtain ⟨e, is, item⟩ := Option.map_eq_some_iff.mp current
  have member : e ∈ (p.q c).held := by
    rw [Queue.held, is]
    simp
  unfold commitOn
  cases found : (p.q c).held.find? fun e => e.item == n with
  | none => exact absurd (List.find?_eq_none.mp found e member) (by simp [item])
  | some x => exact (if_pos current).trans (if_pos waits)

/-- What a sender that waits has gone on to at a commit event. -/
theorem state_examineWaiting (waits : (p.tx c).state = .waiting) (undone : (p.modTx c bringLine).examined c ≠ .done) :
    ((examineWaiting c p).tx c).state = (match (p.modTx c bringLine).examined c with | .line _ => .copy | _ => .waiting) ∧
      ((examineWaiting c p).q c).current = (p.q c).current ∧
      ((examineWaiting c p).tx c).force.width = (bringLine (p.tx c)).force.width ∧
      ((examineWaiting c p).tx c).force.margin = (bringLine (p.tx c)).force.margin ∧
      ((examineWaiting c p).tx c).offset = (p.tx c).offset := by
  have gone := goneOn_examineWaiting (p := p) (c := c)
  cases step : (p.modTx c bringLine).examined c with
  | done => exact absurd step undone
  | line ln =>
    rw [step] at gone
    rw [gone.1, gone.2]
    exact ⟨rfl, rfl, rfl, rfl, rfl⟩
  | wait =>
    rw [examineWaiting_wait step]
    simp [bringLine, waits]

/-- The character that brings the release length commits the body (R50). -/
theorem releasing_commits (p : Part) (l : LineNo) (n : Nat) (it : Item) (chr : Chr) (receives : p.Receives l n it)
    (held : (p.fr l).held = []) (opens : 2 ≤ (p.fr l).opening.length) (closes : 2 ≤ (p.fr l).closing.length)
    (first : (p.fr l).opening.head? ≠ some chr) (last : (p.fr l).closing.head? ≠ some chr)
    (room : it.body.length ≠ 32 * it.blocks) (some' : 1 ≤ (p.fr l).release)
    (due : (p.fr l).release ≤ it.body.length + 1 - it.committed) :
    let q := deliver l chr p
    (∃ after, q.item? n = some after ∧ after.state = .filling ∧ after.body = it.body ++ [chr] ∧
      after.committed = it.body.length + 1) ∧
    ∀ c', c' ≠ p.orders.desk →
      ((p.tx c').state ≠ .idle → (p.tx c').state ≠ .waiting →
        (q.q c').entries = (p.q c').entries.map (again n (q.item n) (p.tx c').ordered) ∧
        (q.q c').current = (p.q c').current.map (again n (q.item n) (p.tx c').ordered) ∧
        (q.load c').backlog = backlogOf (q.q c')) ∧
      ((p.tx c').state = .waiting → (p.q c').current.map (·.item) = some n →
        (q.tx c').state = match q.examined c' with | .line _ => .copy | _ => .waiting) := by
  intro q
  have taken : q = releaseChr l chr p := deliver_plain held opens closes first last
  obtain ⟨after, receives', grown, -⟩ := stored_step (c := chr) receives fun full => absurd full room
  rw [← taken] at receives'
  refine ⟨⟨after, receives'.found, receives'.filling, grown.body, ?_⟩, fun c notDesk => ?_⟩
  · rw [grown.committed, committedBy, if_pos ⟨some', due⟩]
  have stored : q = settle (commit n (itemWith (it.body.length = 32 * it.blocks) (p.fr l) chr it) (appendChr l n chr p)) := by
    rw [taken, releaseChr, receives.body]
    exact (bodyChr_stored receives.receiving receives.found fun full => absurd full room).trans (if_pos ⟨some', due⟩)
  have item := item?_commitItem (item?_appendChr (l := l) receives.found chr)
  have filling : (itemWith (it.body.length = 32 * it.blocks) (p.fr l) chr it).state = .filling := receives.filling
  generalize itemWith (it.body.length = 32 * it.blocks) (p.fr l) chr it = old at stored item filling
  have before : ∀ c, (appendChr l n chr p).circ c = p.circ c := fun c => circ_appendChr receives.found
  have desk : (commitItem n (appendChr l n chr p)).orders = p.orders := by
    rw [appendChr_eq receives.found]
    rfl
  have moves := commit_moves n old (appendChr l n chr p)
  have circ : q.circ c = (commit n old (appendChr l n chr p)).circ c := by
    rw [stored]
    exact circ_settle_ne (by rwa [moves.frame.orders, desk])
  obtain ⟨p', items', fresh, after'⟩ := (commit_each n old (appendChr l n chr p)).2 c
  rw [Part.item_of_item? item] at fresh
  obtain ⟨holders, found⟩ : ∃ h, q.item? n = some { old with committed := old.body.length, holders := h } := by
    rw [stored]
    exact (OutMoves.itemsKept (moves.trans (OutMoves.settle .refl))).filling n _ item filling
  have same : ∀ tx, again n (q.item n) tx = again n { old with committed := old.body.length } tx := fun tx => by
    rw [Part.item_of_item? found]
    rfl
  have fresh := fresh.congr (p' := appendChr l n chr p) (p := p) (before c) rfl
  have whole : q.circ c = (commitOn n old c p').circ c := circ.trans after'
  have tx := fresh.tx
  refine ⟨fun busy sends => ?_, fun waits current => ?_⟩
  · obtain ⟨entries, current, load⟩ := commitOn_sending (n := n) (old := old) (p := p') (c := c) (by rw [tx]; exact busy)
      (by rw [tx]; exact sends)
    rw [same, Part.q, Part.load, whole]
    exact ⟨entries.trans fresh.entries, current.trans fresh.current, (congrArg Load.backlog load).trans (fresh.backlog.trans (by
      rw [backlogOf, backlogOf, Queue.held, Queue.held, ← Part.q, entries, current]))⟩
  · have waiting : (p'.q c).current.map (·.item) = some n := by
      rw [fresh.current, Option.map_map]
      exact (congrArg (Option.map · _) (funext fun e => item_again _ e)).trans current
    have waits' : (p'.tx c).state = .waiting := by rw [tx]; exact waits
    have found' : p'.item? n = some { old with committed := old.body.length } := (Part.item?_eq _ _ items').trans item
    have undone : (p'.modTx c bringLine).examined c ≠ .done :=
      examined_filling (p := p'.modTx c bringLine) (by simpa using waiting) ((Part.item?_eq _ _ rfl).trans found') filling
    obtain ⟨state, kept, width, margin, offset⟩ := state_examineWaiting waits' undone
    rw [← commitOn_waiting (old := old) waiting waits'] at state kept width margin offset
    have examined : q.examined c = (p'.modTx c bringLine).examined c := by
      rw [examined_of (p := q) (n := n), examined_of (p := p'.modTx c bringLine) (n := n)]
      · rw [Part.item_of_item? found, show (p'.modTx c bringLine).item n = p'.item n from rfl, Part.item_of_item? found',
          Part.tx, whole, ← Part.tx, width, margin, offset, Part.tx_modTx]
        rfl
      · simpa using waiting
      · rw [Part.q, whole, ← Part.q, kept]
        exact waiting
    rw [examined, Part.tx, whole]
    exact state

end Sys2Proof.Machine
end

section
/-! The closing sequence of an item in BODY: what stands after its verdict and its last commit (R51, R64–R66, R166). -/

namespace Sys2Proof.Machine

variable {p q r : Part} {l : LineNo} {c : CircNo} {n : Nat} {it old : Item} {e : Entry} {chr : Chr}

/-! ### A commit on the entries of a circuit -/

/-- A commit takes no entry from a circuit and brings none. -/
theorem items_commit (single : ((p.q c).held.map (·.item)).Nodup) :
    (((commit n old p).q c).held.map (·.item)).Perm ((p.q c).held.map (·.item)) := by
  obtain ⟨p', -, fresh, after⟩ := (commit_each n old p).2 c
  have same : (p'.q c).held.map (·.item) = (p.q c).held.map (·.item) := by
    have kept : ∀ e, (again n ((commitItem n p).item n) (p.tx c).ordered e).item = e.item := fun e => item_again _ e
    rw [Queue.held, Queue.held, fresh.entries, fresh.current]
    cases (p.q c).current <;> simp [kept]
  rw [Part.q, after, ← Part.q, ← same]
  rcases commitOn_cases n old c p' with ⟨-, -, is⟩ | is | ⟨-, e, is⟩
  · rw [is]
    have gone := goneOn_examineWaiting (p := p') (c := c)
    cases step : (p'.modTx c bringLine).examined c with
    | wait =>
      rw [examineWaiting_wait step, Part.q_modTx]
    | line ln =>
      rw [step] at gone
      rw [gone.2]
      exact .refl _
    | done =>
      rw [step] at gone
      rw [gone.2.1]
      exact .refl _
  · rw [is]
  · rw [is]
    exact (reviewed_review.items (by rw [same]; exact single)).1

theorem modEntries_id {f : Entry → Entry} (same : ∀ e ∈ (p.q c).held, f e = e) : p.modEntries c f = p := by
  refine Part.modQ_id _ ?_
  have entries : (p.q c).entries.map f = (p.q c).entries :=
    (List.map_congr_left fun e member => same e (List.mem_append_right _ member)).trans (List.map_id _)
  have current : (p.q c).current.map f = (p.q c).current := by
    cases is : (p.q c).current with
    | none => rfl
    | some e => exact congrArg some (same e (by rw [Queue.held, is]; simp))
  rw [entries, current]

/-- A commit of an item that no entry holds touches no circuit. -/
theorem commit_unheld (absent : ∀ c, ∀ e ∈ (p.q c).held, e.item ≠ n)
    (balanced : ∀ c, (p.load c).backlog = backlogOf (p.q c)) :
    commit n old p = commitItem n p := by
  have estimates : reestimateItem n (commitItem n p) = commitItem n p := eachCirc_id fun c => by
    have same : (commitItem n p).modEntries c (fun e => if e.item = n then reestimated (commitItem n p) c e else e) =
        commitItem n p := modEntries_id fun e member => if_neg (absent c e member)
    unfold reestimateOn
    rw [same]
    exact if_pos (balanced c).symm
  unfold commit
  rw [← commitItem]
  simp only [estimates]
  exact eachCirc_id fun c => commitOn_absent (absent c)

/-! ### The closing sequence -/

/-- The part when an item in BODY is CLOSED, before its verdict. -/
def closedPart (l : LineNo) (n : Nat) (p : Part) : Part := endItem l n .closed none (unheld l p)

/-- The item as it is signed at its end (R49). -/
def signedItem (sum : Nat) (it : Item) : Item :=
  { it with signatures :=
      if it.stats.lineEnds < it.stats.lines ∧ it.signatures.length < 48 then it.signatures ++ [sum] else it.signatures }

/-- The item as it is closed, before its verdict. -/
def closedItem (sum : Nat) (it : Item) : Item := { signedItem sum it with state := .closed, verdict := none }

theorem item?_closedPart (found : p.item? n = some it) :
    (closedPart l n p).item? n = some (closedItem (p.fr l).sum it) := by
  have closed := item?_endItem (l := l) (st := .closed) (v := none) (p := unheld l p) ((Part.item?_eq _ _ rfl).trans found)
  rw [signLast_eq, fr_unheld] at closed
  exact closed

/-- The stages of a close: `x` is the part with the verdict, `v` with its effect on the queues. -/
structure Closing (l : LineNo) (n : Nat) (it : Item) (p x v z q : Part) : Prop where
  judged : Part.Judged l n (closedItem (p.fr l).sum it) (closedPart l n p) x
  decided : v = if verdictOf l (closedItem (p.fr l).sum it) p.history = some .nearRepeat then x.eachCirc (repeatOn n) else x
  notices : z = settle (examineFree n (commit n it v))
  closes : q = toState l .hunt z

theorem line_endItem {st : ItemState} {v : Option Verdict} (k : LineNo) :
    (endItem l n st v p).line k = (p.modFr l fun fr => { fr with item := none }).line k := rfl

theorem closing_deliver (body : (p.fr l).state = .body) (receiving : (p.fr l).item = some n) (found : p.item? n = some it)
    (source : it.source = some l) (completes : (p.fr l).held ++ [chr] = (p.fr l).closing)
    (ne : (p.fr l).closing ≠ (p.fr l).opening) : ∃ x v z, Closing l n it p x v z (deliver l chr p) := by
  obtain ⟨x, judged, verdict⟩ := verdict_judged (l := l) (item?_closedPart (l := l) found) source rfl
  refine ⟨x, _, _, judged, rfl, rfl, ?_⟩
  rw [deliver_closing completes ne (by rw [body]; decide), matchClosing, fr_unheld, body]
  have item : (unheld l p).item n = it := Part.item_of_item? ((Part.item?_eq _ _ rfl).trans found)
  have closed : closeItem l (unheld l p) = settle (examineFree n (commit n ((unheld l p).item n)
      (Machine.verdict n (closedPart l n p)))) := by
    unfold closeItem
    rw [fr_unheld]
    simp only [receiving]
    rfl
  show toState l .hunt (closeItem l (unheld l p)) = _
  rw [closed, item, verdict]
  rfl

/-- What the verdict and its effect leave of the part. -/
theorem Closing.moves {x v z : Part} (h : Closing l n it p x v z q) : OutMoves x v := by
  rw [h.decided]
  split
  · exact (repeats_each x).1
  · exact .refl

theorem Closing.outs {x v z : Part} (h : Closing l n it p x v z q) : OutMoves (commitItem n v) z := by
  rw [h.notices]
  exact ((commit_moves n it v).act (.free n)).trans (OutMoves.settle .refl)

theorem Closing.circ {x v z : Part} (h : Closing l n it p x v z q) (c : CircNo) : x.circ c = p.circ c :=
  (congrArg (fun y : Part => y.circ c) h.judged.frame :)

/-- What the end of a close leaves outside its items and circuits. -/
theorem Closing.frame {x v z : Part} (h : Closing l n it p x v z q) :
    q.line l = { p.line l with fr := { p.fr l with
      held := [], state := .hunt, heading := [], headStart := false, item := none } } ∧
    (∀ l', l' ≠ l → q.line l' = p.line l') ∧ q.banks = p.banks ∧ q.orders = p.orders ∧
    q.history = historyAfter l (closedItem (p.fr l).sum it) p.history := by
  have before : OutFrame x v := h.moves.frame
  have after : OutFrame (commitItem n v) z := h.outs.frame
  have lines : x.lines = (closedPart l n p).lines := (congrArg Part.lines h.judged.frame :)
  have all : ∀ k, z.line k = (closedPart l n p).line k := fun k => by
    rw [after.line]
    show v.line k = _
    rw [before.line, Part.line, Part.line, lines]
  have closed : (closedPart l n p).line l = { p.line l with fr := { p.fr l with held := [], item := none } } := by
    rw [closedPart, line_endItem, Part.line_modFr, line_unheld]
  rw [h.closes]
  refine ⟨?_, fun k other => ?_, ?_, ?_, ?_⟩
  · rw [toState, Part.line_modFr, all, closed]
    rfl
  · rw [toState, Part.line_modFr_ne _ other, all, closedPart, line_endItem, Part.line_modFr_ne _ other, unheld,
      Part.line_modFr_ne _ other]
  · exact after.banks.trans (before.banks.trans (congrArg Part.banks h.judged.frame :))
  · exact after.orders.trans (before.orders.trans (congrArg Part.orders h.judged.frame :))
  · exact after.history.trans (before.history.trans h.judged.history)

/-- The closed item, where entries still hold it. -/
theorem Closing.item {x v z : Part} (h : Closing l n it p x v z q) {after : Item} (left : q.item? n = some after)
    (agency : after.source.isSome = true) : after = { signedItem (p.fr l).sum it with
      state := .closed, verdict := verdictOf l (closedItem (p.fr l).sum it) p.history, committed := it.body.length
      holders := after.holders } := by
  have left' : z.item? n = some after := by
    rw [h.closes] at left
    exact (Part.item?_eq _ _ rfl).symm.trans left
  obtain ⟨was, found, is⟩ := h.outs.itemsKept.agency n after left' agency
  have item? : (commitItem n v).item? n = (v.item? n).map fun it =>
    if n = n then { it with committed := it.body.length } else it := Part.item?_modItem _ fun _ => rfl
  rw [item?, Option.map_eq_some_iff] at found
  obtain ⟨decided, found, rfl⟩ := found
  obtain ⟨judged, found, is'⟩ := h.moves.itemsKept.agency n decided found (by rw [is] at agency; simpa using agency)
  rw [h.judged.item, Option.some_inj] at found
  rw [is, is', ← found]
  simp only [if_true]
  rfl

/-- Nothing of a close but the verdict counts as suppressed or marked. -/
theorem Closing.repeats {x v z : Part} (h : Closing l n it p x v z q) (c : CircNo) : RepeatsKept c v q := by
  have kept : RepeatsKept c z q := .of_tally (by rw [h.closes]; rfl)
  refine RepeatsKept.trans ?_ kept
  rw [h.notices]
  have freed : RepeatsKept c (commit n it v) (examineFree n (commit n it v)) := .of_tally (by simp)
  exact repeatsKept_commit.trans (freed.trans (repeatsKept_settle _))

/-- What the verdict leaves of a circuit, with NEAR_REPEAT and an entry of the item queued, and otherwise. -/
theorem Closing.near {x v z : Part} (h : Closing l n it p x v z q)
    (near : verdictOf l (closedItem (p.fr l).sum it) p.history = some .nearRepeat) (c : CircNo) :
    ∃ p', p'.circ c = p.circ c ∧ v.circ c = (repeatOn n c p').circ c := by
  obtain ⟨p', before, after⟩ := (repeats_each (n := n) x).2 c
  rw [h.decided, if_pos near]
  exact ⟨p', before.trans (h.circ c), after⟩

theorem Closing.far {x v z : Part} (h : Closing l n it p x v z q) {c : CircNo} (far : (∀ e ∈ (p.q c).entries, e.item ≠ n) ∨
    verdictOf l (closedItem (p.fr l).sum it) p.history ≠ some .nearRepeat) : v.circ c = p.circ c := by
  by_cases near : verdictOf l (closedItem (p.fr l).sum it) p.history = some .nearRepeat
  · obtain ⟨p', before, after⟩ := h.near near c
    have absent : ∀ e ∈ (p'.q c).entries, e.item ≠ n := by
      rw [Part.q, before]
      exact far.resolve_right (not_not.mpr near)
    rw [after, repeatOn_absent absent, before]
  · rw [h.decided, if_neg near]
    exact h.circ c

/-- Whether an entry of the item still stands on a circuit. -/
theorem Closing.stands {x v z : Part} (h : Closing l n it p x v z q) {c : CircNo} (notDesk : c ≠ p.orders.desk)
    (single : ((v.q c).held.map (·.item)).Nodup) :
    (∃ e ∈ (q.q c).held, e.item = n) ↔ ∃ e ∈ (v.q c).held, e.item = n := by
  have orders : (examineFree n (commit n it v)).orders = p.orders := by
    have after : OutFrame (commitItem n v) (examineFree n (commit n it v)) :=
      OutMoves.frame ((commit_moves n it v).act (.free n))
    exact after.orders.trans (h.moves.frame.orders.trans (congrArg Part.orders h.judged.frame :))
  have circ : q.circ c = (commit n it v).circ c := by
    have same : q.circ c = z.circ c := by
      rw [h.closes]
      rfl
    rw [same, h.notices, circ_settle_ne (by rwa [orders]), circ_examineFree]
  have perm := items_commit (n := n) (old := it) single
  have mem : ∀ es : List Entry, (∃ e ∈ es, e.item = n) ↔ n ∈ es.map (·.item) := fun es => by simp
  rw [Part.q, circ, mem, mem]
  exact perm.mem_iff

/-- An item that no entry holds is freed with its blocks (R66). -/
theorem Closing.freed {x v z : Part} (h : Closing l n it p x v z q) (settled : p.alarm.owing = []) (source : it.source = some l)
    (holders : it.holders = 0) (absent : ∀ c, ∀ e ∈ (p.q c).held, e.item ≠ n)
    (balanced : ∀ c, (p.load c).backlog = backlogOf (p.q c)) :
    q.items = p.items.filter (fun x => x.num ≠ n) ∧ q.store = {
      freeBlocks := p.store.freeBlocks + it.blocks
      agencyBlocks := p.store.agencyBlocks - it.blocks
      agencyItems := p.store.agencyItems - 1 } := by
  have circ : ∀ c, x.circ c = p.circ c := h.circ
  have absent' : ∀ c, ∀ e ∈ (x.q c).held, e.item ≠ n := fun c => by
    rw [Part.q, circ]
    exact absent c
  have same : v = x := by
    rw [h.decided]
    split
    · exact eachCirc_id fun c => repeatOn_absent fun e member => absent' c e (List.mem_append_right _ member)
    · rfl
  have committed : commit n it v = commitItem n x := by
    rw [same]
    refine commit_unheld absent' fun c => ?_
    rw [Part.load, Part.q, circ]
    exact balanced c
  have found := item?_commitItem h.judged.item
  have items : (commitItem n x).items.filter (fun y => y.num != n) = p.items.filter fun y => y.num ≠ n := by
    have shape : (fun y : Item => y.num != n) = fun y => decide (y.num ≠ n) := funext fun y => by
      by_cases e : y.num = n <;> simp [e]
    rw [shape]
    refine (filter_modItem (p := x) (f := fun y => { y with committed := y.body.length }) fun _ => rfl).trans
      (h.judged.rest.trans ?_)
    exact filter_modItem (p := (unheld l p).modFr l fun fr => { fr with item := none }) fun y => by rw [signLast_eq]
  have store : x.store = p.store := (congrArg Part.store h.judged.frame :)
  have alarm : x.alarm = p.alarm := (congrArg Part.alarm h.judged.frame :)
  have freed : examineFree n (commitItem n x) = { commitItem n x with
      items := (commitItem n x).items.filter fun y => y.num != n
      store := {
        freeBlocks := x.store.freeBlocks + it.blocks
        agencyBlocks := x.store.agencyBlocks - it.blocks
        agencyItems := x.store.agencyItems - 1 } } := by
    have agency : it.source.isSome = true := by rw [source]; rfl
    unfold examineFree
    simp only [found]
    refine (if_pos (by simp [closedItem, signedItem, Item.ended, holders])).trans ?_
    simp only [closedItem, signedItem, agency, if_true]
    rfl
  have done : z = examineFree n (commitItem n x) := by
    rw [h.notices, committed]
    refine settle_of_settled ?_
    rw [freed]
    show x.alarm.owing = []
    rw [alarm, settled]
  rw [h.closes, done, freed, ← items, ← store]
  exact ⟨rfl, rfl⟩

/-- What the verdict leaves of a circuit on which entry `e` of the item is queued. -/
theorem Closing.entry {x v z : Part} (h : Closing l n it p x v z q) {c : CircNo} (single : ((p.q c).held.map (·.item)).Nodup)
    (queued : e ∈ (p.q c).entries) (mine : e.item = n) {near : Prop}
    (is : near ↔ verdictOf l (closedItem (p.fr l).sum it) p.history = some .nearRepeat) :
    (near → (v.circ c).tally.suppressed = (if e.mode = .suppress then bump (p.circ c).tally.suppressed
        else (p.circ c).tally.suppressed) ∧
      (v.circ c).tally.marked = (if e.mode = .mark then bump (p.circ c).tally.marked else (p.circ c).tally.marked)) ∧
    ((v.q c).held.map (·.item)).Nodup ∧ ((∃ x ∈ (v.q c).held, x.item = n) ↔ ¬ (near ∧ e.mode = .suppress)) := by
  have standing : ∃ x ∈ (p.q c).held, x.item = n := ⟨e, List.mem_append_right _ queued, mine⟩
  by_cases repeats : near
  · obtain ⟨p', before, after⟩ := h.near (is.mp repeats) c
    have entry := repeatOn_entry (p := p') (c := c) (e := e) (by rw [Part.q, before]; exact single)
      (by rw [Part.q, before]; exact queued)
    rw [mine] at entry
    simp only [Part.q, before, ← after] at entry
    obtain ⟨suppressed, marked, queue⟩ := entry
    refine ⟨fun _ => ⟨suppressed, marked⟩, ?_⟩
    rw [Part.q, queue]
    by_cases mode : e.mode = .suppress
    · rw [if_pos mode]
      refine ⟨nodup_of_sublist ((without_sublist _ _).append_left _) single, iff_of_false ?_ (not_not.mpr ⟨repeats, mode⟩)⟩
      rintro ⟨x, member, item⟩
      rcases List.mem_append.mp member with current | left
      · rw [Queue.held, List.map_append, List.nodup_append] at single
        exact single.2.2 _ (List.mem_map_of_mem current) _ (List.mem_map_of_mem queued) (item.trans mine.symm)
      · have out := (List.mem_filter.mp left).2
        simp [item] at out
    · rw [if_neg mode]
      exact ⟨single, iff_of_true standing fun both => mode both.2⟩
  · have same : v.circ c = p.circ c := h.far (.inr fun near => repeats (is.mpr near))
    rw [Part.q, same]
    exact ⟨fun near => absurd near repeats, single, iff_of_true standing fun both => repeats both.1⟩

/-- Settles O19. -/
theorem closingSequenceClosesTheItem : Obligations.ClosingSequenceClosesTheItem := by
  refine ⟨fun p l n it c sound ordered counted settled body receiving found completes ne => ?_,
    fun p l n it c sound settled body receiving held found opens closes first last room some' due => ?_⟩
  · intro q signed compared verdict
    obtain ⟨-, source⟩ := received_item sound receiving found
    obtain ⟨x, v, z, closing⟩ := closing_deliver body receiving found source completes ne
    obtain ⟨line, others, banks, orders, history⟩ := closing.frame
    have single : ∀ c, ((p.q c).held.map (·.item)).Nodup := (queuesOrdered_iff.mp ordered).1
    have is : verdictOf l (closedItem (p.fr l).sum it) p.history = verdict := rfl
    refine ⟨congrArg Line.fr line, (congrArg Line.rx line :), (congrArg Line.tally line :), others, banks, orders, history,
      fun after left agency => closing.item left agency, fun c' far => ?_,
      fun c' e queued mine => ⟨fun near => ?_, fun notDesk => ?_⟩,
      fun holders absent => closing.freed settled source holders absent fun c => ?_⟩
    · have kept := closing.repeats c'
      rw [RepeatsKept, closing.far far] at kept
      exact kept
    · obtain ⟨tallies, -⟩ := closing.entry (single c') queued mine Iff.rfl
      have kept := closing.repeats c'
      exact ⟨kept.1.trans (tallies near).1, kept.2.trans (tallies near).2⟩
    · obtain ⟨-, single', stands⟩ := closing.entry (single c') queued mine Iff.rfl
      exact (closing.stands notDesk single').trans stands
    · exact ((backlogsCounted_iff.mp counted).2 c).2
  · have filling : it.state = .filling := (received_item sound receiving found).1
    exact releasing_commits p l n it c ⟨body, receiving, found, filling⟩ held opens closes first last room some' due

end Sys2Proof.Machine
end
